-- ==== Sys2Proof/Word.lean ====
section
/-! DEFINITION. The word types of the Huffman CORE (00_scope.md R8, R9). -/

namespace Sys2Proof

/-- A bus word and most registers: BUS_DATA_BITS, COUNT_BITS and LEN_BITS are 32 (R8). -/
abbrev Word := BitVec 32

/-- A symbol, a stream byte: SYMBOL_BITS = 8 (R8). -/
abbrev Byte := BitVec 8

/-- A byte address of the host address space: BUS_ADDR_BITS = 16 (R8, R44). -/
abbrev Addr := BitVec 16

/-- The code field of a TABLE entry: CODE_FIELD_BITS = 256 (R8, R11). -/
abbrev CodeBits := BitVec 256

/-- A NODE arena index as a register or a child field holds it, 9 bits (R31, R39). -/
abbrev NodeIx := BitVec 9

end Sys2Proof
end

