-- ==== Sys2Proof/Config.lean ====
section
/-! DEFINITION. What an implementation fixes, and the free values of the model (00_scope.md R8, 93_implementation_defined.md). -/

namespace Sys2Proof

/-- NSYM_MAX, the number of distinct symbols (00_scope.md R8). -/
def Config.nsymMax : Nat := 256

/-- NODE_MAX, the number of arena entries (00_scope.md R8). -/
def Config.nodeMax : Nat := 511

/-- MAX_CODE_LEN, the longest code in bits (00_scope.md R8, D11). -/
def Config.maxCodeLen : Nat := 255

/-- HEADER_BYTES (00_scope.md R8, D9). -/
def Config.headerBytes : Nat := 4

/-- The ID register's value (10_state.md R18). -/
def Config.idValue : Word := 0x48554646#32

/-- The VERSION register's value (10_state.md R19). -/
def Config.versionValue : Word := 0x00000001#32

/-- CORE_BASE, where the 64 KiB window lies in a system: a platform parameter that no rule reads
(60_exceptions.md R139, S10). DESIGN CHOICE, safe: log 19. -/
opaque Config.coreBase : Nat

/-- FREE VALUE: what the `k`-th draw of a bus read returns where a rule says "unspecified"
(20_memory.md R46, R48; S1, S2, S6). It has no body: no proof can know it. Log 4. -/
opaque Config.readDraw : Nat → Word

/-- FREE VALUE: the `len` field that the reset with draw number `k` leaves in the TABLE entry of a symbol
(`draw_8` of 70_reset_and_hazards.md R143; S3). Log 5. -/
opaque Config.resetLen : Nat → Nat → BitVec 8

/-- FREE VALUE: the `code` field that the reset with draw number `k` leaves in the TABLE entry of a symbol
(`draw_256` of 70_reset_and_hazards.md R143; S3). Log 5. -/
opaque Config.resetCode : Nat → Nat → CodeBits

end Sys2Proof
end

