-- ==== Sys2Proof/Syntax.lean ====
section
/-! DEFINITION. The command set (30_encoding.md R63, spec/opcode_table.json): one constructor per row. -/

namespace Sys2Proof

/-- The six commands. A command has no operand fields: its operands are implicit (30_encoding.md R62, R65). -/
inductive Instr where
  /-- COUNT, frequency_counter (41_frequency_counter.md R85). -/
  | count
  /-- BUILD, huffman_tree_builder (42_huffman_tree_builder.md R91). -/
  | build
  /-- DERIVE, code_table_deriver (43_code_table_deriver.md R97). -/
  | derive
  /-- CLRTAB, code_table_sram (44_code_table_sram.md R104). -/
  | clrtab
  /-- PACK, bit_packer (45_bit_packer.md R111). -/
  | pack
  /-- UNPACK, bit_unpacker_and_decoder_fsm (46_bit_unpacker_decoder.md R116). -/
  | unpack
  deriving DecidableEq, Repr

/-- The six commands in opcode order. -/
def Instr.all : List Instr := [.count, .build, .derive, .clrtab, .pack, .unpack]

end Sys2Proof
end

