-- ==== Sys2Proof/WellFormed.lean ====
section
/-! DEFINITION. Well-formedness of commands and of command words (30_encoding.md R62, R63, R64). -/

namespace Sys2Proof

/-- A command word of format "CMD", split into its two fields (30_encoding.md R62). -/
structure CommandWord where
  /-- Bits 31:4. -/
  rsv : BitVec 28
  /-- Bits 3:0, the command opcode. -/
  opc : BitVec 4
  deriving DecidableEq, Repr

/-- Check 1: "bits [31:4] are 0" (30_encoding.md R63). -/
def CommandWord.rsvZero (w : CommandWord) : Bool := w.rsv == 0#28

/-- Check 2: OPC is one of 0x1 to 0x6 (30_encoding.md R63, R64). -/
def CommandWord.opcKnown (w : CommandWord) : Bool := 1 ≤ w.opc.toNat && w.opc.toNat ≤ 6

/-- A legal command word: both checks hold (30_encoding.md R63, R64). -/
def CommandWord.wf (w : CommandWord) : Bool := w.rsvZero && w.opcKnown

/-- A command as syntax has no field that could be out of range (30_encoding.md R62: "There are no register,
immediate or mode fields"), so every command is well formed. -/
def Instr.wf : Instr → Bool
  | .count => true
  | .build => true
  | .derive => true
  | .clrtab => true
  | .pack => true
  | .unpack => true

end Sys2Proof
end

