-- ==== Sys2Proof/Decode.lean ====
section
/-! DEFINITION. Decoding and encoding of command words (30_encoding.md R62, R63, R64). -/

namespace Sys2Proof

/-- Why a word is no command: both reasons give ILLEGAL_CMD at acceptance (30_encoding.md R64, 40_command_control.md R75). -/
inductive DecodeError where
  /-- Some bit of [31:4] is 1. -/
  | reservedBits
  /-- Bits [31:4] are 0 and OPC is 0x0 or 0x7..0xF. -/
  | unknownOpcode
  deriving DecidableEq, Repr

/-- The two fields of a word (30_encoding.md R62). -/
def CommandWord.ofWord (w : Word) : CommandWord :=
  { rsv := w.extractLsb' 4 28, opc := w.extractLsb' 0 4 }

/-- The word of two fields, RSV in the more significant bits (30_encoding.md R62). -/
def CommandWord.toWord (c : CommandWord) : Word := c.rsv ++ c.opc

/-- The opcode map (30_encoding.md R63). -/
def opcode : Instr → BitVec 4
  | .count => 0x1#4
  | .build => 0x2#4
  | .derive => 0x3#4
  | .clrtab => 0x4#4
  | .pack => 0x5#4
  | .unpack => 0x6#4

/-- The command of an opcode, none for 0x0 and 0x7..0xF (30_encoding.md R63, R64). -/
def ofOpcode (o : BitVec 4) : Option Instr :=
  match o.toNat with
  | 1 => some .count
  | 2 => some .build
  | 3 => some .derive
  | 4 => some .clrtab
  | 5 => some .pack
  | 6 => some .unpack
  | _ => none

/-- The decoder, total on every 32-bit word: a command, or the reason why there is none (30_encoding.md R63, R64). -/
def decode (w : Word) : Except DecodeError Instr :=
  let c := CommandWord.ofWord w
  if c.rsvZero then
    match ofOpcode c.opc with
    | some i => .ok i
    | none => .error .unknownOpcode
  else .error .reservedBits

/-- The word of a command (30_encoding.md R63). -/
def encode (i : Instr) : Word := CommandWord.toWord { rsv := 0#28, opc := opcode i }

/-- What the decoder reads from a table word of `nbits` bits numbered as the table numbers them. A command word is one
32-bit bus word, a number to which no byte order applies (20_memory.md R53), so bit k of `w` is bit k of CMD; a longer word is none
(30_encoding.md R66: one length). DEDUCED, safe: log 11. -/
def decodeTableWord (nbits w : Nat) : Option Instr :=
  let v := w % 2 ^ nbits
  if v < 2 ^ 32 then
    match decode (BitVec.ofNat 32 v) with
    | .ok i => some i
    | .error _ => none
  else none

end Sys2Proof
end

