-- ==== Sys2Proof/Machine/Entries.lean ====
section
/-! DEFINITION. Operations over the fixed-size entry files FREQ, NODE and TABLE, by way of lists so that the kernel evaluates them. -/

namespace Sys2Proof.Machine

/-- The vector whose entry `i` is `f i`. -/
def vecOf {α : Type} (n : Nat) (f : Nat → α) : Vector α n :=
  ⟨⟨(List.range n).map f⟩, by simp⟩

/-- Every entry through `f`. -/
def vecMap {α : Type} {n : Nat} (f : α → α) (v : Vector α n) : Vector α n :=
  ⟨⟨v.toArray.toList.map f⟩, by simp⟩

/-- The 256 symbols in ascending unsigned order. -/
def symbols : List Byte := (List.range 256).map (BitVec.ofNat 8)

/-- The entry of a symbol in a 256-entry file. -/
def entryOf {α : Type} (v : Vector α 256) (s : Byte) : α := v[s.toNat]'s.isLt

/-- The file with the entry of a symbol replaced. -/
def setEntryOf {α : Type} (v : Vector α 256) (s : Byte) (x : α) : Vector α 256 := v.set s.toNat x s.isLt

end Sys2Proof.Machine
end

