-- ==== Sys2Proof/Machine/State.lean ====
section
/-! DEFINITION. The state of the CORE as plain data (10_state.md R15), the two slots, the model's own host-side fields, and reset. -/

namespace Sys2Proof.Machine

/-- An error code (60_exceptions.md R124). -/
inductive ErrCode where
  | illegalCmd
  | emptyInput
  | noTree
  | notDerived
  | hdrOverflow
  | noCode
  | packLength
  | truncated
  | hdrNegative
  | decodeMismatch
  | ambiguousCode
  deriving DecidableEq, Repr

/-- An entry of the NODE arena (10_state.md R39). `unspecified` is the spec's own third kind: what an entry holds after reset
until BUILD writes it (R15, R143). Log 6. -/
inductive Node where
  | leaf (sym : Byte) (f : Word)
  | internal (f : Word) (left right : NodeIx)
  | unspecified
  deriving DecidableEq, Repr

/-- An entry of the TABLE (10_state.md R40). -/
structure Entry where
  valid : Bool
  len : BitVec 8
  code : CodeBits
  deriving DecidableEq, Repr

/-- Where a running COUNT stands (41_frequency_counter.md R85; `cont` of 10_state.md R17). -/
inductive CountCont where
  /-- Before the first statement. -/
  | start
  /-- Just after an `InByte` that returned `b`, with `left` iterations of the loop still to come after this one. -/
  | got (b : Byte) (left : Nat)
  deriving DecidableEq, Repr

/-- Where a running PACK stands (45_bit_packer.md R111). -/
inductive PackCont where
  /-- Before the first statement. -/
  | start
  /-- Just after the `OutByte` of header byte `k - 1`: `k` header bytes are out. -/
  | hdr (k : Nat)
  /-- Just after an `InByte` that returned `b`, with `left` input bytes still to come after it. -/
  | got (b : Byte) (left : Nat)
  /-- Just after the `OutByte` of a full `acc`, with the code bits `j - 1 .. 0` of `b` still to append. -/
  | bits (b : Byte) (j : Nat) (left : Nat)
  /-- Just after the `OutByte` of the padded last byte. -/
  | tail
  deriving DecidableEq, Repr

/-- Where a running UNPACK stands (46_bit_unpacker_decoder.md R116, R123). -/
inductive UnpackCont where
  /-- Before the first statement (CHK_LEN). -/
  | start
  /-- Just after the `InByte` of h0. -/
  | got0 (h0 : Byte)
  /-- Just after the `InByte` of h1. -/
  | got1 (h0 h1 : Byte)
  /-- Just after the `InByte` of h2. -/
  | got2 (h0 h1 h2 : Byte)
  /-- Just after the `InByte` of h3 (CHK_HDR). -/
  | got3 (h0 h1 h2 h3 : Byte)
  /-- Just after the `InByte` of a data byte, with `left` data bytes still to come after it (BYTE). -/
  | gotData (b : Byte) (left : Nat)
  /-- Just after the `OutByte` of a symbol, with the bits `k - 1 .. 0` of the data byte still to read (EMIT). -/
  | emitted (b : Byte) (k : Nat) (left : Nat)
  /-- Just after the `InByte` of a trailing byte, with `left` trailing bytes still to come after it (TAIL). -/
  | gotTail (left : Nat)
  deriving DecidableEq, Repr

/-- A running command with its continuation: `BUSY(opc, cont)` of 10_state.md R17. The opcode is computed from it
(`Running.instr`). Log 12. -/
inductive Running where
  | count (c : CountCont)
  | build
  | derive
  | clrtab
  | pack (c : PackCont)
  | unpack (c : UnpackCont)
  deriving DecidableEq, Repr

/-- The control state (10_state.md R17). -/
inductive Mode where
  | idle
  | busy (r : Running)
  deriving DecidableEq, Repr

/-- What the HOST may present at a clock edge with `rst_n` = 0 (70_reset_and_hazards.md R145). -/
inductive Presented where
  | nothing
  | read (a : Addr)
  | write (a : Addr) (v : Word)
  | offer (b : Byte)
  | take
  deriving DecidableEq, Repr

/-- A HOST step (40_command_control.md R74). -/
inductive HostOp where
  /-- `MemRead(a, 4)` (20_memory.md R46). -/
  | read (a : Addr)
  /-- `MemWrite(a, 4, v)` (20_memory.md R47). -/
  | write (a : Addr) (v : Word)
  /-- Offer byte `b` on the input stream. -/
  | offer (b : Byte)
  /-- Take the byte in the output slot. -/
  | take
  /-- A clock edge with `rst_n` = 0, at which the HOST presents `p` (70_reset_and_hazards.md R143, R145). -/
  | reset (p : Presented)
  deriving DecidableEq, Repr

/-- One entry of the schedule: whose step comes next. Log 1. -/
inductive Turn where
  /-- The CORE takes a step if one is enabled. -/
  | core
  /-- The HOST takes this step as soon as it is enabled. -/
  | host (op : HostOp)
  /-- The script's `XFER`, a HOST that offers `ins` in order and takes every output byte until it reads DONE = 1
  (30_encoding.md R72). Log 17. -/
  | xfer (ins : List Byte)
  deriving DecidableEq, Repr

/-- The state of the machine: the record of 10_state.md R15, every hidden register of R41, and the model's own four fields. -/
structure State where
  /-- CTRL.IRQ_EN (R20). -/
  irqEn : Bool
  /-- `mode` (R17). -/
  mode : Mode
  /-- STATUS.DONE (R22). -/
  done : Bool
  /-- STATUS.REJ (R22). -/
  rej : Bool
  /-- STATUS.TREE_VALID (R22). -/
  treeValid : Bool
  /-- STATUS.HDR_VALID (R22, R36). -/
  hdrValid : Bool
  /-- STATUS.OPC (R22). -/
  opc : BitVec 4
  /-- ERRCODE (R23). -/
  errcode : BitVec 8
  /-- ERRINFO (R24). -/
  errinfo : Word
  /-- LEN (R25). -/
  len : Word
  /-- `lenL`, LEN latched at acceptance (R41). -/
  lenL : Word
  /-- IN_COUNT (R26). -/
  inCount : Word
  /-- OUT_COUNT (R27). -/
  outCount : Word
  /-- NSYM (R28). -/
  nsym : BitVec 9
  /-- TOTAL (R29). -/
  total : Word
  /-- NNODES (R30). -/
  nnodes : BitVec 10
  /-- ROOT (R31). -/
  root : NodeIx
  /-- MAXLEN (R32). -/
  maxlen : BitVec 8
  /-- EXPBITS (R33). -/
  expbits : BitVec 40
  /-- BITCOUNT (R34). -/
  bitcount : Word
  /-- BITPOS (R35). -/
  bitpos : Word
  /-- FREQ (R38). -/
  freq : Vector Word 256
  /-- NODE (R39). -/
  node : Vector Node 511
  /-- TABLE (R40). -/
  tbl : Vector Entry 256
  /-- `in_slot` (20_memory.md R50). -/
  inSlot : Option Byte
  /-- `out_slot` (20_memory.md R50). -/
  outSlot : Option Byte
  /-- `Q` of BUILD (R41). -/
  q : List Nat
  /-- `acc` of PACK (R41). -/
  acc : BitVec 8
  /-- `nacc` of PACK (R41). -/
  nacc : BitVec 4
  /-- `nb` of PACK (R41). -/
  nb : BitVec 40
  /-- `n` of UNPACK (R41). -/
  n : Word
  /-- `nbytes` of UNPACK (R41). -/
  nbytes : BitVec 29
  /-- `cand` of UNPACK (R41). -/
  cand : CodeBits
  /-- `clen` of UNPACK (R41). -/
  clen : BitVec 8
  /-- `t` of UNPACK (R41). -/
  t : Word
  /-- The model's own: how many draws have been made. Log 4. -/
  draws : Nat
  /-- The model's own: whose step comes next. Log 1. -/
  schedule : List Turn
  /-- The model's own: what the HOST's bus reads returned, oldest first. Log 8. -/
  reads : List Word
  /-- The model's own: the bytes the HOST took from the output stream, oldest first. Log 8. -/
  taken : List Byte
  deriving DecidableEq, Repr

/-- Why the machine stops. The spec names no stop at all (20_memory.md R45, 60_exceptions.md R135). -/
inductive Fault where
  /-- Raised by DERIVE alone, when TREE_VALID = 1 and the walk from ROOT meets an entry BUILD did not write or a path of more
  than 255 internal nodes: the arena is no tree, the pseudocode of 43_code_table_deriver.md R97 gives no result, and no run reaches
  such a state (42_huffman_tree_builder.md R93, R95). Safe: the model stops and nothing is claimed. Log 9. -/
  | arenaNotATree
  deriving DecidableEq, Repr

/-- Why an instruction has no meaning. -/
inductive Refusal where
  /-- Raised by an arm of `exec` whose instruction is not modelled. No arm raises it: every command has its meaning. Safe. -/
  | notModelled (mnemonic : String)
  deriving DecidableEq, Repr

/-- The TABLE as the reset with draw number `k` leaves it: every `valid` 0, `len` and `code` drawn
(70_reset_and_hazards.md R143). Log 5. -/
def resetTable (k : Nat) : Vector Entry 256 :=
  vecOf 256 fun s => { valid := false, len := Config.resetLen k s, code := Config.resetCode k s }

/-- The machine right after reset (10_state.md R42, 70_reset_and_hazards.md R143), with nothing scheduled. The values the spec does not
give: logs 5, 6, 7, 8. -/
def State.reset : State where
  irqEn := false
  mode := .idle
  done := false
  rej := false
  treeValid := false
  hdrValid := false
  opc := 0#4
  errcode := 0#8
  errinfo := 0#32
  len := 0#32
  lenL := 0#32
  inCount := 0#32
  outCount := 0#32
  nsym := 0#9
  total := 0#32
  nnodes := 0#10
  root := 0#9
  maxlen := 0#8
  expbits := 0#40
  bitcount := 0#32
  bitpos := 0#32
  freq := Vector.replicate 256 0#32
  node := Vector.replicate 511 .unspecified
  tbl := resetTable 0
  inSlot := none
  outSlot := none
  q := []
  acc := 0#8
  nacc := 0#4
  nb := 0#40
  n := 0#32
  nbytes := 0#29
  cand := 0#256
  clen := 0#8
  t := 0#32
  draws := 1
  schedule := []
  reads := []
  taken := []

end Sys2Proof.Machine
end

