-- ==== Sys2Proof/Machine/Flags.lean ====
section
/-! DEFINITION. The STATUS flags, computed and stored, the interrupt line, and the writes that clear flags (10_state.md R22, R37; 60_exceptions.md R127). -/

namespace Sys2Proof.Machine

/-- STATUS.BUSY: 1 while a command runs (10_state.md R22). -/
def State.busy (s : State) : Bool :=
  match s.mode with
  | .idle => false
  | .busy _ => true

/-- STATUS.ERR "equals (ERRCODE != 0) at all times" (10_state.md R22). -/
def State.err (s : State) : Bool := s.errcode != 0#8

/-- The interrupt output: IRQ_EN and DONE, at every point (60_exceptions.md R127). -/
def State.irq (s : State) : Bool := s.irqEn && s.done

/-- A flag in bit `k` of a word. -/
def flagBit (k : Nat) (b : Bool) : Word := if b then BitVec.twoPow 32 k else 0#32

/-- The STATUS word with TREE_VALID and HDR_VALID reading as `tv` and `hv` (10_state.md R22): bit 0 BUSY, 1 DONE, 2 ERR, 3 REJ,
4 TREE_VALID, 5 HDR_VALID, 11:8 OPC, the rest 0. -/
def statusWord (s : State) (tv hv : Bool) : Word :=
  flagBit 0 s.busy ||| flagBit 1 s.done ||| flagBit 2 s.err ||| flagBit 3 s.rej ||| flagBit 4 tv ||| flagBit 5 hv
    ||| (s.opc.setWidth 32 <<< 8)

/-- A write of `v` to STATUS: clears DONE when v[1] = 1 and REJ when v[3] = 1, nothing else; accepted while BUSY too
(10_state.md R22). It is also the host's return from a failure, the `ACK` of 30_encoding.md R72 (60_exceptions.md R128, R131). -/
def writeStatus (v : Word) (s : State) : State :=
  { s with done := s.done && !v.getLsbD 1, rej := s.rej && !v.getLsbD 3 }

/-- STATUS.REJ <- 1 and nothing else: a write rejected because BUSY = 1 (40_command_control.md R76, 60_exceptions.md R133). -/
def rejectWrite (s : State) : State := { s with rej := true }

end Sys2Proof.Machine
end

