-- ==== Sys2Proof/Machine/Ops.lean ====
section
/-! DEFINITION. The operations every command shares: acceptance, the observable points, completion, failure, reset, draws (40_command_control.md, 60_exceptions.md, 70_reset_and_hazards.md). -/

namespace Sys2Proof.Machine

/-- The command a continuation belongs to (10_state.md R17). -/
def Running.instr : Running → Instr
  | .count _ => .count
  | .build => .build
  | .derive => .derive
  | .clrtab => .clrtab
  | .pack _ => .pack
  | .unpack _ => .unpack

/-- The first statement of a command's program (10_state.md R17, 40_command_control.md R75). -/
def Running.start : Instr → Running
  | .count => .count .start
  | .build => .build
  | .derive => .derive
  | .clrtab => .clrtab
  | .pack => .pack .start
  | .unpack => .unpack .start

/-- ERRCODE of an error (60_exceptions.md R124). -/
def ErrCode.code : ErrCode → BitVec 8
  | .illegalCmd => 0x01#8
  | .emptyInput => 0x02#8
  | .noTree => 0x03#8
  | .notDerived => 0x04#8
  | .hdrOverflow => 0x05#8
  | .noCode => 0x06#8
  | .packLength => 0x07#8
  | .truncated => 0x08#8
  | .hdrNegative => 0x09#8
  | .decodeMismatch => 0x0A#8
  | .ambiguousCode => 0x0B#8

/-- What every CMD write of a word `w` that is not rejected does first (40_command_control.md R75): clears DONE, ERRCODE, ERRINFO and the
progress registers, and records OPC. -/
def beginCommand (w : Word) (s : State) : State :=
  { s with
    done := false, errcode := 0#8, errinfo := 0#32, opc := w.extractLsb' 0 4,
    inCount := 0#32, outCount := 0#32, bitcount := 0#32, bitpos := 0#32 }

/-- The acceptance of a command: latches LEN and makes the CORE BUSY at the start of the command's program (40_command_control.md R75). -/
def acceptCommand (i : Instr) (s : State) : State :=
  { beginCommand (encode i) s with lenL := s.len, mode := .busy (Running.start i) }

/-- The CMD write of an illegal word: a command that fails at acceptance, `mode` staying IDLE (40_command_control.md R75, 30_encoding.md R64). -/
def acceptIllegal (w : Word) (s : State) : State :=
  { beginCommand w s with errcode := ErrCode.illegalCmd.code, errinfo := w, done := true }

/-- A command issued to a CORE that is not running it: accepted while IDLE (R75), rejected while BUSY (40_command_control.md R76). -/
def issueCommand (i : Instr) (s : State) : State :=
  match s.mode with
  | .idle => acceptCommand i s
  | .busy _ => rejectWrite s

/-- `Complete()`: `mode` <- IDLE, DONE <- 1, ERRCODE stays 0 (40_command_control.md R80). What the hidden working registers then hold is
unspecified (10_state.md R41); that they keep their last values is a DESIGN CHOICE (log 23). -/
def completeCommand (s : State) : State := { s with mode := .idle, done := true }

/-- TAKING AN EXCEPTION. `Fail(code, info)`: ERRCODE and ERRINFO record it, `mode` <- IDLE, DONE <- 1; nothing else is saved or changed and
control goes nowhere (40_command_control.md R81, 60_exceptions.md R129). R129 calls the hidden working registers lost; that they keep their last
values is a DESIGN CHOICE (log 23). The return from it is the host's: `writeStatus` (ACK) or `beginCommand`
(60_exceptions.md R131). -/
def failCommand (e : ErrCode) (info : Word) (s : State) : State :=
  { s with errcode := e.code, errinfo := info, mode := .idle, done := true }

/-- An observable point of a command's program (40_command_control.md R77), with what comes just after it. -/
inductive Point where
  /-- `InByte()`; the byte it returns gives the continuation. -/
  | inByte (k : Byte → Running)
  /-- `OutByte(b)`. -/
  | outByte (b : Byte) (k : Running)
  /-- `Complete()`. -/
  | complete
  /-- `Fail(e, info)`. -/
  | fail (e : ErrCode) (info : Word)

/-- When a point is enabled (40_command_control.md R77): `InByte` with a byte in `in_slot`, every other point with `out_slot` empty. -/
def Point.enabled (s : State) : Point → Bool
  | .inByte _ => s.inSlot.isSome
  | .outByte _ _ => s.outSlot.isNone
  | .complete => s.outSlot.isNone
  | .fail _ _ => s.outSlot.isNone

/-- `InByte()` returning `b` (40_command_control.md R78). -/
def takeInput (k : Running) (s : State) : State :=
  { s with inSlot := none, inCount := s.inCount + 1#32, mode := .busy k }

/-- `OutByte(b)`; OUT_COUNT wraps modulo 2^32 (40_command_control.md R79, 10_state.md R27). -/
def putOutput (b : Byte) (k : Running) (s : State) : State :=
  { s with outSlot := some b, outCount := s.outCount + 1#32, mode := .busy k }

/-- What a point does, once enabled (40_command_control.md R78, R79, R80, R81). -/
def Point.perform (s : State) : Point → State
  | .inByte k =>
    match s.inSlot with
    | some b => takeInput (k b) s
    | none => s
  | .outByte b k => putOutput b k s
  | .complete => completeCommand s
  | .fail e info => failCommand e info s

/-- One CORE step (40_command_control.md R77). `r` is the state the statements from `cont` up to the next observable point leave, with that
point, or none where the program reaches no point (log 9). Where the point is not enabled the step is not enabled: the CORE waits and
nothing has happened (R83; log 2). -/
def coreStep (s : State) (r : Option (State × Point)) : Host.Outcome State Fault Refusal :=
  match r with
  | none => .fault .arenaNotATree
  | some (s', p) => .next (if p.enabled s then p.perform s' else s)

/-- Every `valid` bit of a TABLE cleared, `len` and `code` kept (43_code_table_deriver.md R97, 44_code_table_sram.md R104). -/
def invalidateAll (v : Vector Entry 256) : Vector Entry 256 := vecMap (fun e => { e with valid := false }) v

/-- RESET, the one step of 70_reset_and_hazards.md R143. `in_slot` and the host's side are not changed, nor are the hidden registers, which
no rule reads before they are written (10_state.md R42; log 7). Each reset draws the TABLE's `len` and `code` afresh (log 5). -/
def resetCore (s : State) : State :=
  { s with
    mode := .idle
    irqEn := false
    done := false, rej := false, treeValid := false, hdrValid := false, opc := 0#4
    errcode := 0#8, errinfo := 0#32, len := 0#32, inCount := 0#32, outCount := 0#32
    nsym := 0#9, total := 0#32, nnodes := 0#10, root := 0#9, maxlen := 0#8
    expbits := 0#40, bitcount := 0#32, bitpos := 0#32
    freq := Vector.replicate 256 0#32
    tbl := resetTable s.draws
    node := Vector.replicate 511 .unspecified
    outSlot := none
    draws := s.draws + 1 }

/-- The HOST receives a read value; the draw a read may use is spent (20_memory.md R46: a read changes no state of the CORE; log 4). -/
def deliverRead (w : Word) (s : State) : State := { s with reads := s.reads ++ [w], draws := s.draws + 1 }

end Sys2Proof.Machine
end

