-- ==== Sys2Proof/Machine/Operands.lean ====
section
/-! DEFINITION. Operand forms: the artifact header, codes, the TABLE lookups and match, the window encodings, and the data functions of the packed format (30_encoding.md R65 to R70, 44_code_table_sram.md R105 to R109, 45_bit_packer.md R110, 46_bit_unpacker_decoder.md R121). -/

namespace Sys2Proof.Machine

/-! ### The artifact header (30_encoding.md R67, R65) -/

/-- Header byte `k` of the 40-bit count H: `H[8k+7 : 8k]` (45_bit_packer.md R111). -/
def headerByte (h : BitVec 40) (k : Nat) : Byte := h.extractLsb' (8 * k) 8

/-- `h3 : h2 : h1 : h0`, little-endian (46_bit_unpacker_decoder.md R117). -/
def headerWord (h0 h1 h2 h3 : Byte) : Word := h3 ++ h2 ++ h1 ++ h0

/-- `ceil_div(n, 8)` (00_scope.md R10). -/
def ceilDiv8 (n : Nat) : Nat := (n + 7) / 8

/-! ### TABLE entries as operands (44_code_table_sram.md R108, R109) -/

/-- `tbl[s]`. -/
def State.entry (s : State) (b : Byte) : Entry := entryOf s.tbl b

/-- An entry PACK can use: valid, with a length of at least 1 (44_code_table_sram.md R108). -/
def Entry.usable (e : Entry) : Bool := e.valid && e.len != 0#8

/-- The bit string of an entry, first bit first: `code[len-1], ..., code[0]` (44_code_table_sram.md R108, 00_scope.md R11). -/
def Entry.bits (e : Entry) : List Bool := ((List.range e.len.toNat).map e.code.getLsbD).reverse

/-- An entry matches a candidate of length `l` and value `c`: valid, `len` = l, and the low `l` bits agree (44_code_table_sram.md R109). -/
def Entry.matchesCode (e : Entry) (l : BitVec 8) (c : CodeBits) : Bool :=
  e.valid && (e.len == l && e.code.toNat % 2 ^ l.toNat == c.toNat % 2 ^ l.toNat)

/-- `Match(L, c)`: the symbols whose entry matches, in ascending order (44_code_table_sram.md R109). -/
def matchSet (tbl : Vector Entry 256) (l : BitVec 8) (c : CodeBits) : List Byte :=
  symbols.filter fun s => (entryOf tbl s).matchesCode l c

/-! ### Appending bits -/

/-- Append a bit to a candidate: `(cand << 1) | x` (00_scope.md R11). -/
def pushCode (c : CodeBits) (x : Bool) : CodeBits := (c <<< 1) ||| (BitVec.ofBool x).setWidth 256

/-- Append a bit to the packer's byte: `((acc << 1) | x)[7:0]` (45_bit_packer.md R111). -/
def pushByte (a : Byte) (x : Bool) : Byte := (a <<< 1) ||| (BitVec.ofBool x).setWidth 8

/-! ### The NODE arena as operand and as window words (30_encoding.md R70) -/

/-- `node[i]`; an index past the arena holds nothing. -/
def nodeAt (v : Vector Node 511) (i : Nat) : Node := if h : i < 511 then v[i] else .unspecified

/-- The frequency of a node. BUILD reads it of nodes it has written only. -/
def Node.freq : Node → Word
  | .leaf _ f => f
  | .internal f _ _ => f
  | .unspecified => 0#32

/-- The two words of a node: B + 0 (`second` = false) and B + 4 (30_encoding.md R70). `unspecified` is never read this way: the bus draws
for it (20_memory.md R46). -/
def Node.word (second : Bool) : Node → Option Word
  | .leaf sym f => some (if second then sym.setWidth 32 else f)
  | .internal f l r => some (if second then 1#1 ++ 0#6 ++ l ++ 0#7 ++ r else f)
  | .unspecified => none

/-! ### The TABLE window's words (30_encoding.md R69, 44_code_table_sram.md R105, R106) -/

/-- `code[32k+31 : 32k]`. -/
def codeWord (c : CodeBits) (k : Nat) : Word := c.extractLsb' (32 * k) 32

/-- `code[32k+31 : 32k] <- v`, the other bits kept. -/
def setCodeWord (c : CodeBits) (k : Nat) (v : Word) : CodeBits :=
  (c &&& ~~~((0xFFFFFFFF#256) <<< (32 * k))) ||| (v.setWidth 256 <<< (32 * k))

/-- TABLE word `w` of an entry as the HOST reads it (44_code_table_sram.md R106). -/
def Entry.word (e : Entry) (w : Nat) : Word :=
  if w = 0 then flagBit 31 e.valid ||| e.len.setWidth 32
  else if w ≤ 8 then codeWord e.code (w - 1)
  else 0#32

/-- TABLE word `w` of an entry written with `v` (44_code_table_sram.md R105). -/
def Entry.setWord (e : Entry) (w : Nat) (v : Word) : Entry :=
  if w = 0 then { e with valid := v.getLsbD 31, len := v.extractLsb' 0 8 }
  else if w ≤ 8 then { e with code := setCodeWord e.code (w - 1) v }
  else e

/-! ### The packed format as functions of data (45_bit_packer.md R110, 46_bit_unpacker_decoder.md R121) -/

/-- `Bits(S)`: the concatenation of the bit strings of the symbols' entries (45_bit_packer.md R110). -/
def bitsOf (tbl : Vector Entry 256) (bytes : List Byte) : List Bool := bytes.flatMap fun b => (entryOf tbl b).bits

/-- `nbits(S)` (45_bit_packer.md R110). -/
def nbitsOf (tbl : Vector Entry 256) (bytes : List Byte) : Nat := (bytes.map fun b => (entryOf tbl b).len.toNat).sum

/-- A byte from up to 8 bits, most significant first, the unused low bits zero (45_bit_packer.md R110, 30_encoding.md R67). -/
def byteOfBits (bits : List Bool) : Byte := (bits.foldl pushByte 0#8) <<< (8 - bits.length)

/-- `PackBytes(B)`: bit j of B is bit 7 - (j mod 8) of byte floor(j / 8), padding zero (45_bit_packer.md R110). -/
def packBytes : List Bool → List Byte
  | b0 :: b1 :: b2 :: b3 :: b4 :: b5 :: b6 :: b7 :: rest => byteOfBits [b0, b1, b2, b3, b4, b5, b6, b7] :: packBytes rest
  | [] => []
  | last => [byteOfBits last]

/-- The bits of a byte, most significant first (20_memory.md R53). -/
def bitsOfByte (b : Byte) : List Bool := ((List.range 8).map b.getLsbD).reverse

/-- What `Decode(T, B)` yields (46_bit_unpacker_decoder.md R121): the symbols emitted, and the first failure with `t`, if there is one. -/
structure Decoded where
  out : List Byte
  err : Option (ErrCode × Nat)
  deriving DecidableEq, Repr

/-- `Decode` from a candidate of `clen` bits with `t` counted bits consumed (46_bit_unpacker_decoder.md R118, R121). -/
def decodeFrom (tbl : Vector Entry 256) (clen : BitVec 8) (cand : CodeBits) (t : Nat) : List Bool → Decoded
  | [] => { out := [], err := if clen = 0#8 then none else some (.decodeMismatch, t) }
  | x :: rest =>
    let c := pushCode cand x
    let l := clen + 1#8
    match matchSet tbl l c with
    | [] => if l = 255#8 then { out := [], err := some (.decodeMismatch, t + 1) } else decodeFrom tbl l c (t + 1) rest
    | [s] =>
      let d := decodeFrom tbl 0#8 0#256 (t + 1) rest
      { d with out := s :: d.out }
    | _ => { out := [], err := some (.ambiguousCode, t + 1) }

/-- `Decode(T, B)` (46_bit_unpacker_decoder.md R121). -/
def decodeBits (tbl : Vector Entry 256) (bits : List Bool) : Decoded := decodeFrom tbl 0#8 0#256 0 bits

end Sys2Proof.Machine
end

