-- ==== Sys2Proof/Machine/FrequencyCounter.lean ====
section
/-! DEFINITION. frequency_counter: COUNT (41_frequency_counter.md R85). -/

namespace Sys2Proof.Machine

/-- `freq[s]`. -/
def State.freqOf (s : State) (b : Byte) : Word := entryOf s.freq b

/-- The statements of COUNT before its loop: a fresh FREQ, and every trace of an earlier tree cleared (R85; 92_eei_decisions.md D36). -/
def countClear (s : State) : State :=
  { s with
    freq := Vector.replicate 256 0#32, nsym := 0#9, total := 0#32
    treeValid := false, hdrValid := false, nnodes := 0#10, root := 0#9 }

/-- The statements of one iteration after its `InByte` returned `b` (R85). -/
def countByte (b : Byte) (s : State) : State :=
  { s with
    nsym := if s.freqOf b = 0#32 then s.nsym + 1#9 else s.nsym
    freq := setEntryOf s.freq b (s.freqOf b + 1#32)
    total := s.total + 1#32 }

/-- The head of `repeat lenL times` with `left` iterations to come (R85). -/
def countLoop (left : Nat) (s : State) : State × Point :=
  match left with
  | 0 => (s, .complete)
  | k + 1 => (s, .inByte fun b => .count (.got b k))

/-- The program of COUNT from `c` to its next observable point (R85, 40_command_control.md R77). -/
def countProgram (c : CountCont) (s : State) : State × Point :=
  match c with
  | .start => countLoop s.lenL.toNat (countClear s)
  | .got b left => countLoop left (countByte b s)

/-- COUNT (R85): its next CORE step while it runs; else its acceptance, or its rejection by a CORE that is BUSY with another command (log 16). -/
def execCount (s : State) : Host.Outcome State Fault Refusal :=
  match s.mode with
  | .busy (.count c) => coreStep s (some (countProgram c s))
  | _ => .next (issueCommand .count s)

end Sys2Proof.Machine
end

