-- ==== Sys2Proof/Machine/HuffmanTreeBuilder.lean ====
section
/-! DEFINITION. huffman_tree_builder: BUILD (42_huffman_tree_builder.md R89 to R92). -/

namespace Sys2Proof.Machine

/-- BUILD's working values: the arena, Q in insertion order, and the next free index n (R91). -/
structure Builder where
  node : Vector Node 511
  q : List Nat
  n : Nat
  deriving DecidableEq, Repr

/-- Node i precedes node j: by frequency, then by arena index (R89). -/
def precedes (v : Vector Node 511) (i j : Nat) : Bool :=
  (nodeAt v i).freq.toNat < (nodeAt v j).freq.toNat ||
    ((nodeAt v i).freq.toNat == (nodeAt v j).freq.toNat && i < j)

/-- The index that precedes every other of `m :: q` (R89). -/
def minIndex (v : Vector Node 511) (m : Nat) (q : List Nat) : Nat :=
  q.foldl (fun best i => if precedes v i best then i else best) m

/-- `ExtractMin(Q)`: the first index of Q in the order of R89, and Q without it. -/
def extractMin (v : Vector Node 511) : List Nat → Option (Nat × List Nat)
  | [] => none
  | m :: q => some (minIndex v m q, (m :: q).erase (minIndex v m q))

/-- `node[n] <- x; Q <- Q + {n}; n <- n + 1` (R91, R90). -/
def Builder.add (b : Builder) (x : Node) : Builder :=
  { node := b.node.setIfInBounds b.n x, q := b.q ++ [b.n], n := b.n + 1 }

/-- The symbols with a nonzero count, in ascending order (R90). -/
def countedSymbols (freq : Vector Word 256) : List Byte := symbols.filter fun s => entryOf freq s != 0#32

/-- The leaves: one per counted symbol, in ascending symbol order, over the arena as it stands (R90, R91). -/
def addLeaves (freq : Vector Word 256) (node : Vector Node 511) : Builder :=
  (countedSymbols freq).foldl (fun b s => b.add (.leaf s (entryOf freq s))) { node := node, q := [], n := 0 }

/-- One iteration of the merge loop: the left extraction, the right extraction, the new internal node; none when |Q| <= 1 (R91). -/
def Builder.merge (b : Builder) : Option Builder :=
  match extractMin b.node b.q with
  | none => none
  | some (l, q1) =>
    match extractMin b.node q1 with
    | none => none
    | some (r, q2) =>
      some ({ b with q := q2 }.add
        (.internal ((nodeAt b.node l).freq + (nodeAt b.node r).freq) (BitVec.ofNat 9 l) (BitVec.ofNat 9 r)))

/-- `while |Q| > 1` (R91). `fuel` bounds the iterations: each takes one index out of Q, so |Q| of them are enough. -/
def mergeAll : Nat → Builder → Builder
  | 0, b => b
  | fuel + 1, b =>
    match b.merge with
    | none => b
    | some b' => mergeAll fuel b'

/-- The arena of a FREQ, over the arena as it stands (R91). -/
def buildTree (freq : Vector Word 256) (node : Vector Node 511) : Builder :=
  let b := addLeaves freq node
  mergeAll b.q.length b

/-- The statements of BUILD before its check (R91). -/
def buildClear (s : State) : State :=
  { s with treeValid := false, hdrValid := false, nnodes := 0#10, root := 0#9 }

/-- The state writes of a BUILD that passes its check (R91). -/
def buildWrite (s : State) : State :=
  let b := buildTree s.freq s.node
  { buildClear s with
    node := b.node, q := b.q
    root := BitVec.ofNat 9 (b.q.headD 0), nnodes := BitVec.ofNat 10 b.n, treeValid := true }

/-- The program of BUILD, one CORE step from its start to its end (R91). -/
def buildProgram (s : State) : State × Point :=
  if countedSymbols s.freq = [] then (buildClear s, .fail .emptyInput 0#32)
  else (buildWrite s, .complete)

/-- BUILD (R91): its CORE step while it runs; else its acceptance, or its rejection by a CORE that is BUSY with another command (log 16). -/
def execBuild (s : State) : Host.Outcome State Fault Refusal :=
  match s.mode with
  | .busy .build => coreStep s (some (buildProgram s))
  | _ => .next (issueCommand .build s)

end Sys2Proof.Machine
end

