-- ==== Sys2Proof/Machine/CodeTableDeriver.lean ====
section
/-! DEFINITION. code_table_deriver: DERIVE (43_code_table_deriver.md R97, R98). -/

namespace Sys2Proof.Machine

/-- DERIVE's working values: the TABLE, H and M (R97). H and M are exact; the registers take them at the end (00_scope.md R10). -/
structure Derived where
  tbl : Vector Entry 256
  h : Nat
  m : Nat
  deriving DecidableEq, Repr

/-- `SetEntry(s, l, c)`, then `H <- H + f * l` and `M <- max(M, l)` (R97). -/
def Derived.leaf (d : Derived) (sym : Byte) (f : Word) (l : Nat) (c : CodeBits) : Derived :=
  { tbl := setEntryOf d.tbl sym { valid := true, len := BitVec.ofNat 8 l, code := c }
    h := d.h + f.toNat * l
    m := max d.m l }

/-- `Visit(i, p, depth)` (R97). `fuel` is how many internal nodes the path may still pass: a path has at most 255
(42_huffman_tree_builder.md R95); none where that is not enough or the walk meets an entry that is no node (log 9). -/
def visit (v : Vector Node 511) : Nat → Nat → CodeBits → Nat → Derived → Option Derived
  | fuel, i, p, depth, d =>
    match nodeAt v i with
    | .leaf sym f => some (d.leaf sym f depth p)
    | .unspecified => none
    | .internal _ left right =>
      match fuel with
      | 0 => none
      | k + 1 =>
        match visit v k left.toNat (pushCode p false) (depth + 1) d with
        | none => none
        | some d' => visit v k right.toNat (pushCode p true) (depth + 1) d'

/-- The codes of the tree at `root`, over a TABLE: one symbol gets the code "0" (R98), else the walk (R97). -/
def deriveCodes (v : Vector Node 511) (root : Nat) (tbl : Vector Entry 256) : Option Derived :=
  match nodeAt v root with
  | .leaf sym f => some (({ tbl := tbl, h := 0, m := 0 } : Derived).leaf sym f 1 0#256)
  | _ => visit v Config.maxCodeLen root 0#256 0 { tbl := tbl, h := 0, m := 0 }

/-- The state writes of a DERIVE whose walk gave `d` (R97). -/
def deriveWrite (d : Derived) (s : State) : State :=
  { s with tbl := d.tbl, expbits := BitVec.ofNat 40 d.h, maxlen := BitVec.ofNat 8 d.m, hdrValid := true }

/-- The program of DERIVE, one CORE step from its start to its end (R97). The NO_TREE check comes before any write. -/
def deriveProgram (s : State) : Option (State × Point) :=
  if s.treeValid then
    match deriveCodes s.node s.root.toNat (invalidateAll s.tbl) with
    | none => none
    | some d => some (deriveWrite d s, .complete)
  else some (s, .fail .noTree 0#32)

/-- DERIVE (R97): its CORE step while it runs; else its acceptance, or its rejection by a CORE that is BUSY with another command (log 16). -/
def execDerive (s : State) : Host.Outcome State Fault Refusal :=
  match s.mode with
  | .busy .derive => coreStep s (deriveProgram s)
  | _ => .next (issueCommand .derive s)

end Sys2Proof.Machine
end

