-- ==== Sys2Proof/Machine/CodeTableSram.lean ====
section
/-! DEFINITION. code_table_sram: CLRTAB and the HOST's writes of TABLE words (44_code_table_sram.md R104, R105). -/

namespace Sys2Proof.Machine

/-- The state writes of CLRTAB (R104). -/
def clrtabWrite (s : State) : State := { s with tbl := invalidateAll s.tbl, hdrValid := false }

/-- The program of CLRTAB, one CORE step from its start to its end (R104). -/
def clrtabProgram (s : State) : State × Point := (clrtabWrite s, .complete)

/-- CLRTAB (R104): its CORE step while it runs; else its acceptance, or its rejection by a CORE that is BUSY with another command (log 16). -/
def execClrtab (s : State) : Host.Outcome State Fault Refusal :=
  match s.mode with
  | .busy .clrtab => coreStep s (some (clrtabProgram s))
  | _ => .next (issueCommand .clrtab s)

/-- A HOST write of `v` to TABLE word `w` of entry `e` while IDLE; words 9 to 15 have no effect (R105; log 10). -/
def writeTable (e : Byte) (w : Nat) (v : Word) (s : State) : State :=
  if w ≤ 8 then
    { s with tbl := setEntryOf s.tbl e ((s.entry e).setWord w v), hdrValid := false }
  else s

end Sys2Proof.Machine
end

