-- ==== Sys2Proof/Machine/BitPacker.lean ====
section
/-! DEFINITION. bit_packer: PACK (45_bit_packer.md R111, R112). H of the pseudocode is EXPBITS, which nothing changes while PACK runs (log 13). -/

namespace Sys2Proof.Machine

/-- One bit appended: acc, nacc, nb and BITPOS (R111). -/
def packBit (x : Bool) (s : State) : State :=
  { s with acc := pushByte s.acc x, nacc := s.nacc + 1#4, nb := s.nb + 1#40, bitpos := (s.nb + 1#40).setWidth 32 }

/-- The check after the whole stream: the bits packed against the header (R111, R114). -/
def packCheck (s : State) : State × Point :=
  if s.nb = s.expbits then (s, .complete) else (s, .fail .packLength (s.nb.setWidth 32))

/-- After the last input byte: the padded byte if bits are left, else the check (R111). -/
def packEnd (s : State) : State × Point :=
  if s.nacc = 0#4 then packCheck s
  else (s, .outByte (s.acc <<< (8 - s.nacc.toNat)) (.pack .tail))

/-- The head of `repeat lenL times` with `left` iterations to come (R111). -/
def packLoop (left : Nat) (s : State) : State × Point :=
  match left with
  | 0 => packEnd s
  | k + 1 => (s, .inByte fun b => .pack (.got b k))

/-- The inner loop over the code bits `j - 1 .. 0` of `b` (R111). -/
def packBits (b : Byte) (left : Nat) : Nat → State → State × Point
  | 0, s => packLoop left s
  | j + 1, s =>
    let s' := packBit ((s.entry b).code.getLsbD j) s
    if s'.nacc = 8#4 then (s', .outByte s'.acc (.pack (.bits b j left)))
    else packBits b left j s'

/-- The header point: byte k of H (R111). -/
def packHeader (k : Nat) (s : State) : State × Point :=
  (s, .outByte (headerByte s.expbits k) (.pack (.hdr (k + 1))))

/-- The checks before any byte is taken or emitted, in their order, then the first header byte (R111, R112). -/
def packStart (s : State) : State × Point :=
  if s.lenL = 0#32 then (s, .fail .emptyInput 0#32)
  else if s.hdrValid = false then (s, .fail .notDerived 0#32)
  else if 2 ^ 31 - 1 < s.expbits.toNat then (s, .fail .hdrOverflow (s.expbits.setWidth 32))
  else packHeader 0 { s with bitcount := s.expbits.setWidth 32 }

/-- The program of PACK from `c` to its next observable point (R111, 40_command_control.md R77). -/
def packProgram (c : PackCont) (s : State) : State × Point :=
  match c with
  | .start => packStart s
  | .hdr k =>
    if k < 4 then packHeader k s
    else packLoop s.lenL.toNat { s with acc := 0#8, nacc := 0#4, nb := 0#40 }
  | .got b left =>
    if (s.entry b).usable then packBits b left (s.entry b).len.toNat s
    else (s, .fail .noCode (b.setWidth 32))
  | .bits b j left => packBits b left j { s with acc := 0#8, nacc := 0#4 }
  | .tail => packCheck s

/-- PACK (R111): its next CORE step while it runs; else its acceptance, or its rejection by a CORE that is BUSY with another command (log 16). -/
def execPack (s : State) : Host.Outcome State Fault Refusal :=
  match s.mode with
  | .busy (.pack c) => coreStep s (some (packProgram c s))
  | _ => .next (issueCommand .pack s)

end Sys2Proof.Machine
end

