-- ==== Sys2Proof/Machine/BitUnpacker.lean ====
section
/-! DEFINITION. bit_unpacker_and_decoder_fsm: UNPACK (46_bit_unpacker_decoder.md R116, R118, R123). -/

namespace Sys2Proof.Machine

/-- The head of the trailing loop with `left` bytes to discard (R116, R120). -/
def unpackTail (left : Nat) (s : State) : State × Point :=
  match left with
  | 0 => (s, .complete)
  | k + 1 => (s, .inByte fun _ => .unpack (.gotTail k))

/-- After the last data byte (END_CHK): a candidate left over is a mismatch, else the trailing bytes (R116). -/
def unpackEnd (s : State) : State × Point :=
  if s.clen = 0#8 then unpackTail (s.lenL.toNat - 4 - s.nbytes.toNat) s
  else (s, .fail .decodeMismatch s.t)

/-- The head of `repeat nbytes times` with `left` data bytes to come (R116). -/
def unpackLoop (left : Nat) (s : State) : State × Point :=
  match left with
  | 0 => unpackEnd s
  | k + 1 => (s, .inByte fun b => .unpack (.gotData b k))

/-- One counted bit appended to the candidate (R116). -/
def unpackBit (x : Bool) (s : State) : State :=
  { s with cand := pushCode s.cand x, clen := s.clen + 1#8, t := s.t + 1#32, bitpos := s.t + 1#32 }

/-- The inner loop over the bits `k - 1 .. 0` of a data byte: bits past n are padding; each counted bit is matched (R116, R118, R119). -/
def unpackBits (b : Byte) (left : Nat) : Nat → State → State × Point
  | 0, s => unpackLoop left s
  | k + 1, s =>
    if s.t.toNat < s.n.toNat then
      let s' := unpackBit (b.getLsbD k) s
      match matchSet s'.tbl s'.clen s'.cand with
      | [] => if s'.clen = 255#8 then (s', .fail .decodeMismatch s'.t) else unpackBits b left k s'
      | [sym] => (s', .outByte sym (.unpack (.emitted b k left)))
      | _ => (s', .fail .ambiguousCode s'.t)
    else unpackBits b left k s

/-- After the four header bytes (CHK_HDR): BITCOUNT, the sign check, the length check, then the data loop (R116, R117). -/
def unpackHeader (hw : Word) (s : State) : State × Point :=
  let s := { s with bitcount := hw, n := hw }
  if hw.toInt < 0 then (s, .fail .hdrNegative hw)
  else
    let nbytes := ceilDiv8 hw.toNat
    let s := { s with nbytes := BitVec.ofNat 29 nbytes }
    if s.lenL.toNat - 4 < nbytes then (s, .fail .truncated s.lenL)
    else unpackLoop nbytes { s with cand := 0#256, clen := 0#8, t := 0#32 }

/-- The program of UNPACK from `c` to its next observable point (R116, R123, 40_command_control.md R77). -/
def unpackProgram (c : UnpackCont) (s : State) : State × Point :=
  match c with
  | .start =>
    if s.lenL.toNat < 4 then (s, .fail .truncated s.lenL)
    else (s, .inByte fun h0 => .unpack (.got0 h0))
  | .got0 h0 => (s, .inByte fun h1 => .unpack (.got1 h0 h1))
  | .got1 h0 h1 => (s, .inByte fun h2 => .unpack (.got2 h0 h1 h2))
  | .got2 h0 h1 h2 => (s, .inByte fun h3 => .unpack (.got3 h0 h1 h2 h3))
  | .got3 h0 h1 h2 h3 => unpackHeader (headerWord h0 h1 h2 h3) s
  | .gotData b left => unpackBits b left 8 s
  | .emitted b k left => unpackBits b left k { s with cand := 0#256, clen := 0#8 }
  | .gotTail left => unpackTail left s

/-- UNPACK (R116): its next CORE step while it runs; else its acceptance, or its rejection by a CORE that is BUSY with another command (log 16). -/
def execUnpack (s : State) : Host.Outcome State Fault Refusal :=
  match s.mode with
  | .busy (.unpack c) => coreStep s (some (unpackProgram c s))
  | _ => .next (issueCommand .unpack s)

end Sys2Proof.Machine
end

