-- ==== Sys2Proof/Machine/Bus.lean ====
section
/-! DEFINITION. The host address space, bus reads and bus writes (10_state.md R18 to R35, 20_memory.md R44 to R49, 40_command_control.md R75, R76). -/

namespace Sys2Proof.Machine

/-- The 19 registers, in the order of their offsets (20_memory.md R44). -/
inductive Reg where
  | id | version | ctrl | cmd | status | errcode | errinfo | len | inCount | outCount
  | nsym | total | nnodes | root | maxlen | expbitsLo | expbitsHi | bitcount | bitpos
  deriving DecidableEq, Repr

/-- A register's byte offset (10_state.md R18 to R35). -/
def Reg.offset : Reg → Addr
  | .id => 0x000#16
  | .version => 0x004#16
  | .ctrl => 0x008#16
  | .cmd => 0x00C#16
  | .status => 0x010#16
  | .errcode => 0x014#16
  | .errinfo => 0x018#16
  | .len => 0x01C#16
  | .inCount => 0x020#16
  | .outCount => 0x024#16
  | .nsym => 0x028#16
  | .total => 0x02C#16
  | .nnodes => 0x030#16
  | .root => 0x034#16
  | .maxlen => 0x038#16
  | .expbitsLo => 0x03C#16
  | .expbitsHi => 0x040#16
  | .bitcount => 0x044#16
  | .bitpos => 0x048#16

/-- The register at a word index, none from 19 on (20_memory.md R44). -/
def Reg.ofIndex : Nat → Option Reg
  | 0 => some .id
  | 1 => some .version
  | 2 => some .ctrl
  | 3 => some .cmd
  | 4 => some .status
  | 5 => some .errcode
  | 6 => some .errinfo
  | 7 => some .len
  | 8 => some .inCount
  | 9 => some .outCount
  | 10 => some .nsym
  | 11 => some .total
  | 12 => some .nnodes
  | 13 => some .root
  | 14 => some .maxlen
  | 15 => some .expbitsLo
  | 16 => some .expbitsHi
  | 17 => some .bitcount
  | 18 => some .bitpos
  | _ => none

/-- What a word of the host address space is (20_memory.md R44). -/
inductive Target where
  | reg (r : Reg)
  /-- `freq[s]`. -/
  | freq (s : Byte)
  /-- Word B + 0 or, with `second`, B + 4 of node `i` (30_encoding.md R70). -/
  | node (i : Nat) (second : Bool)
  /-- Word `w` of TABLE entry `e`, 0 to 15 (30_encoding.md R69). -/
  | table (e : Byte) (w : Nat)
  | unmapped
  deriving DecidableEq, Repr

/-- The address map. Only a[15:2], here `a / 4`, selects what is accessed (20_memory.md R44, R45). -/
def decodeAddr (a : Addr) : Target :=
  let x := a.toNat / 4
  if x < 0x100 then
    match Reg.ofIndex x with
    | some r => .reg r
    | none => .unmapped
  else if x < 0x200 then .freq (BitVec.ofNat 8 (x - 0x100))
  else if x < 0x400 then .unmapped
  else if x < 0x7FE then .node ((x - 0x400) / 2) ((x - 0x400) % 2 == 1)
  else if x < 0x1000 then .unmapped
  else if x < 0x2000 then .table (BitVec.ofNat 8 ((x - 0x1000) / 16)) ((x - 0x1000) % 16)
  else .unmapped

/-! ### Reads -/

/-- A register as a bus read sees it, `d` being the draw for what is unspecified while BUSY (10_state.md R18 to R35, 20_memory.md R48; log 21). -/
def readReg (r : Reg) (d : Word) (s : State) : Word :=
  match r with
  | .id => Config.idValue
  | .version => Config.versionValue
  | .ctrl => flagBit 0 s.irqEn
  | .cmd => 0#32
  | .status => if s.busy then statusWord s (d.getLsbD 4) (d.getLsbD 5) else statusWord s s.treeValid s.hdrValid
  | .errcode => s.errcode.setWidth 32
  | .errinfo => s.errinfo
  | .len => s.len
  | .inCount => s.inCount
  | .outCount => s.outCount
  | .nsym => if s.busy then d else s.nsym.setWidth 32
  | .total => if s.busy then d else s.total
  | .nnodes => if s.busy then d else s.nnodes.setWidth 32
  | .root => if s.busy then d else s.root.setWidth 32
  | .maxlen => if s.busy then d else s.maxlen.setWidth 32
  | .expbitsLo => if s.busy then d else s.expbits.extractLsb' 0 32
  | .expbitsHi => if s.busy then d else (s.expbits.extractLsb' 32 8).setWidth 32
  | .bitcount => if s.busy then d else s.bitcount
  | .bitpos => if s.busy then d else s.bitpos

/-- A NODE word: a draw while BUSY and at an index >= NNODES (20_memory.md R46, 30_encoding.md R70). -/
def readNode (i : Nat) (second : Bool) (d : Word) (s : State) : Word :=
  if s.busy then d
  else if i < s.nnodes.toNat then ((nodeAt s.node i).word second).getD d
  else d

/-- The value `MemRead(a, 4)` returns (20_memory.md R46, R48). While BUSY every word of the TABLE window is a draw (44_code_table_sram.md R106; log 10). -/
def readWord (a : Addr) (s : State) : Word :=
  let d := Config.readDraw s.draws
  match decodeAddr a with
  | .reg r => readReg r d s
  | .freq b => if s.busy then d else s.freqOf b
  | .node i second => readNode i second d s
  | .table e w => if s.busy then d else (s.entry e).word w
  | .unmapped => 0#32

/-- The HOST step `MemRead(a, 4)`: the HOST gets the value, nothing else changes (20_memory.md R46, R49). -/
def hostRead (a : Addr) (s : State) : State := deliverRead (readWord a s) s

/-! ### Writes -/

/-- A write of `v` to CTRL: with v[1] = 1 the reset, v[0] not stored; else IRQ_EN <- v[0] (10_state.md R20, 70_reset_and_hazards.md R146). -/
def writeCtrl (v : Word) (s : State) : State :=
  if v.getLsbD 1 then resetCore s else { s with irqEn := v.getLsbD 0 }

/-- A write of `w` to CMD: rejected while BUSY; else the word is decoded, and a command runs from here or the word fails as illegal
(40_command_control.md R75, R76). -/
def writeCmd (w : Word) (s : State) : Host.Outcome State Fault Refusal :=
  match s.mode with
  | .busy _ => .next (rejectWrite s)
  | .idle =>
    match decode w with
    | .ok i => exec i s
    | .error _ => .next (acceptIllegal w s)

/-- A write of `v` to LEN: rejected while BUSY (10_state.md R25, 40_command_control.md R76). -/
def writeLen (v : Word) (s : State) : State := if s.busy then rejectWrite s else { s with len := v }

/-- A write of `v` to a register; a read-only one ignores it (20_memory.md R47). -/
def writeReg (r : Reg) (v : Word) (s : State) : Host.Outcome State Fault Refusal :=
  match r with
  | .ctrl => .next (writeCtrl v s)
  | .cmd => writeCmd v s
  | .status => .next (writeStatus v s)
  | .len => .next (writeLen v s)
  | .id | .version | .errcode | .errinfo | .inCount | .outCount | .nsym | .total | .nnodes | .root | .maxlen
  | .expbitsLo | .expbitsHi | .bitcount | .bitpos => .next s

/-- The HOST step `MemWrite(a, 4, v)` (20_memory.md R47). A write to any word of the TABLE window while BUSY is rejected (40_command_control.md R76). -/
def hostWrite (a : Addr) (v : Word) (s : State) : Host.Outcome State Fault Refusal :=
  match decodeAddr a with
  | .reg r => writeReg r v s
  | .freq _ => .next s
  | .node _ _ => .next s
  | .table e w => .next (if s.busy then rejectWrite s else writeTable e w v s)
  | .unmapped => .next s

end Sys2Proof.Machine
end

