-- ==== Sys2Proof/Machine/Ports.lean ====
section
/-! DEFINITION. Where the running command stands, and the ports as views of the state (20_memory.md R43, R51; 70_reset_and_hazards.md R145). -/

namespace Sys2Proof.Machine

/-- The statements of a running command from its continuation to its next observable point, with that point (40_command_control.md R77). -/
def programOf (r : Running) (s : State) : Option (State × Point) :=
  match r with
  | .count c => some (countProgram c s)
  | .build => some (buildProgram s)
  | .derive => deriveProgram s
  | .clrtab => some (clrtabProgram s)
  | .pack c => some (packProgram c s)
  | .unpack c => some (unpackProgram c s)

/-- Whether the CORE has an enabled step: none while IDLE, else when the running command's next point is enabled (40_command_control.md R77). -/
def coreEnabled (s : State) : Bool :=
  match s.mode with
  | .idle => false
  | .busy r =>
    match programOf r s with
    | none => true
    | some (_, p) => p.enabled s

/-- Whether the running command waits in `InByte` (40_command_control.md R83). -/
def waitsForInput (s : State) : Bool :=
  match s.mode with
  | .idle => false
  | .busy r =>
    match programOf r s with
    | some (_, .inByte _) => true
    | _ => false

/-- The CORE's output ports (20_memory.md R43). -/
structure OutPorts where
  inReady : Bool
  outValid : Bool
  /-- The byte of `out_slot`; none while `out_valid` = 0, when the port means nothing. -/
  outData : Option Byte
  irq : Bool
  deriving DecidableEq, Repr

/-- The output ports in a state, with `rst_n`. `in_ready` is 1 only while the running command waits in `InByte`; `out_valid` exactly while
`out_slot` holds a byte (20_memory.md R51); while `rst_n` = 0 all are 0 (70_reset_and_hazards.md R145). -/
def outPorts (rstN : Bool) (s : State) : OutPorts :=
  if rstN then { inReady := waitsForInput s, outValid := s.outSlot.isSome, outData := s.outSlot, irq := s.irq }
  else { inReady := false, outValid := false, outData := none, irq := false }

end Sys2Proof.Machine
end

