-- ==== Sys2Proof/Machine/Turns.lean ====
section
/-! DEFINITION. The steps of the two agents and the schedule (40_command_control.md R73, R74, R77; 30_encoding.md R71, R72). -/

namespace Sys2Proof.Machine

/-- When a HOST step is enabled (40_command_control.md R74). -/
def HostOp.enabled (s : State) : HostOp → Bool
  | .read _ => true
  | .write _ _ => true
  | .offer _ => s.inSlot.isNone
  | .take => s.outSlot.isSome
  | .reset _ => true

/-- The HOST offers byte `b`: `in_slot` <- b (40_command_control.md R74). -/
def offerByte (b : Byte) (s : State) : State := { s with inSlot := some b }

/-- The HOST takes the byte in `out_slot` (40_command_control.md R74). -/
def takeOutput (s : State) : State :=
  match s.outSlot with
  | some b => { s with outSlot := none, taken := s.taken ++ [b] }
  | none => s

/-- A clock edge with `rst_n` = 0: the reset, and nothing else; a read presented at it returns an unspecified value and every other presented
access has no effect (70_reset_and_hazards.md R143, R145; S6). -/
def resetEdge (p : Presented) (s : State) : State :=
  match p with
  | .read _ => deliverRead (Config.readDraw s.draws) (resetCore { s with draws := s.draws + 1 })
  | .nothing => resetCore s
  | .write _ _ => resetCore s
  | .offer _ => resetCore s
  | .take => resetCore s

/-- What an enabled HOST step does (40_command_control.md R74). -/
def hostStep (op : HostOp) (s : State) : Host.Outcome State Fault Refusal :=
  match op with
  | .read a => .next (hostRead a s)
  | .write a v => hostWrite a v s
  | .offer b => .next (offerByte b s)
  | .take => .next (takeOutput s)
  | .reset p => .next (resetEdge p s)

/-- A CORE step: the next step of the running command; while IDLE the CORE has none (40_command_control.md R77). -/
def coreTurn (s : State) : Host.Outcome State Fault Refusal :=
  match s.mode with
  | .idle => .next s
  | .busy r => exec r.instr s

/-- One move of the HOST of `XFER [ins] -> [...]`, with `rest` to come after it (30_encoding.md R72): it takes an output byte as soon as there is one,
reads STATUS once DONE is 1 and is then through, and otherwise lets the CORE go on, offering the next byte when the CORE waits for one. It is one
fair interleaving among those the slots allow (log 17). -/
def xferTurn (ins : List Byte) (rest : List Turn) (s : State) : Host.Outcome State Fault Refusal :=
  if s.outSlot.isSome then .next (takeOutput s)
  else if s.done then .next (hostRead Reg.status.offset { s with schedule := rest })
  else if coreEnabled s then coreTurn s
  else
    match s.inSlot, ins with
    | none, b :: more => .next (offerByte b { s with schedule := .xfer more :: rest })
    | _, _ => .next (hostRead Reg.status.offset s)

/-- The step the schedule says is next. A HOST step that is not enabled waits, at the head of the schedule, while the CORE goes on ("each offer waits
for `in_slot` to be empty", 30_encoding.md R71; log 2). With nothing scheduled the CORE goes on (log 1). -/
def takeTurn (s : State) : Host.Outcome State Fault Refusal :=
  match s.schedule with
  | [] => coreTurn s
  | .core :: rest => coreTurn { s with schedule := rest }
  | .host op :: rest => if op.enabled s then hostStep op { s with schedule := rest } else coreTurn s
  | .xfer ins :: rest => xferTurn ins rest s

end Sys2Proof.Machine
end

