-- ==== Sys2Proof/Machine/Script.lean ====
section
/-! DEFINITION. The command-script notation and its expansion to HOST steps (30_encoding.md R71, R72). -/

namespace Sys2Proof.Machine

/-- A line of a script. Numbers are as written, unbounded; `Line.wf` says which fit. An expected value is the writer's: it is compared with what
the HOST read (`State.reads`), and is no part of the machine (log 17). -/
inductive Line where
  /-- `WR addr, value`. -/
  | wr (addr value : Nat)
  /-- `RD addr`, with the value the rules give if one is written. -/
  | rd (addr : Nat) (expected : Option Nat)
  /-- `IN b0 b1 ...`. -/
  | input (bytes : List Nat)
  /-- `TAKE -> b0 b1 ...`, the bytes expected. -/
  | take (expected : List Nat)
  /-- `SETLEN n`. -/
  | setLen (n : Nat)
  /-- `CMD m`. -/
  | cmd (m : Instr)
  /-- `ACK`. -/
  | ack
  /-- `XFER [ins] -> [outs]`, the output bytes expected. -/
  | xfer (ins : List Nat) (expected : List Nat)
  /-- `WAITDONE`. -/
  | waitDone
  /-- `LOADENT s, l, c`. -/
  | loadEnt (s l c : Nat)
  /-- `EXPECT name = v`. -/
  | expect (r : Reg) (v : Nat)
  deriving DecidableEq, Repr

/-- Check: an address is 16 bits (R71). -/
def addrFits (a : Nat) : Bool := a < 2 ^ 16

/-- Check: a bus value is 32 bits (R71). -/
def valueFits (v : Nat) : Bool := v < 2 ^ 32

/-- Check: stream data are bytes (R71). -/
def bytesFit (l : List Nat) : Bool := l.all (· < 2 ^ 8)

/-- Check: an entry's symbol and length are bytes and its code 256 bits (R72, R69). -/
def entryFits (s l c : Nat) : Bool := s < 2 ^ 8 && l < 2 ^ 8 && c < 2 ^ 256

/-- Every number of a line fits its field. -/
def Line.wf : Line → Bool
  | .wr a v => addrFits a && valueFits v
  | .rd a e => addrFits a && (e.map valueFits).getD true
  | .input bytes => bytesFit bytes
  | .take e => bytesFit e
  | .setLen n => valueFits n
  | .cmd _ => true
  | .ack => true
  | .xfer ins e => bytesFit ins && bytesFit e
  | .waitDone => true
  | .loadEnt s l c => entryFits s l c
  | .expect _ v => valueFits v

/-- `WR a, v`. -/
def wrTurn (a v : Nat) : Turn := .host (.write (BitVec.ofNat 16 a) (BitVec.ofNat 32 v))

/-- The expansion of a line into the HOST's turns (R71, R72). -/
def Line.turns : Line → List Turn
  | .wr a v => [wrTurn a v]
  | .rd a _ => [.host (.read (BitVec.ofNat 16 a))]
  | .input bytes => bytes.map fun b => .host (.offer (BitVec.ofNat 8 b))
  | .take e => e.map fun _ => .host .take
  | .setLen n => [wrTurn 0x001C n]
  | .cmd m => [wrTurn 0x000C (encode m).toNat]
  | .ack => [wrTurn 0x0010 0x00000002]
  | .xfer ins _ => [.xfer (ins.map (BitVec.ofNat 8))]
  | .waitDone => [.xfer []]
  | .loadEnt s l c =>
    wrTurn (0x4000 + 64 * s) (0x80000000 + l) ::
      (List.range 8).map fun k => wrTurn (0x4004 + 64 * s + 4 * k) (c / 2 ^ (32 * k) % 2 ^ 32)
  | .expect r _ => [.host (.read r.offset)]

/-- The expansion of a script. -/
def scriptTurns (lines : List Line) : List Turn := lines.flatMap Line.turns

end Sys2Proof.Machine
end

