-- ==== Sys2Proof/Machine/Step.lean ====
section
/-! DEFINITION. One step of the machine, and where a command word is placed for it. -/

namespace Sys2Proof.Machine

/-- One step: the turn the schedule says is next (40_command_control.md R73; log 1). -/
def step (s : State) : Host.Outcome State Fault Refusal := takeTurn s

/-- `s` with the HOST about to write the table word `w` of `nbits` bits to CMD, and the CORE IDLE so that it is not rejected: the next step
decodes it and hands it to `exec` (40_command_control.md R75; logs 3, 16, 22). -/
def State.withFetchWord (s : State) (nbits w : Nat) : State :=
  { s with
    mode := .idle
    schedule := .host (.write Reg.cmd.offset (BitVec.ofNat 32 (w % 2 ^ nbits))) :: s.schedule }

end Sys2Proof.Machine
end

