-- ==== Sys2Proof/Safety.lean ====
section
/-! DEFINITION. What counts as a sound state and a safe run, in the terms the statements use. -/

namespace Sys2Proof.Machine

/-- The control registers agree with `mode`. IDLE: `out_slot` is empty (40_command_control.md R82), ERRCODE is one of the codes in use
(60_exceptions.md R124), ERRINFO is 0 without an error (10_state.md R24). BUSY: DONE, ERRCODE and ERRINFO read 0 (10_state.md R22, R23, R24) and OPC
is the running command's opcode. -/
def ControlInv (s : State) : Prop :=
  match s.mode with
  | .idle => s.outSlot = none ∧ s.errcode.toNat ≤ 0x0B ∧ (s.errcode = 0#8 → s.errinfo = 0#32)
  | .busy r => s.done = false ∧ s.errcode = 0#8 ∧ s.errinfo = 0#32 ∧ s.opc = opcode r.instr

/-- The sum of all FREQ entries. -/
def freqSum (v : Vector Word 256) : Nat := (symbols.map fun s => (entryOf v s).toNat).sum

/-- TOTAL is the sum of FREQ and NSYM the number of its nonzero entries (10_state.md R28, R29; 41_frequency_counter.md R86); while COUNT runs, the
bytes taken and to be taken add up to `lenL`, the last one not yet counted. -/
def CountInv (s : State) : Prop :=
  freqSum s.freq = s.total.toNat ∧ (countedSymbols s.freq).length = s.nsym.toNat ∧
    match s.mode with
    | .busy (.count .start) => s.inCount = 0#32
    | .busy (.count (.got _ left)) => s.inCount.toNat + left = s.lenL.toNat ∧ s.total.toNat + 1 = s.inCount.toNat
    | _ => True

/-- Where a stream command stands agrees with IN_COUNT: the bytes taken and the bytes still to come make up `lenL` (10_state.md R26, R41), or for
UNPACK's data the four header bytes and `nbytes` (46_bit_unpacker_decoder.md R116). -/
def PositionInv (s : State) : Prop :=
  match s.mode with
  | .busy (.count .start) => s.inCount = 0#32
  | .busy (.count (.got _ left)) => s.inCount.toNat + left = s.lenL.toNat
  | .busy (.pack .start) => s.inCount = 0#32
  | .busy (.pack (.hdr _)) => s.inCount = 0#32
  | .busy (.pack (.got _ left)) => s.inCount.toNat + left = s.lenL.toNat
  | .busy (.pack (.bits _ _ left)) => s.inCount.toNat + left = s.lenL.toNat
  | .busy (.pack .tail) => s.inCount = s.lenL
  | .busy (.unpack .start) => s.inCount = 0#32
  | .busy (.unpack (.got0 _)) => s.inCount = 1#32 ∧ 4 ≤ s.lenL.toNat
  | .busy (.unpack (.got1 _ _)) => s.inCount = 2#32 ∧ 4 ≤ s.lenL.toNat
  | .busy (.unpack (.got2 _ _ _)) => s.inCount = 3#32 ∧ 4 ≤ s.lenL.toNat
  | .busy (.unpack (.got3 _ _ _ _)) => s.inCount = 4#32 ∧ 4 ≤ s.lenL.toNat
  | .busy (.unpack (.gotData _ left)) =>
    s.inCount.toNat + left = 4 + s.nbytes.toNat ∧ 4 + s.nbytes.toNat ≤ s.lenL.toNat
  | .busy (.unpack (.emitted _ _ left)) =>
    s.inCount.toNat + left = 4 + s.nbytes.toNat ∧ 4 + s.nbytes.toNat ≤ s.lenL.toNat
  | .busy (.unpack (.gotTail left)) => s.inCount.toNat + left = s.lenL.toNat
  | _ => True

/-- Where a stream command stands agrees with its bit counters and OUT_COUNT (10_state.md R27, R35, R41). PACK: BITPOS mirrors `nb`, `nacc` is the bits of
the byte being filled, and OUT_COUNT counts the four header bytes and the whole bytes. UNPACK: BITPOS mirrors `t`, `t` is the place of the next bit, at
most `n`, and every byte emitted took at least one bit. -/
def ProgressInv (s : State) : Prop :=
  match s.mode with
  | .busy (.pack .start) => s.outCount = 0#32 ∧ s.bitpos = 0#32
  | .busy (.pack (.hdr k)) => s.outCount = BitVec.ofNat 32 k ∧ s.bitpos = 0#32 ∧ 1 ≤ k ∧ k ≤ 4
  | .busy (.pack (.got _ _)) =>
    s.bitpos = s.nb.setWidth 32 ∧ s.nacc.toNat = s.nb.toNat % 8 ∧ s.outCount = BitVec.ofNat 32 (4 + s.nb.toNat / 8)
  | .busy (.pack (.bits b j _)) =>
    s.bitpos = s.nb.setWidth 32 ∧ s.nb.toNat % 8 = 0 ∧ s.nacc = 8#4 ∧ j < (s.entry b).len.toNat ∧
      s.outCount = BitVec.ofNat 32 (4 + s.nb.toNat / 8)
  | .busy (.pack .tail) =>
    s.bitpos = s.nb.setWidth 32 ∧ s.nb.toNat % 8 ≠ 0 ∧ s.outCount = BitVec.ofNat 32 (5 + s.nb.toNat / 8)
  | .busy (.unpack .start) => s.outCount = 0#32 ∧ s.bitpos = 0#32
  | .busy (.unpack (.got0 _)) => s.outCount = 0#32 ∧ s.bitpos = 0#32
  | .busy (.unpack (.got1 _ _)) => s.outCount = 0#32 ∧ s.bitpos = 0#32
  | .busy (.unpack (.got2 _ _ _)) => s.outCount = 0#32 ∧ s.bitpos = 0#32
  | .busy (.unpack (.got3 _ _ _ _)) => s.outCount = 0#32 ∧ s.bitpos = 0#32
  | .busy (.unpack (.gotData _ left)) =>
    s.bitpos = s.t ∧ s.n.toNat < 2 ^ 31 ∧ s.nbytes.toNat = ceilDiv8 s.n.toNat ∧ left < s.nbytes.toNat ∧
      s.t.toNat = 8 * (s.nbytes.toNat - left - 1) ∧ s.clen.toNat ≤ 254 ∧ s.outCount.toNat + s.clen.toNat ≤ s.t.toNat
  | .busy (.unpack (.emitted _ k left)) =>
    s.bitpos = s.t ∧ s.n.toNat < 2 ^ 31 ∧ s.nbytes.toNat = ceilDiv8 s.n.toNat ∧ left < s.nbytes.toNat ∧ k ≤ 7 ∧
      s.t.toNat = 8 * (s.nbytes.toNat - left - 1) + 8 - k ∧ s.t.toNat ≤ s.n.toNat ∧ s.outCount.toNat ≤ s.t.toNat
  | .busy (.unpack (.gotTail _)) => s.bitpos = s.t ∧ s.t = s.n ∧ s.n.toNat < 2 ^ 31 ∧ s.outCount.toNat ≤ s.t.toNat
  | _ => True

/-- The arena as it is when nothing has written it. -/
def blankArena : Vector Node 511 := Vector.replicate 511 .unspecified

/-- The NODE arena and its registers. Without a valid tree NNODES and ROOT are 0 (10_state.md R30, R31); with one, entries below NNODES, ROOT and NNODES are
what BUILD makes of FREQ (10_state.md R22, R39; 42_huffman_tree_builder.md R96). While COUNT counts, no tree is valid (41_frequency_counter.md R85). -/
def TreeInv (s : State) : Prop :=
  (∀ b left, s.mode = .busy (.count (.got b left)) → s.treeValid = false) ∧
  (s.treeValid = false → s.nnodes = 0#10 ∧ s.root = 0#9) ∧
  (s.treeValid = true →
    countedSymbols s.freq ≠ [] ∧
    s.nnodes = BitVec.ofNat 10 (buildTree s.freq blankArena).n ∧
    s.root = BitVec.ofNat 9 ((buildTree s.freq blankArena).q.headD 0) ∧
    ∀ i, i < (buildTree s.freq blankArena).n → nodeAt s.node i = nodeAt (buildTree s.freq blankArena).node i)

/-- HDR_VALID = 1 "implies the TABLE and EXPBITS are exactly as the last successful DERIVE wrote them" (10_state.md R36), for the tree that still stands. -/
def DerivedInv (s : State) : Prop :=
  s.hdrValid = true →
    s.treeValid = true ∧
    ∃ tbl d, deriveCodes s.node s.root.toNat (invalidateAll tbl) = some d ∧
      s.tbl = d.tbl ∧ s.expbits = BitVec.ofNat 40 d.h ∧ s.maxlen = BitVec.ofNat 8 d.m

/-- Code `a` is a prefix of code `b`, as bit strings (00_scope.md R14, "prefix-free code"). -/
def Entry.prefixOf (a b : Entry) : Prop := a.bits <+: b.bits

/-- No code of a usable entry is a prefix of another's (43_code_table_deriver.md R101). -/
def PrefixFree (tbl : Vector Entry 256) : Prop :=
  ∀ x y : Byte, x ≠ y → (entryOf tbl x).usable = true → (entryOf tbl y).usable = true →
    ¬ (entryOf tbl x).prefixOf (entryOf tbl y)

/-- The node at the end of a path from node `i`: "0" goes left, "1" goes right (00_scope.md R11, 43_code_table_deriver.md R101). -/
def walkPath (v : Vector Node 511) : Nat → List Bool → Node
  | i, [] => nodeAt v i
  | i, x :: p =>
    match nodeAt v i with
    | .internal _ l r => walkPath v (if x then r.toNat else l.toNat) p
    | .leaf _ _ => .unspecified
    | .unspecified => .unspecified

/-- `t` differs from `s` only in what PACK and UNPACK and the HOST that serves them may change: control, progress and hidden registers, the slots and
the HOST's side. FREQ, NODE, TABLE, the tree and table registers, TREE_VALID, HDR_VALID, LEN, OPC, REJ and IRQ_EN are as before
(20_memory.md R55, 45_bit_packer.md R111, 46_bit_unpacker_decoder.md R116). -/
def StreamFrame (s t : State) : Prop :=
  t = { s with
    mode := t.mode, done := t.done, errcode := t.errcode, errinfo := t.errinfo
    inCount := t.inCount, outCount := t.outCount, bitcount := t.bitcount, bitpos := t.bitpos
    acc := t.acc, nacc := t.nacc, nb := t.nb, n := t.n, nbytes := t.nbytes, cand := t.cand, clen := t.clen, t := t.t
    inSlot := t.inSlot, outSlot := t.outSlot, draws := t.draws, schedule := t.schedule, reads := t.reads, taken := t.taken }

/-- `k` steps, stopping at the first fault or refusal: `Host.Core.run` of this machine, on `State` itself. -/
def runSteps : Nat → State → Host.Outcome State Fault Refusal
  | 0, s => .next s
  | k + 1, s =>
    match step s with
    | .next t => runSteps k t
    | .fault r => .fault r
    | .refused r => .refused r

/-- A safe run: no number of steps ends in a fault or a refusal. -/
def SafeRun (s : State) : Prop := ∀ k, ∃ t, runSteps k s = .next t

/-- Some number of steps leads from `s` to `t`. -/
def Reaches (s t : State) : Prop := ∃ k, runSteps k s = .next t

/-- The CORE is IDLE, both slots are empty, and the HOST is about to carry out the script `lines`, then `rest`. -/
structure HostReady (s : State) (lines : List Line) (rest : List Turn) : Prop where
  idle : s.mode = .idle
  inEmpty : s.inSlot = none
  outEmpty : s.outSlot = none
  scheduled : s.schedule = scriptTurns lines ++ rest

/-- The last command has ended with error code `code` and ERRINFO `info` (60_exceptions.md R124), every byte of the streams is delivered, and the HOST's script
is over but for `rest`. -/
structure Ended (t : State) (code : BitVec 8) (info : Word) (rest : List Turn) : Prop where
  idle : t.mode = .idle
  done : t.done = true
  errcode : t.errcode = code
  errinfo : t.errinfo = info
  outEmpty : t.outSlot = none
  scheduled : t.schedule = rest

/-- The step to come is a reset: a CTRL write with bit 1 set, or a clock edge with `rst_n` = 0 (70_reset_and_hazards.md R143). -/
def ResetScheduled (s : State) : Prop :=
  (∃ a v rest, s.schedule = .host (.write a v) :: rest ∧ a.toNat / 4 = 2 ∧ v.getLsbD 1 = true) ∨
  ∃ p rest, s.schedule = .host (.reset p) :: rest

/-- The four header bytes of a bit count, in stream order (30_encoding.md R67). -/
def headerOf (h : BitVec 40) : List Byte := [headerByte h 0, headerByte h 1, headerByte h 2, headerByte h 3]

/-- The script line `XFER [ins]` for bytes. -/
def xferLine (ins : List Byte) : Line := .xfer (ins.map BitVec.toNat) []

/-! ### The TABLE, saved and loaded on the bus -/

/-- The address of TABLE word `w` of entry `e` (20_memory.md R44, 44_code_table_sram.md R105). -/
def tableAddr (e : Byte) (w : Nat) : Addr := BitVec.ofNat 16 (0x4000 + 64 * e.toNat + 4 * w)

/-- Words 0 to 8 of the entries `es` as bus reads of `s` return them, each with its address (44_code_table_sram.md R107). -/
def savedWords (es : List Byte) (s : State) : List (Addr × Word) :=
  es.flatMap fun e => (List.range 9).map fun w => (tableAddr e w, readWord (tableAddr e w) s)

/-- HOST writes one after the other (20_memory.md R47). -/
def writeAll : List (Addr × Word) → State → Host.Outcome State Fault Refusal
  | [], s => .next s
  | (a, v) :: l, s =>
    match hostWrite a v s with
    | .next t => writeAll l t
    | .fault r => .fault r
    | .refused r => .refused r

/-! ### What a stream command has done with the bytes it took

`S` is the list of the bytes the running command has taken since its acceptance, `base` what had been put out before it. Nothing here depends on how the
HOST's steps and the CORE's interleave. -/

/-- The bytes put out: those the HOST has taken, then the one in `out_slot` (20_memory.md R50, R52). -/
def State.emitted (s : State) : List Byte := s.taken ++ s.outSlot.toList

/-- COUNT runs and has taken `S`, the last byte of which is not counted yet (41_frequency_counter.md R85). -/
def CountTrace (S : List Byte) (s : State) : Prop :=
  s.errcode = 0#8 ∧
    match s.mode with
    | .busy (.count .start) => S = []
    | .busy (.count (.got b left)) =>
      ∃ S₀, S = S₀ ++ [b] ∧ S.length + left = s.lenL.toNat ∧ ∀ c, (s.freqOf c).toNat = S₀.count c
    | _ => False

/-- COUNT of `lenL` bytes has ended: it took so many and FREQ is their counts (41_frequency_counter.md R86). -/
def CountOutcome (lenL : Word) (S : List Byte) (t : State) : Prop :=
  t.mode = .idle ∧ t.done = true ∧ t.errcode = 0#8 ∧ S.length = lenL.toNat ∧ ∀ c, (t.freqOf c).toNat = S.count c

/-- The packer has packed the bits `B`: the whole bytes of them are put out after the header, the bits of the byte it fills are in `acc`
(45_bit_packer.md R110, R111). -/
def PackedSoFar (base : List Byte) (B : List Bool) (s : State) : Prop :=
  s.nb.toNat = B.length ∧ s.nacc.toNat = B.length % 8 ∧ s.acc = (B.drop (8 * (B.length / 8))).foldl pushByte 0#8 ∧
    s.emitted = base ++ headerOf s.expbits ++ (packBytes B).take (B.length / 8)

/-- PACK runs and has taken `S` (45_bit_packer.md R111). -/
def PackTrace (base S : List Byte) (s : State) : Prop :=
  s.errcode = 0#8 ∧
    match s.mode with
    | .busy (.pack .start) => S = [] ∧ s.emitted = base
    | .busy (.pack (.hdr k)) => S = [] ∧ 1 ≤ k ∧ k ≤ 4 ∧ s.lenL ≠ 0#32 ∧ s.emitted = base ++ (headerOf s.expbits).take k
    | .busy (.pack (.got b left)) =>
      ∃ S₀, S = S₀ ++ [b] ∧ S.length + left = s.lenL.toNat ∧ (∀ c ∈ S₀, (s.entry c).usable = true) ∧
        PackedSoFar base (bitsOf s.tbl S₀) s
    | .busy (.pack (.bits b j left)) =>
      ∃ S₀, S = S₀ ++ [b] ∧ S.length + left = s.lenL.toNat ∧ (∀ c ∈ S, (s.entry c).usable = true) ∧ j < (s.entry b).len.toNat ∧
        ∃ B, B = bitsOf s.tbl S₀ ++ (s.entry b).bits.take ((s.entry b).len.toNat - j) ∧ B.length % 8 = 0 ∧ s.nb.toNat = B.length ∧
          s.emitted = base ++ headerOf s.expbits ++ packBytes B
    | .busy (.pack .tail) =>
      S.length = s.lenL.toNat ∧ (∀ c ∈ S, (s.entry c).usable = true) ∧ s.nb.toNat = nbitsOf s.tbl S ∧
        s.emitted = base ++ headerOf s.expbits ++ packBytes (bitsOf s.tbl S)
    | _ => False

/-- PACK of `lenL` bytes has ended, every byte delivered: one of its checks failed with nothing taken or put out (45_bit_packer.md R112); or the last byte of `S` has no
usable entry (R113); or all of `S` is packed and the bits are compared with EXPBITS (R114, R115). -/
def PackOutcome (lenL : Word) (base S : List Byte) (t : State) : Prop :=
  t.mode = .idle ∧ t.done = true ∧ t.outSlot = none ∧
    ((S = [] ∧ t.taken = base ∧ (t.errcode = 0x02#8 ∨ t.errcode = 0x04#8 ∨ t.errcode = 0x05#8)) ∨
      (∃ S₀ b, S = S₀ ++ [b] ∧ (∀ c ∈ S₀, (t.entry c).usable = true) ∧ (t.entry b).usable = false ∧
        t.errcode = 0x06#8 ∧ t.errinfo = b.setWidth 32 ∧
        t.taken = base ++ headerOf t.expbits ++ (packBytes (bitsOf t.tbl S₀)).take (nbitsOf t.tbl S₀ / 8)) ∨
      ((∀ c ∈ S, (t.entry c).usable = true) ∧ S.length = lenL.toNat ∧
        t.taken = base ++ headerOf t.expbits ++ packBytes (bitsOf t.tbl S) ∧
        (nbitsOf t.tbl S = t.expbits.toNat → t.errcode = 0#8) ∧
        (nbitsOf t.tbl S ≠ t.expbits.toNat → t.errcode = 0x07#8 ∧ t.errinfo = BitVec.ofNat 32 (nbitsOf t.tbl S))))

/-- The decoder stands after the bits `B` with the candidate (`clen`, `cand`): it has put out what `Decode` emits on them, and whatever bits follow,
`Decode` goes on from this candidate (46_bit_unpacker_decoder.md R121). -/
def DecodedSoFar (base : List Byte) (B : List Bool) (clen : BitVec 8) (cand : CodeBits) (s : State) : Prop :=
  s.t.toNat = B.length ∧ clen.toNat ≤ 254 ∧
    ∃ out, s.emitted = base ++ out ∧ ∀ R, decodeBits s.tbl (B ++ R) =
      { out := out ++ (decodeFrom s.tbl clen cand B.length R).out, err := (decodeFrom s.tbl clen cand B.length R).err }

/-- `S` is an artifact's four header bytes, of a count n >= 0 whose bytes fit in `lenL`, then `D` (46_bit_unpacker_decoder.md R116, R117). -/
def HeaderThen (n lenL : Word) (S D : List Byte) : Prop :=
  ∃ h0 h1 h2 h3, S = h0 :: h1 :: h2 :: h3 :: D ∧ n = headerWord h0 h1 h2 h3 ∧ n.toNat < 2 ^ 31 ∧ 4 + ceilDiv8 n.toNat ≤ lenL.toNat

/-- UNPACK runs and has taken `S` (46_bit_unpacker_decoder.md R116). -/
def UnpackTrace (base S : List Byte) (s : State) : Prop :=
  s.errcode = 0#8 ∧
    match s.mode with
    | .busy (.unpack .start) => S = [] ∧ s.emitted = base
    | .busy (.unpack (.got0 h0)) => S = [h0] ∧ 4 ≤ s.lenL.toNat ∧ s.emitted = base
    | .busy (.unpack (.got1 h0 h1)) => S = [h0, h1] ∧ 4 ≤ s.lenL.toNat ∧ s.emitted = base
    | .busy (.unpack (.got2 h0 h1 h2)) => S = [h0, h1, h2] ∧ 4 ≤ s.lenL.toNat ∧ s.emitted = base
    | .busy (.unpack (.got3 h0 h1 h2 h3)) => S = [h0, h1, h2, h3] ∧ 4 ≤ s.lenL.toNat ∧ s.emitted = base
    | .busy (.unpack (.gotData b left)) =>
      ∃ D, HeaderThen s.n s.lenL S (D ++ [b]) ∧ s.nbytes.toNat = ceilDiv8 s.n.toNat ∧ D.length + 1 + left = ceilDiv8 s.n.toNat ∧
        DecodedSoFar base (D.flatMap bitsOfByte) s.clen s.cand s
    | .busy (.unpack (.emitted b k left)) =>
      ∃ D, HeaderThen s.n s.lenL S (D ++ [b]) ∧ s.nbytes.toNat = ceilDiv8 s.n.toNat ∧ D.length + 1 + left = ceilDiv8 s.n.toNat ∧ k ≤ 7 ∧ s.t.toNat ≤ s.n.toNat ∧
        DecodedSoFar base (D.flatMap bitsOfByte ++ (bitsOfByte b).take (8 - k)) 0#8 0#256 s
    | .busy (.unpack (.gotTail left)) =>
      ∃ D, HeaderThen s.n s.lenL S D ∧ ceilDiv8 s.n.toNat ≤ D.length ∧ S.length + left = s.lenL.toNat ∧
        (decodeBits s.tbl ((D.flatMap bitsOfByte).take s.n.toNat)).err = none ∧
        s.emitted = base ++ (decodeBits s.tbl ((D.flatMap bitsOfByte).take s.n.toNat)).out
    | _ => False

/-- UNPACK of `lenL` bytes has ended, every byte delivered: with nothing put out because the artifact is too short, its count negative or its bytes too few
(46_bit_unpacker_decoder.md R116, R117); or with all of `lenL` bytes taken and `Decode` of the counted bits Ok; or where `Decode` fails, whatever data `E` the
artifact goes on with (R121). -/
def UnpackOutcome (lenL : Word) (base S : List Byte) (t : State) : Prop :=
  t.mode = .idle ∧ t.done = true ∧ t.outSlot = none ∧
    ((S = [] ∧ lenL.toNat < 4 ∧ t.errcode = 0x08#8 ∧ t.errinfo = lenL ∧ t.taken = base) ∨
      (∃ h0 h1 h2 h3, S = [h0, h1, h2, h3] ∧ t.taken = base ∧
        (((headerWord h0 h1 h2 h3).toInt < 0 ∧ t.errcode = 0x09#8 ∧ t.errinfo = headerWord h0 h1 h2 h3) ∨
          (0 ≤ (headerWord h0 h1 h2 h3).toInt ∧ lenL.toNat - 4 < ceilDiv8 (headerWord h0 h1 h2 h3).toNat ∧
            t.errcode = 0x08#8 ∧ t.errinfo = lenL))) ∨
      (∃ n D, HeaderThen n lenL S D ∧ S.length = lenL.toNat ∧ t.errcode = 0#8 ∧
        (decodeBits t.tbl ((D.flatMap bitsOfByte).take n.toNat)).err = none ∧
        t.taken = base ++ (decodeBits t.tbl ((D.flatMap bitsOfByte).take n.toNat)).out) ∨
      (∃ n D e k, HeaderThen n lenL S D ∧ D.length ≤ ceilDiv8 n.toNat ∧ t.errcode = e.code ∧ t.errinfo = BitVec.ofNat 32 k ∧
        ∀ E, (D ++ E).length = ceilDiv8 n.toNat →
          (decodeBits t.tbl (((D ++ E).flatMap bitsOfByte).take n.toNat)).err = some (e, k) ∧
          t.taken = base ++ (decodeBits t.tbl (((D ++ E).flatMap bitsOfByte).take n.toNat)).out))

/-- What one step does to a command whose trace is `P` and whose outcome is `Q`: it takes no byte and the trace stands, or it takes the byte in `in_slot`, or the
command has ended with `in_slot` as it was (40_command_control.md R77, R78, R80, R81). -/
def TraceStep (P Q : List Byte → State → Prop) (S : List Byte) (s t : State) : Prop :=
  ((s.inSlot = none ∨ t.inSlot = s.inSlot) ∧ P S t) ∨ (∃ b, s.inSlot = some b ∧ t.inSlot = none ∧ P (S ++ [b]) t) ∨ (t.inSlot = s.inSlot ∧ Q S t)

end Sys2Proof.Machine
end

