-- ==== Sys2Proof/Certificates/Slice0/Obligations.lean ====
section
/-! DEFINITION. The statements for the provers. Each docstring names the rule of spec/ it states or rests on. -/

open Sys2Proof Sys2Proof.Machine

/-! ### Encoding and the step -/

/-- The six words of the opcode map decode to their commands (30_encoding.md R63). -/
def Obligations.CommandWordsDecode : Prop :=
  decode 0x00000001#32 = .ok .count ∧ decode 0x00000002#32 = .ok .build ∧ decode 0x00000003#32 = .ok .derive ∧
  decode 0x00000004#32 = .ok .clrtab ∧ decode 0x00000005#32 = .ok .pack ∧ decode 0x00000006#32 = .ok .unpack

/-- Decoding undoes encoding, a word that decodes to a command is that command's word, and the words that decode are 1 to 6
(30_encoding.md R62, R63, R64). -/
def Obligations.DecodeAndEncodeAgree : Prop :=
  (∀ i, Instr.wf i = true → decode (encode i) = .ok i) ∧
  (∀ w i, decode w = .ok i → encode i = w) ∧
  (∀ w : Word, (∃ i, decode w = .ok i) ↔
    (w.extractLsb' 4 28 = 0#28 ∧ 1 ≤ (w.extractLsb' 0 4).toNat ∧ (w.extractLsb' 0 4).toNat ≤ 6)) ∧
  (∀ w i, decode w = .ok i → w.extractLsb' 0 4 = opcode i)

/-- What a step runs. A scheduled CMD write of a command's word to an IDLE CORE runs `exec` of that command, and so does `withFetchWord`; a turn of
the CORE while it is BUSY runs `exec` of the running command; a scheduled HOST step that is enabled is taken, one that is not lets the CORE go on
(40_command_control.md R73, R74, R75, R77). The model's choices, no rules of the spec: that a schedule says which step comes next, and that the CORE goes on with none (log 1); that a HOST
step that is not enabled waits while the CORE goes on (log 2); that `withFetchWord` stands for the HOST's CMD write (log 3) and makes a BUSY CORE IDLE first, which no step of
the CORE does (log 22, unsafe); that `exec` of the running command is its next CORE step (log 16). -/
def Obligations.StepRunsTheDecodedCommand : Prop :=
  (∀ (s : State) (a : Addr) (w : Word) (i : Instr) (rest : List Turn), a.toNat / 4 = 3 → decode w = .ok i → s.mode = .idle →
    s.schedule = .host (.write a w) :: rest → step s = exec i { s with schedule := rest }) ∧
  (∀ (s : State) (nbits w : Nat) (i : Instr), decodeTableWord nbits w = some i →
    step (s.withFetchWord nbits w) = exec i { s with mode := .idle }) ∧
  (∀ (s : State) (r : Running) (rest : List Turn), s.mode = .busy r → s.schedule = .core :: rest →
    step s = exec r.instr { s with schedule := rest }) ∧
  (∀ (s : State) (r : Running), s.mode = .busy r → s.schedule = [] → step s = exec r.instr s) ∧
  (∀ (s : State) (op : HostOp) (rest : List Turn), s.schedule = .host op :: rest → op.enabled s = true →
    step s = hostStep op { s with schedule := rest }) ∧
  (∀ (s : State) (op : HostOp) (r : Running) (rest : List Turn), s.schedule = .host op :: rest → op.enabled s = false →
    s.mode = .busy r → step s = exec r.instr s)

/-! ### Accepting and rejecting -/

/-- A write of `w` to CMD (40_command_control.md R75): rejected while BUSY; a command's word starts that command; any other word fails at once. No other
step takes the CORE from IDLE to BUSY. -/
def Obligations.CmdWriteStartsOrFailsACommand : Prop :=
  (∀ (s : State) (a : Addr) (w : Word), a.toNat / 4 = 3 →
    (∀ r, s.mode = .busy r → hostWrite a w s = .next { s with rej := true }) ∧
    (∀ i, s.mode = .idle → decode w = .ok i → hostWrite a w s = .next { s with
      done := false, errcode := 0#8, errinfo := 0#32, opc := w.extractLsb' 0 4
      inCount := 0#32, outCount := 0#32, bitcount := 0#32, bitpos := 0#32
      lenL := s.len, mode := .busy (Running.start i) }) ∧
    (∀ e, s.mode = .idle → decode w = .error e → hostWrite a w s = .next { s with
      done := true, errcode := 0x01#8, errinfo := w, opc := w.extractLsb' 0 4
      inCount := 0#32, outCount := 0#32, bitcount := 0#32, bitpos := 0#32 })) ∧
  (∀ s t : State, s.mode = .idle → t.mode ≠ .idle → step s = .next t →
    ∃ a w i rest, s.schedule = .host (.write a w) :: rest ∧ a.toNat / 4 = 3 ∧ decode w = .ok i ∧ t.mode = .busy (Running.start i))

/-- Every command, given to an IDLE CORE, is accepted: the run of its program starts, and nothing else changes but what R75 names. Given to a CORE that is
BUSY with another command it is rejected (40_command_control.md R75, R76; that `exec` has these faces is the model's choice, log 16). -/
def Obligations.CommandIsAcceptedOrRejected : Prop :=
  (∀ (i : Instr) (s : State), s.mode = .idle → exec i s = .next { s with
    done := false, errcode := 0#8, errinfo := 0#32, opc := opcode i
    inCount := 0#32, outCount := 0#32, bitcount := 0#32, bitpos := 0#32
    lenL := s.len, mode := .busy (Running.start i) }) ∧
  (∀ (i : Instr) (r : Running) (s : State), s.mode = .busy r → r.instr ≠ i → exec i s = .next { s with rej := true })

/-- While BUSY, a write to CMD, LEN or the TABLE window does nothing but set REJ; writes to CTRL and STATUS have their effect, with REJ not set by it; every other
write does nothing (40_command_control.md R76). -/
def Obligations.BusyCoreRejectsWrites : Prop :=
  ∀ (s : State) (r : Running) (a : Addr) (v : Word), s.mode = .busy r →
    ((a.toNat / 4 = 3 ∨ a.toNat / 4 = 7 ∨ (0x4000 ≤ a.toNat ∧ a.toNat < 0x8000)) → hostWrite a v s = .next { s with rej := true }) ∧
    (a.toNat / 4 = 2 → hostWrite a v s = .next (if v.getLsbD 1 then resetCore s else { s with irqEn := v.getLsbD 0 })) ∧
    (a.toNat / 4 = 4 → hostWrite a v s = .next { s with done := s.done && !v.getLsbD 1, rej := s.rej && !v.getLsbD 3 }) ∧
    (a.toNat / 4 ≠ 2 → a.toNat / 4 ≠ 3 → a.toNat / 4 ≠ 4 → a.toNat / 4 ≠ 7 → ¬ (0x4000 ≤ a.toNat ∧ a.toNat < 0x8000) →
      hostWrite a v s = .next s)

/-- REJ becomes 1 only at a rejected write, which leaves `mode`, DONE, ERRCODE, ERRINFO and the interrupt as they were; it becomes 0 only by a 1 written to STATUS
bit 3 or by reset (60_exceptions.md R133). -/
def Obligations.RejRecordsRejectedWrites : Prop :=
  ∀ s t : State, step s = .next t →
    (s.rej = false → t.rej = true →
      s.mode ≠ .idle ∧ t.mode = s.mode ∧ t.done = s.done ∧ t.errcode = s.errcode ∧ t.errinfo = s.errinfo ∧ t.irq = s.irq ∧
      ∃ a v rest, s.schedule = .host (.write a v) :: rest ∧
        (a.toNat / 4 = 3 ∨ a.toNat / 4 = 7 ∨ (0x4000 ≤ a.toNat ∧ a.toNat < 0x8000))) ∧
    (s.rej = true → t.rej = false →
      (∃ a v rest, s.schedule = .host (.write a v) :: rest ∧ a.toNat / 4 = 4 ∧ v.getLsbD 3 = true) ∨ ResetScheduled s)

/-! ### The points of a program -/

/-- A CORE step of the running command, by the observable point its statements lead to: nothing happens where the point is not enabled; otherwise the statements
and the point happen together (40_command_control.md R77, R78, R79, R80, R81, R83). The statements before the point touch no control register, no slot, no
byte counter.
That the hidden working registers keep their values when a command ends is the model's choice (log 23). -/
def Obligations.CoreStepDoesStatementsAndPoint : Prop :=
  ∀ (s u : State) (r : Running) (p : Point), s.mode = .busy r → programOf r s = some (u, p) →
    (p.enabled s = false → exec r.instr s = .next s) ∧
    (∀ k b, p = .inByte k → s.inSlot = some b →
      exec r.instr s = .next { u with inSlot := none, inCount := s.inCount + 1#32, mode := .busy (k b) }) ∧
    (∀ k b, p = .outByte b k → s.outSlot = none →
      exec r.instr s = .next { u with outSlot := some b, outCount := s.outCount + 1#32, mode := .busy k }) ∧
    (p = .complete → s.outSlot = none → exec r.instr s = .next { u with mode := .idle, done := true }) ∧
    (∀ e info, p = .fail e info → s.outSlot = none →
      exec r.instr s = .next { u with mode := .idle, done := true, errcode := e.code, errinfo := info }) ∧
    (∀ k, p = .inByte k → s.inSlot = none → exec r.instr s = .next s) ∧
    (∀ b, (∀ k, p ≠ .inByte k) → s.outSlot = some b → exec r.instr s = .next s) ∧
    (u.irqEn = s.irqEn ∧ u.mode = s.mode ∧ u.done = s.done ∧ u.rej = s.rej ∧ u.opc = s.opc ∧ u.errcode = s.errcode ∧ u.errinfo = s.errinfo ∧
      u.len = s.len ∧ u.lenL = s.lenL ∧ u.inCount = s.inCount ∧ u.outCount = s.outCount ∧ u.inSlot = s.inSlot ∧ u.outSlot = s.outSlot ∧
      u.draws = s.draws ∧ u.schedule = s.schedule ∧ u.reads = s.reads ∧ u.taken = s.taken)

/-- Which state each command's own steps leave alone (20_memory.md R55, 10_state.md R37): all of it but what is named.
That the hidden working registers keep their values when a command ends is the model's choice (log 23). -/
def Obligations.CommandsTouchOnlyTheirState : Prop :=
  (∀ (s t : State) c, s.mode = .busy (.count c) → exec .count s = .next t → t = { s with
    mode := t.mode, done := t.done, inSlot := t.inSlot, inCount := t.inCount, treeValid := t.treeValid, hdrValid := t.hdrValid
    nsym := t.nsym, total := t.total, nnodes := t.nnodes, root := t.root, freq := t.freq }) ∧
  (∀ s t : State, s.mode = .busy .build → exec .build s = .next t → t = { s with
    mode := t.mode, done := t.done, errcode := t.errcode, errinfo := t.errinfo, treeValid := t.treeValid, hdrValid := t.hdrValid
    nnodes := t.nnodes, root := t.root, node := t.node, q := t.q }) ∧
  (∀ s t : State, s.mode = .busy .derive → exec .derive s = .next t → t = { s with
    mode := t.mode, done := t.done, errcode := t.errcode, errinfo := t.errinfo, hdrValid := t.hdrValid
    maxlen := t.maxlen, expbits := t.expbits, tbl := t.tbl }) ∧
  (∀ s t : State, s.mode = .busy .clrtab → exec .clrtab s = .next t → t = { s with
    mode := t.mode, done := t.done, hdrValid := t.hdrValid, tbl := t.tbl }) ∧
  (∀ (s t : State) c, s.mode = .busy (.pack c) → exec .pack s = .next t → t = { s with
    mode := t.mode, done := t.done, errcode := t.errcode, errinfo := t.errinfo, inSlot := t.inSlot, outSlot := t.outSlot
    inCount := t.inCount, outCount := t.outCount, bitcount := t.bitcount, bitpos := t.bitpos, acc := t.acc, nacc := t.nacc, nb := t.nb }) ∧
  (∀ (s t : State) c, s.mode = .busy (.unpack c) → exec .unpack s = .next t → t = { s with
    mode := t.mode, done := t.done, errcode := t.errcode, errinfo := t.errinfo, inSlot := t.inSlot, outSlot := t.outSlot
    inCount := t.inCount, outCount := t.outCount, bitcount := t.bitcount, bitpos := t.bitpos
    n := t.n, nbytes := t.nbytes, cand := t.cand, clen := t.clen, t := t.t })

/-! ### Invariants of every step -/

/-- `out_slot` is empty whenever `mode` = IDLE, and the control registers agree with `mode` (40_command_control.md R82; 10_state.md R22, R23, R24). -/
def Obligations.StepKeepsControlInv : Prop := ∀ s t : State, ControlInv s → step s = .next t → ControlInv t

/-- TOTAL is the sum of FREQ and NSYM the number of its nonzero entries, at every step; and when a COUNT completes they are those of exactly `lenL` bytes
(10_state.md R28, R29; 41_frequency_counter.md R86). And for every HOST and every order of the steps: from its acceptance COUNT keeps a trace of the bytes it took, at each step
but a reset it takes the byte in `in_slot` or none, and when it ends it took `lenL` bytes and FREQ counts them (41_frequency_counter.md R85). -/
def Obligations.StepKeepsCountInv : Prop :=
  (∀ s t : State, CountInv s → step s = .next t → CountInv t) ∧
  (∀ (s t : State) c, CountInv s → s.mode = .busy (.count c) → exec .count s = .next t → t.mode = .idle →
    t.done = true ∧ freqSum t.freq = t.lenL.toNat ∧ t.total = t.lenL ∧ t.inCount = t.lenL ∧ (countedSymbols t.freq).length = t.nsym.toNat) ∧
  (∀ s t : State, s.mode = .idle → exec .count s = .next t → CountTrace [] t) ∧
  (∀ (S : List Byte) (s t : State), CountTrace S s → step s = .next t → ¬ ResetScheduled s →
    t.lenL = s.lenL ∧ TraceStep CountTrace (CountOutcome s.lenL) S s t)

/-- Where a stream command stands agrees with IN_COUNT, at every step: no command takes more than `lenL` bytes (10_state.md R26). -/
def Obligations.StepKeepsPositionInv : Prop :=
  (∀ s t : State, PositionInv s → step s = .next t → PositionInv t) ∧
  (∀ (s t : State) (b : Byte) (r : Running), PositionInv s → s.mode = .busy r → s.inSlot = some b → exec r.instr s = .next t → t.inSlot = none →
    s.inCount.toNat < s.lenL.toNat ∧ t.inCount.toNat = s.inCount.toNat + 1)

/-- Where PACK or UNPACK stands agrees with BITPOS and OUT_COUNT, at every step (10_state.md R27, R35, R41). And for every HOST and every order of the steps: from its acceptance each
keeps a trace of the bytes it took and put out, at each step but a reset it takes the byte in `in_slot` or none, and it ends as its rule says. While it runs, what it put out since its
acceptance is a prefix of the header and the packed bytes of what PACK took (45_bit_packer.md R111, R113, R114, R115), of what `Decode` emits on the counted bits of what UNPACK took,
whatever data the artifact goes on with (46_bit_unpacker_decoder.md R116, R121). -/
def Obligations.StepKeepsProgressInv : Prop :=
  (∀ s t : State, ProgressInv s → step s = .next t → ProgressInv t) ∧
  (∀ s t : State, s.mode = .idle → exec .pack s = .next t → PackTrace s.emitted [] t) ∧
  (∀ (base S : List Byte) (s t : State), PackTrace base S s → step s = .next t → ¬ ResetScheduled s →
    t.lenL = s.lenL ∧ t.tbl = s.tbl ∧ t.expbits = s.expbits ∧ TraceStep (PackTrace base) (PackOutcome s.lenL base) S s t) ∧
  (∀ (base S : List Byte) (s : State), PackTrace base S s → s.emitted <+: base ++ headerOf s.expbits ++ packBytes (bitsOf s.tbl S)) ∧
  (∀ s t : State, s.mode = .idle → exec .unpack s = .next t → UnpackTrace s.emitted [] t) ∧
  (∀ (base S : List Byte) (s t : State), UnpackTrace base S s → step s = .next t → ¬ ResetScheduled s →
    t.lenL = s.lenL ∧ t.tbl = s.tbl ∧ TraceStep (UnpackTrace base) (UnpackOutcome s.lenL base) S s t) ∧
  (∀ (base S D E : List Byte) (n : Word) (s : State), UnpackTrace base S s → HeaderThen n s.lenL S D → ceilDiv8 n.toNat ≤ (D ++ E).length →
    s.emitted <+: base ++ (decodeBits s.tbl (((D ++ E).flatMap bitsOfByte).take n.toNat)).out)

/-- While TREE_VALID = 1 the arena, NNODES and ROOT are what BUILD makes of FREQ; while it is 0, NNODES and ROOT are 0
(10_state.md R22, R30, R31, R39). -/
def Obligations.StepKeepsTreeInv : Prop := ∀ s t : State, TreeInv s → step s = .next t → TreeInv t

/-- While HDR_VALID = 1 the TABLE, EXPBITS and MAXLEN are as DERIVE works them out from the arena; only a DERIVE that completes sets HDR_VALID, and only COUNT, BUILD,
CLRTAB, a write to TABLE words 0 to 8 of an IDLE CORE, or reset clears it (10_state.md R36; that words 9 to 15 do not is the model's reading, log 10).
DERIVE itself clears it and sets it again within one step (43_code_table_deriver.md R97). -/
def Obligations.HdrValidMeansDerived : Prop :=
  (∀ s t : State, DerivedInv s → step s = .next t → DerivedInv t) ∧
  (∀ s t : State, step s = .next t → s.hdrValid = false → t.hdrValid = true →
    s.mode = .busy .derive ∧ s.treeValid = true ∧ t.mode = .idle ∧ t.done = true ∧ t.errcode = s.errcode) ∧
  (∀ s t : State, step s = .next t → s.hdrValid = true → t.hdrValid = false →
    (∃ r, s.mode = .busy r ∧ (r.instr = .count ∨ r.instr = .build ∨ r.instr = .clrtab)) ∨
    (∃ a v rest, s.schedule = .host (.write a v) :: rest ∧
      s.mode = .idle ∧ 0x4000 ≤ a.toNat ∧ a.toNat < 0x8000 ∧ a.toNat % 64 / 4 ≤ 8) ∨ ResetScheduled s)

/-- The invariants hold right after reset (10_state.md R42). -/
def Obligations.InvariantsHoldAtReset : Prop :=
  ControlInv State.reset ∧ CountInv State.reset ∧ PositionInv State.reset ∧ ProgressInv State.reset ∧ TreeInv State.reset ∧ DerivedInv State.reset

/-- No step stops: there is always a next state, and no run from reset, whatever the HOST does, ends in a fault or a refusal
(20_memory.md R45, 60_exceptions.md R135). -/
def Obligations.NoRunStops : Prop :=
  (∀ s : State, TreeInv s → ∃ t, step s = .next t) ∧ (∀ l : List Turn, SafeRun { State.reset with schedule := l })

/-! ### COUNT -/

/-- COUNT's steps (41_frequency_counter.md R85), with an empty output slot and a byte offered where one is wanted: the clearing at the start, the counting of each byte, the
completion after `lenL` bytes.
That the hidden working registers keep their values when a command ends is the model's choice (log 23). -/
def Obligations.CountRunsItsProgram : Prop :=
  (∀ s : State, s.mode = .busy (.count .start) → s.lenL = 0#32 → s.outSlot = none →
    exec .count s = .next { s with
      freq := Vector.replicate 256 0#32, nsym := 0#9, total := 0#32, treeValid := false, hdrValid := false, nnodes := 0#10, root := 0#9
      mode := .idle, done := true }) ∧
  (∀ (s : State) (b : Byte) (k : Nat), s.mode = .busy (.count .start) → s.lenL.toNat = k + 1 → s.inSlot = some b →
    exec .count s = .next { s with
      freq := Vector.replicate 256 0#32, nsym := 0#9, total := 0#32, treeValid := false, hdrValid := false, nnodes := 0#10, root := 0#9
      inSlot := none, inCount := s.inCount + 1#32, mode := .busy (.count (.got b k)) }) ∧
  (∀ (s : State) (b : Byte), s.mode = .busy (.count (.got b 0)) → s.outSlot = none →
    exec .count s = .next { s with
      nsym := if s.freqOf b = 0#32 then s.nsym + 1#9 else s.nsym, freq := setEntryOf s.freq b (s.freqOf b + 1#32), total := s.total + 1#32
      mode := .idle, done := true }) ∧
  (∀ (s : State) (b c : Byte) (k : Nat), s.mode = .busy (.count (.got b (k + 1))) → s.inSlot = some c →
    exec .count s = .next { s with
      nsym := if s.freqOf b = 0#32 then s.nsym + 1#9 else s.nsym, freq := setEntryOf s.freq b (s.freqOf b + 1#32), total := s.total + 1#32
      inSlot := none, inCount := s.inCount + 1#32, mode := .busy (.count (.got c k)) })

/-- `SETLEN |S|; CMD COUNT; XFER [S]` on an IDLE CORE ends with FREQ, NSYM and TOTAL those of S, the trees and tables of before marked invalid and the TABLE kept
(41_frequency_counter.md R85, R86; 70_reset_and_hazards.md R148). The run is under the one interleaving the model chose for `XFER`, which 30_encoding.md R72 leaves open (log 17, the
model's choice, unsafe): with another HOST a byte may stay in `in_slot`. StepKeepsCountInv has what holds under every HOST. -/
def Obligations.CountedInputRun : Prop :=
  ∀ (s : State) (S : List Byte) (rest : List Turn), S.length < 2 ^ 32 →
    HostReady s [.setLen S.length, .cmd .count, xferLine S] rest →
    ∃ t, Reaches s t ∧ Ended t 0x00#8 0#32 rest ∧
      (∀ b, (t.freqOf b).toNat = S.count b) ∧ t.total.toNat = S.length ∧ freqSum t.freq = S.length ∧
      t.nsym.toNat = (countedSymbols t.freq).length ∧ (∀ b, b ∈ countedSymbols t.freq ↔ b ∈ S) ∧
      t.inCount.toNat = S.length ∧ t.outCount = 0#32 ∧ t.taken = s.taken ∧ t.inSlot = none ∧
      t.treeValid = false ∧ t.hdrValid = false ∧ t.nnodes = 0#10 ∧ t.root = 0#9 ∧
      t.tbl = s.tbl ∧ t.node = s.node ∧ t.expbits = s.expbits ∧ t.maxlen = s.maxlen ∧ t.irqEn = s.irqEn ∧ t.rej = s.rej ∧
      t.len = BitVec.ofNat 32 S.length

/-- Counting depends on how often each byte comes, not on the order, for any input a `lenL` of 32 bits can count (41_frequency_counter.md R87). -/
def Obligations.CountIgnoresOrder : Prop :=
  ∀ (s : State) (S S' : List Byte), S.length < 2 ^ 32 → S.Perm S' →
    (S.foldl (fun u b => countByte b u) (countClear s)).freq = (S'.foldl (fun u b => countByte b u) (countClear s)).freq ∧
    (S.foldl (fun u b => countByte b u) (countClear s)).nsym = (S'.foldl (fun u b => countByte b u) (countClear s)).nsym ∧
    (S.foldl (fun u b => countByte b u) (countClear s)).total = (S'.foldl (fun u b => countByte b u) (countClear s)).total

/-- FREQ is written only by COUNT and by reset, and what every command but COUNT and BUILD does is the same whatever FREQ holds (41_frequency_counter.md R88). -/
def Obligations.OnlyCountAndBuildUseFreq : Prop :=
  (∀ s t : State, step s = .next t → t.freq ≠ s.freq →
    (∃ c, s.mode = .busy (.count c)) ∨ ResetScheduled s) ∧
  (∀ (s t : State) (r : Running) (f : Vector Word 256), s.mode = .busy r → r.instr ≠ .count → r.instr ≠ .build →
    exec r.instr s = .next t → exec r.instr { s with freq := f } = .next { t with freq := f })

/-! ### BUILD -/

/-- BUILD takes one CORE step (42_huffman_tree_builder.md R91): EMPTY_INPUT when FREQ is all zero, with the old tree cleared; otherwise the arena of FREQ, its root and size.
It waits while the output slot is full.
That the hidden working registers keep their values when a command ends is the model's choice (log 23). -/
def Obligations.BuildRunsInOneStep : Prop :=
  ∀ s : State, s.mode = .busy .build →
    (s.outSlot = none → (∀ b, s.freqOf b = 0#32) → exec .build s = .next { s with
      treeValid := false, hdrValid := false, nnodes := 0#10, root := 0#9
      mode := .idle, done := true, errcode := 0x02#8, errinfo := 0#32 }) ∧
    (s.outSlot = none → (∃ b, s.freqOf b ≠ 0#32) → exec .build s = .next { s with
      treeValid := true, hdrValid := false
      node := (buildTree s.freq s.node).node, q := (buildTree s.freq s.node).q
      nnodes := BitVec.ofNat 10 (buildTree s.freq s.node).n, root := BitVec.ofNat 9 ((buildTree s.freq s.node).q.headD 0)
      mode := .idle, done := true }) ∧
    (∀ b, s.outSlot = some b → exec .build s = .next s)

/-- `ExtractMin(Q)` returns the one index of Q that precedes every other, by frequency and then by arena index, and takes it out of Q
(42_huffman_tree_builder.md R89). -/
def Obligations.ExtractMinTakesTheFirst : Prop :=
  ∀ (v : Vector Node 511) (q : List Nat), q ≠ [] → ∃ m, extractMin v q = some (m, q.erase m) ∧ m ∈ q ∧
    ∀ j ∈ q, j ≠ m →
      (nodeAt v m).freq.toNat < (nodeAt v j).freq.toNat ∨ ((nodeAt v m).freq.toNat = (nodeAt v j).freq.toNat ∧ m < j)

/-- After BUILD completes, with K nonzero FREQ entries, the arena is a strict binary tree over the K leaves (42_huffman_tree_builder.md R93, clauses 1 to 6).
`CountInv` rules out states in which the counts do not add up to TOTAL. -/
def Obligations.BuildMakesAStrictTree : Prop :=
  ∀ s : State, s.mode = .busy .build → s.outSlot = none → CountInv s → countedSymbols s.freq ≠ [] →
    ∃ t, exec .build s = .next t ∧ t.treeValid = true ∧ t.mode = .idle ∧ t.errcode = s.errcode ∧ t.freq = s.freq ∧
      t.nnodes.toNat = 2 * (countedSymbols s.freq).length - 1 ∧ t.root.toNat = t.nnodes.toNat - 1 ∧
      (∀ i (h : i < (countedSymbols s.freq).length),
        nodeAt t.node i = .leaf (countedSymbols s.freq)[i] (s.freqOf (countedSymbols s.freq)[i])) ∧
      (∀ i, (countedSymbols s.freq).length ≤ i → i < t.nnodes.toNat → ∃ f l r, nodeAt t.node i = .internal f l r ∧
        l.toNat < i ∧ r.toNat < i ∧ l ≠ r ∧ f.toNat = (nodeAt t.node l.toNat).freq.toNat + (nodeAt t.node r.toNat).freq.toNat ∧
        precedes t.node l.toNat r.toNat = true) ∧
      (∀ j, j < t.root.toNat → ∃ i, (countedSymbols s.freq).length ≤ i ∧ i < t.nnodes.toNat ∧
        (∃ f l r, nodeAt t.node i = .internal f l r ∧ (l.toNat = j ∨ r.toNat = j)) ∧
        ∀ i', i' < t.nnodes.toNat → (∃ f l r, nodeAt t.node i' = .internal f l r ∧ (l.toNat = j ∨ r.toNat = j)) → i' = i) ∧
      (nodeAt t.node t.root.toNat).freq = s.total

/-- The leaves are the symbols with a nonzero count in ascending unsigned order, one each (42_huffman_tree_builder.md R90); with one symbol the tree is that leaf alone
(R92). -/
def Obligations.LeavesAscendAndOneSymbolIsOneLeaf : Prop :=
  (∀ freq : Vector Word 256, (∀ b, b ∈ countedSymbols freq ↔ entryOf freq b ≠ 0#32) ∧
    (countedSymbols freq).Pairwise (fun a b => a.toNat < b.toNat)) ∧
  (∀ (s : State) (x : Byte), s.mode = .busy .build → s.outSlot = none → countedSymbols s.freq = [x] →
    ∃ t, exec .build s = .next t ∧ nodeAt t.node 0 = .leaf x (s.freqOf x) ∧ t.root = 0#9 ∧ t.nnodes = 1#10 ∧ t.treeValid = true)

/-- The arena BUILD produces is a function of FREQ alone (42_huffman_tree_builder.md R96). -/
def Obligations.BuildDependsOnFreqAlone : Prop :=
  ∀ s s' t t' : State, s.mode = .busy .build → s'.mode = .busy .build → s.outSlot = none → s'.outSlot = none → s.freq = s'.freq →
    exec .build s = .next t → exec .build s' = .next t' →
    t.treeValid = t'.treeValid ∧ t.nnodes = t'.nnodes ∧ t.root = t'.root ∧ ∀ i, i < t.nnodes.toNat → nodeAt t.node i = nodeAt t'.node i

/-! ### DERIVE -/

/-- DERIVE without a valid tree fails with NO_TREE and writes nothing else (43_code_table_deriver.md R97; 60_exceptions.md R130).
That the hidden working registers keep their values when a command ends is the model's choice (log 23). -/
def Obligations.DeriveNeedsATree : Prop :=
  ∀ s : State, s.mode = .busy .derive → s.treeValid = false → s.outSlot = none →
    exec .derive s = .next { s with mode := .idle, done := true, errcode := 0x03#8, errinfo := 0#32 }

/-- With the tree of a BUILD, DERIVE completes in one CORE step: it writes TABLE, EXPBITS and MAXLEN from the walk and sets HDR_VALID (43_code_table_deriver.md R97).
That the hidden working registers keep their values when a command ends is the model's choice (log 23). -/
def Obligations.DeriveCompletes : Prop :=
  ∀ s : State, s.mode = .busy .derive → s.treeValid = true → TreeInv s → s.outSlot = none →
    ∃ d, deriveCodes s.node s.root.toNat (invalidateAll s.tbl) = some d ∧
      exec .derive s = .next { s with
        tbl := d.tbl, expbits := BitVec.ofNat 40 d.h, maxlen := BitVec.ofNat 8 d.m, hdrValid := true, mode := .idle, done := true }

/-- After a successful DERIVE the valid entries are exactly the symbols of the tree, lengths are 1 to 255, no valid code is a prefix of another, and with two or more symbols
each code is the path of its leaf, "0" left and "1" right (43_code_table_deriver.md R101). Entries outside the tree keep `len` and `code` (R97). -/
def Obligations.DerivedTableIsPrefixFree : Prop :=
  ∀ s t : State, s.mode = .busy .derive → s.treeValid = true → TreeInv s → s.outSlot = none → exec .derive s = .next t →
    (∀ b, (t.entry b).valid = true ↔ s.freqOf b ≠ 0#32) ∧
    (∀ b, (t.entry b).valid = true → 1 ≤ (t.entry b).len.toNat ∧ (t.entry b).len.toNat ≤ 255) ∧
    (∀ x y : Byte, x ≠ y → (t.entry x).valid = true → (t.entry y).valid = true → ¬ (t.entry x).bits <+: (t.entry y).bits) ∧
    (2 ≤ (countedSymbols s.freq).length → ∀ b, (t.entry b).valid = true →
      walkPath s.node s.root.toNat (t.entry b).bits = .leaf b (s.freqOf b)) ∧
    (∀ b, s.freqOf b = 0#32 → t.entry b = { s.entry b with valid := false })

/-- With K symbols, every code DERIVE makes has at most K - 1 bits, or 1 bit when K = 1, and MAXLEN is the longest length (42_huffman_tree_builder.md R95, 10_state.md R32). -/
def Obligations.CodeLengthsAreBoundedByTheTree : Prop :=
  ∀ s t : State, s.mode = .busy .derive → s.treeValid = true → TreeInv s → s.outSlot = none → exec .derive s = .next t →
    (∀ b, (t.entry b).valid = true → (t.entry b).len.toNat ≤ max 1 ((countedSymbols s.freq).length - 1)) ∧
    (∀ b, (t.entry b).valid = true → (t.entry b).len.toNat ≤ t.maxlen.toNat) ∧
    (∃ b, (t.entry b).valid = true ∧ (t.entry b).len = t.maxlen)

/-- EXPBITS after a successful DERIVE is the sum of frequency times length over the symbols; for any S whose byte counts are FREQ it is the number of bits of S under the new
TABLE; and it lies between TOTAL and 255 times TOTAL, so the 40 bits of EXPBITS lose nothing (43_code_table_deriver.md R99, R100). -/
def Obligations.ExpectedBitsAreExact : Prop :=
  ∀ s t : State, s.mode = .busy .derive → s.treeValid = true → TreeInv s → CountInv s → s.outSlot = none → exec .derive s = .next t →
    t.expbits.toNat = ((countedSymbols s.freq).map fun b => (s.freqOf b).toNat * (t.entry b).len.toNat).sum ∧
    (∀ S : List Byte, (∀ b, (s.freqOf b).toNat = S.count b) → t.expbits.toNat = nbitsOf t.tbl S) ∧
    1 ≤ t.total.toNat ∧ t.total.toNat ≤ t.expbits.toNat ∧ t.expbits.toNat ≤ 255 * t.total.toNat

/-- When the tree is a single leaf for symbol x, DERIVE gives x the code "0" and EXPBITS is its frequency (43_code_table_deriver.md R98). -/
def Obligations.OneSymbolGetsTheCodeZero : Prop :=
  ∀ (s : State) (x : Byte) (f : Word), s.mode = .busy .derive → s.treeValid = true → s.outSlot = none → nodeAt s.node s.root.toNat = .leaf x f →
    ∃ t, exec .derive s = .next t ∧ t.entry x = { valid := true, len := 1#8, code := 0#256 } ∧ (t.entry x).bits = [false] ∧
      t.expbits.toNat = f.toNat ∧ t.maxlen = 1#8 ∧ t.hdrValid = true ∧ t.mode = .idle ∧
      ∀ b, b ≠ x → t.entry b = { s.entry b with valid := false }

/-! ### CLRTAB -/

/-- CLRTAB clears every `valid` bit and HDR_VALID, keeps every `len` and `code`, and completes; it waits while the output slot is full (44_code_table_sram.md R104).
That the hidden working registers keep their values when a command ends is the model's choice (log 23). -/
def Obligations.ClrtabInvalidatesEveryEntry : Prop :=
  ∀ s : State, s.mode = .busy .clrtab →
    (s.outSlot = none → ∃ t, exec .clrtab s = .next t ∧ t = { s with tbl := t.tbl, hdrValid := false, mode := .idle, done := true } ∧
      ∀ b, (t.entry b).valid = false ∧ (t.entry b).len = (s.entry b).len ∧ (t.entry b).code = (s.entry b).code) ∧
    (∀ b, s.outSlot = some b → exec .clrtab s = .next s)

/-! ### PACK -/

/-- PACK's checks, in their order and before any byte is taken or emitted; when all pass, BITCOUNT takes the header and its first byte is emitted
(45_bit_packer.md R112, R111).
That the hidden working registers keep their values when a command ends is the model's choice (log 23). -/
def Obligations.PackChecksBeforeAnyByte : Prop :=
  ∀ s : State, s.mode = .busy (.pack .start) → s.outSlot = none →
    (s.lenL = 0#32 → exec .pack s = .next { s with mode := .idle, done := true, errcode := 0x02#8, errinfo := 0#32 }) ∧
    (s.lenL ≠ 0#32 → s.hdrValid = false → exec .pack s = .next { s with mode := .idle, done := true, errcode := 0x04#8, errinfo := 0#32 }) ∧
    (s.lenL ≠ 0#32 → s.hdrValid = true → 2 ^ 31 - 1 < s.expbits.toNat →
      exec .pack s = .next { s with mode := .idle, done := true, errcode := 0x05#8, errinfo := s.expbits.extractLsb' 0 32 }) ∧
    (s.lenL ≠ 0#32 → s.hdrValid = true → s.expbits.toNat ≤ 2 ^ 31 - 1 →
      exec .pack s = .next { s with
        bitcount := s.expbits.extractLsb' 0 32, outSlot := some (s.expbits.extractLsb' 0 8), outCount := s.outCount + 1#32
        mode := .busy (.pack (.hdr 1)) })

/-- An input byte whose entry is not usable fails PACK with NO_CODE, ERRINFO the byte, nothing else changed; the other bytes never raise NO_CODE
(45_bit_packer.md R113; 44_code_table_sram.md R108).
That the hidden working registers keep their values when a command ends is the model's choice (log 23). -/
def Obligations.PackFailsOnAnUncodedByte : Prop :=
  (∀ (s : State) (b : Byte) (left : Nat), s.mode = .busy (.pack (.got b left)) → s.outSlot = none →
    ((s.entry b).valid = false ∨ (s.entry b).len = 0#8) →
    exec .pack s = .next { s with mode := .idle, done := true, errcode := 0x06#8, errinfo := b.setWidth 32 }) ∧
  (∀ (s t : State) (b : Byte) (left : Nat), s.mode = .busy (.pack (.got b left)) → s.errcode = 0#8 →
    (s.entry b).valid = true → (s.entry b).len ≠ 0#8 → exec .pack s = .next t → t.errcode ≠ 0x06#8)

/-- `PackBytes(B)`: the number of bytes, the place of every bit, zero padding; and the length of `Bits(S)` is `nbits(S)` (45_bit_packer.md R110). -/
def Obligations.PackedBytesHoldTheBits : Prop :=
  (∀ (tbl : Vector Entry 256) (S : List Byte), (bitsOf tbl S).length = nbitsOf tbl S) ∧
  (∀ B : List Bool, (packBytes B).length = ceilDiv8 B.length ∧
    (∀ j (h : j < B.length), ((packBytes B).getD (j / 8) 0#8).getLsbD (7 - j % 8) = B[j]) ∧
    (∀ j, B.length ≤ j → j < 8 * ceilDiv8 B.length → ((packBytes B).getD (j / 8) 0#8).getLsbD (7 - j % 8) = false))

/-- `SETLEN |S|; CMD PACK; XFER [S]` with a derived TABLE in which every byte of S is usable: the header and the packed bytes of S are emitted; PACK completes when the bits of S
are EXPBITS in number and fails with PACK_LENGTH, ERRINFO that number, when they are not (45_bit_packer.md R111, R114, R115). The run is under the one interleaving the model chose
for `XFER`, which 30_encoding.md R72 leaves open (log 17, the model's choice, unsafe); StepKeepsProgressInv has what holds under every HOST. -/
def Obligations.PackRun : Prop :=
  ∀ (s : State) (S : List Byte) (rest : List Turn), S ≠ [] → S.length < 2 ^ 32 → s.hdrValid = true → s.expbits.toNat ≤ 2 ^ 31 - 1 →
    (∀ b ∈ S, (s.entry b).usable = true) → HostReady s [.setLen S.length, .cmd .pack, xferLine S] rest →
    ∃ t, Reaches s t ∧
      (nbitsOf s.tbl S = s.expbits.toNat → Ended t 0x00#8 0#32 rest) ∧
      (nbitsOf s.tbl S ≠ s.expbits.toNat → Ended t 0x07#8 (BitVec.ofNat 32 (nbitsOf s.tbl S)) rest) ∧
      t.taken = s.taken ++ headerOf s.expbits ++ packBytes (bitsOf s.tbl S) ∧
      t.inCount.toNat = S.length ∧ t.outCount = BitVec.ofNat 32 (4 + ceilDiv8 (nbitsOf s.tbl S)) ∧
      t.bitcount = s.expbits.extractLsb' 0 32 ∧ t.bitpos = BitVec.ofNat 32 (nbitsOf s.tbl S) ∧
      t.tbl = s.tbl ∧ t.freq = s.freq ∧ t.node = s.node ∧ t.treeValid = s.treeValid ∧ t.hdrValid = true ∧ t.expbits = s.expbits ∧
      t.inSlot = none ∧ t.irqEn = s.irqEn ∧ t.rej = s.rej

/-- A PACK whose first byte without a usable entry is b, after S, fails with NO_CODE; the output holds the header and every whole packed byte of S, the bits of the partial byte
are dropped, and what the HOST has not offered stays with it (60_exceptions.md R130; 45_bit_packer.md R111). That `in_slot` is then empty and the rest with the HOST is
the model's choice, not the spec's: its `XFER` offers a byte only when the CORE waits for one (log 17, unsafe), and another HOST may leave a byte in `in_slot`. StepKeepsProgressInv has
what holds under every HOST. -/
def Obligations.PackRunStopsAtAnUncodedByte : Prop :=
  ∀ (s : State) (S more : List Byte) (b : Byte) (rest : List Turn), (S ++ b :: more).length < 2 ^ 32 → s.hdrValid = true →
    s.expbits.toNat ≤ 2 ^ 31 - 1 → (∀ c ∈ S, (s.entry c).usable = true) → (s.entry b).usable = false →
    HostReady s [.setLen (S ++ b :: more).length, .cmd .pack, xferLine (S ++ b :: more)] rest →
    ∃ t, Reaches s t ∧ Ended t 0x06#8 (b.setWidth 32) rest ∧
      t.taken = s.taken ++ headerOf s.expbits ++ (packBytes (bitsOf s.tbl S)).take (nbitsOf s.tbl S / 8) ∧
      t.inCount.toNat = S.length + 1 ∧ t.inSlot = none ∧ t.bitpos = BitVec.ofNat 32 (nbitsOf s.tbl S) ∧ t.tbl = s.tbl ∧ t.hdrValid = true

/-! ### UNPACK -/

/-- UNPACK of fewer than 4 bytes fails with TRUNCATED, ERRINFO `lenL`, before any byte is taken; otherwise it takes its four header bytes (46_bit_unpacker_decoder.md R116).
That the hidden working registers keep their values when a command ends is the model's choice (log 23). -/
def Obligations.UnpackTakesItsHeader : Prop :=
  (∀ s : State, s.mode = .busy (.unpack .start) → s.lenL.toNat < 4 → s.outSlot = none →
    exec .unpack s = .next { s with mode := .idle, done := true, errcode := 0x08#8, errinfo := s.lenL }) ∧
  (∀ (s : State) (b : Byte), s.mode = .busy (.unpack .start) → 4 ≤ s.lenL.toNat → s.inSlot = some b →
    exec .unpack s = .next { s with inSlot := none, inCount := s.inCount + 1#32, mode := .busy (.unpack (.got0 b)) }) ∧
  (∀ (s : State) (h0 b : Byte), s.mode = .busy (.unpack (.got0 h0)) → s.inSlot = some b →
    exec .unpack s = .next { s with inSlot := none, inCount := s.inCount + 1#32, mode := .busy (.unpack (.got1 h0 b)) }) ∧
  (∀ (s : State) (h0 h1 b : Byte), s.mode = .busy (.unpack (.got1 h0 h1)) → s.inSlot = some b →
    exec .unpack s = .next { s with inSlot := none, inCount := s.inCount + 1#32, mode := .busy (.unpack (.got2 h0 h1 b)) }) ∧
  (∀ (s : State) (h0 h1 h2 b : Byte), s.mode = .busy (.unpack (.got2 h0 h1 h2)) → s.inSlot = some b →
    exec .unpack s = .next { s with inSlot := none, inCount := s.inCount + 1#32, mode := .busy (.unpack (.got3 h0 h1 h2 b)) })

/-- UNPACK's header checks: the header is h3 : h2 : h1 : h0, a negative one fails with HDR_NEGATIVE, one whose bits the rest of the artifact cannot hold with TRUNCATED, and
BITCOUNT takes it in every case; then, if bits are to come, the first data byte is taken with an empty candidate. With no bits to come UNPACK completes when the artifact is the header
alone, and takes the first trailing byte when it is not (46_bit_unpacker_decoder.md R116, R117).
That the hidden working registers keep their values when a command ends is the model's choice (log 23). -/
def Obligations.UnpackChecksItsHeader : Prop :=
  ∀ (s : State) (h0 h1 h2 h3 : Byte), s.mode = .busy (.unpack (.got3 h0 h1 h2 h3)) →
    ((h3 ++ h2 ++ h1 ++ h0).toInt < 0 → s.outSlot = none → exec .unpack s = .next { s with
      bitcount := h3 ++ h2 ++ h1 ++ h0, n := h3 ++ h2 ++ h1 ++ h0
      mode := .idle, done := true, errcode := 0x09#8, errinfo := h3 ++ h2 ++ h1 ++ h0 }) ∧
    (0 ≤ (h3 ++ h2 ++ h1 ++ h0).toInt → s.lenL.toNat - 4 < ceilDiv8 (h3 ++ h2 ++ h1 ++ h0).toNat → s.outSlot = none →
      exec .unpack s = .next { s with
        bitcount := h3 ++ h2 ++ h1 ++ h0, n := h3 ++ h2 ++ h1 ++ h0
        nbytes := BitVec.ofNat 29 (ceilDiv8 (h3 ++ h2 ++ h1 ++ h0).toNat)
        mode := .idle, done := true, errcode := 0x08#8, errinfo := s.lenL }) ∧
    (∀ (k : Nat) (b : Byte), 0 ≤ (h3 ++ h2 ++ h1 ++ h0).toInt → ceilDiv8 (h3 ++ h2 ++ h1 ++ h0).toNat ≤ s.lenL.toNat - 4 →
      ceilDiv8 (h3 ++ h2 ++ h1 ++ h0).toNat = k + 1 → s.inSlot = some b →
      exec .unpack s = .next { s with
        bitcount := h3 ++ h2 ++ h1 ++ h0, n := h3 ++ h2 ++ h1 ++ h0, nbytes := BitVec.ofNat 29 (k + 1)
        cand := 0#256, clen := 0#8, t := 0#32
        inSlot := none, inCount := s.inCount + 1#32, mode := .busy (.unpack (.gotData b k)) }) ∧
    (h3 ++ h2 ++ h1 ++ h0 = 0#32 → s.lenL.toNat = 4 → s.outSlot = none →
      exec .unpack s = .next { s with
        bitcount := 0#32, n := 0#32, nbytes := 0#29, cand := 0#256, clen := 0#8, t := 0#32, mode := .idle, done := true }) ∧
    (∀ (k : Nat) (b : Byte), h3 ++ h2 ++ h1 ++ h0 = 0#32 → s.lenL.toNat = 4 + (k + 1) → s.inSlot = some b →
      exec .unpack s = .next { s with
        bitcount := 0#32, n := 0#32, nbytes := 0#29, cand := 0#256, clen := 0#8, t := 0#32
        inSlot := none, inCount := s.inCount + 1#32, mode := .busy (.unpack (.gotTail k)) })

/-- `Match(L, c)` is the set of symbols whose entry is valid, of length L, with the same low L bits; entries of length 0 never match a candidate of at least one bit; under a
prefix-free table at most one symbol matches (44_code_table_sram.md R109). -/
def Obligations.MatchComparesTheWholeCode : Prop :=
  ∀ (tbl : Vector Entry 256) (l : BitVec 8) (c : CodeBits), 1 ≤ l.toNat →
    (∀ x, x ∈ matchSet tbl l c ↔ (entryOf tbl x).valid = true ∧ (entryOf tbl x).len = l ∧
      ∀ i, i < l.toNat → (entryOf tbl x).code.getLsbD i = c.getLsbD i) ∧
    (∀ x, (entryOf tbl x).len = 0#8 → x ∉ matchSet tbl l c) ∧
    (PrefixFree tbl → (matchSet tbl l c).length ≤ 1)

/-- `SETLEN |A|; CMD UNPACK; XFER [A]` for an artifact A of a header n >= 0, data D and trailing bytes T: the bytes emitted are those of `Decode(T, B)` for B the first n packed
bits, and UNPACK completes, having taken all of A, exactly when `Decode` yields Ok; else it fails with `Decode`'s code and bit count (46_bit_unpacker_decoder.md R116, R121). The run is under the one interleaving the model chose for
`XFER`, which 30_encoding.md R72 leaves open (log 17, the model's choice, unsafe); StepKeepsProgressInv has what holds under every HOST. -/
def Obligations.UnpackRunIsDecode : Prop :=
  ∀ (s : State) (h0 h1 h2 h3 : Byte) (D T : List Byte) (rest : List Turn),
    0 ≤ (h3 ++ h2 ++ h1 ++ h0).toInt → D.length = ceilDiv8 (h3 ++ h2 ++ h1 ++ h0).toNat → 4 + D.length + T.length < 2 ^ 32 →
    HostReady s [.setLen (4 + D.length + T.length), .cmd .unpack, xferLine (h0 :: h1 :: h2 :: h3 :: (D ++ T))] rest →
    ∃ t, Reaches s t ∧
      t.taken = s.taken ++ (decodeBits s.tbl ((D.flatMap bitsOfByte).take (h3 ++ h2 ++ h1 ++ h0).toNat)).out ∧
      t.outCount = BitVec.ofNat 32 (decodeBits s.tbl ((D.flatMap bitsOfByte).take (h3 ++ h2 ++ h1 ++ h0).toNat)).out.length ∧
      (∀ e k, (decodeBits s.tbl ((D.flatMap bitsOfByte).take (h3 ++ h2 ++ h1 ++ h0).toNat)).err = some (e, k) →
        Ended t e.code (BitVec.ofNat 32 k) rest ∧ t.bitpos = BitVec.ofNat 32 k) ∧
      ((decodeBits s.tbl ((D.flatMap bitsOfByte).take (h3 ++ h2 ++ h1 ++ h0).toNat)).err = none →
        Ended t 0x00#8 0#32 rest ∧ t.inCount.toNat = 4 + D.length + T.length ∧ t.inSlot = none ∧ t.bitpos = h3 ++ h2 ++ h1 ++ h0) ∧
      t.bitcount = h3 ++ h2 ++ h1 ++ h0 ∧
      t.tbl = s.tbl ∧ t.freq = s.freq ∧ t.node = s.node ∧ t.treeValid = s.treeValid ∧ t.hdrValid = s.hdrValid ∧ t.irqEn = s.irqEn ∧ t.rej = s.rej

/-- How PACK begins and how PACK and UNPACK end. PACK's header goes out in four bytes, little-endian; after the fourth PACK clears its packer and takes the first input byte. After the padded
last byte PACK completes when it packed EXPBITS bits and fails with PACK_LENGTH, ERRINFO the number of bits packed, when it did not. UNPACK takes the trailing bytes one by one, with nothing
else changed, and completes after the last (45_bit_packer.md R111, R114; 30_encoding.md R67; 46_bit_unpacker_decoder.md R116, R120).
That the hidden working registers keep their values when a command ends is the model's choice (log 23). -/
def Obligations.PackHeaderAndStreamEnds : Prop :=
  (∀ (s : State) (k : Nat), s.mode = .busy (.pack (.hdr k)) → k < 4 → s.outSlot = none →
    exec .pack s = .next { s with
      outSlot := some (s.expbits.extractLsb' (8 * k) 8), outCount := s.outCount + 1#32, mode := .busy (.pack (.hdr (k + 1))) }) ∧
  (∀ (s : State) (k : Nat) (b : Byte), s.mode = .busy (.pack (.hdr 4)) → s.lenL.toNat = k + 1 → s.inSlot = some b →
    exec .pack s = .next { s with
      acc := 0#8, nacc := 0#4, nb := 0#40, inSlot := none, inCount := s.inCount + 1#32, mode := .busy (.pack (.got b k)) }) ∧
  (∀ s : State, s.mode = .busy (.pack .tail) → s.outSlot = none →
    (s.nb = s.expbits → exec .pack s = .next { s with mode := .idle, done := true }) ∧
    (s.nb ≠ s.expbits → exec .pack s = .next { s with mode := .idle, done := true, errcode := 0x07#8, errinfo := s.nb.extractLsb' 0 32 })) ∧
  (∀ s : State, s.mode = .busy (.unpack (.gotTail 0)) → s.outSlot = none →
    exec .unpack s = .next { s with mode := .idle, done := true }) ∧
  (∀ (s : State) (k : Nat) (b : Byte), s.mode = .busy (.unpack (.gotTail (k + 1))) → s.inSlot = some b →
    exec .unpack s = .next { s with inSlot := none, inCount := s.inCount + 1#32, mode := .busy (.unpack (.gotTail k)) })

/-- Under a prefix-free table in which every byte of S is usable, `Decode` of the first nbits(S) bits of the packed bytes of S gives S back (46_bit_unpacker_decoder.md R118, R122). -/
def Obligations.DecodeUndoesPack : Prop :=
  ∀ (tbl : Vector Entry 256) (S : List Byte), PrefixFree tbl → (∀ b ∈ S, (entryOf tbl b).usable = true) →
    decodeBits tbl (((packBytes (bitsOf tbl S)).flatMap bitsOfByte).take (nbitsOf tbl S)) = { out := S, err := none }

/-- The round-trip law (46_bit_unpacker_decoder.md R122): for every S of 1 to 2^32 - 1 bytes, COUNT of S, BUILD and DERIVE succeed; then, when EXPBITS <= 2^31 - 1, PACK of S succeeds and
emits an artifact A; then UNPACK of A, on any IDLE CORE whose TABLE is the one DERIVE left (untouched in between, or saved and reloaded), completes and emits exactly S. The HOST runs the
script of 70_reset_and_hazards.md R148, each `XFER` in it under the one interleaving the model chose, which 30_encoding.md R72 leaves open (log 17, the model's choice, unsafe).
StepKeepsCountInv and StepKeepsProgressInv have what each transfer does under every HOST. -/
def Obligations.RoundTripLaw : Prop :=
  ∀ (s : State) (S : List Byte), 1 ≤ S.length → S.length < 2 ^ 32 →
    HostReady s [.setLen S.length, .cmd .count, xferLine S, .ack, .cmd .build, .waitDone, .ack, .cmd .derive, .waitDone] [] →
    ∃ t, Reaches s t ∧ Ended t 0x00#8 0#32 [] ∧ t.inSlot = none ∧ t.taken = s.taken ∧ t.hdrValid = true ∧ t.expbits.toNat = nbitsOf t.tbl S ∧
      (t.expbits.toNat ≤ 2 ^ 31 - 1 →
        ∃ u, Reaches { t with schedule := scriptTurns [.ack, .setLen S.length, .cmd .pack, xferLine S] } u ∧ Ended u 0x00#8 0#32 [] ∧
          u.inSlot = none ∧ u.tbl = t.tbl ∧ u.taken = t.taken ++ headerOf t.expbits ++ packBytes (bitsOf t.tbl S) ∧
          ∀ w : State, w.tbl = t.tbl →
            HostReady w [.setLen (headerOf t.expbits ++ packBytes (bitsOf t.tbl S)).length, .cmd .unpack,
              xferLine (headerOf t.expbits ++ packBytes (bitsOf t.tbl S))] [] →
            ∃ v, Reaches w v ∧ Ended v 0x00#8 0#32 [] ∧ v.inSlot = none ∧ v.taken = w.taken ++ S)

/-! ### The bus -/

/-- The map of the host address space: the 19 registers in order, FREQ, NODE and TABLE in their windows, and everything else unmapped, reading 0 and ignoring writes
(20_memory.md R44). A write to a read-only register, to FREQ or to NODE has no effect, in either mode (R47); a read of FREQ while IDLE is `freq[b]` (R46, 10_state.md R38). -/
def Obligations.AddressMapIsAsLaidOut : Prop :=
  (∀ r : Reg, decodeAddr r.offset = .reg r) ∧
  (∀ (a : Addr) (b : Byte), a.toNat = 0x0400 + 4 * b.toNat → decodeAddr a = .freq b) ∧
  (∀ (a : Addr) (i : Nat), i < 511 →
    (a.toNat = 0x1000 + 8 * i → decodeAddr a = .node i false) ∧ (a.toNat = 0x1004 + 8 * i → decodeAddr a = .node i true)) ∧
  (∀ (a : Addr) (e : Byte) (w : Nat), w < 16 → a.toNat = 0x4000 + 64 * e.toNat + 4 * w → decodeAddr a = .table e w) ∧
  (∀ (a : Addr) (v : Word) (s : State),
    ((0x004C ≤ a.toNat ∧ a.toNat ≤ 0x03FF) ∨ (0x0800 ≤ a.toNat ∧ a.toNat ≤ 0x0FFF) ∨ (0x1FF8 ≤ a.toNat ∧ a.toNat ≤ 0x3FFF) ∨ 0x8000 ≤ a.toNat) →
    readWord a s = 0#32 ∧ hostWrite a v s = .next s) ∧
  (∀ (a : Addr) (v : Word) (s : State),
    ((0x0400 ≤ a.toNat ∧ a.toNat ≤ 0x07FF) ∨ (0x1000 ≤ a.toNat ∧ a.toNat ≤ 0x1FF7)) → hostWrite a v s = .next s) ∧
  (∀ (a : Addr) (v : Word) (s : State),
    (a.toNat / 4 ≤ 1 ∨ a.toNat / 4 = 5 ∨ a.toNat / 4 = 6 ∨ (8 ≤ a.toNat / 4 ∧ a.toNat / 4 ≤ 18)) → hostWrite a v s = .next s) ∧
  (∀ (a : Addr) (b : Byte) (s : State), s.mode = .idle → a.toNat = 0x0400 + 4 * b.toNat → readWord a s = s.freqOf b)

/-- Address bits [1:0] are ignored by every access, and no access stops the machine (20_memory.md R45). -/
def Obligations.AccessesMoveOneWord : Prop :=
  (∀ (a b : Addr) (s : State), a.toNat / 4 = b.toNat / 4 → readWord a s = readWord b s) ∧
  (∀ (a b : Addr) (v : Word) (s : State), a.toNat / 4 = b.toNat / 4 → hostWrite a v s = hostWrite b v s) ∧
  (∀ (a : Addr) (v : Word) (s : State), ∃ t, hostWrite a v s = .next t)

/-- A read changes nothing of the CORE, and reading a word that is no draw again returns the same value: any word while IDLE but a NODE word from NNODES on; in either mode every register
that is no unit register, STATUS in all bits but 4 and 5, and every unmapped word (20_memory.md R46, R48, R49; that each read spends a draw is the model's, log 4). -/
def Obligations.ReadsChangeNothing : Prop :=
  (∀ (a : Addr) (s : State), hostRead a s = { s with reads := s.reads ++ [readWord a s], draws := s.draws + 1 }) ∧
  (∀ (a b : Addr) (s : State), s.mode = .idle → (∀ i x, decodeAddr a = .node i x → i < s.nnodes.toNat) → TreeInv s →
    readWord a (hostRead b s) = readWord a s) ∧
  (∀ (a b : Addr) (s : State), (a.toNat / 4 < 4 ∨ (5 ≤ a.toNat / 4 ∧ a.toNat / 4 ≤ 9) ∨ decodeAddr a = .unmapped) →
    readWord a (hostRead b s) = readWord a s) ∧
  (∀ (a b : Addr) (s : State) (i : Nat), a.toNat / 4 = 4 → i ≠ 4 → i ≠ 5 → (readWord a (hostRead b s)).getLsbD i = (readWord a s).getLsbD i)

/-- What each register reads as (10_state.md R18 to R35), the unit registers while IDLE, the others at all times. -/
def Obligations.RegistersReadTheirFields : Prop :=
  (∀ s : State, readWord 0x000#16 s = 0x48554646#32 ∧ readWord 0x004#16 s = 0x00000001#32 ∧
    readWord 0x008#16 s = (if s.irqEn then 1#32 else 0#32) ∧ readWord 0x00C#16 s = 0#32 ∧
    readWord 0x014#16 s = 0#24 ++ s.errcode ∧ readWord 0x018#16 s = s.errinfo ∧ readWord 0x01C#16 s = s.len ∧
    readWord 0x020#16 s = s.inCount ∧ readWord 0x024#16 s = s.outCount) ∧
  (∀ s : State, s.mode = .idle →
    readWord 0x028#16 s = 0#23 ++ s.nsym ∧ readWord 0x02C#16 s = s.total ∧ readWord 0x030#16 s = 0#22 ++ s.nnodes ∧
    readWord 0x034#16 s = 0#23 ++ s.root ∧ readWord 0x038#16 s = 0#24 ++ s.maxlen ∧
    readWord 0x040#16 s ++ readWord 0x03C#16 s = 0#24 ++ s.expbits ∧
    readWord 0x044#16 s = s.bitcount ∧ readWord 0x048#16 s = s.bitpos)

/-- STATUS: what each bit reads as, TREE_VALID and HDR_VALID while IDLE only; and what a write does (10_state.md R22). -/
def Obligations.StatusReadsAndClears : Prop :=
  (∀ s : State,
    ((readWord 0x010#16 s).getLsbD 0 = true ↔ s.mode ≠ .idle) ∧ (readWord 0x010#16 s).getLsbD 1 = s.done ∧
    ((readWord 0x010#16 s).getLsbD 2 = true ↔ s.errcode ≠ 0#8) ∧ (readWord 0x010#16 s).getLsbD 3 = s.rej ∧
    (s.mode = .idle → (readWord 0x010#16 s).getLsbD 4 = s.treeValid ∧ (readWord 0x010#16 s).getLsbD 5 = s.hdrValid) ∧
    (readWord 0x010#16 s).extractLsb' 6 2 = 0#2 ∧ (readWord 0x010#16 s).extractLsb' 8 4 = s.opc ∧
    (readWord 0x010#16 s).extractLsb' 12 20 = 0#20) ∧
  (∀ (a : Addr) (v : Word) (s : State), a.toNat / 4 = 4 →
    hostWrite a v s = .next { s with done := if v.getLsbD 1 then false else s.done, rej := if v.getLsbD 3 then false else s.rej })

/-- While BUSY, reads of the unit registers and of FREQ, NODE and TABLE return a draw, as do STATUS bits 4 and 5: the value is that of the free value `Config.readDraw`
and of nothing in the state but the count of draws (20_memory.md R48; that one draw serves the whole word is the model's choice, log 21). -/
def Obligations.UnitReadsWhileBusyAreDraws : Prop :=
  ∀ (s : State) (r : Running) (a : Addr), s.mode = .busy r →
    ((0x028 ≤ a.toNat ∧ a.toNat < 0x04C) ∨ (0x0400 ≤ a.toNat ∧ a.toNat < 0x0800) ∨ (0x1000 ≤ a.toNat ∧ a.toNat < 0x1FF8) ∨
      (0x4000 ≤ a.toNat ∧ a.toNat < 0x8000) → readWord a s = Config.readDraw s.draws) ∧
    (a.toNat / 4 = 4 → (readWord a s).getLsbD 4 = (Config.readDraw s.draws).getLsbD 4 ∧
      (readWord a s).getLsbD 5 = (Config.readDraw s.draws).getLsbD 5)

/-- A write of v to CTRL, in either mode: v[1] = 0 sets IRQ_EN to v[0] and nothing else; v[1] = 1 is the reset, with v[0] not stored; and CTRL reads IRQ_EN in bit 0, the rest 0
(10_state.md R20; 70_reset_and_hazards.md R146). -/
def Obligations.CtrlWriteEnablesOrResets : Prop :=
  ∀ (a : Addr) (v : Word) (s : State), a.toNat / 4 = 2 →
    (v.getLsbD 1 = false → hostWrite a v s = .next { s with irqEn := v.getLsbD 0 }) ∧
    (v.getLsbD 1 = true → hostWrite a v s = .next (resetCore s) ∧ (resetCore s).irqEn = false ∧ (resetCore s).mode = .idle) ∧
    readWord a s = if s.irqEn then 1#32 else 0#32

/-- LEN is set by a HOST write while IDLE, and changes at no other step but reset; the acceptance of a command copies it (10_state.md R25). -/
def Obligations.LenIsTheHosts : Prop :=
  (∀ (a : Addr) (v : Word) (s : State), a.toNat / 4 = 7 → s.mode = .idle → hostWrite a v s = .next { s with len := v }) ∧
  (∀ s t : State, step s = .next t → t.len ≠ s.len →
    (∃ a v rest, s.schedule = .host (.write a v) :: rest ∧ a.toNat / 4 = 7 ∧ s.mode = .idle ∧ t.len = v) ∨
    (ResetScheduled s ∧ t.len = 0#32)) ∧
  (∀ (i : Instr) (s t : State), s.mode = .idle → exec i s = .next t → t.lenL = s.len ∧ t.len = s.len)

/-- What TABLE word w of entry e reads as while IDLE, whoever wrote the entry (DERIVE, the HOST, reset): META, the eight CODE words, 0 in words 9 to 15; and a HOST write of v to it, with
what it reads back (44_code_table_sram.md R105, R106). That words 9 to 15 ignore a write whole, HDR_VALID included, is the model's reading of R105 against 10_state.md R36 and
20_memory.md R49 (log 10, DEDUCED, unsafe). -/
def Obligations.TableWritesReadBack : Prop :=
  (∀ (s : State) (a : Addr) (e : Byte) (w : Nat), s.mode = .idle → w < 16 → a.toNat = 0x4000 + 64 * e.toNat + 4 * w →
    (w = 0 → readWord a s = (if (s.entry e).valid then 1#1 else 0#1) ++ 0#23 ++ (s.entry e).len) ∧
    (1 ≤ w → w ≤ 8 → readWord a s = (s.entry e).code.extractLsb' (32 * (w - 1)) 32) ∧
    (9 ≤ w → readWord a s = 0#32)) ∧
  ∀ (s : State) (a : Addr) (e : Byte) (w : Nat) (v : Word), s.mode = .idle → w < 16 → a.toNat = 0x4000 + 64 * e.toNat + 4 * w →
    ∃ t, hostWrite a v s = .next t ∧
      (w = 0 → t = { s with tbl := t.tbl, hdrValid := false } ∧
        t.entry e = { s.entry e with valid := v.getLsbD 31, len := v.extractLsb' 0 8 } ∧
        readWord a t = v.extractLsb' 31 1 ++ 0#23 ++ v.extractLsb' 0 8) ∧
      (1 ≤ w → w ≤ 8 → t = { s with tbl := t.tbl, hdrValid := false } ∧ (t.entry e).valid = (s.entry e).valid ∧ (t.entry e).len = (s.entry e).len ∧
        (t.entry e).code.extractLsb' (32 * (w - 1)) 32 = v ∧
        (∀ i, i < 32 * (w - 1) ∨ 32 * w ≤ i → (t.entry e).code.getLsbD i = (s.entry e).code.getLsbD i) ∧ readWord a t = v) ∧
      (9 ≤ w → t = s ∧ readWord a t = 0#32) ∧
      (∀ b, b ≠ e → t.entry b = s.entry b)

/-- Persistence round-trips exactly: writing back on the bus, to any entries (to every one, for instance) of an IDLE CORE, the words 0 to 8 that bus reads of an IDLE CORE returned, makes
those entries the ones that were read, all 16 words reading the same again, leaves the other entries, and clears HDR_VALID; nothing else changes. `LOADENT` of a valid entry does the same
(44_code_table_sram.md R105, R106, R107; 30_encoding.md R72). -/
def Obligations.SavedEntryReloads : Prop :=
  (∀ (s₀ s : State) (es : List Byte), s₀.mode = .idle → s.mode = .idle →
    ∃ t, writeAll (savedWords es s₀) s = .next t ∧ t = { s with tbl := t.tbl, hdrValid := if es = [] then s.hdrValid else false } ∧
      (∀ e ∈ es, t.entry e = s₀.entry e ∧ ∀ w, w < 16 → readWord (tableAddr e w) t = readWord (tableAddr e w) s₀) ∧
      (∀ b, b ∉ es → t.entry b = s.entry b) ∧ ((∀ b : Byte, b ∈ es) → t.tbl = s₀.tbl)) ∧
  (∀ (s : State) (e : Byte) (l c : Nat) (rest : List Turn), l < 2 ^ 8 → c < 2 ^ 256 → HostReady s [.loadEnt e.toNat l c] rest →
    ∃ t, Reaches s t ∧ t = { s with tbl := t.tbl, hdrValid := false, schedule := rest } ∧
      t.entry e = { valid := true, len := BitVec.ofNat 8 l, code := BitVec.ofNat 256 c } ∧ ∀ b, b ≠ e → t.entry b = s.entry b)

/-- The NODE window while IDLE: the two words of a leaf and of an internal node below NNODES, and a draw from NNODES on (30_encoding.md R70; 20_memory.md R46). -/
def Obligations.NodeWindowReadsTheArena : Prop :=
  ∀ (s : State) (a : Addr) (i : Nat) (second : Bool), s.mode = .idle → i < 511 → a.toNat = 0x1000 + 8 * i + (if second then 4 else 0) →
    (∀ sym f, i < s.nnodes.toNat → nodeAt s.node i = .leaf sym f → readWord a s = if second then 0#24 ++ sym else f) ∧
    (∀ f l r, i < s.nnodes.toNat → nodeAt s.node i = .internal f l r →
      readWord a s = if second then 1#1 ++ 0#6 ++ l ++ 0#7 ++ r else f) ∧
    (s.nnodes.toNat ≤ i → readWord a s = Config.readDraw s.draws)

/-! ### Streams, interrupt, reset -/

/-- The streams lose, duplicate and reorder nothing (20_memory.md R50, R52). Out: a step leaves what the HOST has taken followed by the byte in `out_slot` as it is, or puts one new
byte in the empty slot, or is a reset, which drops the byte in the slot. In: a byte in `in_slot` stays until an `InByte` of the running command takes it, and only the HOST's offer puts
one there. -/
def Obligations.StreamsKeepTheirBytes : Prop :=
  ∀ s t : State, step s = .next t →
    (t.taken ++ t.outSlot.toList = s.taken ++ s.outSlot.toList ∨
      (∃ b, s.outSlot = none ∧ t.outSlot = some b ∧ t.taken = s.taken ∧ s.mode ≠ .idle ∧ t.outCount = s.outCount + 1#32) ∨
      (ResetScheduled s ∧ t.outSlot = none ∧ t.taken = s.taken)) ∧
    (∀ b, s.inSlot = some b → t.inSlot = some b ∨ (t.inSlot = none ∧ s.mode ≠ .idle ∧ t.inCount = s.inCount + 1#32)) ∧
    (∀ b, s.inSlot = none → t.inSlot = some b →
      (∃ rest, s.schedule = .host (.offer b) :: rest) ∨ ∃ more rest, s.schedule = .xfer (b :: more) :: rest)

/-- The interrupt output is IRQ_EN and DONE at every point; DONE becomes 1 only when a command ends or an illegal word is written to CMD, and becomes 0 only by a 1 written to
STATUS bit 1, by the acceptance of a command, or by reset; only a CTRL write or reset changes IRQ_EN (60_exceptions.md R127, R131). The other output ports: `in_ready` is 1 exactly while the
running command's next point is an `InByte`, `out_valid` exactly while `out_slot` holds a byte, which `out_data` then is (20_memory.md R51; that `out_data` is no byte otherwise is the
model's, log 14); while `rst_n` = 0 they are all 0 (70_reset_and_hazards.md R145). -/
def Obligations.IrqIsEnableAndDone : Prop :=
  (∀ s : State, (outPorts true s).irq = (s.irqEn && s.done) ∧ (outPorts true s).outValid = s.outSlot.isSome ∧ (outPorts true s).outData = s.outSlot ∧
    ((outPorts true s).inReady = true ↔ ∃ r u k, s.mode = .busy r ∧ programOf r s = some (u, .inByte k)) ∧
    outPorts false s = { inReady := false, outValid := false, outData := none, irq := false }) ∧
  (∀ s t : State, step s = .next t → s.done = false → t.done = true →
    (s.mode ≠ .idle ∧ t.mode = .idle) ∨
    (s.mode = .idle ∧ t.errcode = 0x01#8 ∧ ∃ a w rest e, s.schedule = .host (.write a w) :: rest ∧ a.toNat / 4 = 3 ∧ decode w = .error e)) ∧
  (∀ s t : State, step s = .next t → s.done = true → t.done = false →
    (∃ a v rest, s.schedule = .host (.write a v) :: rest ∧ a.toNat / 4 = 4 ∧ v.getLsbD 1 = true) ∨
    (s.mode = .idle ∧ ∃ a w rest i, s.schedule = .host (.write a w) :: rest ∧ a.toNat / 4 = 3 ∧ decode w = .ok i) ∨ ResetScheduled s) ∧
  (∀ s t : State, step s = .next t → t.irqEn ≠ s.irqEn →
    (∃ a v rest, s.schedule = .host (.write a v) :: rest ∧ a.toNat / 4 = 2) ∨ ∃ p rest, s.schedule = .host (.reset p) :: rest)

/-- RESET is one step, from IDLE or BUSY, with two sources: a CTRL write with bit 1 set and a clock edge with `rst_n` = 0. It clears what the rule names, leaves `in_slot` and the HOST's
side, invalidates every TABLE entry with its `len` and `code` drawn afresh, and makes every node unspecified; an access presented at the edge has no effect, and a read returns a draw
(70_reset_and_hazards.md R143, R145, R146; the draws and the hidden registers, which reset leaves, are the model's, logs 5, 7, 14). -/
def Obligations.ResetClearsTheCore : Prop :=
  (∀ s : State, resetCore s = { s with
      mode := .idle, irqEn := false, done := false, rej := false, treeValid := false, hdrValid := false, opc := 0#4
      errcode := 0#8, errinfo := 0#32, len := 0#32, inCount := 0#32, outCount := 0#32
      nsym := 0#9, total := 0#32, nnodes := 0#10, root := 0#9, maxlen := 0#8, expbits := 0#40, bitcount := 0#32, bitpos := 0#32
      freq := (resetCore s).freq, tbl := (resetCore s).tbl, node := (resetCore s).node, outSlot := none, draws := s.draws + 1 } ∧
    (∀ b, (resetCore s).freqOf b = 0#32) ∧
    (∀ b, (resetCore s).entry b =
      { valid := false, len := Config.resetLen s.draws b.toNat, code := Config.resetCode s.draws b.toNat }) ∧
    (∀ i, nodeAt (resetCore s).node i = .unspecified)) ∧
  (∀ (s : State) (a : Addr) (v : Word), a.toNat / 4 = 2 → v.getLsbD 1 = true → hostWrite a v s = .next (resetCore s)) ∧
  (∀ (s : State) (p : Presented) (rest : List Turn), s.schedule = .host (.reset p) :: rest → (∀ a, p ≠ .read a) →
    step s = .next (resetCore { s with schedule := rest })) ∧
  (∀ (s : State) (a : Addr) (rest : List Turn), s.schedule = .host (.reset (.read a)) :: rest →
    ∃ t, step s = .next t ∧ t.reads = s.reads ++ [Config.readDraw s.draws] ∧
      t = { resetCore { s with schedule := rest, draws := s.draws + 1 } with reads := t.reads, draws := t.draws })

/-- The state right after reset, where the spec gives it (10_state.md R42). -/
def Obligations.ResetStateIsAsStated : Prop :=
  State.reset.mode = .idle ∧ State.reset.irqEn = false ∧ State.reset.done = false ∧ State.reset.rej = false ∧ State.reset.treeValid = false ∧
  State.reset.hdrValid = false ∧ State.reset.opc = 0#4 ∧ State.reset.busy = false ∧ State.reset.err = false ∧
  State.reset.errcode = 0#8 ∧ State.reset.errinfo = 0#32 ∧ State.reset.len = 0#32 ∧ State.reset.inCount = 0#32 ∧ State.reset.outCount = 0#32 ∧
  State.reset.nsym = 0#9 ∧ State.reset.total = 0#32 ∧ State.reset.nnodes = 0#10 ∧ State.reset.root = 0#9 ∧ State.reset.maxlen = 0#8 ∧
  State.reset.expbits = 0#40 ∧ State.reset.bitcount = 0#32 ∧ State.reset.bitpos = 0#32 ∧
  (∀ b, State.reset.freqOf b = 0#32) ∧ (∀ i, nodeAt State.reset.node i = .unspecified) ∧ (∀ b, (State.reset.entry b).valid = false) ∧
  State.reset.outSlot = none ∧ State.reset.irq = false
end

