-- ==== Sys2Proof/Laws/Entries.lean ====
section
/-! SUPPORT. The laws of the entry files FREQ, NODE and TABLE: read after write, and the list of symbols. -/

namespace Sys2Proof.Machine

variable {α : Type}

@[simp] theorem getElem_vecOf (n : Nat) (f : Nat → α) (i : Nat) (h : i < n) : (vecOf n f)[i] = f i := by
  simp [vecOf, Vector.getElem_mk]

@[simp] theorem getElem_vecMap {n : Nat} (f : α → α) (v : Vector α n) (i : Nat) (h : i < n) :
    (vecMap f v)[i] = f v[i] := by
  simp [vecMap, Vector.getElem_mk]

@[simp] theorem entryOf_vecMap (f : α → α) (v : Vector α 256) (s : Byte) : entryOf (vecMap f v) s = f (entryOf v s) := by
  simp [entryOf]

@[simp] theorem entryOf_replicate (x : α) (s : Byte) : entryOf (Vector.replicate 256 x) s = x := by
  simp [entryOf]

@[simp] theorem entryOf_vecOf (f : Nat → α) (s : Byte) : entryOf (vecOf 256 f) s = f s.toNat := by
  simp [entryOf]

@[simp] theorem entryOf_setEntryOf_self (v : Vector α 256) (s : Byte) (x : α) : entryOf (setEntryOf v s x) s = x := by
  simp [entryOf, setEntryOf]

theorem entryOf_setEntryOf (v : Vector α 256) (s t : Byte) (x : α) :
    entryOf (setEntryOf v s x) t = if s = t then x else entryOf v t := by
  simp only [entryOf, setEntryOf, Vector.getElem_set]
  by_cases h : s = t
  · simp [h]
  · simp [h, BitVec.toNat_inj]

theorem entryOf_setEntryOf_ne (v : Vector α 256) {s t : Byte} (x : α) (h : s ≠ t) :
    entryOf (setEntryOf v s x) t = entryOf v t := by
  rw [entryOf_setEntryOf, if_neg h]

/-- Two files with the same entries are the same file. -/
theorem eq_of_entryOf_eq {v w : Vector α 256} (h : ∀ s, entryOf v s = entryOf w s) : v = w := by
  ext i hi
  have := h (BitVec.ofNat 8 i)
  have hm : (BitVec.ofNat 8 i).toNat = i := by simp; omega
  simp only [entryOf, hm] at this
  exact this

@[simp] theorem mem_symbols (s : Byte) : s ∈ symbols := by
  simp only [symbols, List.mem_map, List.mem_range]
  exact ⟨s.toNat, s.isLt, by simp⟩

@[simp] theorem length_symbols : symbols.length = 256 := by simp [symbols]

theorem nodup_symbols : symbols.Nodup := by
  refine List.Nodup.map_on ?_ List.nodup_range
  intro x hx y hy h
  have := congrArg BitVec.toNat h
  simp only [List.mem_range] at hx hy
  simpa [BitVec.toNat_ofNat, Nat.mod_eq_of_lt hx, Nat.mod_eq_of_lt hy] using this

theorem getElem_symbols (i : Nat) (h : i < symbols.length) : symbols[i] = BitVec.ofNat 8 i := by
  simp [symbols]

theorem nodeAt_eq (v : Vector Node 511) {i : Nat} (h : i < 511) : nodeAt v i = v[i] := by simp [nodeAt, h]

theorem nodeAt_ge (v : Vector Node 511) {i : Nat} (h : 511 ≤ i) : nodeAt v i = .unspecified := by
  simp [nodeAt]; omega

theorem nodeAt_setIfInBounds (v : Vector Node 511) (n i : Nat) (x : Node) (hn : n < 511) :
    nodeAt (v.setIfInBounds n x) i = if n = i then x else nodeAt v i := by
  by_cases hi : i < 511
  · simp [nodeAt, hi, Vector.getElem_setIfInBounds]
  · have : n ≠ i := by omega
    simp [nodeAt, hi, this]

theorem entry_def (s : State) (b : Byte) : s.entry b = entryOf s.tbl b := rfl

@[simp] theorem entryOf_invalidateAll (v : Vector Entry 256) (b : Byte) :
    entryOf (invalidateAll v) b = { entryOf v b with valid := false } := by
  simp [invalidateAll]

@[simp] theorem entryOf_resetTable (k : Nat) (b : Byte) :
    entryOf (resetTable k) b =
      { valid := false, len := Config.resetLen k b.toNat, code := Config.resetCode k b.toNat } := by
  simp [resetTable]

end Sys2Proof.Machine
end

