-- ==== Sys2Proof/Laws/State.lean ====
section
/-! SUPPORT. One lemma per field of State per shared update, so that no later proof unfolds a record update. -/

namespace Sys2Proof.Machine

/-! ### rejectWrite -/

@[simp] theorem rejectWrite_irqEn (s : State) : (rejectWrite s).irqEn = s.irqEn := rfl
@[simp] theorem rejectWrite_mode (s : State) : (rejectWrite s).mode = s.mode := rfl
@[simp] theorem rejectWrite_done (s : State) : (rejectWrite s).done = s.done := rfl
@[simp] theorem rejectWrite_rej (s : State) : (rejectWrite s).rej = true := rfl
@[simp] theorem rejectWrite_treeValid (s : State) : (rejectWrite s).treeValid = s.treeValid := rfl
@[simp] theorem rejectWrite_hdrValid (s : State) : (rejectWrite s).hdrValid = s.hdrValid := rfl
@[simp] theorem rejectWrite_opc (s : State) : (rejectWrite s).opc = s.opc := rfl
@[simp] theorem rejectWrite_errcode (s : State) : (rejectWrite s).errcode = s.errcode := rfl
@[simp] theorem rejectWrite_errinfo (s : State) : (rejectWrite s).errinfo = s.errinfo := rfl
@[simp] theorem rejectWrite_len (s : State) : (rejectWrite s).len = s.len := rfl
@[simp] theorem rejectWrite_lenL (s : State) : (rejectWrite s).lenL = s.lenL := rfl
@[simp] theorem rejectWrite_inCount (s : State) : (rejectWrite s).inCount = s.inCount := rfl
@[simp] theorem rejectWrite_outCount (s : State) : (rejectWrite s).outCount = s.outCount := rfl
@[simp] theorem rejectWrite_nsym (s : State) : (rejectWrite s).nsym = s.nsym := rfl
@[simp] theorem rejectWrite_total (s : State) : (rejectWrite s).total = s.total := rfl
@[simp] theorem rejectWrite_nnodes (s : State) : (rejectWrite s).nnodes = s.nnodes := rfl
@[simp] theorem rejectWrite_root (s : State) : (rejectWrite s).root = s.root := rfl
@[simp] theorem rejectWrite_maxlen (s : State) : (rejectWrite s).maxlen = s.maxlen := rfl
@[simp] theorem rejectWrite_expbits (s : State) : (rejectWrite s).expbits = s.expbits := rfl
@[simp] theorem rejectWrite_bitcount (s : State) : (rejectWrite s).bitcount = s.bitcount := rfl
@[simp] theorem rejectWrite_bitpos (s : State) : (rejectWrite s).bitpos = s.bitpos := rfl
@[simp] theorem rejectWrite_freq (s : State) : (rejectWrite s).freq = s.freq := rfl
@[simp] theorem rejectWrite_node (s : State) : (rejectWrite s).node = s.node := rfl
@[simp] theorem rejectWrite_tbl (s : State) : (rejectWrite s).tbl = s.tbl := rfl
@[simp] theorem rejectWrite_inSlot (s : State) : (rejectWrite s).inSlot = s.inSlot := rfl
@[simp] theorem rejectWrite_outSlot (s : State) : (rejectWrite s).outSlot = s.outSlot := rfl
@[simp] theorem rejectWrite_q (s : State) : (rejectWrite s).q = s.q := rfl
@[simp] theorem rejectWrite_acc (s : State) : (rejectWrite s).acc = s.acc := rfl
@[simp] theorem rejectWrite_nacc (s : State) : (rejectWrite s).nacc = s.nacc := rfl
@[simp] theorem rejectWrite_nb (s : State) : (rejectWrite s).nb = s.nb := rfl
@[simp] theorem rejectWrite_n (s : State) : (rejectWrite s).n = s.n := rfl
@[simp] theorem rejectWrite_nbytes (s : State) : (rejectWrite s).nbytes = s.nbytes := rfl
@[simp] theorem rejectWrite_cand (s : State) : (rejectWrite s).cand = s.cand := rfl
@[simp] theorem rejectWrite_clen (s : State) : (rejectWrite s).clen = s.clen := rfl
@[simp] theorem rejectWrite_t (s : State) : (rejectWrite s).t = s.t := rfl
@[simp] theorem rejectWrite_draws (s : State) : (rejectWrite s).draws = s.draws := rfl
@[simp] theorem rejectWrite_schedule (s : State) : (rejectWrite s).schedule = s.schedule := rfl
@[simp] theorem rejectWrite_reads (s : State) : (rejectWrite s).reads = s.reads := rfl
@[simp] theorem rejectWrite_taken (s : State) : (rejectWrite s).taken = s.taken := rfl

/-! ### writeStatus -/

@[simp] theorem writeStatus_irqEn (v : Word) (s : State) : (writeStatus v s).irqEn = s.irqEn := rfl
@[simp] theorem writeStatus_mode (v : Word) (s : State) : (writeStatus v s).mode = s.mode := rfl
@[simp] theorem writeStatus_done (v : Word) (s : State) : (writeStatus v s).done = (s.done && !v.getLsbD 1) := rfl
@[simp] theorem writeStatus_rej (v : Word) (s : State) : (writeStatus v s).rej = (s.rej && !v.getLsbD 3) := rfl
@[simp] theorem writeStatus_treeValid (v : Word) (s : State) : (writeStatus v s).treeValid = s.treeValid := rfl
@[simp] theorem writeStatus_hdrValid (v : Word) (s : State) : (writeStatus v s).hdrValid = s.hdrValid := rfl
@[simp] theorem writeStatus_opc (v : Word) (s : State) : (writeStatus v s).opc = s.opc := rfl
@[simp] theorem writeStatus_errcode (v : Word) (s : State) : (writeStatus v s).errcode = s.errcode := rfl
@[simp] theorem writeStatus_errinfo (v : Word) (s : State) : (writeStatus v s).errinfo = s.errinfo := rfl
@[simp] theorem writeStatus_len (v : Word) (s : State) : (writeStatus v s).len = s.len := rfl
@[simp] theorem writeStatus_lenL (v : Word) (s : State) : (writeStatus v s).lenL = s.lenL := rfl
@[simp] theorem writeStatus_inCount (v : Word) (s : State) : (writeStatus v s).inCount = s.inCount := rfl
@[simp] theorem writeStatus_outCount (v : Word) (s : State) : (writeStatus v s).outCount = s.outCount := rfl
@[simp] theorem writeStatus_nsym (v : Word) (s : State) : (writeStatus v s).nsym = s.nsym := rfl
@[simp] theorem writeStatus_total (v : Word) (s : State) : (writeStatus v s).total = s.total := rfl
@[simp] theorem writeStatus_nnodes (v : Word) (s : State) : (writeStatus v s).nnodes = s.nnodes := rfl
@[simp] theorem writeStatus_root (v : Word) (s : State) : (writeStatus v s).root = s.root := rfl
@[simp] theorem writeStatus_maxlen (v : Word) (s : State) : (writeStatus v s).maxlen = s.maxlen := rfl
@[simp] theorem writeStatus_expbits (v : Word) (s : State) : (writeStatus v s).expbits = s.expbits := rfl
@[simp] theorem writeStatus_bitcount (v : Word) (s : State) : (writeStatus v s).bitcount = s.bitcount := rfl
@[simp] theorem writeStatus_bitpos (v : Word) (s : State) : (writeStatus v s).bitpos = s.bitpos := rfl
@[simp] theorem writeStatus_freq (v : Word) (s : State) : (writeStatus v s).freq = s.freq := rfl
@[simp] theorem writeStatus_node (v : Word) (s : State) : (writeStatus v s).node = s.node := rfl
@[simp] theorem writeStatus_tbl (v : Word) (s : State) : (writeStatus v s).tbl = s.tbl := rfl
@[simp] theorem writeStatus_inSlot (v : Word) (s : State) : (writeStatus v s).inSlot = s.inSlot := rfl
@[simp] theorem writeStatus_outSlot (v : Word) (s : State) : (writeStatus v s).outSlot = s.outSlot := rfl
@[simp] theorem writeStatus_q (v : Word) (s : State) : (writeStatus v s).q = s.q := rfl
@[simp] theorem writeStatus_acc (v : Word) (s : State) : (writeStatus v s).acc = s.acc := rfl
@[simp] theorem writeStatus_nacc (v : Word) (s : State) : (writeStatus v s).nacc = s.nacc := rfl
@[simp] theorem writeStatus_nb (v : Word) (s : State) : (writeStatus v s).nb = s.nb := rfl
@[simp] theorem writeStatus_n (v : Word) (s : State) : (writeStatus v s).n = s.n := rfl
@[simp] theorem writeStatus_nbytes (v : Word) (s : State) : (writeStatus v s).nbytes = s.nbytes := rfl
@[simp] theorem writeStatus_cand (v : Word) (s : State) : (writeStatus v s).cand = s.cand := rfl
@[simp] theorem writeStatus_clen (v : Word) (s : State) : (writeStatus v s).clen = s.clen := rfl
@[simp] theorem writeStatus_t (v : Word) (s : State) : (writeStatus v s).t = s.t := rfl
@[simp] theorem writeStatus_draws (v : Word) (s : State) : (writeStatus v s).draws = s.draws := rfl
@[simp] theorem writeStatus_schedule (v : Word) (s : State) : (writeStatus v s).schedule = s.schedule := rfl
@[simp] theorem writeStatus_reads (v : Word) (s : State) : (writeStatus v s).reads = s.reads := rfl
@[simp] theorem writeStatus_taken (v : Word) (s : State) : (writeStatus v s).taken = s.taken := rfl

/-! ### beginCommand -/

@[simp] theorem beginCommand_irqEn (w : Word) (s : State) : (beginCommand w s).irqEn = s.irqEn := rfl
@[simp] theorem beginCommand_mode (w : Word) (s : State) : (beginCommand w s).mode = s.mode := rfl
@[simp] theorem beginCommand_done (w : Word) (s : State) : (beginCommand w s).done = false := rfl
@[simp] theorem beginCommand_rej (w : Word) (s : State) : (beginCommand w s).rej = s.rej := rfl
@[simp] theorem beginCommand_treeValid (w : Word) (s : State) : (beginCommand w s).treeValid = s.treeValid := rfl
@[simp] theorem beginCommand_hdrValid (w : Word) (s : State) : (beginCommand w s).hdrValid = s.hdrValid := rfl
@[simp] theorem beginCommand_opc (w : Word) (s : State) : (beginCommand w s).opc = w.extractLsb' 0 4 := rfl
@[simp] theorem beginCommand_errcode (w : Word) (s : State) : (beginCommand w s).errcode = 0#8 := rfl
@[simp] theorem beginCommand_errinfo (w : Word) (s : State) : (beginCommand w s).errinfo = 0#32 := rfl
@[simp] theorem beginCommand_len (w : Word) (s : State) : (beginCommand w s).len = s.len := rfl
@[simp] theorem beginCommand_lenL (w : Word) (s : State) : (beginCommand w s).lenL = s.lenL := rfl
@[simp] theorem beginCommand_inCount (w : Word) (s : State) : (beginCommand w s).inCount = 0#32 := rfl
@[simp] theorem beginCommand_outCount (w : Word) (s : State) : (beginCommand w s).outCount = 0#32 := rfl
@[simp] theorem beginCommand_nsym (w : Word) (s : State) : (beginCommand w s).nsym = s.nsym := rfl
@[simp] theorem beginCommand_total (w : Word) (s : State) : (beginCommand w s).total = s.total := rfl
@[simp] theorem beginCommand_nnodes (w : Word) (s : State) : (beginCommand w s).nnodes = s.nnodes := rfl
@[simp] theorem beginCommand_root (w : Word) (s : State) : (beginCommand w s).root = s.root := rfl
@[simp] theorem beginCommand_maxlen (w : Word) (s : State) : (beginCommand w s).maxlen = s.maxlen := rfl
@[simp] theorem beginCommand_expbits (w : Word) (s : State) : (beginCommand w s).expbits = s.expbits := rfl
@[simp] theorem beginCommand_bitcount (w : Word) (s : State) : (beginCommand w s).bitcount = 0#32 := rfl
@[simp] theorem beginCommand_bitpos (w : Word) (s : State) : (beginCommand w s).bitpos = 0#32 := rfl
@[simp] theorem beginCommand_freq (w : Word) (s : State) : (beginCommand w s).freq = s.freq := rfl
@[simp] theorem beginCommand_node (w : Word) (s : State) : (beginCommand w s).node = s.node := rfl
@[simp] theorem beginCommand_tbl (w : Word) (s : State) : (beginCommand w s).tbl = s.tbl := rfl
@[simp] theorem beginCommand_inSlot (w : Word) (s : State) : (beginCommand w s).inSlot = s.inSlot := rfl
@[simp] theorem beginCommand_outSlot (w : Word) (s : State) : (beginCommand w s).outSlot = s.outSlot := rfl
@[simp] theorem beginCommand_q (w : Word) (s : State) : (beginCommand w s).q = s.q := rfl
@[simp] theorem beginCommand_acc (w : Word) (s : State) : (beginCommand w s).acc = s.acc := rfl
@[simp] theorem beginCommand_nacc (w : Word) (s : State) : (beginCommand w s).nacc = s.nacc := rfl
@[simp] theorem beginCommand_nb (w : Word) (s : State) : (beginCommand w s).nb = s.nb := rfl
@[simp] theorem beginCommand_n (w : Word) (s : State) : (beginCommand w s).n = s.n := rfl
@[simp] theorem beginCommand_nbytes (w : Word) (s : State) : (beginCommand w s).nbytes = s.nbytes := rfl
@[simp] theorem beginCommand_cand (w : Word) (s : State) : (beginCommand w s).cand = s.cand := rfl
@[simp] theorem beginCommand_clen (w : Word) (s : State) : (beginCommand w s).clen = s.clen := rfl
@[simp] theorem beginCommand_t (w : Word) (s : State) : (beginCommand w s).t = s.t := rfl
@[simp] theorem beginCommand_draws (w : Word) (s : State) : (beginCommand w s).draws = s.draws := rfl
@[simp] theorem beginCommand_schedule (w : Word) (s : State) : (beginCommand w s).schedule = s.schedule := rfl
@[simp] theorem beginCommand_reads (w : Word) (s : State) : (beginCommand w s).reads = s.reads := rfl
@[simp] theorem beginCommand_taken (w : Word) (s : State) : (beginCommand w s).taken = s.taken := rfl

/-! ### acceptCommand -/

@[simp] theorem acceptCommand_irqEn (i : Instr) (s : State) : (acceptCommand i s).irqEn = s.irqEn := rfl
@[simp] theorem acceptCommand_mode (i : Instr) (s : State) : (acceptCommand i s).mode = .busy (Running.start i) := rfl
@[simp] theorem acceptCommand_done (i : Instr) (s : State) : (acceptCommand i s).done = false := rfl
@[simp] theorem acceptCommand_rej (i : Instr) (s : State) : (acceptCommand i s).rej = s.rej := rfl
@[simp] theorem acceptCommand_treeValid (i : Instr) (s : State) : (acceptCommand i s).treeValid = s.treeValid := rfl
@[simp] theorem acceptCommand_hdrValid (i : Instr) (s : State) : (acceptCommand i s).hdrValid = s.hdrValid := rfl
@[simp] theorem acceptCommand_opc (i : Instr) (s : State) : (acceptCommand i s).opc = (encode i).extractLsb' 0 4 := rfl
@[simp] theorem acceptCommand_errcode (i : Instr) (s : State) : (acceptCommand i s).errcode = 0#8 := rfl
@[simp] theorem acceptCommand_errinfo (i : Instr) (s : State) : (acceptCommand i s).errinfo = 0#32 := rfl
@[simp] theorem acceptCommand_len (i : Instr) (s : State) : (acceptCommand i s).len = s.len := rfl
@[simp] theorem acceptCommand_lenL (i : Instr) (s : State) : (acceptCommand i s).lenL = s.len := rfl
@[simp] theorem acceptCommand_inCount (i : Instr) (s : State) : (acceptCommand i s).inCount = 0#32 := rfl
@[simp] theorem acceptCommand_outCount (i : Instr) (s : State) : (acceptCommand i s).outCount = 0#32 := rfl
@[simp] theorem acceptCommand_nsym (i : Instr) (s : State) : (acceptCommand i s).nsym = s.nsym := rfl
@[simp] theorem acceptCommand_total (i : Instr) (s : State) : (acceptCommand i s).total = s.total := rfl
@[simp] theorem acceptCommand_nnodes (i : Instr) (s : State) : (acceptCommand i s).nnodes = s.nnodes := rfl
@[simp] theorem acceptCommand_root (i : Instr) (s : State) : (acceptCommand i s).root = s.root := rfl
@[simp] theorem acceptCommand_maxlen (i : Instr) (s : State) : (acceptCommand i s).maxlen = s.maxlen := rfl
@[simp] theorem acceptCommand_expbits (i : Instr) (s : State) : (acceptCommand i s).expbits = s.expbits := rfl
@[simp] theorem acceptCommand_bitcount (i : Instr) (s : State) : (acceptCommand i s).bitcount = 0#32 := rfl
@[simp] theorem acceptCommand_bitpos (i : Instr) (s : State) : (acceptCommand i s).bitpos = 0#32 := rfl
@[simp] theorem acceptCommand_freq (i : Instr) (s : State) : (acceptCommand i s).freq = s.freq := rfl
@[simp] theorem acceptCommand_node (i : Instr) (s : State) : (acceptCommand i s).node = s.node := rfl
@[simp] theorem acceptCommand_tbl (i : Instr) (s : State) : (acceptCommand i s).tbl = s.tbl := rfl
@[simp] theorem acceptCommand_inSlot (i : Instr) (s : State) : (acceptCommand i s).inSlot = s.inSlot := rfl
@[simp] theorem acceptCommand_outSlot (i : Instr) (s : State) : (acceptCommand i s).outSlot = s.outSlot := rfl
@[simp] theorem acceptCommand_q (i : Instr) (s : State) : (acceptCommand i s).q = s.q := rfl
@[simp] theorem acceptCommand_acc (i : Instr) (s : State) : (acceptCommand i s).acc = s.acc := rfl
@[simp] theorem acceptCommand_nacc (i : Instr) (s : State) : (acceptCommand i s).nacc = s.nacc := rfl
@[simp] theorem acceptCommand_nb (i : Instr) (s : State) : (acceptCommand i s).nb = s.nb := rfl
@[simp] theorem acceptCommand_n (i : Instr) (s : State) : (acceptCommand i s).n = s.n := rfl
@[simp] theorem acceptCommand_nbytes (i : Instr) (s : State) : (acceptCommand i s).nbytes = s.nbytes := rfl
@[simp] theorem acceptCommand_cand (i : Instr) (s : State) : (acceptCommand i s).cand = s.cand := rfl
@[simp] theorem acceptCommand_clen (i : Instr) (s : State) : (acceptCommand i s).clen = s.clen := rfl
@[simp] theorem acceptCommand_t (i : Instr) (s : State) : (acceptCommand i s).t = s.t := rfl
@[simp] theorem acceptCommand_draws (i : Instr) (s : State) : (acceptCommand i s).draws = s.draws := rfl
@[simp] theorem acceptCommand_schedule (i : Instr) (s : State) : (acceptCommand i s).schedule = s.schedule := rfl
@[simp] theorem acceptCommand_reads (i : Instr) (s : State) : (acceptCommand i s).reads = s.reads := rfl
@[simp] theorem acceptCommand_taken (i : Instr) (s : State) : (acceptCommand i s).taken = s.taken := rfl

/-! ### acceptIllegal -/

@[simp] theorem acceptIllegal_irqEn (w : Word) (s : State) : (acceptIllegal w s).irqEn = s.irqEn := rfl
@[simp] theorem acceptIllegal_mode (w : Word) (s : State) : (acceptIllegal w s).mode = s.mode := rfl
@[simp] theorem acceptIllegal_done (w : Word) (s : State) : (acceptIllegal w s).done = true := rfl
@[simp] theorem acceptIllegal_rej (w : Word) (s : State) : (acceptIllegal w s).rej = s.rej := rfl
@[simp] theorem acceptIllegal_treeValid (w : Word) (s : State) : (acceptIllegal w s).treeValid = s.treeValid := rfl
@[simp] theorem acceptIllegal_hdrValid (w : Word) (s : State) : (acceptIllegal w s).hdrValid = s.hdrValid := rfl
@[simp] theorem acceptIllegal_opc (w : Word) (s : State) : (acceptIllegal w s).opc = w.extractLsb' 0 4 := rfl
@[simp] theorem acceptIllegal_errcode (w : Word) (s : State) : (acceptIllegal w s).errcode = ErrCode.illegalCmd.code := rfl
@[simp] theorem acceptIllegal_errinfo (w : Word) (s : State) : (acceptIllegal w s).errinfo = w := rfl
@[simp] theorem acceptIllegal_len (w : Word) (s : State) : (acceptIllegal w s).len = s.len := rfl
@[simp] theorem acceptIllegal_lenL (w : Word) (s : State) : (acceptIllegal w s).lenL = s.lenL := rfl
@[simp] theorem acceptIllegal_inCount (w : Word) (s : State) : (acceptIllegal w s).inCount = 0#32 := rfl
@[simp] theorem acceptIllegal_outCount (w : Word) (s : State) : (acceptIllegal w s).outCount = 0#32 := rfl
@[simp] theorem acceptIllegal_nsym (w : Word) (s : State) : (acceptIllegal w s).nsym = s.nsym := rfl
@[simp] theorem acceptIllegal_total (w : Word) (s : State) : (acceptIllegal w s).total = s.total := rfl
@[simp] theorem acceptIllegal_nnodes (w : Word) (s : State) : (acceptIllegal w s).nnodes = s.nnodes := rfl
@[simp] theorem acceptIllegal_root (w : Word) (s : State) : (acceptIllegal w s).root = s.root := rfl
@[simp] theorem acceptIllegal_maxlen (w : Word) (s : State) : (acceptIllegal w s).maxlen = s.maxlen := rfl
@[simp] theorem acceptIllegal_expbits (w : Word) (s : State) : (acceptIllegal w s).expbits = s.expbits := rfl
@[simp] theorem acceptIllegal_bitcount (w : Word) (s : State) : (acceptIllegal w s).bitcount = 0#32 := rfl
@[simp] theorem acceptIllegal_bitpos (w : Word) (s : State) : (acceptIllegal w s).bitpos = 0#32 := rfl
@[simp] theorem acceptIllegal_freq (w : Word) (s : State) : (acceptIllegal w s).freq = s.freq := rfl
@[simp] theorem acceptIllegal_node (w : Word) (s : State) : (acceptIllegal w s).node = s.node := rfl
@[simp] theorem acceptIllegal_tbl (w : Word) (s : State) : (acceptIllegal w s).tbl = s.tbl := rfl
@[simp] theorem acceptIllegal_inSlot (w : Word) (s : State) : (acceptIllegal w s).inSlot = s.inSlot := rfl
@[simp] theorem acceptIllegal_outSlot (w : Word) (s : State) : (acceptIllegal w s).outSlot = s.outSlot := rfl
@[simp] theorem acceptIllegal_q (w : Word) (s : State) : (acceptIllegal w s).q = s.q := rfl
@[simp] theorem acceptIllegal_acc (w : Word) (s : State) : (acceptIllegal w s).acc = s.acc := rfl
@[simp] theorem acceptIllegal_nacc (w : Word) (s : State) : (acceptIllegal w s).nacc = s.nacc := rfl
@[simp] theorem acceptIllegal_nb (w : Word) (s : State) : (acceptIllegal w s).nb = s.nb := rfl
@[simp] theorem acceptIllegal_n (w : Word) (s : State) : (acceptIllegal w s).n = s.n := rfl
@[simp] theorem acceptIllegal_nbytes (w : Word) (s : State) : (acceptIllegal w s).nbytes = s.nbytes := rfl
@[simp] theorem acceptIllegal_cand (w : Word) (s : State) : (acceptIllegal w s).cand = s.cand := rfl
@[simp] theorem acceptIllegal_clen (w : Word) (s : State) : (acceptIllegal w s).clen = s.clen := rfl
@[simp] theorem acceptIllegal_t (w : Word) (s : State) : (acceptIllegal w s).t = s.t := rfl
@[simp] theorem acceptIllegal_draws (w : Word) (s : State) : (acceptIllegal w s).draws = s.draws := rfl
@[simp] theorem acceptIllegal_schedule (w : Word) (s : State) : (acceptIllegal w s).schedule = s.schedule := rfl
@[simp] theorem acceptIllegal_reads (w : Word) (s : State) : (acceptIllegal w s).reads = s.reads := rfl
@[simp] theorem acceptIllegal_taken (w : Word) (s : State) : (acceptIllegal w s).taken = s.taken := rfl

/-! ### completeCommand -/

@[simp] theorem completeCommand_irqEn (s : State) : (completeCommand s).irqEn = s.irqEn := rfl
@[simp] theorem completeCommand_mode (s : State) : (completeCommand s).mode = .idle := rfl
@[simp] theorem completeCommand_done (s : State) : (completeCommand s).done = true := rfl
@[simp] theorem completeCommand_rej (s : State) : (completeCommand s).rej = s.rej := rfl
@[simp] theorem completeCommand_treeValid (s : State) : (completeCommand s).treeValid = s.treeValid := rfl
@[simp] theorem completeCommand_hdrValid (s : State) : (completeCommand s).hdrValid = s.hdrValid := rfl
@[simp] theorem completeCommand_opc (s : State) : (completeCommand s).opc = s.opc := rfl
@[simp] theorem completeCommand_errcode (s : State) : (completeCommand s).errcode = s.errcode := rfl
@[simp] theorem completeCommand_errinfo (s : State) : (completeCommand s).errinfo = s.errinfo := rfl
@[simp] theorem completeCommand_len (s : State) : (completeCommand s).len = s.len := rfl
@[simp] theorem completeCommand_lenL (s : State) : (completeCommand s).lenL = s.lenL := rfl
@[simp] theorem completeCommand_inCount (s : State) : (completeCommand s).inCount = s.inCount := rfl
@[simp] theorem completeCommand_outCount (s : State) : (completeCommand s).outCount = s.outCount := rfl
@[simp] theorem completeCommand_nsym (s : State) : (completeCommand s).nsym = s.nsym := rfl
@[simp] theorem completeCommand_total (s : State) : (completeCommand s).total = s.total := rfl
@[simp] theorem completeCommand_nnodes (s : State) : (completeCommand s).nnodes = s.nnodes := rfl
@[simp] theorem completeCommand_root (s : State) : (completeCommand s).root = s.root := rfl
@[simp] theorem completeCommand_maxlen (s : State) : (completeCommand s).maxlen = s.maxlen := rfl
@[simp] theorem completeCommand_expbits (s : State) : (completeCommand s).expbits = s.expbits := rfl
@[simp] theorem completeCommand_bitcount (s : State) : (completeCommand s).bitcount = s.bitcount := rfl
@[simp] theorem completeCommand_bitpos (s : State) : (completeCommand s).bitpos = s.bitpos := rfl
@[simp] theorem completeCommand_freq (s : State) : (completeCommand s).freq = s.freq := rfl
@[simp] theorem completeCommand_node (s : State) : (completeCommand s).node = s.node := rfl
@[simp] theorem completeCommand_tbl (s : State) : (completeCommand s).tbl = s.tbl := rfl
@[simp] theorem completeCommand_inSlot (s : State) : (completeCommand s).inSlot = s.inSlot := rfl
@[simp] theorem completeCommand_outSlot (s : State) : (completeCommand s).outSlot = s.outSlot := rfl
@[simp] theorem completeCommand_q (s : State) : (completeCommand s).q = s.q := rfl
@[simp] theorem completeCommand_acc (s : State) : (completeCommand s).acc = s.acc := rfl
@[simp] theorem completeCommand_nacc (s : State) : (completeCommand s).nacc = s.nacc := rfl
@[simp] theorem completeCommand_nb (s : State) : (completeCommand s).nb = s.nb := rfl
@[simp] theorem completeCommand_n (s : State) : (completeCommand s).n = s.n := rfl
@[simp] theorem completeCommand_nbytes (s : State) : (completeCommand s).nbytes = s.nbytes := rfl
@[simp] theorem completeCommand_cand (s : State) : (completeCommand s).cand = s.cand := rfl
@[simp] theorem completeCommand_clen (s : State) : (completeCommand s).clen = s.clen := rfl
@[simp] theorem completeCommand_t (s : State) : (completeCommand s).t = s.t := rfl
@[simp] theorem completeCommand_draws (s : State) : (completeCommand s).draws = s.draws := rfl
@[simp] theorem completeCommand_schedule (s : State) : (completeCommand s).schedule = s.schedule := rfl
@[simp] theorem completeCommand_reads (s : State) : (completeCommand s).reads = s.reads := rfl
@[simp] theorem completeCommand_taken (s : State) : (completeCommand s).taken = s.taken := rfl

/-! ### failCommand -/

@[simp] theorem failCommand_irqEn (e : ErrCode) (info : Word) (s : State) : (failCommand e info s).irqEn = s.irqEn := rfl
@[simp] theorem failCommand_mode (e : ErrCode) (info : Word) (s : State) : (failCommand e info s).mode = .idle := rfl
@[simp] theorem failCommand_done (e : ErrCode) (info : Word) (s : State) : (failCommand e info s).done = true := rfl
@[simp] theorem failCommand_rej (e : ErrCode) (info : Word) (s : State) : (failCommand e info s).rej = s.rej := rfl
@[simp] theorem failCommand_treeValid (e : ErrCode) (info : Word) (s : State) : (failCommand e info s).treeValid = s.treeValid := rfl
@[simp] theorem failCommand_hdrValid (e : ErrCode) (info : Word) (s : State) : (failCommand e info s).hdrValid = s.hdrValid := rfl
@[simp] theorem failCommand_opc (e : ErrCode) (info : Word) (s : State) : (failCommand e info s).opc = s.opc := rfl
@[simp] theorem failCommand_errcode (e : ErrCode) (info : Word) (s : State) : (failCommand e info s).errcode = e.code := rfl
@[simp] theorem failCommand_errinfo (e : ErrCode) (info : Word) (s : State) : (failCommand e info s).errinfo = info := rfl
@[simp] theorem failCommand_len (e : ErrCode) (info : Word) (s : State) : (failCommand e info s).len = s.len := rfl
@[simp] theorem failCommand_lenL (e : ErrCode) (info : Word) (s : State) : (failCommand e info s).lenL = s.lenL := rfl
@[simp] theorem failCommand_inCount (e : ErrCode) (info : Word) (s : State) : (failCommand e info s).inCount = s.inCount := rfl
@[simp] theorem failCommand_outCount (e : ErrCode) (info : Word) (s : State) : (failCommand e info s).outCount = s.outCount := rfl
@[simp] theorem failCommand_nsym (e : ErrCode) (info : Word) (s : State) : (failCommand e info s).nsym = s.nsym := rfl
@[simp] theorem failCommand_total (e : ErrCode) (info : Word) (s : State) : (failCommand e info s).total = s.total := rfl
@[simp] theorem failCommand_nnodes (e : ErrCode) (info : Word) (s : State) : (failCommand e info s).nnodes = s.nnodes := rfl
@[simp] theorem failCommand_root (e : ErrCode) (info : Word) (s : State) : (failCommand e info s).root = s.root := rfl
@[simp] theorem failCommand_maxlen (e : ErrCode) (info : Word) (s : State) : (failCommand e info s).maxlen = s.maxlen := rfl
@[simp] theorem failCommand_expbits (e : ErrCode) (info : Word) (s : State) : (failCommand e info s).expbits = s.expbits := rfl
@[simp] theorem failCommand_bitcount (e : ErrCode) (info : Word) (s : State) : (failCommand e info s).bitcount = s.bitcount := rfl
@[simp] theorem failCommand_bitpos (e : ErrCode) (info : Word) (s : State) : (failCommand e info s).bitpos = s.bitpos := rfl
@[simp] theorem failCommand_freq (e : ErrCode) (info : Word) (s : State) : (failCommand e info s).freq = s.freq := rfl
@[simp] theorem failCommand_node (e : ErrCode) (info : Word) (s : State) : (failCommand e info s).node = s.node := rfl
@[simp] theorem failCommand_tbl (e : ErrCode) (info : Word) (s : State) : (failCommand e info s).tbl = s.tbl := rfl
@[simp] theorem failCommand_inSlot (e : ErrCode) (info : Word) (s : State) : (failCommand e info s).inSlot = s.inSlot := rfl
@[simp] theorem failCommand_outSlot (e : ErrCode) (info : Word) (s : State) : (failCommand e info s).outSlot = s.outSlot := rfl
@[simp] theorem failCommand_q (e : ErrCode) (info : Word) (s : State) : (failCommand e info s).q = s.q := rfl
@[simp] theorem failCommand_acc (e : ErrCode) (info : Word) (s : State) : (failCommand e info s).acc = s.acc := rfl
@[simp] theorem failCommand_nacc (e : ErrCode) (info : Word) (s : State) : (failCommand e info s).nacc = s.nacc := rfl
@[simp] theorem failCommand_nb (e : ErrCode) (info : Word) (s : State) : (failCommand e info s).nb = s.nb := rfl
@[simp] theorem failCommand_n (e : ErrCode) (info : Word) (s : State) : (failCommand e info s).n = s.n := rfl
@[simp] theorem failCommand_nbytes (e : ErrCode) (info : Word) (s : State) : (failCommand e info s).nbytes = s.nbytes := rfl
@[simp] theorem failCommand_cand (e : ErrCode) (info : Word) (s : State) : (failCommand e info s).cand = s.cand := rfl
@[simp] theorem failCommand_clen (e : ErrCode) (info : Word) (s : State) : (failCommand e info s).clen = s.clen := rfl
@[simp] theorem failCommand_t (e : ErrCode) (info : Word) (s : State) : (failCommand e info s).t = s.t := rfl
@[simp] theorem failCommand_draws (e : ErrCode) (info : Word) (s : State) : (failCommand e info s).draws = s.draws := rfl
@[simp] theorem failCommand_schedule (e : ErrCode) (info : Word) (s : State) : (failCommand e info s).schedule = s.schedule := rfl
@[simp] theorem failCommand_reads (e : ErrCode) (info : Word) (s : State) : (failCommand e info s).reads = s.reads := rfl
@[simp] theorem failCommand_taken (e : ErrCode) (info : Word) (s : State) : (failCommand e info s).taken = s.taken := rfl

/-! ### takeInput -/

@[simp] theorem takeInput_irqEn (k : Running) (s : State) : (takeInput k s).irqEn = s.irqEn := rfl
@[simp] theorem takeInput_mode (k : Running) (s : State) : (takeInput k s).mode = .busy k := rfl
@[simp] theorem takeInput_done (k : Running) (s : State) : (takeInput k s).done = s.done := rfl
@[simp] theorem takeInput_rej (k : Running) (s : State) : (takeInput k s).rej = s.rej := rfl
@[simp] theorem takeInput_treeValid (k : Running) (s : State) : (takeInput k s).treeValid = s.treeValid := rfl
@[simp] theorem takeInput_hdrValid (k : Running) (s : State) : (takeInput k s).hdrValid = s.hdrValid := rfl
@[simp] theorem takeInput_opc (k : Running) (s : State) : (takeInput k s).opc = s.opc := rfl
@[simp] theorem takeInput_errcode (k : Running) (s : State) : (takeInput k s).errcode = s.errcode := rfl
@[simp] theorem takeInput_errinfo (k : Running) (s : State) : (takeInput k s).errinfo = s.errinfo := rfl
@[simp] theorem takeInput_len (k : Running) (s : State) : (takeInput k s).len = s.len := rfl
@[simp] theorem takeInput_lenL (k : Running) (s : State) : (takeInput k s).lenL = s.lenL := rfl
@[simp] theorem takeInput_inCount (k : Running) (s : State) : (takeInput k s).inCount = s.inCount + 1#32 := rfl
@[simp] theorem takeInput_outCount (k : Running) (s : State) : (takeInput k s).outCount = s.outCount := rfl
@[simp] theorem takeInput_nsym (k : Running) (s : State) : (takeInput k s).nsym = s.nsym := rfl
@[simp] theorem takeInput_total (k : Running) (s : State) : (takeInput k s).total = s.total := rfl
@[simp] theorem takeInput_nnodes (k : Running) (s : State) : (takeInput k s).nnodes = s.nnodes := rfl
@[simp] theorem takeInput_root (k : Running) (s : State) : (takeInput k s).root = s.root := rfl
@[simp] theorem takeInput_maxlen (k : Running) (s : State) : (takeInput k s).maxlen = s.maxlen := rfl
@[simp] theorem takeInput_expbits (k : Running) (s : State) : (takeInput k s).expbits = s.expbits := rfl
@[simp] theorem takeInput_bitcount (k : Running) (s : State) : (takeInput k s).bitcount = s.bitcount := rfl
@[simp] theorem takeInput_bitpos (k : Running) (s : State) : (takeInput k s).bitpos = s.bitpos := rfl
@[simp] theorem takeInput_freq (k : Running) (s : State) : (takeInput k s).freq = s.freq := rfl
@[simp] theorem takeInput_node (k : Running) (s : State) : (takeInput k s).node = s.node := rfl
@[simp] theorem takeInput_tbl (k : Running) (s : State) : (takeInput k s).tbl = s.tbl := rfl
@[simp] theorem takeInput_inSlot (k : Running) (s : State) : (takeInput k s).inSlot = none := rfl
@[simp] theorem takeInput_outSlot (k : Running) (s : State) : (takeInput k s).outSlot = s.outSlot := rfl
@[simp] theorem takeInput_q (k : Running) (s : State) : (takeInput k s).q = s.q := rfl
@[simp] theorem takeInput_acc (k : Running) (s : State) : (takeInput k s).acc = s.acc := rfl
@[simp] theorem takeInput_nacc (k : Running) (s : State) : (takeInput k s).nacc = s.nacc := rfl
@[simp] theorem takeInput_nb (k : Running) (s : State) : (takeInput k s).nb = s.nb := rfl
@[simp] theorem takeInput_n (k : Running) (s : State) : (takeInput k s).n = s.n := rfl
@[simp] theorem takeInput_nbytes (k : Running) (s : State) : (takeInput k s).nbytes = s.nbytes := rfl
@[simp] theorem takeInput_cand (k : Running) (s : State) : (takeInput k s).cand = s.cand := rfl
@[simp] theorem takeInput_clen (k : Running) (s : State) : (takeInput k s).clen = s.clen := rfl
@[simp] theorem takeInput_t (k : Running) (s : State) : (takeInput k s).t = s.t := rfl
@[simp] theorem takeInput_draws (k : Running) (s : State) : (takeInput k s).draws = s.draws := rfl
@[simp] theorem takeInput_schedule (k : Running) (s : State) : (takeInput k s).schedule = s.schedule := rfl
@[simp] theorem takeInput_reads (k : Running) (s : State) : (takeInput k s).reads = s.reads := rfl
@[simp] theorem takeInput_taken (k : Running) (s : State) : (takeInput k s).taken = s.taken := rfl

/-! ### putOutput -/

@[simp] theorem putOutput_irqEn (b : Byte) (k : Running) (s : State) : (putOutput b k s).irqEn = s.irqEn := rfl
@[simp] theorem putOutput_mode (b : Byte) (k : Running) (s : State) : (putOutput b k s).mode = .busy k := rfl
@[simp] theorem putOutput_done (b : Byte) (k : Running) (s : State) : (putOutput b k s).done = s.done := rfl
@[simp] theorem putOutput_rej (b : Byte) (k : Running) (s : State) : (putOutput b k s).rej = s.rej := rfl
@[simp] theorem putOutput_treeValid (b : Byte) (k : Running) (s : State) : (putOutput b k s).treeValid = s.treeValid := rfl
@[simp] theorem putOutput_hdrValid (b : Byte) (k : Running) (s : State) : (putOutput b k s).hdrValid = s.hdrValid := rfl
@[simp] theorem putOutput_opc (b : Byte) (k : Running) (s : State) : (putOutput b k s).opc = s.opc := rfl
@[simp] theorem putOutput_errcode (b : Byte) (k : Running) (s : State) : (putOutput b k s).errcode = s.errcode := rfl
@[simp] theorem putOutput_errinfo (b : Byte) (k : Running) (s : State) : (putOutput b k s).errinfo = s.errinfo := rfl
@[simp] theorem putOutput_len (b : Byte) (k : Running) (s : State) : (putOutput b k s).len = s.len := rfl
@[simp] theorem putOutput_lenL (b : Byte) (k : Running) (s : State) : (putOutput b k s).lenL = s.lenL := rfl
@[simp] theorem putOutput_inCount (b : Byte) (k : Running) (s : State) : (putOutput b k s).inCount = s.inCount := rfl
@[simp] theorem putOutput_outCount (b : Byte) (k : Running) (s : State) : (putOutput b k s).outCount = s.outCount + 1#32 := rfl
@[simp] theorem putOutput_nsym (b : Byte) (k : Running) (s : State) : (putOutput b k s).nsym = s.nsym := rfl
@[simp] theorem putOutput_total (b : Byte) (k : Running) (s : State) : (putOutput b k s).total = s.total := rfl
@[simp] theorem putOutput_nnodes (b : Byte) (k : Running) (s : State) : (putOutput b k s).nnodes = s.nnodes := rfl
@[simp] theorem putOutput_root (b : Byte) (k : Running) (s : State) : (putOutput b k s).root = s.root := rfl
@[simp] theorem putOutput_maxlen (b : Byte) (k : Running) (s : State) : (putOutput b k s).maxlen = s.maxlen := rfl
@[simp] theorem putOutput_expbits (b : Byte) (k : Running) (s : State) : (putOutput b k s).expbits = s.expbits := rfl
@[simp] theorem putOutput_bitcount (b : Byte) (k : Running) (s : State) : (putOutput b k s).bitcount = s.bitcount := rfl
@[simp] theorem putOutput_bitpos (b : Byte) (k : Running) (s : State) : (putOutput b k s).bitpos = s.bitpos := rfl
@[simp] theorem putOutput_freq (b : Byte) (k : Running) (s : State) : (putOutput b k s).freq = s.freq := rfl
@[simp] theorem putOutput_node (b : Byte) (k : Running) (s : State) : (putOutput b k s).node = s.node := rfl
@[simp] theorem putOutput_tbl (b : Byte) (k : Running) (s : State) : (putOutput b k s).tbl = s.tbl := rfl
@[simp] theorem putOutput_inSlot (b : Byte) (k : Running) (s : State) : (putOutput b k s).inSlot = s.inSlot := rfl
@[simp] theorem putOutput_outSlot (b : Byte) (k : Running) (s : State) : (putOutput b k s).outSlot = some b := rfl
@[simp] theorem putOutput_q (b : Byte) (k : Running) (s : State) : (putOutput b k s).q = s.q := rfl
@[simp] theorem putOutput_acc (b : Byte) (k : Running) (s : State) : (putOutput b k s).acc = s.acc := rfl
@[simp] theorem putOutput_nacc (b : Byte) (k : Running) (s : State) : (putOutput b k s).nacc = s.nacc := rfl
@[simp] theorem putOutput_nb (b : Byte) (k : Running) (s : State) : (putOutput b k s).nb = s.nb := rfl
@[simp] theorem putOutput_n (b : Byte) (k : Running) (s : State) : (putOutput b k s).n = s.n := rfl
@[simp] theorem putOutput_nbytes (b : Byte) (k : Running) (s : State) : (putOutput b k s).nbytes = s.nbytes := rfl
@[simp] theorem putOutput_cand (b : Byte) (k : Running) (s : State) : (putOutput b k s).cand = s.cand := rfl
@[simp] theorem putOutput_clen (b : Byte) (k : Running) (s : State) : (putOutput b k s).clen = s.clen := rfl
@[simp] theorem putOutput_t (b : Byte) (k : Running) (s : State) : (putOutput b k s).t = s.t := rfl
@[simp] theorem putOutput_draws (b : Byte) (k : Running) (s : State) : (putOutput b k s).draws = s.draws := rfl
@[simp] theorem putOutput_schedule (b : Byte) (k : Running) (s : State) : (putOutput b k s).schedule = s.schedule := rfl
@[simp] theorem putOutput_reads (b : Byte) (k : Running) (s : State) : (putOutput b k s).reads = s.reads := rfl
@[simp] theorem putOutput_taken (b : Byte) (k : Running) (s : State) : (putOutput b k s).taken = s.taken := rfl

/-! ### resetCore -/

@[simp] theorem resetCore_irqEn (s : State) : (resetCore s).irqEn = false := rfl
@[simp] theorem resetCore_mode (s : State) : (resetCore s).mode = .idle := rfl
@[simp] theorem resetCore_done (s : State) : (resetCore s).done = false := rfl
@[simp] theorem resetCore_rej (s : State) : (resetCore s).rej = false := rfl
@[simp] theorem resetCore_treeValid (s : State) : (resetCore s).treeValid = false := rfl
@[simp] theorem resetCore_hdrValid (s : State) : (resetCore s).hdrValid = false := rfl
@[simp] theorem resetCore_opc (s : State) : (resetCore s).opc = 0#4 := rfl
@[simp] theorem resetCore_errcode (s : State) : (resetCore s).errcode = 0#8 := rfl
@[simp] theorem resetCore_errinfo (s : State) : (resetCore s).errinfo = 0#32 := rfl
@[simp] theorem resetCore_len (s : State) : (resetCore s).len = 0#32 := rfl
@[simp] theorem resetCore_lenL (s : State) : (resetCore s).lenL = s.lenL := rfl
@[simp] theorem resetCore_inCount (s : State) : (resetCore s).inCount = 0#32 := rfl
@[simp] theorem resetCore_outCount (s : State) : (resetCore s).outCount = 0#32 := rfl
@[simp] theorem resetCore_nsym (s : State) : (resetCore s).nsym = 0#9 := rfl
@[simp] theorem resetCore_total (s : State) : (resetCore s).total = 0#32 := rfl
@[simp] theorem resetCore_nnodes (s : State) : (resetCore s).nnodes = 0#10 := rfl
@[simp] theorem resetCore_root (s : State) : (resetCore s).root = 0#9 := rfl
@[simp] theorem resetCore_maxlen (s : State) : (resetCore s).maxlen = 0#8 := rfl
@[simp] theorem resetCore_expbits (s : State) : (resetCore s).expbits = 0#40 := rfl
@[simp] theorem resetCore_bitcount (s : State) : (resetCore s).bitcount = 0#32 := rfl
@[simp] theorem resetCore_bitpos (s : State) : (resetCore s).bitpos = 0#32 := rfl
@[simp] theorem resetCore_freq (s : State) : (resetCore s).freq = Vector.replicate 256 0#32 := rfl
@[simp] theorem resetCore_node (s : State) : (resetCore s).node = Vector.replicate 511 .unspecified := rfl
@[simp] theorem resetCore_tbl (s : State) : (resetCore s).tbl = resetTable s.draws := rfl
@[simp] theorem resetCore_inSlot (s : State) : (resetCore s).inSlot = s.inSlot := rfl
@[simp] theorem resetCore_outSlot (s : State) : (resetCore s).outSlot = none := rfl
@[simp] theorem resetCore_q (s : State) : (resetCore s).q = s.q := rfl
@[simp] theorem resetCore_acc (s : State) : (resetCore s).acc = s.acc := rfl
@[simp] theorem resetCore_nacc (s : State) : (resetCore s).nacc = s.nacc := rfl
@[simp] theorem resetCore_nb (s : State) : (resetCore s).nb = s.nb := rfl
@[simp] theorem resetCore_n (s : State) : (resetCore s).n = s.n := rfl
@[simp] theorem resetCore_nbytes (s : State) : (resetCore s).nbytes = s.nbytes := rfl
@[simp] theorem resetCore_cand (s : State) : (resetCore s).cand = s.cand := rfl
@[simp] theorem resetCore_clen (s : State) : (resetCore s).clen = s.clen := rfl
@[simp] theorem resetCore_t (s : State) : (resetCore s).t = s.t := rfl
@[simp] theorem resetCore_draws (s : State) : (resetCore s).draws = s.draws + 1 := rfl
@[simp] theorem resetCore_schedule (s : State) : (resetCore s).schedule = s.schedule := rfl
@[simp] theorem resetCore_reads (s : State) : (resetCore s).reads = s.reads := rfl
@[simp] theorem resetCore_taken (s : State) : (resetCore s).taken = s.taken := rfl

/-! ### deliverRead -/

@[simp] theorem deliverRead_irqEn (w : Word) (s : State) : (deliverRead w s).irqEn = s.irqEn := rfl
@[simp] theorem deliverRead_mode (w : Word) (s : State) : (deliverRead w s).mode = s.mode := rfl
@[simp] theorem deliverRead_done (w : Word) (s : State) : (deliverRead w s).done = s.done := rfl
@[simp] theorem deliverRead_rej (w : Word) (s : State) : (deliverRead w s).rej = s.rej := rfl
@[simp] theorem deliverRead_treeValid (w : Word) (s : State) : (deliverRead w s).treeValid = s.treeValid := rfl
@[simp] theorem deliverRead_hdrValid (w : Word) (s : State) : (deliverRead w s).hdrValid = s.hdrValid := rfl
@[simp] theorem deliverRead_opc (w : Word) (s : State) : (deliverRead w s).opc = s.opc := rfl
@[simp] theorem deliverRead_errcode (w : Word) (s : State) : (deliverRead w s).errcode = s.errcode := rfl
@[simp] theorem deliverRead_errinfo (w : Word) (s : State) : (deliverRead w s).errinfo = s.errinfo := rfl
@[simp] theorem deliverRead_len (w : Word) (s : State) : (deliverRead w s).len = s.len := rfl
@[simp] theorem deliverRead_lenL (w : Word) (s : State) : (deliverRead w s).lenL = s.lenL := rfl
@[simp] theorem deliverRead_inCount (w : Word) (s : State) : (deliverRead w s).inCount = s.inCount := rfl
@[simp] theorem deliverRead_outCount (w : Word) (s : State) : (deliverRead w s).outCount = s.outCount := rfl
@[simp] theorem deliverRead_nsym (w : Word) (s : State) : (deliverRead w s).nsym = s.nsym := rfl
@[simp] theorem deliverRead_total (w : Word) (s : State) : (deliverRead w s).total = s.total := rfl
@[simp] theorem deliverRead_nnodes (w : Word) (s : State) : (deliverRead w s).nnodes = s.nnodes := rfl
@[simp] theorem deliverRead_root (w : Word) (s : State) : (deliverRead w s).root = s.root := rfl
@[simp] theorem deliverRead_maxlen (w : Word) (s : State) : (deliverRead w s).maxlen = s.maxlen := rfl
@[simp] theorem deliverRead_expbits (w : Word) (s : State) : (deliverRead w s).expbits = s.expbits := rfl
@[simp] theorem deliverRead_bitcount (w : Word) (s : State) : (deliverRead w s).bitcount = s.bitcount := rfl
@[simp] theorem deliverRead_bitpos (w : Word) (s : State) : (deliverRead w s).bitpos = s.bitpos := rfl
@[simp] theorem deliverRead_freq (w : Word) (s : State) : (deliverRead w s).freq = s.freq := rfl
@[simp] theorem deliverRead_node (w : Word) (s : State) : (deliverRead w s).node = s.node := rfl
@[simp] theorem deliverRead_tbl (w : Word) (s : State) : (deliverRead w s).tbl = s.tbl := rfl
@[simp] theorem deliverRead_inSlot (w : Word) (s : State) : (deliverRead w s).inSlot = s.inSlot := rfl
@[simp] theorem deliverRead_outSlot (w : Word) (s : State) : (deliverRead w s).outSlot = s.outSlot := rfl
@[simp] theorem deliverRead_q (w : Word) (s : State) : (deliverRead w s).q = s.q := rfl
@[simp] theorem deliverRead_acc (w : Word) (s : State) : (deliverRead w s).acc = s.acc := rfl
@[simp] theorem deliverRead_nacc (w : Word) (s : State) : (deliverRead w s).nacc = s.nacc := rfl
@[simp] theorem deliverRead_nb (w : Word) (s : State) : (deliverRead w s).nb = s.nb := rfl
@[simp] theorem deliverRead_n (w : Word) (s : State) : (deliverRead w s).n = s.n := rfl
@[simp] theorem deliverRead_nbytes (w : Word) (s : State) : (deliverRead w s).nbytes = s.nbytes := rfl
@[simp] theorem deliverRead_cand (w : Word) (s : State) : (deliverRead w s).cand = s.cand := rfl
@[simp] theorem deliverRead_clen (w : Word) (s : State) : (deliverRead w s).clen = s.clen := rfl
@[simp] theorem deliverRead_t (w : Word) (s : State) : (deliverRead w s).t = s.t := rfl
@[simp] theorem deliverRead_draws (w : Word) (s : State) : (deliverRead w s).draws = s.draws + 1 := rfl
@[simp] theorem deliverRead_schedule (w : Word) (s : State) : (deliverRead w s).schedule = s.schedule := rfl
@[simp] theorem deliverRead_reads (w : Word) (s : State) : (deliverRead w s).reads = s.reads ++ [w] := rfl
@[simp] theorem deliverRead_taken (w : Word) (s : State) : (deliverRead w s).taken = s.taken := rfl

/-! ### offerByte -/

@[simp] theorem offerByte_irqEn (b : Byte) (s : State) : (offerByte b s).irqEn = s.irqEn := rfl
@[simp] theorem offerByte_mode (b : Byte) (s : State) : (offerByte b s).mode = s.mode := rfl
@[simp] theorem offerByte_done (b : Byte) (s : State) : (offerByte b s).done = s.done := rfl
@[simp] theorem offerByte_rej (b : Byte) (s : State) : (offerByte b s).rej = s.rej := rfl
@[simp] theorem offerByte_treeValid (b : Byte) (s : State) : (offerByte b s).treeValid = s.treeValid := rfl
@[simp] theorem offerByte_hdrValid (b : Byte) (s : State) : (offerByte b s).hdrValid = s.hdrValid := rfl
@[simp] theorem offerByte_opc (b : Byte) (s : State) : (offerByte b s).opc = s.opc := rfl
@[simp] theorem offerByte_errcode (b : Byte) (s : State) : (offerByte b s).errcode = s.errcode := rfl
@[simp] theorem offerByte_errinfo (b : Byte) (s : State) : (offerByte b s).errinfo = s.errinfo := rfl
@[simp] theorem offerByte_len (b : Byte) (s : State) : (offerByte b s).len = s.len := rfl
@[simp] theorem offerByte_lenL (b : Byte) (s : State) : (offerByte b s).lenL = s.lenL := rfl
@[simp] theorem offerByte_inCount (b : Byte) (s : State) : (offerByte b s).inCount = s.inCount := rfl
@[simp] theorem offerByte_outCount (b : Byte) (s : State) : (offerByte b s).outCount = s.outCount := rfl
@[simp] theorem offerByte_nsym (b : Byte) (s : State) : (offerByte b s).nsym = s.nsym := rfl
@[simp] theorem offerByte_total (b : Byte) (s : State) : (offerByte b s).total = s.total := rfl
@[simp] theorem offerByte_nnodes (b : Byte) (s : State) : (offerByte b s).nnodes = s.nnodes := rfl
@[simp] theorem offerByte_root (b : Byte) (s : State) : (offerByte b s).root = s.root := rfl
@[simp] theorem offerByte_maxlen (b : Byte) (s : State) : (offerByte b s).maxlen = s.maxlen := rfl
@[simp] theorem offerByte_expbits (b : Byte) (s : State) : (offerByte b s).expbits = s.expbits := rfl
@[simp] theorem offerByte_bitcount (b : Byte) (s : State) : (offerByte b s).bitcount = s.bitcount := rfl
@[simp] theorem offerByte_bitpos (b : Byte) (s : State) : (offerByte b s).bitpos = s.bitpos := rfl
@[simp] theorem offerByte_freq (b : Byte) (s : State) : (offerByte b s).freq = s.freq := rfl
@[simp] theorem offerByte_node (b : Byte) (s : State) : (offerByte b s).node = s.node := rfl
@[simp] theorem offerByte_tbl (b : Byte) (s : State) : (offerByte b s).tbl = s.tbl := rfl
@[simp] theorem offerByte_inSlot (b : Byte) (s : State) : (offerByte b s).inSlot = some b := rfl
@[simp] theorem offerByte_outSlot (b : Byte) (s : State) : (offerByte b s).outSlot = s.outSlot := rfl
@[simp] theorem offerByte_q (b : Byte) (s : State) : (offerByte b s).q = s.q := rfl
@[simp] theorem offerByte_acc (b : Byte) (s : State) : (offerByte b s).acc = s.acc := rfl
@[simp] theorem offerByte_nacc (b : Byte) (s : State) : (offerByte b s).nacc = s.nacc := rfl
@[simp] theorem offerByte_nb (b : Byte) (s : State) : (offerByte b s).nb = s.nb := rfl
@[simp] theorem offerByte_n (b : Byte) (s : State) : (offerByte b s).n = s.n := rfl
@[simp] theorem offerByte_nbytes (b : Byte) (s : State) : (offerByte b s).nbytes = s.nbytes := rfl
@[simp] theorem offerByte_cand (b : Byte) (s : State) : (offerByte b s).cand = s.cand := rfl
@[simp] theorem offerByte_clen (b : Byte) (s : State) : (offerByte b s).clen = s.clen := rfl
@[simp] theorem offerByte_t (b : Byte) (s : State) : (offerByte b s).t = s.t := rfl
@[simp] theorem offerByte_draws (b : Byte) (s : State) : (offerByte b s).draws = s.draws := rfl
@[simp] theorem offerByte_schedule (b : Byte) (s : State) : (offerByte b s).schedule = s.schedule := rfl
@[simp] theorem offerByte_reads (b : Byte) (s : State) : (offerByte b s).reads = s.reads := rfl
@[simp] theorem offerByte_taken (b : Byte) (s : State) : (offerByte b s).taken = s.taken := rfl

end Sys2Proof.Machine
end

