-- ==== Sys2Proof/Laws/Ops.lean ====
section
/-! SUPPORT. What the shared operations can do: one core step, one command, and the one case analysis of a whole step. -/

namespace Sys2Proof.Machine

/-! ### Decoding -/

@[simp] theorem decode_encode (i : Instr) : decode (encode i) = .ok i := by cases i <;> decide

@[simp] theorem encode_opcode (i : Instr) : (encode i).extractLsb' 0 4 = opcode i := by cases i <;> decide

@[simp] theorem instr_start (i : Instr) : (Running.start i).instr = i := by cases i <;> rfl

/-! ### Modes -/

theorem busy_iff (s : State) : s.busy = true ↔ ∃ r, s.mode = .busy r := by
  unfold State.busy; cases s.mode <;> simp

theorem not_busy_iff (s : State) : s.busy = false ↔ s.mode = .idle := by
  unfold State.busy; cases s.mode <;> simp

/-! ### A core step -/

theorem coreStep_wait {s s' : State} {p : Point} (h : p.enabled s = false) : coreStep s (some (s', p)) = .next s := by
  simp [coreStep, h]

theorem coreStep_go {s s' : State} {p : Point} (h : p.enabled s = true) :
    coreStep s (some (s', p)) = .next (p.perform s') := by
  simp [coreStep, h]

/-- Everything a core step that answers a next state can have done. -/
theorem coreStep_next {s t : State} {r : Option (State × Point)} (h : coreStep s r = .next t) :
    ∃ s' p, r = some (s', p) ∧ ((p.enabled s = false ∧ t = s) ∨ (p.enabled s = true ∧ t = p.perform s')) := by
  rcases r with _ | ⟨s', p⟩
  · simp [coreStep] at h
  · refine ⟨s', p, rfl, ?_⟩
    cases hp : p.enabled s
    · rw [coreStep_wait hp] at h; injection h with h; exact .inl ⟨rfl, h.symm⟩
    · rw [coreStep_go hp] at h; injection h with h; exact .inr ⟨rfl, h.symm⟩

/-! ### exec -/

theorem exec_idle {s : State} (h : s.mode = .idle) (i : Instr) : exec i s = .next (acceptCommand i s) := by
  cases i <;>
    simp [exec, execCount, execBuild, execDerive, execClrtab, execPack, execUnpack, issueCommand, h]

/-- The running command's step is the core step of its program. -/
theorem exec_running {s : State} {r : Running} (h : s.mode = .busy r) : exec r.instr s = coreStep s (programOf r s) := by
  cases r <;>
    simp [exec, Running.instr, execCount, execBuild, execDerive, execClrtab, execPack, execUnpack, programOf, h]

theorem exec_other {s : State} {r : Running} {i : Instr} (h : s.mode = .busy r) (hi : r.instr ≠ i) :
    exec i s = .next (rejectWrite s) := by
  cases i <;> cases r <;>
    simp_all [exec, Running.instr, execCount, execBuild, execDerive, execClrtab, execPack, execUnpack, issueCommand]

/-! ### What the programs leave alone -/

/-- `s'` differs from `s` only in what a command's internal statements may write. -/
def SameOutside (s s' : State) : Prop :=
  s' = { s with
    treeValid := s'.treeValid, hdrValid := s'.hdrValid, nsym := s'.nsym, total := s'.total, nnodes := s'.nnodes, root := s'.root
    maxlen := s'.maxlen, expbits := s'.expbits, bitcount := s'.bitcount, bitpos := s'.bitpos
    freq := s'.freq, node := s'.node, tbl := s'.tbl
    q := s'.q, acc := s'.acc, nacc := s'.nacc, nb := s'.nb, n := s'.n, nbytes := s'.nbytes, cand := s'.cand, clen := s'.clen, t := s'.t }

theorem SameOutside.irqEn {s s' : State} (h : SameOutside s s') : s'.irqEn = s.irqEn := by
  unfold SameOutside at h; rw [h]

theorem SameOutside.mode {s s' : State} (h : SameOutside s s') : s'.mode = s.mode := by
  unfold SameOutside at h; rw [h]

theorem SameOutside.done {s s' : State} (h : SameOutside s s') : s'.done = s.done := by
  unfold SameOutside at h; rw [h]

theorem SameOutside.rej {s s' : State} (h : SameOutside s s') : s'.rej = s.rej := by
  unfold SameOutside at h; rw [h]

theorem SameOutside.opc {s s' : State} (h : SameOutside s s') : s'.opc = s.opc := by
  unfold SameOutside at h; rw [h]

theorem SameOutside.errcode {s s' : State} (h : SameOutside s s') : s'.errcode = s.errcode := by
  unfold SameOutside at h; rw [h]

theorem SameOutside.errinfo {s s' : State} (h : SameOutside s s') : s'.errinfo = s.errinfo := by
  unfold SameOutside at h; rw [h]

theorem SameOutside.len {s s' : State} (h : SameOutside s s') : s'.len = s.len := by
  unfold SameOutside at h; rw [h]

theorem SameOutside.lenL {s s' : State} (h : SameOutside s s') : s'.lenL = s.lenL := by
  unfold SameOutside at h; rw [h]

theorem SameOutside.inCount {s s' : State} (h : SameOutside s s') : s'.inCount = s.inCount := by
  unfold SameOutside at h; rw [h]

theorem SameOutside.outCount {s s' : State} (h : SameOutside s s') : s'.outCount = s.outCount := by
  unfold SameOutside at h; rw [h]

theorem SameOutside.inSlot {s s' : State} (h : SameOutside s s') : s'.inSlot = s.inSlot := by
  unfold SameOutside at h; rw [h]

theorem SameOutside.outSlot {s s' : State} (h : SameOutside s s') : s'.outSlot = s.outSlot := by
  unfold SameOutside at h; rw [h]

theorem SameOutside.draws {s s' : State} (h : SameOutside s s') : s'.draws = s.draws := by
  unfold SameOutside at h; rw [h]

theorem SameOutside.schedule {s s' : State} (h : SameOutside s s') : s'.schedule = s.schedule := by
  unfold SameOutside at h; rw [h]

theorem SameOutside.reads {s s' : State} (h : SameOutside s s') : s'.reads = s.reads := by
  unfold SameOutside at h; rw [h]

theorem SameOutside.taken {s s' : State} (h : SameOutside s s') : s'.taken = s.taken := by
  unfold SameOutside at h; rw [h]

/-- `s'` differs from `s` only in what PACK's internal statements write. -/
def SameButPack (s s' : State) : Prop :=
  s' = { s with bitcount := s'.bitcount, bitpos := s'.bitpos, acc := s'.acc, nacc := s'.nacc, nb := s'.nb }

/-- `s'` differs from `s` only in what UNPACK's internal statements write. -/
def SameButUnpack (s s' : State) : Prop :=
  s' = { s with
    bitcount := s'.bitcount, bitpos := s'.bitpos, n := s'.n, nbytes := s'.nbytes, cand := s'.cand, clen := s'.clen, t := s'.t }

theorem SameButPack.outside {s s' : State} (h : SameButPack s s') : SameOutside s s' := by
  unfold SameButPack at h; unfold SameOutside; rw [h]

theorem SameButUnpack.outside {s s' : State} (h : SameButUnpack s s') : SameOutside s s' := by
  unfold SameButUnpack at h; unfold SameOutside; rw [h]

theorem packCheck_same (s : State) : (packCheck s).1 = s := by
  unfold packCheck; split <;> rfl

theorem packEnd_same (s : State) : (packEnd s).1 = s := by
  unfold packEnd; split
  · exact packCheck_same s
  · rfl

theorem packLoop_same (left : Nat) (s : State) : (packLoop left s).1 = s := by
  cases left
  · exact packEnd_same s
  · rfl

theorem packBits_same (b : Byte) (left j : Nat) (s : State) : SameButPack s (packBits b left j s).1 := by
  induction j generalizing s with
  | zero => simp only [packBits, packLoop_same]; rfl
  | succ j ih =>
    simp only [packBits]
    split
    · rfl
    · have := ih (packBit ((s.entry b).code.getLsbD j) s)
      unfold SameButPack at this ⊢
      rw [this]; rfl

theorem packProgram_same (c : PackCont) (s : State) : SameButPack s (packProgram c s).1 := by
  cases c with
  | start => simp only [packProgram, packStart]; repeat' split
             all_goals rfl
  | hdr k => simp only [packProgram]; split
             · rfl
             · rw [packLoop_same]; rfl
  | got b left => simp only [packProgram]; split
                  · exact packBits_same b left _ s
                  · rfl
  | bits b j left =>
    have := packBits_same b left j { s with acc := 0#8, nacc := 0#4 }
    unfold SameButPack at this ⊢
    simp only [packProgram]
    rw [this]
  | tail => simp only [packProgram, packCheck_same]; rfl

theorem unpackTail_same (left : Nat) (s : State) : (unpackTail left s).1 = s := by
  cases left <;> rfl

theorem unpackEnd_same (s : State) : (unpackEnd s).1 = s := by
  unfold unpackEnd; split
  · exact unpackTail_same _ s
  · rfl

theorem unpackLoop_same (left : Nat) (s : State) : (unpackLoop left s).1 = s := by
  cases left
  · exact unpackEnd_same s
  · rfl

theorem unpackBits_same (b : Byte) (left k : Nat) (s : State) : SameButUnpack s (unpackBits b left k s).1 := by
  induction k generalizing s with
  | zero => simp only [unpackBits, unpackLoop_same]; rfl
  | succ k ih =>
    simp only [unpackBits]
    split
    · split
      · split
        · rfl
        · have := ih (unpackBit (b.getLsbD k) s)
          unfold SameButUnpack at this ⊢
          rw [this]; rfl
      · rfl
      · rfl
    · exact ih s

theorem unpackProgram_same (c : UnpackCont) (s : State) : SameButUnpack s (unpackProgram c s).1 := by
  cases c with
  | start => simp only [unpackProgram]; split <;> rfl
  | got0 => rfl
  | got1 => rfl
  | got2 => rfl
  | got3 =>
    simp only [unpackProgram, unpackHeader]
    repeat' split
    · rfl
    · rfl
    · rw [unpackLoop_same]; rfl
  | gotData b left => exact unpackBits_same b left 8 s
  | emitted b k left =>
    have := unpackBits_same b left k { s with cand := 0#256, clen := 0#8 }
    unfold SameButUnpack at this ⊢
    simp only [unpackProgram]
    rw [this]
  | gotTail left => simp only [unpackProgram, unpackTail_same]; rfl

theorem countLoop_same (left : Nat) (s : State) : (countLoop left s).1 = s := by
  cases left <;> rfl

/-- No command's internal statements touch the slots, the counters of bytes, the control registers or the host's side. -/
theorem programOf_sameOutside {r : Running} {s s' : State} {p : Point} (h : programOf r s = some (s', p)) :
    SameOutside s s' := by
  cases r with
  | count c =>
    cases c <;> simp only [programOf, Option.some.injEq, countProgram] at h
    · have := countLoop_same s.lenL.toNat (countClear s)
      rw [h] at this; cases this; rfl
    · rename_i b left
      have := countLoop_same left (countByte b s)
      rw [h] at this; cases this; rfl
  | build =>
    simp only [programOf, Option.some.injEq, buildProgram] at h
    split at h <;> · cases h; rfl
  | derive =>
    simp only [programOf, deriveProgram] at h
    split at h
    · split at h
      · cases h
      · cases h; rfl
    · cases h; rfl
  | clrtab => simp only [programOf, Option.some.injEq, clrtabProgram] at h; cases h; rfl
  | pack c =>
    simp only [programOf, Option.some.injEq] at h
    have := packProgram_same c s
    rw [h] at this
    exact this.outside
  | unpack c =>
    simp only [programOf, Option.some.injEq] at h
    have := unpackProgram_same c s
    rw [h] at this
    exact this.outside

/-! ### Where a program's point leads -/

/-- The point's continuation belongs to command `i`. -/
def Point.StaysIn (i : Instr) : Point → Prop
  | .inByte k => ∀ b, (k b).instr = i
  | .outByte _ k => k.instr = i
  | .complete => True
  | .fail _ _ => True

theorem packCheck_staysIn (s : State) : (packCheck s).2.StaysIn .pack := by
  unfold packCheck; split <;> trivial

theorem packEnd_staysIn (s : State) : (packEnd s).2.StaysIn .pack := by
  unfold packEnd; split
  · exact packCheck_staysIn s
  · rfl

theorem packLoop_staysIn (left : Nat) (s : State) : (packLoop left s).2.StaysIn .pack := by
  cases left
  · exact packEnd_staysIn s
  · exact fun _ => rfl

theorem packBits_staysIn (b : Byte) (left j : Nat) (s : State) : (packBits b left j s).2.StaysIn .pack := by
  induction j generalizing s with
  | zero => exact packLoop_staysIn left s
  | succ j ih =>
    simp only [packBits]; split
    · rfl
    · exact ih _

theorem packProgram_staysIn (c : PackCont) (s : State) : (packProgram c s).2.StaysIn .pack := by
  cases c with
  | start => simp only [packProgram, packStart]; repeat' split
             all_goals trivial
  | hdr k => simp only [packProgram]; split
             · rfl
             · exact packLoop_staysIn _ _
  | got b left => simp only [packProgram]; split
                  · exact packBits_staysIn b left _ s
                  · trivial
  | bits b j left => exact packBits_staysIn b left j _
  | tail => exact packCheck_staysIn s

theorem unpackTail_staysIn (left : Nat) (s : State) : (unpackTail left s).2.StaysIn .unpack := by
  cases left
  · trivial
  · exact fun _ => rfl

theorem unpackEnd_staysIn (s : State) : (unpackEnd s).2.StaysIn .unpack := by
  unfold unpackEnd; split
  · exact unpackTail_staysIn _ s
  · trivial

theorem unpackLoop_staysIn (left : Nat) (s : State) : (unpackLoop left s).2.StaysIn .unpack := by
  cases left
  · exact unpackEnd_staysIn s
  · exact fun _ => rfl

theorem unpackBits_staysIn (b : Byte) (left k : Nat) (s : State) : (unpackBits b left k s).2.StaysIn .unpack := by
  induction k generalizing s with
  | zero => exact unpackLoop_staysIn left s
  | succ k ih =>
    simp only [unpackBits]; split
    · split
      · split
        · trivial
        · exact ih _
      · rfl
      · trivial
    · exact ih s

theorem unpackProgram_staysIn (c : UnpackCont) (s : State) : (unpackProgram c s).2.StaysIn .unpack := by
  cases c with
  | start => simp only [unpackProgram]; split
             · trivial
             · exact fun _ => rfl
  | got0 => exact fun _ => rfl
  | got1 => exact fun _ => rfl
  | got2 => exact fun _ => rfl
  | got3 =>
    simp only [unpackProgram, unpackHeader]
    repeat' split
    · trivial
    · trivial
    · exact unpackLoop_staysIn _ _
  | gotData b left => exact unpackBits_staysIn b left 8 s
  | emitted b k left => exact unpackBits_staysIn b left k _
  | gotTail left => exact unpackTail_staysIn left s

theorem countLoop_staysIn (left : Nat) (s : State) : (countLoop left s).2.StaysIn .count := by
  cases left
  · trivial
  · exact fun _ => rfl

/-- A command's program leads to its own continuations only. -/
theorem programOf_staysIn {r : Running} {s s' : State} {p : Point} (h : programOf r s = some (s', p)) :
    p.StaysIn r.instr := by
  have key : ∀ q : State × Point, q = (s', p) → q.2.StaysIn r.instr → p.StaysIn r.instr := by
    rintro q rfl hq; exact hq
  cases r with
  | count c =>
    simp only [programOf, Option.some.injEq] at h
    refine key _ h ?_
    cases c <;> exact countLoop_staysIn _ _
  | build =>
    simp only [programOf, Option.some.injEq] at h
    refine key _ h ?_
    unfold buildProgram; split <;> trivial
  | derive =>
    simp only [programOf, deriveProgram] at h
    split at h
    · split at h
      · cases h
      · cases h; trivial
    · cases h; trivial
  | clrtab =>
    simp only [programOf, Option.some.injEq] at h
    exact key _ h trivial
  | pack c =>
    simp only [programOf, Option.some.injEq] at h
    exact key _ h (packProgram_staysIn c s)
  | unpack c =>
    simp only [programOf, Option.some.injEq] at h
    exact key _ h (unpackProgram_staysIn c s)

end Sys2Proof.Machine
end

