-- ==== Sys2Proof/Laws/Bus.lean ====
section
/-! SUPPORT. Decoding words and addresses: which addresses select what (20_memory.md R44, R45), and what a bus write is for each. -/

namespace Sys2Proof.Machine

/-! ### Command words -/

theorem ofOpcode_some {o : BitVec 4} {i : Instr} : ofOpcode o = some i ↔ o = opcode i := by
  have key : ∀ o : BitVec 4, ∀ i ∈ Instr.all, ofOpcode o = some i ↔ o = opcode i := by decide
  exact key o i (by cases i <;> decide)

/-- A word decodes to a command exactly when it is that command's word. -/
theorem decode_iff {w : Word} {i : Instr} : decode w = .ok i ↔ encode i = w := by
  constructor
  · intro h
    unfold decode at h
    dsimp only at h
    split at h
    · rename_i hz
      split at h
      · rename_i j hj
        injection h with h; subst h
        rw [ofOpcode_some] at hj
        simp only [CommandWord.rsvZero, CommandWord.ofWord, beq_iff_eq] at hz hj
        unfold encode CommandWord.toWord
        dsimp only
        rw [← hz, ← hj]
        ext k hk
        simp only [BitVec.getElem_append, BitVec.getElem_extractLsb']
        split
        · rw [BitVec.getLsbD_eq_getElem]
          · simp
          · omega
        · rw [BitVec.getLsbD_eq_getElem]
          · congr 1; omega
          · omega
      · cases h
    · cases h
  · rintro rfl; exact decode_encode i

/-! ### Addresses -/

theorem decodeAddr_reg {a : Addr} {r : Reg} : decodeAddr a = .reg r ↔ a.toNat / 4 = r.offset.toNat / 4 := by
  constructor
  · intro h
    unfold decodeAddr at h
    dsimp only at h
    split at h
    · unfold Reg.ofIndex at h
      split at h
      · rename_i r' hr'
        split at hr' <;> cases hr' <;> cases h <;> assumption
      · cases h
    · repeat' split at h
      all_goals cases h
  · intro h
    unfold decodeAddr
    cases r <;> simp [h, Reg.offset, Reg.ofIndex]

theorem decodeAddr_freq {a : Addr} {b : Byte} : decodeAddr a = .freq b ↔ a.toNat / 4 = 0x100 + b.toNat := by
  constructor
  · intro h
    unfold decodeAddr at h
    dsimp only at h
    split at h
    · split at h <;> cases h
    · split at h
      · injection h with h; subst h; simp; omega
      · repeat' split at h
        all_goals cases h
  · intro h
    have := b.isLt
    unfold decodeAddr
    dsimp only
    rw [if_neg (by omega), if_pos (by omega), h]
    simp

theorem decodeAddr_node {a : Addr} {i : Nat} {x : Bool} :
    decodeAddr a = .node i x ↔ i < 511 ∧ a.toNat / 4 = 0x400 + 2 * i + (if x then 1 else 0) := by
  constructor
  · intro h
    unfold decodeAddr at h
    dsimp only at h
    split at h
    · split at h <;> cases h
    · split at h
      · cases h
      · split at h
        · cases h
        · split at h
          · injection h with h1 h2; subst h1 h2
            refine ⟨by omega, ?_⟩
            by_cases hp : (a.toNat / 4 - 0x400) % 2 = 1
            · simp [hp]; omega
            · simp [hp]; omega
          · repeat' split at h
            all_goals cases h
  · rintro ⟨hi, h⟩
    unfold decodeAddr
    dsimp only
    cases x
    · simp only [Bool.false_eq_true, if_false] at h
      have e1 : (a.toNat / 4 - 0x400) / 2 = i := by omega
      have e2 : (a.toNat / 4 - 0x400) % 2 = 0 := by omega
      rw [if_neg (by omega), if_neg (by omega), if_neg (by omega), if_pos (by omega), e1, e2]
      rfl
    · simp only [if_true] at h
      have e1 : (a.toNat / 4 - 0x400) / 2 = i := by omega
      have e2 : (a.toNat / 4 - 0x400) % 2 = 1 := by omega
      rw [if_neg (by omega), if_neg (by omega), if_neg (by omega), if_pos (by omega), e1, e2]
      rfl

theorem decodeAddr_table {a : Addr} {e : Byte} {w : Nat} :
    decodeAddr a = .table e w ↔ w < 16 ∧ a.toNat / 4 = 0x1000 + 16 * e.toNat + w := by
  constructor
  · intro h
    unfold decodeAddr at h
    dsimp only at h
    split at h
    · split at h <;> cases h
    · repeat' split at h
      all_goals cases h
      refine ⟨by omega, ?_⟩
      simp only [BitVec.toNat_ofNat]
      omega
  · rintro ⟨hw, h⟩
    have := e.isLt
    unfold decodeAddr
    dsimp only
    rw [if_neg (by omega), if_neg (by omega), if_neg (by omega), if_neg (by omega), if_neg (by omega), if_pos (by omega), h,
      show (0x1000 + 16 * e.toNat + w - 0x1000) / 16 = e.toNat by omega, show (0x1000 + 16 * e.toNat + w - 0x1000) % 16 = w by omega]
    simp

/-- The holes of the address map (20_memory.md R44). -/
theorem decodeAddr_unmapped {a : Addr} (h : (0x004C ≤ a.toNat ∧ a.toNat ≤ 0x03FF) ∨ (0x0800 ≤ a.toNat ∧ a.toNat ≤ 0x0FFF) ∨
    (0x1FF8 ≤ a.toNat ∧ a.toNat ≤ 0x3FFF) ∨ 0x8000 ≤ a.toNat) : decodeAddr a = .unmapped := by
  rcases hd : decodeAddr a with r | b | ⟨i, x⟩ | ⟨e, w⟩ | _
  · have := decodeAddr_reg.1 hd
    cases r <;> simp [Reg.offset] at this <;> omega
  · have := decodeAddr_freq.1 hd; have := b.isLt; omega
  · have := decodeAddr_node.1 hd; cases x <;> simp at this <;> omega
  · have := decodeAddr_table.1 hd; have := e.isLt; omega
  · rfl

/-- Only the word address selects what is accessed (R45). -/
theorem decodeAddr_congr {a b : Addr} (h : a.toNat / 4 = b.toNat / 4) : decodeAddr a = decodeAddr b := by
  unfold decodeAddr; rw [h]

/-! ### Bus writes -/

/-- A legal word written to CMD of an IDLE CORE. -/
theorem writeCmd_idle {s : State} {w : Word} {i : Instr} (hm : s.mode = .idle) (hd : decode w = .ok i) :
    writeCmd w s = .next (acceptCommand i s) := by
  unfold writeCmd
  rw [hm, hd]
  exact exec_idle hm i

/-- An illegal word written to CMD of an IDLE CORE. -/
theorem writeCmd_illegal {s : State} {w : Word} {e : DecodeError} (hm : s.mode = .idle) (hd : decode w = .error e) :
    writeCmd w s = .next (acceptIllegal w s) := by
  unfold writeCmd
  rw [hm, hd]

/-- A word written to CMD of a BUSY CORE. -/
theorem writeCmd_busy {s : State} {w : Word} {r : Running} (hm : s.mode = .busy r) : writeCmd w s = .next (rejectWrite s) := by
  unfold writeCmd
  rw [hm]

theorem hostWrite_reg {a : Addr} {v : Word} {s : State} {r : Reg} (h : a.toNat / 4 = r.offset.toNat / 4) : hostWrite a v s = writeReg r v s := by
  unfold hostWrite; rw [decodeAddr_reg.2 h]

theorem hostWrite_table {a : Addr} {v : Word} {s : State} {e : Byte} {w : Nat} (hw : w < 16) (h : a.toNat / 4 = 0x1000 + 16 * e.toNat + w) :
    hostWrite a v s = .next (if s.busy then rejectWrite s else writeTable e w v s) := by
  unfold hostWrite; rw [decodeAddr_table.2 ⟨hw, h⟩]

/-- What a bus write can do, with where it was written. -/
inductive WriteMove (a : Addr) (v : Word) (s : State) : State → Prop
  | ignored : WriteMove a v s s
  | accept (i : Instr) (ha : a.toNat / 4 = 3) (hm : s.mode = .idle) (hd : decode v = .ok i) : WriteMove a v s (acceptCommand i s)
  | illegal (e : DecodeError) (ha : a.toNat / 4 = 3) (hm : s.mode = .idle) (hd : decode v = .error e) : WriteMove a v s (acceptIllegal v s)
  | reject (r : Running) (ha : a.toNat / 4 = 3 ∨ a.toNat / 4 = 7 ∨ (0x4000 ≤ a.toNat ∧ a.toNat < 0x8000)) (hm : s.mode = .busy r) :
    WriteMove a v s (rejectWrite s)
  | status (ha : a.toNat / 4 = 4) : WriteMove a v s (writeStatus v s)
  | irqEn (ha : a.toNat / 4 = 2) (hv : v.getLsbD 1 = false) : WriteMove a v s { s with irqEn := v.getLsbD 0 }
  | reset (ha : a.toNat / 4 = 2) (hv : v.getLsbD 1 = true) : WriteMove a v s (resetCore s)
  | len (ha : a.toNat / 4 = 7) (hm : s.mode = .idle) : WriteMove a v s { s with len := v }
  | table (e : Byte) (w : Nat) (hw : w ≤ 8) (ha : a.toNat / 4 = 0x1000 + 16 * e.toNat + w) (hm : s.mode = .idle) :
    WriteMove a v s { s with tbl := setEntryOf s.tbl e ((s.entry e).setWord w v), hdrValid := false }

theorem hostWrite_move (a : Addr) (v : Word) (s : State) : ∃ t, hostWrite a v s = .next t ∧ WriteMove a v s t := by
  unfold hostWrite
  rcases hd : decodeAddr a with r | b | ⟨i, x⟩ | ⟨e, w⟩ | _
  · have ha := decodeAddr_reg.1 hd
    cases r <;> dsimp only [writeReg]
    case ctrl =>
      unfold writeCtrl
      cases hv : v.getLsbD 1
      · exact ⟨_, rfl, .irqEn ha hv⟩
      · exact ⟨_, rfl, .reset ha hv⟩
    case cmd =>
      rcases hm : s.mode with _ | r
      · rcases hw : decode v with e | i
        · exact ⟨_, writeCmd_illegal hm hw, .illegal e ha hm hw⟩
        · exact ⟨_, writeCmd_idle hm hw, .accept i ha hm hw⟩
      · exact ⟨_, writeCmd_busy hm, .reject r (.inl ha) hm⟩
    case status => exact ⟨_, rfl, .status ha⟩
    case len =>
      rcases hm : s.mode with _ | r
      · exact ⟨_, rfl, by unfold writeLen; rw [(not_busy_iff s).2 hm]; exact .len ha hm⟩
      · exact ⟨_, rfl, by unfold writeLen; rw [(busy_iff s).2 ⟨r, hm⟩]; exact .reject r (.inr (.inl ha)) hm⟩
    all_goals exact ⟨_, rfl, .ignored⟩
  · exact ⟨_, rfl, .ignored⟩
  · exact ⟨_, rfl, .ignored⟩
  · obtain ⟨hw, ha⟩ := decodeAddr_table.1 hd
    have := e.isLt
    dsimp only
    rcases hm : s.mode with _ | r
    · rw [(not_busy_iff s).2 hm]
      refine ⟨_, rfl, ?_⟩
      simp only [Bool.false_eq_true, if_false]
      unfold writeTable
      split
      · rename_i h8; exact .table e w h8 ha hm
      · exact .ignored
    · rw [(busy_iff s).2 ⟨r, hm⟩]
      exact ⟨_, rfl, .reject r (.inr (.inr (by omega))) hm⟩
  · exact ⟨_, rfl, .ignored⟩

end Sys2Proof.Machine
end

