-- ==== Sys2Proof/Laws/Codes.lean ====
section
/-! SUPPORT. Codes as bit strings: appending bits, an entry's bit string, and the match of R109 (00_scope.md R11, 44_code_table_sram.md R108, R109). -/

namespace Sys2Proof.Machine

/-- The low `l` bits of a code field as a bit string, first bit first. -/
def lowBits (c : CodeBits) (l : Nat) : List Bool := ((List.range l).map c.getLsbD).reverse

theorem bits_def (e : Entry) : e.bits = lowBits e.code e.len.toNat := rfl

@[simp] theorem length_lowBits (c : CodeBits) (l : Nat) : (lowBits c l).length = l := by simp [lowBits]

@[simp] theorem lowBits_zero (c : CodeBits) : lowBits c 0 = [] := rfl

theorem lowBits_succ (c : CodeBits) (l : Nat) : lowBits c (l + 1) = c.getLsbD l :: lowBits c l := by
  simp [lowBits, List.range_succ]

theorem pushCode_zero (c : CodeBits) (x : Bool) : (pushCode c x).getLsbD 0 = x := by
  cases x <;> simp [pushCode]

theorem pushCode_succ (c : CodeBits) (x : Bool) (i : Nat) (h : i + 1 < 256) :
    (pushCode c x).getLsbD (i + 1) = c.getLsbD i := by
  cases x <;> simp [pushCode, h] <;> exact (BitVec.getLsbD_eq_getElem (by omega)).symm

theorem lowBits_pushCode (c : CodeBits) (x : Bool) (l : Nat) (h : l < 256) :
    lowBits (pushCode c x) (l + 1) = lowBits c l ++ [x] := by
  induction l with
  | zero => rw [lowBits_succ, pushCode_zero]; rfl
  | succ l ih => rw [lowBits_succ, pushCode_succ c x l h, ih (by omega), lowBits_succ, List.cons_append]

/-- Appending a bit string. -/
def pushBits (c : CodeBits) (bs : List Bool) : CodeBits := bs.foldl pushCode c

theorem pushBits_append (c : CodeBits) (as bs : List Bool) : pushBits c (as ++ bs) = pushBits (pushBits c as) bs := by
  simp [pushBits]

theorem lowBits_pushBits (c : CodeBits) (bs : List Bool) (l : Nat) (h : l + bs.length ≤ 256) :
    lowBits (pushBits c bs) (l + bs.length) = lowBits c l ++ bs := by
  induction bs generalizing c l with
  | nil => simp [pushBits]
  | cons x bs ih =>
    simp only [List.length_cons] at h ⊢
    have := ih (pushCode c x) (l + 1) (by omega)
    rw [show l + (bs.length + 1) = l + 1 + bs.length by omega]
    show lowBits (pushBits (pushCode c x) bs) _ = _
    rw [this, lowBits_pushCode c x l (by omega)]
    simp

theorem lowBits_inj {c d : CodeBits} {l : Nat} : lowBits c l = lowBits d l ↔ ∀ i, i < l → c.getLsbD i = d.getLsbD i := by
  induction l with
  | zero => simp
  | succ l ih =>
    rw [lowBits_succ, lowBits_succ, List.cons.injEq, ih]
    constructor
    · rintro ⟨h1, h2⟩ i hi
      by_cases h : i = l
      · exact h ▸ h1
      · exact h2 i (by omega)
    · exact fun h => ⟨h l (by omega), fun i hi => h i (by omega)⟩

theorem mod_eq_iff_lowBits (c d : CodeBits) (l : Nat) : c.toNat % 2 ^ l = d.toNat % 2 ^ l ↔ lowBits c l = lowBits d l := by
  rw [lowBits_inj]
  constructor
  · intro h i hi
    have := congrArg (fun n => n.testBit i) h
    simpa [Nat.testBit_mod_two_pow, hi, BitVec.getLsbD] using this
  · intro h
    apply Nat.eq_of_testBit_eq
    intro i
    rw [Nat.testBit_mod_two_pow, Nat.testBit_mod_two_pow]
    by_cases hi : i < l
    · simpa [hi, BitVec.getLsbD] using h i hi
    · simp [hi]

/-- An entry matches a candidate iff it is valid and the candidate's bits are its bit string (R109). -/
theorem matchesCode_iff (e : Entry) (l : BitVec 8) (c : CodeBits) :
    e.matchesCode l c = true ↔ e.valid = true ∧ e.bits = lowBits c l.toNat := by
  simp only [Entry.matchesCode, Bool.and_eq_true, beq_iff_eq, mod_eq_iff_lowBits, bits_def]
  constructor
  · rintro ⟨h1, rfl, h2⟩; exact ⟨h1, h2⟩
  · rintro ⟨h1, h2⟩
    have hl : e.len.toNat = l.toNat := by simpa using congrArg List.length h2
    exact ⟨h1, BitVec.eq_of_toNat_eq hl, by rw [hl] at h2; exact h2⟩

theorem mem_matchSet (tbl : Vector Entry 256) (l : BitVec 8) (c : CodeBits) (s : Byte) :
    s ∈ matchSet tbl l c ↔ (entryOf tbl s).valid = true ∧ (entryOf tbl s).bits = lowBits c l.toNat := by
  simp [matchSet, matchesCode_iff]

theorem nodup_matchSet (tbl : Vector Entry 256) (l : BitVec 8) (c : CodeBits) : (matchSet tbl l c).Nodup :=
  nodup_symbols.filter _

@[simp] theorem length_bits (e : Entry) : e.bits.length = e.len.toNat := by simp [bits_def]

theorem usable_iff (e : Entry) : e.usable = true ↔ e.valid = true ∧ e.bits ≠ [] := by
  simp only [Entry.usable, Bool.and_eq_true, bne_iff_ne, ne_eq, ← List.length_eq_zero_iff, length_bits]
  rw [← BitVec.toNat_inj]; simp

/-- The entry DERIVE writes for a path has that path as its bit string. -/
theorem bits_of_path (p : List Bool) (h : p.length ≤ 255) :
    ({ valid := true, len := BitVec.ofNat 8 p.length, code := pushBits 0#256 p } : Entry).bits = p := by
  have hl : (BitVec.ofNat 8 p.length).toNat = p.length := by simp; omega
  rw [bits_def]
  show lowBits (pushBits 0#256 p) (BitVec.ofNat 8 p.length).toNat = p
  rw [hl]
  have := lowBits_pushBits 0#256 p 0 (by omega)
  simpa using this

/-! ### The words of a TABLE entry -/

/-- A bit of a code with word `k` replaced. -/
theorem getLsbD_setCodeWord (c : CodeBits) (k : Nat) (v : Word) (i : Nat) (hi : i < 256) :
    (setCodeWord c k v).getLsbD i = if 32 * k ≤ i ∧ i < 32 * k + 32 then v.getLsbD (i - 32 * k) else c.getLsbD i := by
  unfold setCodeWord
  have hF : ∀ j, (0xFFFFFFFF#256).getLsbD j = decide (j < 32) := by
    intro j
    have : (0xFFFFFFFF#256) = (BitVec.allOnes 32).setWidth 256 := by decide
    rw [this, BitVec.getLsbD_setWidth, BitVec.getLsbD_allOnes]
    by_cases h : j < 32
    · simp [h]; omega
    · simp [h]
  simp only [BitVec.getLsbD_or, BitVec.getLsbD_and, BitVec.getLsbD_not, BitVec.getLsbD_shiftLeft, hF, BitVec.getLsbD_setWidth]
  by_cases h1 : i < 32 * k
  · simp [h1, hi, show ¬ (32 * k ≤ i) by omega]
  · by_cases h2 : i < 32 * k + 32
    · simp [h1, hi, h2, show 32 * k ≤ i by omega, show i - 32 * k < 32 by omega]; intro; omega
    · simp [h1, hi, h2, show ¬ i - 32 * k < 32 by omega]
      intro h3; rw [BitVec.getLsbD_of_ge _ _ (by omega)]; simp

/-- A bit of word `k` of a code. -/
theorem getLsbD_codeWord (c : CodeBits) (k j : Nat) : (codeWord c k).getLsbD j = (decide (j < 32) && c.getLsbD (32 * k + j)) := by
  unfold codeWord; simp

/-- META as the HOST reads it: VALID in bit 31, LEN in bits 7:0, the rest 0 (30_encoding.md R69). -/
theorem word_meta (v : Bool) (l : BitVec 8) : flagBit 31 v ||| l.setWidth 32 = (BitVec.ofBool v) ++ 0#23 ++ l := by
  revert l; cases v <;> decide

end Sys2Proof.Machine
end

