-- ==== Sys2Proof/Laws/Count.lean ====
section
/-! SUPPORT. The arithmetic of FREQ: its sum, its nonzero entries, and one count more. -/

namespace Sys2Proof.Machine

@[simp] theorem freqSum_zero : freqSum (Vector.replicate 256 0#32) = 0 := by
  refine List.sum_eq_zero fun x hx => ?_
  obtain ⟨s, -, rfl⟩ := List.mem_map.1 hx
  simp

@[simp] theorem countedSymbols_zero : countedSymbols (Vector.replicate 256 0#32) = [] := by
  simp [countedSymbols]

theorem mem_countedSymbols (v : Vector Word 256) (s : Byte) : s ∈ countedSymbols v ↔ entryOf v s ≠ 0#32 := by
  simp [countedSymbols]

theorem nodup_countedSymbols (v : Vector Word 256) : (countedSymbols v).Nodup := nodup_symbols.filter _

theorem length_countedSymbols_le (v : Vector Word 256) : (countedSymbols v).length ≤ 256 := by
  have := List.length_filter_le (fun s => entryOf v s != 0#32) symbols
  simpa [countedSymbols] using this

/-- Changing one summand of a sum over a list without repeats. -/
theorem sum_map_update {f g : Byte → Nat} {b : Byte} {l : List Byte} (hn : l.Nodup) (hb : b ∈ l)
    (h : ∀ s, s ≠ b → g s = f s) : (l.map g).sum + f b = (l.map f).sum + g b := by
  induction l with
  | nil => cases hb
  | cons a l ih =>
    rw [List.nodup_cons] at hn
    rcases List.mem_cons.1 hb with rfl | hb'
    · have : l.map g = l.map f := List.map_congr_left fun s hs => h s (fun e => hn.1 (e ▸ hs))
      simp only [List.map_cons, List.sum_cons, this]; omega
    · have ha : a ≠ b := fun e => hn.1 (e ▸ hb')
      have := ih hn.2 hb'
      simp only [List.map_cons, List.sum_cons, h a ha]; omega

theorem freqSum_setEntryOf (v : Vector Word 256) (b : Byte) (x : Word) :
    freqSum (setEntryOf v b x) + (entryOf v b).toNat = freqSum v + x.toNat := by
  have := sum_map_update (f := fun s => (entryOf v s).toNat) (g := fun s => (entryOf (setEntryOf v b x) s).toNat)
    (b := b) nodup_symbols (mem_symbols b) (fun s hs => by simp [entryOf_setEntryOf_ne v x (Ne.symm hs)])
  simpa [freqSum] using this

theorem entryOf_le_freqSum (v : Vector Word 256) (b : Byte) : (entryOf v b).toNat ≤ freqSum v :=
  List.single_le_sum (by simp) _ (List.mem_map.2 ⟨b, mem_symbols b, rfl⟩)

theorem length_filter_eq_sum {p : Byte → Bool} (l : List Byte) :
    (l.filter p).length = (l.map fun s => if p s then 1 else 0).sum := by
  induction l with
  | nil => rfl
  | cons a l ih =>
    cases h : p a
    · simp [h, ih]
    · simp [h, ih]; omega

theorem length_countedSymbols_setEntryOf (v : Vector Word 256) (b : Byte) {x : Word} (hx : x ≠ 0#32) :
    (countedSymbols (setEntryOf v b x)).length =
      (countedSymbols v).length + (if entryOf v b = 0#32 then 1 else 0) := by
  have := sum_map_update (f := fun s => if entryOf v s != 0#32 then 1 else 0)
    (g := fun s => if entryOf (setEntryOf v b x) s != 0#32 then 1 else 0)
    (b := b) nodup_symbols (mem_symbols b) (fun s hs => by simp [entryOf_setEntryOf_ne v x (Ne.symm hs)])
  simp only [countedSymbols, length_filter_eq_sum]
  by_cases h0 : entryOf v b = 0#32 <;> simp_all

/-- One count more: the sum and the number of nonzero entries follow, as long as the sum fits (41_frequency_counter.md R85, R86). -/
theorem countByte_keeps {s : State} (b : Byte) (hs : freqSum s.freq = s.total.toNat)
    (hn : (countedSymbols s.freq).length = s.nsym.toNat) (ht : s.total.toNat + 1 < 2 ^ 32) :
    freqSum (countByte b s).freq = (countByte b s).total.toNat ∧
      (countedSymbols (countByte b s).freq).length = (countByte b s).nsym.toNat := by
  have hle := entryOf_le_freqSum s.freq b
  have hx : (s.freqOf b + 1#32).toNat = (entryOf s.freq b).toNat + 1 := by
    simp only [State.freqOf, BitVec.toNat_add, BitVec.toNat_ofNat]; omega
  have hx0 : s.freqOf b + 1#32 ≠ 0#32 := by
    intro h; rw [h] at hx; simp at hx
  have h1 := freqSum_setEntryOf s.freq b (s.freqOf b + 1#32)
  have h2 := length_countedSymbols_setEntryOf s.freq b hx0
  have h3 := length_countedSymbols_le s.freq
  constructor
  · simp only [countByte, BitVec.toNat_add, BitVec.toNat_ofNat]; omega
  · show (countedSymbols (setEntryOf s.freq b (s.freqOf b + 1#32))).length =
      (if entryOf s.freq b = 0#32 then s.nsym + 1#9 else s.nsym).toNat
    rw [h2]
    split
    · rw [BitVec.toNat_add, BitVec.toNat_ofNat]; omega
    · omega

end Sys2Proof.Machine
end

