-- ==== Sys2Proof/Laws/Tree.lean ====
section
/-! SUPPORT. What BUILD makes: the extraction order, and the shape of the arena (42_huffman_tree_builder.md R89 to R96). -/

namespace Sys2Proof.Machine

/-! ### The order of R89 -/

/-- Node i comes before node j: by frequency, then by arena index. -/
def Before (v : Vector Node 511) (i j : Nat) : Prop :=
  (nodeAt v i).freq.toNat < (nodeAt v j).freq.toNat ∨
    ((nodeAt v i).freq.toNat = (nodeAt v j).freq.toNat ∧ i < j)

theorem precedes_iff (v : Vector Node 511) (i j : Nat) : precedes v i j = true ↔ Before v i j := by
  simp [precedes, Before]

theorem Before.trans {v : Vector Node 511} {i j k : Nat} (h : Before v i j) (h' : Before v j k) : Before v i k := by
  unfold Before at *; omega

theorem before_total {v : Vector Node 511} {i j : Nat} (h : i ≠ j) : Before v i j ∨ Before v j i := by
  unfold Before; omega

theorem Before.asymm {v : Vector Node 511} {i j : Nat} (h : Before v i j) : ¬ Before v j i := by
  unfold Before at *; omega

theorem minIndex_spec (v : Vector Node 511) (q : List Nat) (m : Nat) :
    minIndex v m q ∈ m :: q ∧ ∀ j ∈ m :: q, j ≠ minIndex v m q → Before v (minIndex v m q) j := by
  induction q generalizing m with
  | nil => simp [minIndex]
  | cons a q ih =>
    have hstep : minIndex v m (a :: q) = minIndex v (if precedes v a m then a else m) q := rfl
    rw [hstep]
    by_cases hp : precedes v a m = true
    · rw [if_pos hp]
      obtain ⟨h1, h2⟩ := ih a
      refine ⟨List.mem_cons_of_mem _ h1, fun j hj hne => ?_⟩
      rcases List.mem_cons.1 hj with rfl | hj
      · have hb := (precedes_iff v a j).1 hp
        by_cases ha : a = minIndex v a q
        · rwa [← ha]
        · exact (h2 a List.mem_cons_self ha).trans hb
      · exact h2 j hj hne
    · rw [if_neg hp]
      obtain ⟨h1, h2⟩ := ih m
      refine ⟨?_, fun j hj hne => ?_⟩
      · rcases List.mem_cons.1 h1 with h | h
        · rw [h]; exact List.mem_cons_self
        · exact List.mem_cons_of_mem _ (List.mem_cons_of_mem _ h)
      · rcases List.mem_cons.1 hj with rfl | hj
        · exact h2 j List.mem_cons_self hne
        rcases List.mem_cons.1 hj with rfl | hj
        · by_cases hjm : j = m
          · rw [hjm]; exact h2 m List.mem_cons_self (hjm ▸ hne)
          · have hb : Before v m j := by
              rcases before_total (v := v) hjm with h | h
              · exact absurd ((precedes_iff v j m).2 h) hp
              · exact h
            by_cases hm : m = minIndex v m q
            · rwa [← hm]
            · exact (h2 m List.mem_cons_self hm).trans hb
        · exact h2 j (List.mem_cons_of_mem _ hj) hne

/-- `ExtractMin(Q)` takes out the one index that comes before every other (R89). -/
theorem extractMin_spec {v : Vector Node 511} {q q' : List Nat} {m : Nat} (h : extractMin v q = some (m, q')) :
    m ∈ q ∧ q' = q.erase m ∧ ∀ j ∈ q, j ≠ m → Before v m j := by
  cases q with
  | nil => cases h
  | cons a q =>
    simp only [extractMin, Option.some.injEq, Prod.mk.injEq] at h
    obtain ⟨rfl, rfl⟩ := h
    have := minIndex_spec v q a
    exact ⟨this.1, rfl, this.2⟩

theorem extractMin_isSome {v : Vector Node 511} {q : List Nat} (h : q ≠ []) : ∃ m, extractMin v q = some (m, q.erase m) := by
  cases q with
  | nil => exact absurd rfl h
  | cons a q => exact ⟨_, rfl⟩

theorem minIndex_congr {v w : Vector Node 511} {m : Nat} {q : List Nat} (h : ∀ i ∈ m :: q, nodeAt v i = nodeAt w i) :
    minIndex v m q = minIndex w m q := by
  induction q generalizing m with
  | nil => rfl
  | cons a q ih =>
    have ha := h a (by simp)
    have hm := h m (by simp)
    have hp : precedes v a m = precedes w a m := by simp [precedes, ha, hm]
    show minIndex v (if precedes v a m then a else m) q = minIndex w (if precedes w a m then a else m) q
    rw [hp]
    apply ih
    intro i hi
    rcases List.mem_cons.1 hi with rfl | hi
    · split <;> assumption
    · exact h i (by simp [hi])

theorem extractMin_congr {v w : Vector Node 511} {q : List Nat} (h : ∀ i ∈ q, nodeAt v i = nodeAt w i) :
    extractMin v q = extractMin w q := by
  cases q with
  | nil => rfl
  | cons a q => simp only [extractMin, minIndex_congr h]

/-! ### One merge -/

theorem add_nodeAt {b : Builder} (x : Node) (h : b.n < 511) (i : Nat) :
    nodeAt (b.add x).node i = if b.n = i then x else nodeAt b.node i := by
  simp [Builder.add, nodeAt_setIfInBounds _ _ _ _ h]

theorem add_q (b : Builder) (x : Node) : (b.add x).q = b.q ++ [b.n] := rfl

theorem add_n (b : Builder) (x : Node) : (b.add x).n = b.n + 1 := rfl

@[simp] theorem freq_internal (f : Word) (l r : NodeIx) : (Node.internal f l r).freq = f := rfl

@[simp] theorem freq_leaf (s : Byte) (f : Word) : (Node.leaf s f).freq = f := rfl

/-- A merge takes the first two of Q in the order of R89 and adds their parent (R91). -/
theorem merge_spec {b b' : Builder} (hq : b.q.Nodup) (h : b.merge = some b') :
    ∃ l r, l ∈ b.q ∧ r ∈ b.q ∧ l ≠ r ∧ Before b.node l r ∧ (∀ j ∈ b.q, j ≠ l → j ≠ r → Before b.node r j) ∧
      b' = Builder.add { b with q := (b.q.erase l).erase r }
        (.internal ((nodeAt b.node l).freq + (nodeAt b.node r).freq) (BitVec.ofNat 9 l) (BitVec.ofNat 9 r)) := by
  unfold Builder.merge at h
  split at h
  · cases h
  · rename_i l q1 hl
    split at h
    · cases h
    · rename_i r q2 hr
      obtain ⟨hl1, rfl, hl2⟩ := extractMin_spec hl
      obtain ⟨hr1, rfl, hr2⟩ := extractMin_spec hr
      injection h with h
      have hne : r ≠ l := (hq.mem_erase_iff.1 hr1).1
      have hrq : r ∈ b.q := (hq.mem_erase_iff.1 hr1).2
      exact ⟨l, r, hl1, hrq, hne.symm, hl2 r hrq hne,
        fun j hj h1 h2 => hr2 j (hq.mem_erase_iff.2 ⟨h1, hj⟩) h2, h.symm⟩

theorem merge_isSome {b : Builder} (h : 2 ≤ b.q.length) : ∃ b', b.merge = some b' := by
  obtain ⟨l, hl⟩ := extractMin_isSome (v := b.node) (q := b.q) (by intro e; simp [e] at h)
  have hlm := (extractMin_spec hl).1
  have hlen : (b.q.erase l).length = b.q.length - 1 := List.length_erase_of_mem hlm
  obtain ⟨r, hr⟩ := extractMin_isSome (v := b.node) (q := b.q.erase l) (by intro e; rw [e] at hlen; simp at hlen; omega)
  refine Option.isSome_iff_exists.1 ?_
  simp only [Builder.merge, hl, hr, Option.isSome_some]

theorem merge_none {b : Builder} (h : b.merge = none) : b.q.length ≤ 1 := by
  rcases hq : b.q with _ | ⟨x, _ | ⟨y, q⟩⟩
  · simp
  · simp
  · exfalso
    obtain ⟨l, hl⟩ := extractMin_isSome (v := b.node) (q := b.q) (by simp [hq])
    have hlm := (extractMin_spec hl).1
    have hlen : (b.q.erase l).length = b.q.length - 1 := List.length_erase_of_mem hlm
    obtain ⟨r, hr⟩ := extractMin_isSome (v := b.node) (q := b.q.erase l)
      (by intro e; rw [e] at hlen; simp [hq] at hlen)
    simp only [Builder.merge, hl, hr] at h
    cases h

/-! ### The arena as a function of FREQ -/

/-- Two builders that agree on everything BUILD has written. -/
def Agree (b c : Builder) : Prop := b.q = c.q ∧ b.n = c.n ∧ ∀ i, i < b.n → nodeAt b.node i = nodeAt c.node i

theorem Agree.add {b c : Builder} (h : Agree b c) (x : Node) (hn : b.n < 511) : Agree (b.add x) (c.add x) := by
  obtain ⟨h1, h2, h3⟩ := h
  refine ⟨by simp [Builder.add, h1, h2], by simp [Builder.add, h2], fun i hi => ?_⟩
  rw [add_nodeAt x hn, add_nodeAt x (h2 ▸ hn), h2]
  split
  · rfl
  · apply h3; simp [Builder.add] at hi; omega

/-- Merging keeps agreement: Q holds written indices only. -/
theorem Agree.merge {b c : Builder} (h : Agree b c) (hq : ∀ j ∈ b.q, j < b.n) (hn : b.n < 511) :
    (b.merge = none ∧ c.merge = none) ∨
      ∃ b' c', b.merge = some b' ∧ c.merge = some c' ∧ Agree b' c' := by
  obtain ⟨h1, h2, h3⟩ := h
  have hv : ∀ j ∈ b.q, nodeAt b.node j = nodeAt c.node j := fun j hj => h3 j (hq j hj)
  have e1 := extractMin_congr hv
  unfold Builder.merge
  rw [← h1, ← e1]
  rcases hl : extractMin b.node b.q with _ | ⟨l, q1⟩
  · exact .inl ⟨rfl, rfl⟩
  · have hl' := extractMin_spec hl
    have hv1 : ∀ j ∈ q1, nodeAt b.node j = nodeAt c.node j := fun j hj => hv j (List.mem_of_mem_erase (hl'.2.1 ▸ hj))
    have e2 := extractMin_congr hv1
    simp only
    rw [← e2]
    rcases hr : extractMin b.node q1 with _ | ⟨r, q2⟩
    · exact .inl ⟨rfl, rfl⟩
    · have hr' := extractMin_spec hr
      have hrq : r ∈ b.q := List.mem_of_mem_erase (hl'.2.1 ▸ hr'.1)
      refine .inr ⟨_, _, rfl, rfl, ?_⟩
      rw [← hv l hl'.1, ← hv r hrq]
      exact Agree.add (b := { b with q := q2 }) (c := { c with q := q2 }) ⟨rfl, h2, h3⟩ _ hn

/-! ### The leaves -/

theorem foldl_add_leaves (freq : Vector Word 256) (node : Vector Node 511) (l : List Byte) (hl : l.length ≤ 511) :
    let b := l.foldl (fun (b : Builder) s => b.add (.leaf s (entryOf freq s))) { node := node, q := [], n := 0 }
    b.q = List.range l.length ∧ b.n = l.length ∧
      ∀ i (h : i < l.length), nodeAt b.node i = .leaf l[i] (entryOf freq l[i]) := by
  induction l using List.reverseRecOn with
  | nil => simp
  | append_singleton l s ih =>
    have hl' : l.length ≤ 511 := by simp at hl; omega
    obtain ⟨h1, h2, h3⟩ := ih hl'
    simp only [List.foldl_append, List.foldl_cons, List.foldl_nil] at h1 h2 h3 ⊢
    have hn : ∀ b : Builder, b.n = l.length → b.n < 511 := fun b hb => by simp at hl; omega
    refine ⟨?_, ?_, fun i hi => ?_⟩
    · rw [add_q, h1, h2]; simp [List.range_succ]
    · rw [add_n, h2]; simp
    · rw [add_nodeAt _ (hn _ h2), h2]
      by_cases hil : i = l.length
      · subst hil; simp
      · have hi' : i < l.length := by simp at hi; omega
        rw [if_neg (Ne.symm hil), h3 i hi', List.getElem_append_left hi']

theorem addLeaves_spec (freq : Vector Word 256) (node : Vector Node 511) :
    (addLeaves freq node).q = List.range (countedSymbols freq).length ∧
      (addLeaves freq node).n = (countedSymbols freq).length ∧
      ∀ i (h : i < (countedSymbols freq).length),
        nodeAt (addLeaves freq node).node i = .leaf (countedSymbols freq)[i] (entryOf freq (countedSymbols freq)[i]) :=
  foldl_add_leaves freq node (countedSymbols freq) (by have := length_countedSymbols_le freq; omega)

/-! ### The shape of the arena -/

/-- Node `j` is a child of node `i`. -/
def ChildOf (v : Vector Node 511) (i j : Nat) : Prop :=
  ∃ f l r, nodeAt v i = .internal f l r ∧ (l.toNat = j ∨ r.toNat = j)

/-- What holds of the arena at every point of BUILD's merge loop (42_huffman_tree_builder.md R93). -/
structure ArenaOk (freq : Vector Word 256) (b : Builder) : Prop where
  lower : (countedSymbols freq).length ≤ b.n
  size : b.q.length + b.n = 2 * (countedSymbols freq).length
  nodup : b.q.Nodup
  bound : ∀ j ∈ b.q, j < b.n
  leaf : ∀ i (h : i < (countedSymbols freq).length),
    nodeAt b.node i = .leaf (countedSymbols freq)[i] (entryOf freq (countedSymbols freq)[i])
  inner : ∀ i, (countedSymbols freq).length ≤ i → i < b.n → ∃ l r,
    nodeAt b.node i = .internal ((nodeAt b.node l).freq + (nodeAt b.node r).freq) (BitVec.ofNat 9 l) (BitVec.ofNat 9 r) ∧
      l < i ∧ r < i ∧ l ≠ r ∧ Before b.node l r
  covered : ∀ j, j < b.n → j ∈ b.q ∨ ∃ i, (countedSymbols freq).length ≤ i ∧ i < b.n ∧ ChildOf b.node i j
  once : ∀ i j, i < b.n → ChildOf b.node i j → j ∉ b.q ∧ ∀ i', i' < b.n → ChildOf b.node i' j → i' = i
  sum : freqSum freq < 2 ^ 32 → (b.q.map fun j => (nodeAt b.node j).freq.toNat).sum = freqSum freq
  exact : freqSum freq < 2 ^ 32 → ∀ i f l r, i < b.n → nodeAt b.node i = .internal f l r →
    f.toNat = (nodeAt b.node l.toNat).freq.toNat + (nodeAt b.node r.toNat).freq.toNat

theorem sum_filter_symbols (freq : Vector Word 256) (l : List Byte) :
    ((l.filter fun s => entryOf freq s != 0#32).map fun s => (entryOf freq s).toNat).sum =
      (l.map fun s => (entryOf freq s).toNat).sum := by
  induction l with
  | nil => rfl
  | cons a l ih =>
    by_cases h : entryOf freq a = 0#32
    · simp [h, ih]
    · simp [h, ih]

theorem arenaOk_addLeaves (freq : Vector Word 256) (node : Vector Node 511) : ArenaOk freq (addLeaves freq node) := by
  obtain ⟨h1, h2, h3⟩ := addLeaves_spec freq node
  refine ⟨by omega, by rw [h1, h2, List.length_range]; omega, by rw [h1]; exact List.nodup_range,
    by rw [h1, h2]; simp, h3, fun i hi hi' => by omega, fun j hj => .inl (by rw [h1]; simpa [h2] using hj), ?_, ?_, ?_⟩
  · rintro i j hi ⟨f, l, r, he, -⟩
    rw [h2] at hi
    rw [h3 i hi] at he; cases he
  · intro _
    rw [h1]
    have : (List.range (countedSymbols freq).length).map (fun j => (nodeAt (addLeaves freq node).node j).freq.toNat)
        = (countedSymbols freq).map fun s => (entryOf freq s).toNat := by
      apply List.ext_getElem
      · simp
      · intro i hi hi'
        simp only [List.getElem_map, List.getElem_range]
        rw [h3 i (by simpa using hi)]
        rfl
    rw [this]
    exact sum_filter_symbols freq symbols
  · intro _ i f l r hi he
    rw [h2] at hi
    rw [h3 i hi] at he; cases he

theorem ofNat9_toNat {i : Nat} (h : i < 512) : (BitVec.ofNat 9 i).toNat = i := by
  simp [BitVec.toNat_ofNat]; omega

theorem perm_erase_erase {q : List Nat} {l r : Nat} (hl : l ∈ q) (hr : r ∈ q) (hne : l ≠ r) :
    q.Perm (l :: r :: (q.erase l).erase r) :=
  (List.perm_cons_erase hl).trans ((List.perm_cons_erase ((List.mem_erase_of_ne hne.symm).2 hr)).cons l)

/-- One merge keeps the shape. -/
theorem ArenaOk.merge {freq : Vector Word 256} {b b' : Builder} (h : ArenaOk freq b) (hm : b.merge = some b') :
    ArenaOk freq b' ∧ b'.n = b.n + 1 := by
  obtain ⟨l, r, hl, hr, hne, hb, -, rfl⟩ := merge_spec h.nodup hm
  have hK := length_countedSymbols_le freq
  have hperm := perm_erase_erase hl hr hne
  have hlen : b.q.length = ((b.q.erase l).erase r).length + 2 := by simpa using hperm.length_eq
  have hsize := h.size
  have hn : b.n < 511 := by omega
  have hln := h.bound l hl
  have hrn := h.bound r hr
  have hnd : (l :: r :: (b.q.erase l).erase r).Nodup := hperm.nodup_iff.1 h.nodup
  have hmem : ∀ j, j ∈ (b.q.erase l).erase r ↔ j ∈ b.q ∧ j ≠ l ∧ j ≠ r := by
    intro j
    rw [(h.nodup.erase l).mem_erase_iff, h.nodup.mem_erase_iff]
    tauto
  generalize hx : Node.internal ((nodeAt b.node l).freq + (nodeAt b.node r).freq) (BitVec.ofNat 9 l) (BitVec.ofNat 9 r) = x
  have hadd : ∀ i, nodeAt (Builder.add { b with q := (b.q.erase l).erase r } x).node i = if b.n = i then x else nodeAt b.node i :=
    add_nodeAt (b := { b with q := (b.q.erase l).erase r }) x hn
  have hold : ∀ i, i < b.n → nodeAt (Builder.add { b with q := (b.q.erase l).erase r } x).node i = nodeAt b.node i :=
    fun i hi => by rw [hadd, if_neg (by omega)]
  have hnew : nodeAt (Builder.add { b with q := (b.q.erase l).erase r } x).node b.n = x := by rw [hadd, if_pos rfl]
  have hchild : ∀ i j, i < b.n → (ChildOf (Builder.add { b with q := (b.q.erase l).erase r } x).node i j ↔ ChildOf b.node i j) := by
    intro i j hi; unfold ChildOf; rw [hold i hi]
  have hchildn : ∀ j, ChildOf (Builder.add { b with q := (b.q.erase l).erase r } x).node b.n j ↔ (l = j ∨ r = j) := by
    intro j; unfold ChildOf; rw [hnew, ← hx]
    constructor
    · rintro ⟨f, l', r', he, hj⟩
      injection he with _ he1 he2
      rw [← he1, ← he2, ofNat9_toNat (by omega), ofNat9_toNat (by omega)] at hj
      exact hj
    · intro hj
      exact ⟨_, _, _, rfl, by rw [ofNat9_toNat (by omega), ofNat9_toNat (by omega)]; exact hj⟩
  have hNn : (Builder.add { b with q := (b.q.erase l).erase r } x).n = b.n + 1 := rfl
  have hNq : (Builder.add { b with q := (b.q.erase l).erase r } x).q = (b.q.erase l).erase r ++ [b.n] := rfl
  have hbef : ∀ i j, i < b.n → j < b.n →
      (Before (Builder.add { b with q := (b.q.erase l).erase r } x).node i j ↔ Before b.node i j) := by
    intro i j hi hj; unfold Before; rw [hold i hi, hold j hj]
  refine ⟨⟨?_, ?_, ?_, ?_, ?_, ?_, ?_, ?_, ?_, ?_⟩, rfl⟩
  · have := h.lower; rw [hNn]; omega
  · rw [hNn, hNq]; simp; omega
  · rw [hNq, List.nodup_append]
    refine ⟨(List.nodup_cons.1 (List.nodup_cons.1 hnd).2).2, by simp, ?_⟩
    intro a ha c hc
    have := h.bound a ((hmem a).1 ha).1
    simp at hc; omega
  · intro j hj
    rw [hNq, List.mem_append] at hj
    rw [hNn]
    rcases hj with hj | hj
    · have := h.bound j ((hmem j).1 hj).1; omega
    · simp at hj; omega
  · intro i hi
    rw [hold i (by have := h.lower; omega)]
    exact h.leaf i hi
  · intro i hi hi'
    rw [hNn] at hi'
    by_cases hin : i = b.n
    · subst hin
      refine ⟨l, r, ?_, hln, hrn, hne, (hbef l r hln hrn).2 hb⟩
      rw [hnew, hold l hln, hold r hrn, hx]
    · have hi2 : i < b.n := by omega
      obtain ⟨l', r', h1, h2, h3, h4, h5⟩ := h.inner i hi hi2
      refine ⟨l', r', ?_, h2, h3, h4, (hbef l' r' (by omega) (by omega)).2 h5⟩
      rw [hold i hi2, hold l' (by omega), hold r' (by omega), h1]
  · intro j hj
    rw [hNn] at hj ⊢
    rw [hNq, List.mem_append]
    by_cases hjn : j = b.n
    · left; right; simp [hjn]
    · rcases h.covered j (by omega) with hq | ⟨i, h1, h2, h3⟩
      · by_cases hjl : j = l ∨ j = r
        · right
          exact ⟨b.n, h.lower, by omega, (hchildn j).2 (hjl.imp Eq.symm Eq.symm)⟩
        · left; left
          exact (hmem j).2 ⟨hq, by tauto⟩
      · right
        exact ⟨i, h1, by omega, (hchild i j h2).2 h3⟩
  · intro i j hi hc
    rw [hNn] at hi
    rw [hNq]
    have notq : ∀ k, k < b.n → k ∉ b.q → k ∉ (b.q.erase l).erase r ++ [b.n] := by
      intro k hk hkq hkm
      rcases List.mem_append.1 hkm with hkm | hkm
      · exact hkq ((hmem k).1 hkm).1
      · simp at hkm; omega
    have childlt : ∀ i, i < b.n → ChildOf b.node i j → j < b.n := by
      intro i hi hc
      have hKi : (countedSymbols freq).length ≤ i := by
        by_contra hlt
        obtain ⟨f, l', r', he, -⟩ := hc
        rw [h.leaf i (by omega)] at he; cases he
      obtain ⟨l', r', he, h1, h2, -, -⟩ := h.inner i hKi hi
      obtain ⟨f, l2, r2, he2, hj⟩ := hc
      rw [he] at he2
      injection he2 with _ e1 e2
      rw [← e1, ← e2, ofNat9_toNat (by omega), ofNat9_toNat (by omega)] at hj
      omega
    by_cases hin : i = b.n
    · subst hin
      have hj := (hchildn j).1 hc
      have hjq : j ∈ b.q := by rcases hj with rfl | rfl <;> assumption
      refine ⟨?_, ?_⟩
      · intro hm'
        rcases List.mem_append.1 hm' with hm' | hm'
        · have := (hmem j).1 hm'
          rcases hj with rfl | rfl
          · exact this.2.1 rfl
          · exact this.2.2 rfl
        · simp at hm'; have := h.bound j hjq; omega
      · intro i' hi' hc'
        by_contra hne'
        have hi2 : i' < b.n := by rw [hNn] at hi'; omega
        exact (h.once i' j hi2 ((hchild i' j hi2).1 hc')).1 hjq
    · have hi2 : i < b.n := by omega
      have hc2 := (hchild i j hi2).1 hc
      have hjn := childlt i hi2 hc2
      obtain ⟨h1, h2⟩ := h.once i j hi2 hc2
      refine ⟨notq j hjn h1, ?_⟩
      intro i' hi' hc'
      rw [hNn] at hi'
      by_cases hin' : i' = b.n
      · subst hin'
        exfalso
        have hj := (hchildn j).1 hc'
        exact h1 (by rcases hj with rfl | rfl <;> assumption)
      · have hi3 : i' < b.n := by omega
        exact h2 i' hi3 ((hchild i' j hi3).1 hc')
  · intro hs
    have hsum := h.sum hs
    rw [hNq, List.map_append, List.sum_append]
    have e1 : ((b.q.erase l).erase r).map (fun j => (nodeAt (Builder.add { b with q := (b.q.erase l).erase r } x).node j).freq.toNat)
        = ((b.q.erase l).erase r).map fun j => (nodeAt b.node j).freq.toNat := by
      apply List.map_congr_left
      intro j hj
      rw [hold j (h.bound j ((hmem j).1 hj).1)]
    rw [e1]
    have e2 := (hperm.map fun j => (nodeAt b.node j).freq.toNat).sum_eq
    simp only [List.map_cons, List.sum_cons] at e2
    simp only [List.map_cons, List.map_nil, List.sum_cons, List.sum_nil, hnew]
    rw [← hx, freq_internal, BitVec.toNat_add]
    omega
  · intro hs i f l' r' hi he
    rw [hNn] at hi
    by_cases hin : i = b.n
    · subst hin
      rw [hnew, ← hx] at he
      injection he with e0 e1 e2
      have hsum := h.sum hs
      have e3 := (hperm.map fun j => (nodeAt b.node j).freq.toNat).sum_eq
      simp only [List.map_cons, List.sum_cons] at e3
      have el := ofNat9_toNat (i := l) (by omega)
      have er := ofNat9_toNat (i := r) (by omega)
      rw [← e0, ← e1, ← e2, el, er, hold l hln, hold r hrn, BitVec.toNat_add]
      omega
    · have hi2 : i < b.n := by omega
      rw [hold i hi2] at he
      have hKi : (countedSymbols freq).length ≤ i := by
        by_contra hlt
        rw [h.leaf i (by omega)] at he; cases he
      obtain ⟨l2, r2, he2, h1, h2, -, -⟩ := h.inner i hKi hi2
      have e := he.symm.trans he2
      injection e with _ e1 e2
      have el := ofNat9_toNat (i := l2) (by omega)
      have er := ofNat9_toNat (i := r2) (by omega)
      have hch : ∀ j, l'.toNat = j ∨ r'.toNat = j → j < b.n := by
        rintro j (rfl | rfl)
        · rw [e1, el]; omega
        · rw [e2, er]; omega
      rw [hold _ (hch _ (.inl rfl)), hold _ (hch _ (.inr rfl))]
      exact h.exact hs i f l' r' hi2 he

theorem mergeAll_ok {freq : Vector Word 256} (fuel : Nat) (b : Builder) (h : ArenaOk freq b) (hf : b.q.length ≤ fuel) :
    ArenaOk freq (mergeAll fuel b) ∧ (mergeAll fuel b).q.length ≤ 1 := by
  induction fuel generalizing b with
  | zero => exact ⟨h, by simp only [mergeAll]; omega⟩
  | succ k ih =>
    simp only [mergeAll]
    rcases hm : b.merge with _ | b'
    · exact ⟨h, merge_none hm⟩
    · obtain ⟨h', hn⟩ := h.merge hm
      have h1 := h.size
      have h2 := h'.size
      exact ih b' h' (by omega)

/-- The arena BUILD makes has the shape of R93, whatever the arena held before. -/
theorem buildTree_ok (freq : Vector Word 256) (node : Vector Node 511) :
    ArenaOk freq (buildTree freq node) ∧ (buildTree freq node).q.length ≤ 1 := by
  unfold buildTree
  exact mergeAll_ok _ _ (arenaOk_addLeaves freq node) (Nat.le_refl _)

theorem buildTree_root {freq : Vector Word 256} (node : Vector Node 511) (hK : countedSymbols freq ≠ []) :
    (buildTree freq node).n = 2 * (countedSymbols freq).length - 1 ∧
      (buildTree freq node).q = [2 * (countedSymbols freq).length - 2] := by
  obtain ⟨h, hq⟩ := buildTree_ok freq node
  have hpos : 0 < (countedSymbols freq).length := List.length_pos_iff.2 hK
  have hs := h.size
  have hlow := h.lower
  have hq1 : (buildTree freq node).q.length = 1 ∨ (buildTree freq node).q.length = 0 := by omega
  have hq1 : (buildTree freq node).q.length = 1 := by
    rcases hq1 with h1 | h0
    · exact h1
    · exfalso
      have hnil := List.length_eq_zero_iff.1 h0
      rcases h.covered ((buildTree freq node).n - 1) (by omega) with hc | ⟨i, h1, h2, h3⟩
      · rw [hnil] at hc; cases hc
      · obtain ⟨l, r, he, hl, hr, -, -⟩ := h.inner i h1 h2
        obtain ⟨f, l2, r2, he2, hj⟩ := h3
        have := length_countedSymbols_le freq
        rw [he] at he2
        injection he2 with _ e1 e2
        rw [← e1, ← e2, ofNat9_toNat (by omega), ofNat9_toNat (by omega)] at hj
        omega
  have hn : (buildTree freq node).n = 2 * (countedSymbols freq).length - 1 := by omega
  refine ⟨hn, ?_⟩
  obtain ⟨a, ha⟩ := List.length_eq_one_iff.1 hq1
  rw [ha]
  have hlast : (buildTree freq node).n - 1 ∈ (buildTree freq node).q := by
    rcases h.covered ((buildTree freq node).n - 1) (by omega) with hc | ⟨i, h1, h2, h3⟩
    · exact hc
    · exfalso
      obtain ⟨l, r, he, hl, hr, -, -⟩ := h.inner i h1 h2
      obtain ⟨f, l2, r2, he2, hj⟩ := h3
      have := length_countedSymbols_le freq
      rw [he] at he2
      injection he2 with _ e1 e2
      rw [← e1, ← e2, ofNat9_toNat (by omega), ofNat9_toNat (by omega)] at hj
      omega
  rw [ha] at hlast
  simp at hlast
  simp; omega

theorem addLeaves_agree (freq : Vector Word 256) (v w : Vector Node 511) : Agree (addLeaves freq v) (addLeaves freq w) := by
  obtain ⟨a1, a2, a3⟩ := addLeaves_spec freq v
  obtain ⟨b1, b2, b3⟩ := addLeaves_spec freq w
  exact ⟨by rw [a1, b1], by rw [a2, b2], fun i hi => by rw [a3 i (by omega), b3 i (by omega)]⟩

theorem mergeAll_agree {freq : Vector Word 256} (fuel : Nat) (b c : Builder) (h : ArenaOk freq b) (ha : Agree b c) :
    Agree (mergeAll fuel b) (mergeAll fuel c) := by
  induction fuel generalizing b c with
  | zero => exact ha
  | succ k ih =>
    simp only [mergeAll]
    by_cases hn : b.n < 511
    · rcases ha.merge h.bound hn with ⟨h1, h2⟩ | ⟨b', c', h1, h2, h3⟩
      · rw [h1, h2]; exact ha
      · rw [h1, h2]; exact ih b' c' (h.merge h1).1 h3
    · have hs := h.size
      have hK := length_countedSymbols_le freq
      have hshort : ∀ d : Builder, d.q.length ≤ 1 → d.merge = none := by
        intro d hd
        unfold Builder.merge
        rcases hq : d.q with _ | ⟨x, _ | ⟨y, q⟩⟩
        · rfl
        · simp [extractMin, minIndex]
        · rw [hq] at hd; simp at hd
      rw [hshort b (by omega), hshort c (by rw [← ha.1]; omega)]
      exact ha

/-- What BUILD writes depends on FREQ alone (R96). -/
theorem buildTree_agree (freq : Vector Word 256) (v w : Vector Node 511) : Agree (buildTree freq v) (buildTree freq w) := by
  have h := addLeaves_agree freq v w
  show Agree (mergeAll (addLeaves freq v).q.length (addLeaves freq v)) (mergeAll (addLeaves freq w).q.length (addLeaves freq w))
  rw [← h.1]
  exact mergeAll_agree _ _ _ (arenaOk_addLeaves freq v) h

end Sys2Proof.Machine
end

