-- ==== Sys2Proof/Laws/Derive.lean ====
section
/-! SUPPORT. What DERIVE makes of the arena BUILD made: every leaf once, at its path (43_code_table_deriver.md R97 to R102, 42_huffman_tree_builder.md R95). -/

namespace Sys2Proof.Machine

/-- The leaves below node `i` with their paths, in the order of the walk; none where the walk fails. -/
def leafPaths (v : Vector Node 511) : Nat → Nat → Option (List (List Bool × Nat))
  | fuel, i =>
    match nodeAt v i with
    | .leaf _ _ => some [([], i)]
    | .unspecified => none
    | .internal _ l r =>
      match fuel with
      | 0 => none
      | k + 1 =>
        match leafPaths v k l.toNat, leafPaths v k r.toNat with
        | some a, some b => some (a.map (fun x => (false :: x.1, x.2)) ++ b.map (fun x => (true :: x.1, x.2)))
        | _, _ => none

/-- One leaf entered into DERIVE's working values: the path `p` of `depth` bits, then `x.1`. -/
def Derived.atPath (v : Vector Node 511) (p : CodeBits) (depth : Nat) (d : Derived) (x : List Bool × Nat) : Derived :=
  match nodeAt v x.2 with
  | .leaf sym f => d.leaf sym f (depth + x.1.length) (pushBits p x.1)
  | _ => d

/-- The walk enters its leaves one after another. -/
theorem visit_eq (v : Vector Node 511) (fuel i : Nat) (p : CodeBits) (depth : Nat) (d : Derived)
    {ls : List (List Bool × Nat)} (h : leafPaths v fuel i = some ls) :
    visit v fuel i p depth d = some (ls.foldl (Derived.atPath v p depth) d) := by
  induction fuel generalizing i p depth d ls with
  | zero =>
    unfold leafPaths at h; unfold visit
    rcases hn : nodeAt v i with ⟨sym, f⟩ | ⟨f, l, r⟩ | _ <;> simp only [hn] at h ⊢
    · injection h with h; subst h; simp [Derived.atPath, hn, pushBits]
    all_goals cases h
  | succ k ih =>
    unfold leafPaths at h; unfold visit
    rcases hn : nodeAt v i with ⟨sym, f⟩ | ⟨f, l, r⟩ | _ <;> simp only [hn] at h ⊢
    · injection h with h; subst h; simp [Derived.atPath, hn, pushBits]
    · rcases ha : leafPaths v k l.toNat with _ | a
      · simp [ha] at h
      · rcases hb : leafPaths v k r.toNat with _ | b
        · simp [ha, hb] at h
        · simp only [ha, hb, Option.some.injEq] at h
          subst h
          rw [ih l.toNat (pushCode p false) (depth + 1) d ha]
          simp only
          rw [ih r.toNat (pushCode p true) (depth + 1) _ hb, List.foldl_append, List.foldl_map, List.foldl_map]
          have e : ∀ x : Bool, (fun (d : Derived) (y : List Bool × Nat) => Derived.atPath v p depth d (x :: y.1, y.2)) =
              Derived.atPath v (pushCode p x) (depth + 1) := by
            intro x; funext d y
            simp only [Derived.atPath]
            split
            · simp only [List.length_cons, show depth + (y.1.length + 1) = depth + 1 + y.1.length by omega]; rfl
            · rfl
          rw [e, e]
    · cases h

/-! ### The walk over the arena of BUILD -/

/-- A step from a node down to one of its children. -/
inductive Below (v : Vector Node 511) : Nat → Nat → Prop
  | refl (i : Nat) : Below v i i
  | down {i j k : Nat} : Below v i j → ChildOf v j k → Below v i k

theorem Below.trans {v : Vector Node 511} {i j k : Nat} (h : Below v i j) (h' : Below v j k) : Below v i k := by
  induction h' with
  | refl => exact h
  | down _ hc ih => exact ih.down hc

variable {freq : Vector Word 256} {b : Builder}

theorem ArenaOk.child_lt (h : ArenaOk freq b) {i j : Nat} (hi : i < b.n) (hc : ChildOf b.node i j) :
    (countedSymbols freq).length ≤ i ∧ j < i := by
  have hs := h.size
  have hK := length_countedSymbols_le freq
  have hKi : (countedSymbols freq).length ≤ i := by
    by_contra hlt
    obtain ⟨f, l', r', he, -⟩ := hc
    rw [h.leaf i (by omega)] at he; cases he
  refine ⟨hKi, ?_⟩
  obtain ⟨l', r', he, h1, h2, -, -⟩ := h.inner i hKi hi
  obtain ⟨f, l2, r2, he2, hj⟩ := hc
  rw [he] at he2
  injection he2 with _ e1 e2
  rw [← e1, ← e2, ofNat9_toNat (by omega), ofNat9_toNat (by omega)] at hj
  omega

theorem Below.le (h : ArenaOk freq b) {i j : Nat} (hi : i < b.n) (hb : Below b.node i j) : j ≤ i := by
  induction hb with
  | refl => exact Nat.le_refl _
  | down _ hc ih => have := (h.child_lt (by omega) hc).2; omega

/-- Of two nodes above a third, one is above the other: no node has two parents. -/
theorem Below.comparable (h : ArenaOk freq b) {i i' j : Nat} (hi : i < b.n) (hi' : i' < b.n)
    (hb : Below b.node i j) (hb' : Below b.node i' j) : Below b.node i i' ∨ Below b.node i' i := by
  induction hb with
  | refl => exact .inr hb'
  | @down m k hm hc ih =>
    cases hb' with
    | refl => exact .inl (hm.down hc)
    | @down m' _ hm' hc' =>
      have h1 := hm.le h hi
      have h2 := hm'.le h hi'
      have := (h.once m k (by omega) hc).2 m' (by omega) hc'
      subst this
      exact ih hm'

theorem leafPaths_ok (h : ArenaOk freq b) (fuel i : Nat) (hi : i < b.n)
    (hf : i + 1 ≤ fuel + (countedSymbols freq).length) :
    ∃ ls, leafPaths b.node fuel i = some ls ∧
      (∀ x ∈ ls, x.1.length ≤ fuel ∧ x.2 < (countedSymbols freq).length ∧ Below b.node i x.2 ∧
        ((countedSymbols freq).length ≤ i → x.1 ≠ [])) ∧
      (∀ j, j < (countedSymbols freq).length → Below b.node i j → ∃ p, (p, j) ∈ ls) ∧
      (ls.map Prod.snd).Nodup ∧
      ls.Pairwise (fun x y => ¬ x.1 <+: y.1 ∧ ¬ y.1 <+: x.1) := by
  have hs := h.size
  have hK := length_countedSymbols_le freq
  induction fuel generalizing i with
  | zero =>
    have hiK : i < (countedSymbols freq).length := by omega
    refine ⟨[([], i)], ?_, ?_, ?_, ?_, ?_⟩
    · unfold leafPaths; rw [h.leaf i hiK]
    · rintro x hx; simp only [List.mem_singleton] at hx; subst hx
      exact ⟨by simp, hiK, .refl i, fun hh => by omega⟩
    · intro j hj hb
      cases hb with
      | refl => exact ⟨[], by simp⟩
      | @down m _ hm hc =>
        have hle := hm.le h hi
        have := (h.child_lt (by omega) hc).1
        omega
    · simp
    · simp
  | succ k ih =>
    by_cases hiK : i < (countedSymbols freq).length
    · refine ⟨[([], i)], ?_, ?_, ?_, ?_, ?_⟩
      · unfold leafPaths; rw [h.leaf i hiK]
      · rintro x hx; simp only [List.mem_singleton] at hx; subst hx
        exact ⟨by simp, hiK, .refl i, fun hh => by omega⟩
      · intro j hj hb
        cases hb with
        | refl => exact ⟨[], by simp⟩
        | @down m _ hm hc =>
          have hle := hm.le h hi
          have := (h.child_lt (by omega) hc).1
          omega
      · simp
      · simp
    · obtain ⟨l, r, he, hl, hr, hne, -⟩ := h.inner i (by omega) hi
      have hlt : (BitVec.ofNat 9 l).toNat = l := ofNat9_toNat (by omega)
      have hrt : (BitVec.ofNat 9 r).toNat = r := ofNat9_toNat (by omega)
      have hcl : ChildOf b.node i l := ⟨_, _, _, he, .inl hlt⟩
      have hcr : ChildOf b.node i r := ⟨_, _, _, he, .inr hrt⟩
      obtain ⟨a, ha, a1, a2, a3, a4⟩ := ih l (by omega) (by omega)
      obtain ⟨c, hc, c1, c2, c3, c4⟩ := ih r (by omega) (by omega)
      have hdisj : ∀ j, Below b.node l j → Below b.node r j → False := by
        have key : ∀ x y, x ≠ y → x < i → y < i → ChildOf b.node i y → ¬ Below b.node x y := by
          intro x y hxy hx hy hcy hb
          cases hb with
          | refl => exact hxy rfl
          | @down m _ hm hcm =>
            have hle := hm.le h (by omega)
            have := (h.once i y hi hcy).2 m (by omega) hcm
            omega
        intro j hbl hbr
        rcases Below.comparable h (by omega) (by omega) hbl hbr with hlr | hrl
        · exact key l r hne hl hr hcr hlr
        · exact key r l hne.symm hr hl hcl hrl
      refine ⟨a.map (fun x => (false :: x.1, x.2)) ++ c.map (fun x => (true :: x.1, x.2)), ?_, ?_, ?_, ?_, ?_⟩
      · unfold leafPaths
        simp only [he, hlt, hrt, ha, hc]
      · intro x hx
        rcases List.mem_append.1 hx with hx | hx
        · obtain ⟨y, hy, rfl⟩ := List.mem_map.1 hx
          obtain ⟨y1, y2, y3, -⟩ := a1 y hy
          exact ⟨by simpa using y1, y2, ((Below.refl i).down hcl).trans y3, fun _ => by simp⟩
        · obtain ⟨y, hy, rfl⟩ := List.mem_map.1 hx
          obtain ⟨y1, y2, y3, -⟩ := c1 y hy
          exact ⟨by simpa using y1, y2, ((Below.refl i).down hcr).trans y3, fun _ => by simp⟩
      · intro j hj hb
        have : Below b.node l j ∨ Below b.node r j := by
          have gen : ∀ m, Below b.node i m → m ≠ i → Below b.node l m ∨ Below b.node r m := by
            intro m hm
            induction hm with
            | refl => intro hh; exact absurd rfl hh
            | @down m' m hm' hcm ihm =>
              intro hmi
              by_cases hmi' : m' = i
              · subst hmi'
                obtain ⟨f, l2, r2, he2, hj2⟩ := hcm
                rw [he] at he2
                injection he2 with _ e1 e2
                rw [← e1, ← e2, hlt, hrt] at hj2
                rcases hj2 with rfl | rfl
                · exact .inl (.refl _)
                · exact .inr (.refl _)
              · exact (ihm hmi').imp (·.down hcm) (·.down hcm)
          exact gen j hb (by omega)
        rcases this with hb | hb
        · obtain ⟨p, hp⟩ := a2 j hj hb
          exact ⟨false :: p, List.mem_append_left _ (List.mem_map.2 ⟨_, hp, rfl⟩)⟩
        · obtain ⟨p, hp⟩ := c2 j hj hb
          exact ⟨true :: p, List.mem_append_right _ (List.mem_map.2 ⟨_, hp, rfl⟩)⟩
      · simp only [List.map_append, List.map_map]
        have e : ∀ x : Bool, (Prod.snd ∘ fun y : List Bool × Nat => (x :: y.1, y.2)) = Prod.snd := fun x => rfl
        rw [e, e, List.nodup_append]
        refine ⟨a3, c3, ?_⟩
        intro x hx y hy hxy
        obtain ⟨x', hx', rfl⟩ := List.mem_map.1 hx
        obtain ⟨y', hy', rfl⟩ := List.mem_map.1 hy
        exact hdisj x'.2 (a1 x' hx').2.2.1 (hxy ▸ (c1 y' hy').2.2.1)
      · rw [List.pairwise_append]
        refine ⟨?_, ?_, ?_⟩
        · rw [List.pairwise_map]
          exact a4.imp fun hxy => by simpa [List.cons_prefix_cons] using hxy
        · rw [List.pairwise_map]
          exact c4.imp fun hxy => by simpa [List.cons_prefix_cons] using hxy
        · intro x hx y hy
          obtain ⟨x', hx', rfl⟩ := List.mem_map.1 hx
          obtain ⟨y', hy', rfl⟩ := List.mem_map.1 hy
          simp [List.cons_prefix_cons]


/-- The shape of the arena speaks of written entries only. -/
theorem ArenaOk.congr {c : Builder} (h : ArenaOk freq b) (ha : Agree b c) : ArenaOk freq c := by
  obtain ⟨a1, a2, a3⟩ := ha
  have hlow := h.lower
  have hch : ∀ i j, i < b.n → (ChildOf c.node i j ↔ ChildOf b.node i j) := by
    intro i j hi; unfold ChildOf; rw [a3 i hi]
  refine ⟨by have := h.lower; omega, by have := h.size; rw [← a1, ← a2]; exact this, a1 ▸ h.nodup, fun j hj => a2 ▸ h.bound j (a1 ▸ hj),
    fun i hi => by rw [← a3 i (by omega)]; exact h.leaf i hi, ?_, ?_, ?_, ?_, ?_⟩
  · intro i hi hi'
    obtain ⟨l, r, h1, h2, h3, h4, h5⟩ := h.inner i hi (by omega)
    refine ⟨l, r, ?_, h2, h3, h4, ?_⟩
    · rw [← a3 i (by omega), ← a3 l (by omega), ← a3 r (by omega)]; exact h1
    · unfold Before at h5 ⊢; rw [← a3 l (by omega), ← a3 r (by omega)]; exact h5
  · intro j hj
    rcases h.covered j (by omega) with h1 | ⟨i, h1, h2, h3⟩
    · exact .inl (a1 ▸ h1)
    · exact .inr ⟨i, h1, by omega, (hch i j h2).2 h3⟩
  · intro i j hi hc
    obtain ⟨h1, h2⟩ := h.once i j (by omega) ((hch i j (by omega)).1 hc)
    exact ⟨a1 ▸ h1, fun i' hi' hc' => h2 i' (by omega) ((hch i' j (by omega)).1 hc')⟩
  · intro hs
    have := h.sum hs
    rw [← a1, ← this]
    congr 1
    exact List.map_congr_left fun j hj => by rw [a3 j (h.bound j hj)]
  · intro hs i f l r hi he
    rw [← a3 i (by omega)] at he
    have hlt : ∀ j, l.toNat = j ∨ r.toNat = j → j < i := fun j hj => (h.child_lt (by omega) ⟨f, l, r, he, hj⟩).2
    have h1 := hlt _ (.inl rfl)
    have h2 := hlt _ (.inr rfl)
    rw [← a3 _ (by omega), ← a3 _ (by omega)]
    exact h.exact hs i f l r (by omega) he

/-! ### The TABLE, H and M after the walk -/

/-- The symbol of leaf `j`. -/
def leafSym (v : Vector Node 511) (j : Nat) : Byte :=
  match nodeAt v j with
  | .leaf sym _ => sym
  | _ => 0#8

theorem foldl_atPath (v : Vector Node 511) (ls : List (List Bool × Nat)) (d : Derived)
    (hleaf : ∀ x ∈ ls, ∃ f, nodeAt v x.2 = .leaf (leafSym v x.2) f)
    (hnd : (ls.map fun x => leafSym v x.2).Nodup) :
    let d' := ls.foldl (Derived.atPath v 0#256 0) d
    (∀ s, (∀ x ∈ ls, leafSym v x.2 ≠ s) → entryOf d'.tbl s = entryOf d.tbl s) ∧
      (∀ x ∈ ls, entryOf d'.tbl (leafSym v x.2) =
        { valid := true, len := BitVec.ofNat 8 x.1.length, code := pushBits 0#256 x.1 }) ∧
      d'.h = d.h + (ls.map fun x => (nodeAt v x.2).freq.toNat * x.1.length).sum ∧
      d'.m = ls.foldl (fun m x => max m x.1.length) d.m := by
  induction ls generalizing d with
  | nil => simp
  | cons y ls ih =>
    obtain ⟨f, hf⟩ := hleaf y (by simp)
    rw [List.map_cons, List.nodup_cons] at hnd
    have hstep : Derived.atPath v 0#256 0 d y = d.leaf (leafSym v y.2) f y.1.length (pushBits 0#256 y.1) := by
      simp [Derived.atPath, hf]
    obtain ⟨i1, i2, i3, i4⟩ := ih (Derived.atPath v 0#256 0 d y) (fun x hx => hleaf x (by simp [hx])) hnd.2
    simp only [List.foldl_cons]
    refine ⟨?_, ?_, ?_, ?_⟩
    · intro s hs
      rw [i1 s fun x hx => hs x (by simp [hx]), hstep]
      exact entryOf_setEntryOf_ne _ _ (hs y (by simp))
    · intro x hx
      rcases List.mem_cons.1 hx with rfl | hx
      · rw [i1 _ fun z hz hzx => hnd.1 (List.mem_map.2 ⟨z, hz, hzx⟩), hstep]
        exact entryOf_setEntryOf_self _ _ _
      · exact i2 x hx
    · rw [i3, hstep]
      have : (nodeAt v y.2).freq = f := by rw [hf]; rfl
      simp only [Derived.leaf, List.map_cons, List.sum_cons, this]; omega
    · rw [i4, hstep]; rfl

theorem leafPaths_walk (v : Vector Node 511) (fuel i : Nat) {ls : List (List Bool × Nat)} (h : leafPaths v fuel i = some ls) :
    ∀ x ∈ ls, walkPath v i x.1 = nodeAt v x.2 := by
  induction fuel generalizing i ls with
  | zero =>
    unfold leafPaths at h
    rcases hn : nodeAt v i with ⟨sym, f⟩ | ⟨f, l, r⟩ | _ <;> simp only [hn] at h
    · injection h with h; subst h; simp [walkPath]
    all_goals cases h
  | succ k ih =>
    unfold leafPaths at h
    rcases hn : nodeAt v i with ⟨sym, f⟩ | ⟨f, l, r⟩ | _ <;> simp only [hn] at h
    · injection h with h; subst h; simp [walkPath]
    · rcases ha : leafPaths v k l.toNat with _ | a
      · simp [ha] at h
      · rcases hb : leafPaths v k r.toNat with _ | b
        · simp [ha, hb] at h
        · simp only [ha, hb, Option.some.injEq] at h
          subst h
          intro x hx
          rcases List.mem_append.1 hx with hx | hx
          · obtain ⟨y, hy, rfl⟩ := List.mem_map.1 hx
            simp only [walkPath, hn]
            exact ih _ ha y hy
          · obtain ⟨y, hy, rfl⟩ := List.mem_map.1 hx
            simp only [walkPath, hn]
            exact ih _ hb y hy
    · cases h


theorem ArenaOk.below_root (h : ArenaOk freq b) {root : Nat} (hq : b.q = [root]) :
    ∀ k j, j < b.n → b.n - j ≤ k → Below b.node root j := by
  intro k
  induction k with
  | zero => intro j hj hk; omega
  | succ k ih =>
    intro j hj hk
    rcases h.covered j hj with hc | ⟨i, h1, h2, h3⟩
    · rw [hq] at hc; simp at hc; subst hc; exact .refl j
    · exact (ih i h2 (by have := (h.child_lt h2 h3).2; omega)).down h3

/-- More fuel does not change a walk that ends. -/
theorem leafPaths_succ (v : Vector Node 511) (fuel i : Nat) {ls : List (List Bool × Nat)} (h : leafPaths v fuel i = some ls) :
    leafPaths v (fuel + 1) i = some ls := by
  induction fuel generalizing i ls with
  | zero =>
    unfold leafPaths at h ⊢
    rcases hn : nodeAt v i with ⟨sym, f⟩ | ⟨f, l, r⟩ | _ <;> simp only [hn] at h ⊢
    · exact h
    all_goals cases h
  | succ k ih =>
    unfold leafPaths at h ⊢
    rcases hn : nodeAt v i with ⟨sym, f⟩ | ⟨f, l, r⟩ | _ <;> simp only [hn] at h ⊢
    · exact h
    · rcases ha : leafPaths v k l.toNat with _ | a
      · simp [ha] at h
      · rcases hb : leafPaths v k r.toNat with _ | b
        · simp [ha, hb] at h
        · simp only [ha, hb] at h
          rw [ih _ ha, ih _ hb]
          exact h
    · cases h

theorem leafPaths_mono (v : Vector Node 511) {fuel more i : Nat} {ls : List (List Bool × Nat)} (h : leafPaths v fuel i = some ls)
    (hm : fuel ≤ more) : leafPaths v more i = some ls := by
  induction more, hm using Nat.le_induction with
  | base => exact h
  | succ n _ ih => exact leafPaths_succ v n i ih

/-- What DERIVE works out from an arena of R93: every leaf once, at its path. `ls` pairs each leaf's path with its arena index. -/
theorem deriveCodes_spec (h : ArenaOk freq b) {root : Nat} (hq : b.q = [root])
    (hK : countedSymbols freq ≠ []) (tbl : Vector Entry 256) :
    ∃ (d : Derived) (ls : List (List Bool × Nat)), deriveCodes b.node root (invalidateAll tbl) = some d ∧
      (ls.map Prod.snd).Perm (List.range (countedSymbols freq).length) ∧
      (∀ x ∈ ls, 1 ≤ x.1.length ∧ x.1.length ≤ 255 ∧ x.1.length ≤ max 1 ((countedSymbols freq).length - 1)) ∧
      ls.Pairwise (fun x y => ¬ x.1 <+: y.1 ∧ ¬ y.1 <+: x.1) ∧
      (∀ s, (∀ x ∈ ls, leafSym b.node x.2 ≠ s) → entryOf d.tbl s = { entryOf tbl s with valid := false }) ∧
      (∀ x ∈ ls, entryOf d.tbl (leafSym b.node x.2) =
        { valid := true, len := BitVec.ofNat 8 x.1.length, code := pushBits 0#256 x.1 }) ∧
      d.h = (ls.map fun x => (nodeAt b.node x.2).freq.toNat * x.1.length).sum ∧
      d.m = ls.foldl (fun m x => max m x.1.length) 0 ∧
      (2 ≤ (countedSymbols freq).length → ∀ x ∈ ls, walkPath b.node root x.1 = nodeAt b.node x.2) := by
  have hs := h.size
  have hK256 := length_countedSymbols_le freq
  have hpos : 0 < (countedSymbols freq).length := List.length_pos_iff.2 hK
  have hroot : root < b.n := h.bound root (by simp [hq])
  have hq1 : b.q.length = 1 := by simp [hq]
  have hlast : root = b.n - 1 := by
    have hb := h.below_root hq (b.n - (b.n - 1)) (b.n - 1) (by omega) (Nat.le_refl _)
    have := hb.le h hroot
    omega
  obtain ⟨ls0, p00, p1, p2, p3, p4⟩ := leafPaths_ok h ((countedSymbols freq).length - 1) root hroot (by omega)
  have p0 := leafPaths_mono b.node (more := Config.maxCodeLen) p00 (by simp [Config.maxCodeLen]; omega)
  have hsym : ∀ j (hj : j < (countedSymbols freq).length),
      nodeAt b.node j = .leaf (countedSymbols freq)[j] (entryOf freq (countedSymbols freq)[j]) ∧
        leafSym b.node j = (countedSymbols freq)[j] := by
    intro j hj
    have := h.leaf j hj
    exact ⟨this, by simp [leafSym, this]⟩
  have hperm : (ls0.map Prod.snd).Perm (List.range (countedSymbols freq).length) := by
    rw [List.perm_ext_iff_of_nodup p3 List.nodup_range]
    intro j
    rw [List.mem_range, List.mem_map]
    constructor
    · rintro ⟨x, hx, rfl⟩; exact (p1 x hx).2.1
    · intro hj
      obtain ⟨p, hp⟩ := p2 j hj (h.below_root hq (b.n - j) j (by omega) (Nat.le_refl _))
      exact ⟨_, hp, rfl⟩
  by_cases h1 : (countedSymbols freq).length = 1
  · have hr0 : root = 0 := by omega
    subst hr0
    obtain ⟨hn0, hs0⟩ := hsym 0 (by omega)
    refine ⟨({ tbl := invalidateAll tbl, h := 0, m := 0 } : Derived).leaf (countedSymbols freq)[0]
        (entryOf freq (countedSymbols freq)[0]) 1 0#256, [([false], 0)], ?_, ?_, by simp, by simp, ?_, ?_, ?_, ?_, fun hh => by omega⟩
    · simp only [deriveCodes, hn0]
    · rw [h1]; rfl
    · intro s hne
      have := hne _ (List.mem_singleton.2 rfl)
      simp only [hs0] at this
      simp only [Derived.leaf, entryOf_setEntryOf_ne _ _ this, entryOf_invalidateAll]
    · intro x hx
      rw [List.mem_singleton] at hx; subst hx
      simp only [hs0, Derived.leaf, entryOf_setEntryOf_self]
      congr 1
    · simp [Derived.leaf, hn0]
    · simp [Derived.leaf]
  · have hint : (countedSymbols freq).length ≤ root := by omega
    obtain ⟨l, r, he, -⟩ := h.inner root hint hroot
    have hv := visit_eq b.node Config.maxCodeLen root 0#256 0 { tbl := invalidateAll tbl, h := 0, m := 0 } p0
    have hnd : (ls0.map fun x => leafSym b.node x.2).Nodup := by
      have e : (ls0.map fun x => leafSym b.node x.2) = (ls0.map Prod.snd).map (leafSym b.node) := by simp
      rw [e, (hperm.map _).nodup_iff]
      refine List.Nodup.map_on ?_ List.nodup_range
      intro i hi j hj hij
      rw [List.mem_range] at hi hj
      rw [(hsym i hi).2, (hsym j hj).2] at hij
      exact (List.Nodup.getElem_inj_iff (nodup_countedSymbols freq)).1 hij
    obtain ⟨f1, f2, f3, f4⟩ := foldl_atPath b.node ls0 { tbl := invalidateAll tbl, h := 0, m := 0 }
      (fun x hx => by
        obtain ⟨a1, a2⟩ := hsym x.2 (p1 x hx).2.1
        exact ⟨_, by rw [a2]; exact a1⟩) hnd
    refine ⟨_, ls0, ?_, hperm, ?_, p4, ?_, f2, ?_, f4, fun _ => leafPaths_walk b.node _ _ p0⟩
    · simp only [deriveCodes, he]; exact hv
    · intro x hx
      obtain ⟨a1, -, -, a4⟩ := p1 x hx
      exact ⟨List.length_pos_iff.2 (a4 hint), by omega, by omega⟩
    · intro s hne; rw [f1 s hne, entryOf_invalidateAll]
    · rw [f3]; simp

/-! ### DERIVE in a sound state -/

/-- What DERIVE works out in a state of `TreeInv`: `ls` pairs the path of each leaf with its arena index. -/
structure DeriveFacts (s : State) (d : Derived) (ls : List (List Bool × Nat)) : Prop where
  eq : deriveCodes s.node s.root.toNat (invalidateAll s.tbl) = some d
  ne : countedSymbols s.freq ≠ []
  perm : (ls.map Prod.snd).Perm (List.range (countedSymbols s.freq).length)
  len : ∀ x ∈ ls, 1 ≤ x.1.length ∧ x.1.length ≤ 255 ∧ x.1.length ≤ max 1 ((countedSymbols s.freq).length - 1)
  pf : ls.Pairwise (fun x y => ¬ x.1 <+: y.1 ∧ ¬ y.1 <+: x.1)
  out : ∀ b, s.freqOf b = 0#32 → entryOf d.tbl b = { entryOf s.tbl b with valid := false }
  ent : ∀ x ∈ ls, ∃ h : x.2 < (countedSymbols s.freq).length, entryOf d.tbl (countedSymbols s.freq)[x.2] =
    { valid := true, len := BitVec.ofNat 8 x.1.length, code := pushBits 0#256 x.1 }
  h : d.h = (ls.map fun x => (nodeAt s.node x.2).freq.toNat * x.1.length).sum
  m : d.m = ls.foldl (fun m x => max m x.1.length) 0
  walk : 2 ≤ (countedSymbols s.freq).length → ∀ x ∈ ls, walkPath s.node s.root.toNat x.1 = nodeAt s.node x.2
  leaf : ∀ i (h : i < (countedSymbols s.freq).length),
    nodeAt s.node i = .leaf (countedSymbols s.freq)[i] (s.freqOf (countedSymbols s.freq)[i])

theorem derive_facts {s : State} (ht : s.treeValid = true) (hinv : TreeInv s) : ∃ d ls, DeriveFacts s d ls := by
  obtain ⟨-, -, h⟩ := hinv
  obtain ⟨hK, hn, hr, hnode⟩ := h ht
  obtain ⟨hok, -⟩ := buildTree_ok s.freq blankArena
  obtain ⟨en, eq⟩ := buildTree_root blankArena hK
  have hl := length_countedSymbols_le s.freq
  have hpos : 0 < (countedSymbols s.freq).length := List.length_pos_iff.2 hK
  have hag : Agree (buildTree s.freq blankArena)
      { node := s.node, q := (buildTree s.freq blankArena).q, n := (buildTree s.freq blankArena).n } :=
    ⟨rfl, rfl, fun i hi => (hnode i hi).symm⟩
  have hok2 := hok.congr hag
  have hroot : s.root.toNat = 2 * (countedSymbols s.freq).length - 2 := by
    rw [hr, eq]; simp; omega
  obtain ⟨d, ls, c1, c2, c3, c4, c5, c6, c7, c8, c9⟩ := deriveCodes_spec hok2 (root := 2 * (countedSymbols s.freq).length - 2) eq hK s.tbl
  have hleaf := hok2.leaf
  have hls : ∀ i (h : i < (countedSymbols s.freq).length), leafSym s.node i = (countedSymbols s.freq)[i] := by
    intro i hi
    have := hleaf i hi
    dsimp only at this
    simp [leafSym, this]
  have hlt : ∀ x ∈ ls, x.2 < (countedSymbols s.freq).length := by
    intro x hx
    have := c2.subset (List.mem_map.2 ⟨x, hx, rfl⟩)
    exact List.mem_range.1 this
  refine ⟨d, ls, by rw [hroot]; exact c1, hK, c2, c3, c4, ?_, ?_, c7, c8, by rw [hroot]; exact c9, hleaf⟩
  · intro b hb
    apply c5
    intro x hx e
    have hxl := hlt x hx
    have : leafSym s.node x.2 = b := e
    rw [hls _ hxl] at this
    have hmem : b ∈ countedSymbols s.freq := this ▸ List.getElem_mem hxl
    exact (mem_countedSymbols _ _).1 hmem hb
  · intro x hx
    refine ⟨hlt x hx, ?_⟩
    rw [← hls _ (hlt x hx)]
    exact c6 x hx

theorem DeriveFacts.path_of {s : State} {d : Derived} {ls : List (List Bool × Nat)} (D : DeriveFacts s d ls) (b : Byte) (hb : s.freqOf b ≠ 0#32) :
    ∃ x ∈ ls, ∃ h : x.2 < (countedSymbols s.freq).length, (countedSymbols s.freq)[x.2] = b ∧
      entryOf d.tbl b = { valid := true, len := BitVec.ofNat 8 x.1.length, code := pushBits 0#256 x.1 } ∧ (entryOf d.tbl b).bits = x.1 := by
  have hmem : b ∈ countedSymbols s.freq := (mem_countedSymbols _ _).2 hb
  obtain ⟨i, hi, hib⟩ := List.getElem_of_mem hmem
  have := D.perm.symm.subset (List.mem_range.2 hi)
  obtain ⟨x, hx, hxi⟩ := List.mem_map.1 this
  obtain ⟨h1, h2⟩ := D.ent x hx
  have hb2 : (countedSymbols s.freq)[x.2] = b := by rw [← hib]; congr 1
  rw [hb2] at h2
  refine ⟨x, hx, h1, hb2, h2, ?_⟩
  rw [h2]; exact bits_of_path _ (D.len x hx).2.1

theorem DeriveFacts.valid_iff {s : State} {d : Derived} {ls : List (List Bool × Nat)} (D : DeriveFacts s d ls) (b : Byte) : (entryOf d.tbl b).valid = true ↔ s.freqOf b ≠ 0#32 := by
  constructor
  · intro h h0; rw [D.out b h0] at h; simp at h
  · intro h; obtain ⟨x, _, _, _, h2, _⟩ := D.path_of b h; rw [h2]

end Sys2Proof.Machine
end

