-- ==== Sys2Proof/Laws/Run.lean ====
section
/-! SUPPORT. Runs of a command under the cooperative HOST of XFER: what two steps of the two agents do at each observable point (30_encoding.md R72, 40_command_control.md R77). -/

namespace Sys2Proof.Machine

/-! ### Reaching -/

theorem Reaches.refl (s : State) : Reaches s s := ⟨0, rfl⟩

theorem reaches_step {s t u : State} (h : step s = .next t) (h' : Reaches t u) : Reaches s u := by
  obtain ⟨k, hk⟩ := h'
  exact ⟨k + 1, by rw [runSteps, h]; exact hk⟩

theorem Reaches.trans {s t u : State} (h : Reaches s t) (h' : Reaches t u) : Reaches s u := by
  obtain ⟨k, hk⟩ := h
  induction k generalizing s with
  | zero =>
    have : s = t := by injection hk
    exact this ▸ h'
  | succ k ih =>
    rw [runSteps] at hk
    rcases hs : step s with s1 | f | r <;> rw [hs] at hk
    · exact reaches_step hs (ih hk)
    · cases hk
    · cases hk

/-! ### Programs do not look at the input slot or the schedule -/

/-- The input slot and the schedule replaced. -/
def State.aside (s : State) (i : Option Byte) (l : List Turn) : State := { s with inSlot := i, schedule := l }

/-- The result of a program, with the input slot and the schedule replaced. -/
def asideResult (i : Option Byte) (l : List Turn) (q : State × Point) : State × Point := (q.1.aside i l, q.2)

variable (i : Option Byte) (l : List Turn)

theorem packCheck_aside (s : State) : packCheck (s.aside i l) = asideResult i l (packCheck s) := by
  unfold packCheck; rw [apply_ite (asideResult i l)]; rfl

theorem packEnd_aside (s : State) : packEnd (s.aside i l) = asideResult i l (packEnd s) := by
  unfold packEnd; rw [packCheck_aside, apply_ite (asideResult i l)]; rfl

theorem packLoop_aside (left : Nat) (s : State) : packLoop left (s.aside i l) = asideResult i l (packLoop left s) := by
  cases left
  · exact packEnd_aside i l s
  · rfl

theorem packBits_aside (b : Byte) (left j : Nat) (s : State) :
    packBits b left j (s.aside i l) = asideResult i l (packBits b left j s) := by
  induction j generalizing s with
  | zero => exact packLoop_aside i l left s
  | succ j ih =>
    simp only [packBits]
    have e : packBit (((s.aside i l).entry b).code.getLsbD j) (s.aside i l) =
        (packBit ((s.entry b).code.getLsbD j) s).aside i l := rfl
    rw [e, ih, apply_ite (asideResult i l)]
    rfl

theorem packProgram_aside (c : PackCont) (s : State) : packProgram c (s.aside i l) = asideResult i l (packProgram c s) := by
  cases c with
  | start =>
    simp only [packProgram, packStart]
    rw [apply_ite (asideResult i l), apply_ite (asideResult i l), apply_ite (asideResult i l)]
    rfl
  | hdr k =>
    simp only [packProgram]
    rw [apply_ite (asideResult i l), ← packLoop_aside]
    rfl
  | got b left =>
    simp only [packProgram]
    have e : ((s.aside i l).entry b) = s.entry b := rfl
    rw [e, packBits_aside, apply_ite (asideResult i l)]
    rfl
  | bits b j left => exact packBits_aside i l b left j { s with acc := 0#8, nacc := 0#4 }
  | tail => exact packCheck_aside i l s

theorem unpackTail_aside (left : Nat) (s : State) : unpackTail left (s.aside i l) = asideResult i l (unpackTail left s) := by
  cases left <;> rfl

theorem unpackEnd_aside (s : State) : unpackEnd (s.aside i l) = asideResult i l (unpackEnd s) := by
  unfold unpackEnd; rw [unpackTail_aside, apply_ite (asideResult i l)]; rfl

theorem unpackLoop_aside (left : Nat) (s : State) : unpackLoop left (s.aside i l) = asideResult i l (unpackLoop left s) := by
  cases left
  · exact unpackEnd_aside i l s
  · rfl

theorem unpackBits_aside (b : Byte) (left k : Nat) (s : State) :
    unpackBits b left k (s.aside i l) = asideResult i l (unpackBits b left k s) := by
  induction k generalizing s with
  | zero => exact unpackLoop_aside i l left s
  | succ k ih =>
    simp only [unpackBits]
    have e : unpackBit (b.getLsbD k) (s.aside i l) = (unpackBit (b.getLsbD k) s).aside i l := rfl
    rw [e, ih, ih, apply_ite (asideResult i l)]
    refine if_congr Iff.rfl ?_ rfl
    have m : matchSet ((unpackBit (b.getLsbD k) s).aside i l).tbl ((unpackBit (b.getLsbD k) s).aside i l).clen
        ((unpackBit (b.getLsbD k) s).aside i l).cand = matchSet (unpackBit (b.getLsbD k) s).tbl
          (unpackBit (b.getLsbD k) s).clen (unpackBit (b.getLsbD k) s).cand := rfl
    rw [m]
    split
    · rw [apply_ite (asideResult i l)]; rfl
    · rfl
    · rfl

theorem unpackProgram_aside (c : UnpackCont) (s : State) :
    unpackProgram c (s.aside i l) = asideResult i l (unpackProgram c s) := by
  cases c with
  | start => simp only [unpackProgram]; rw [apply_ite (asideResult i l)]; rfl
  | got0 => rfl
  | got1 => rfl
  | got2 => rfl
  | got3 h0 h1 h2 h3 =>
    simp only [unpackProgram, unpackHeader]
    rw [apply_ite (asideResult i l), apply_ite (asideResult i l), ← unpackLoop_aside]
    rfl
  | gotData b left => exact unpackBits_aside i l b left 8 s
  | emitted b k left => exact unpackBits_aside i l b left k { s with cand := 0#256, clen := 0#8 }
  | gotTail left => exact unpackTail_aside i l left s

theorem countLoop_aside (left : Nat) (s : State) : countLoop left (s.aside i l) = asideResult i l (countLoop left s) := by
  cases left <;> rfl

/-- A program makes of the state with another input slot and schedule what it makes of the state. -/
theorem programOf_aside (r : Running) (s : State) :
    programOf r (s.aside i l) = (programOf r s).map (asideResult i l) := by
  cases r with
  | count c =>
    cases c with
    | start => exact congrArg some (countLoop_aside i l s.lenL.toNat (countClear s))
    | got b left => exact congrArg some (countLoop_aside i l left (countByte b s))
  | build => simp only [programOf, Option.map_some, buildProgram]; rw [apply_ite (asideResult i l)]; rfl
  | derive =>
    simp only [programOf, deriveProgram]
    rw [apply_ite (Option.map (asideResult i l))]
    refine if_congr Iff.rfl ?_ rfl
    have m : deriveCodes (s.aside i l).node (s.aside i l).root.toNat (invalidateAll (s.aside i l).tbl) =
        deriveCodes s.node s.root.toNat (invalidateAll s.tbl) := rfl
    rw [m]
    cases deriveCodes s.node s.root.toNat (invalidateAll s.tbl) <;> rfl
  | clrtab => rfl
  | pack c => simp only [programOf, Option.map_some, packProgram_aside]
  | unpack c => simp only [programOf, Option.map_some, unpackProgram_aside]

/-! ### The moves of XFER -/

theorem xferTurn_take {s : State} {ins : List Byte} {rest : List Turn} (h : s.outSlot.isSome = true) :
    xferTurn ins rest s = .next (takeOutput s) := by
  unfold xferTurn; rw [if_pos h]

theorem xferTurn_poll {s : State} {ins : List Byte} {rest : List Turn} (h1 : s.outSlot = none) (h2 : s.done = true) :
    xferTurn ins rest s = .next (hostRead Reg.status.offset { s with schedule := rest }) := by
  unfold xferTurn; rw [if_neg (by simp [h1]), if_pos h2]

theorem xferTurn_core {s : State} {ins : List Byte} {rest : List Turn} (h1 : s.outSlot = none) (h2 : s.done = false)
    (h3 : coreEnabled s = true) : xferTurn ins rest s = coreTurn s := by
  unfold xferTurn; rw [if_neg (by simp [h1]), if_neg (by simp [h2]), if_pos h3]

theorem xferTurn_offer {s : State} {b : Byte} {more : List Byte} {rest : List Turn} (h1 : s.outSlot = none)
    (h2 : s.done = false) (h3 : coreEnabled s = false) (h4 : s.inSlot = none) :
    xferTurn (b :: more) rest s = .next (offerByte b { s with schedule := .xfer more :: rest }) := by
  unfold xferTurn; rw [if_neg (by simp [h1]), if_neg (by simp [h2]), if_neg (by simp [h3])]
  split
  · rename_i heq; cases heq; rfl
  · rename_i hne; exact absurd rfl (hne b more h4)

/-! ### The macro steps -/

/-- Between two macro steps: an XFER with input `ins` is scheduled, with `rest` after it, both slots are empty, the command runs. -/
structure Quiet (s : State) (ins : List Byte) (rest : List Turn) : Prop where
  schedule : s.schedule = .xfer ins :: rest
  inSlot : s.inSlot = none
  outSlot : s.outSlot = none
  done : s.done = false

theorem xfer_step {s : State} {ins : List Byte} {rest : List Turn} (q : Quiet s ins rest) : step s = xferTurn ins rest s := by
  simp [step, takeTurn, q.schedule]

theorem coreEnabled_of {s s' : State} {r : Running} {p : Point} (hm : s.mode = .busy r)
    (hp : programOf r s = some (s', p)) : coreEnabled s = p.enabled s := by
  simp [coreEnabled, hm, hp]

/-- At `InByte`: the HOST offers the next byte, the CORE takes it. -/
theorem reaches_inByte {s s' : State} {r : Running} {k : Byte → Running} {b : Byte} {more : List Byte} {rest : List Turn}
    (q : Quiet s (b :: more) rest) (hm : s.mode = .busy r) (hp : programOf r s = some (s', .inByte k)) :
    Reaches s { s' with inCount := s.inCount + 1#32, mode := .busy (k b), schedule := .xfer more :: rest } := by
  have so := programOf_sameOutside hp
  have h1 : step s = .next (s.aside (some b) (.xfer more :: rest)) := by
    rw [xfer_step q]
    have he : coreEnabled s = false := by rw [coreEnabled_of hm hp]; simp [Point.enabled, q.inSlot]
    rw [xferTurn_offer q.outSlot q.done he q.inSlot]
    rfl
  refine reaches_step h1 ?_
  have hp2 : programOf r (s.aside (some b) (.xfer more :: rest)) = some (s'.aside (some b) (.xfer more :: rest), .inByte k) := by
    rw [programOf_aside, hp]; rfl
  have hm2 : (s.aside (some b) (.xfer more :: rest)).mode = .busy r := hm
  have h2 : step (s.aside (some b) (.xfer more :: rest)) =
      .next { s' with inCount := s.inCount + 1#32, mode := .busy (k b), schedule := .xfer more :: rest } := by
    have e1 : step (s.aside (some b) (.xfer more :: rest)) = xferTurn more rest (s.aside (some b) (.xfer more :: rest)) := rfl
    have he : coreEnabled (s.aside (some b) (.xfer more :: rest)) = true := by rw [coreEnabled_of hm2 hp2]; rfl
    have ho : (s.aside (some b) (.xfer more :: rest)).outSlot = none := q.outSlot
    have hd : (s.aside (some b) (.xfer more :: rest)).done = false := q.done
    rw [e1, xferTurn_core ho hd he]
    unfold Machine.coreTurn
    rw [hm2]
    dsimp only
    rw [exec_running hm2, hp2, coreStep_go (by rfl)]
    simp only [Point.perform, State.aside, takeInput]
    congr 1
    have hi : s'.inSlot = none := by rw [so.inSlot]; exact q.inSlot
    rw [so.inCount, ← hi]
  exact reaches_step h2 (Reaches.refl _)

/-- At `OutByte`: the CORE emits the byte, the HOST takes it. -/
theorem reaches_outByte {s s' : State} {r k : Running} {b : Byte} {ins : List Byte} {rest : List Turn}
    (q : Quiet s ins rest) (hm : s.mode = .busy r) (hp : programOf r s = some (s', .outByte b k)) :
    Reaches s { s' with outCount := s.outCount + 1#32, mode := .busy k, taken := s.taken ++ [b] } := by
  have so := programOf_sameOutside hp
  have h1 : step s = .next (putOutput b k s') := by
    rw [xfer_step q]
    have he : coreEnabled s = true := by rw [coreEnabled_of hm hp]; simp [Point.enabled, q.outSlot]
    rw [xferTurn_core q.outSlot q.done he]
    unfold Machine.coreTurn
    rw [hm]
    dsimp only
    rw [exec_running hm, hp, coreStep_go (by simp [Point.enabled, q.outSlot])]
    rfl
  refine reaches_step h1 ?_
  have h2 : step (putOutput b k s') =
      .next { s' with outCount := s.outCount + 1#32, mode := .busy k, taken := s.taken ++ [b] } := by
    have hs : (putOutput b k s').schedule = .xfer ins :: rest := by simp [so.schedule, q.schedule]
    simp only [step, takeTurn, hs]
    rw [xferTurn_take rfl]
    simp only [takeOutput, putOutput]
    congr 1
    have ho : s'.outSlot = none := by rw [so.outSlot]; exact q.outSlot
    rw [so.outCount, so.taken, ← ho]
  exact reaches_step h2 (Reaches.refl _)

/-- At `Complete`: the CORE ends the command, the HOST reads DONE = 1 and its XFER is over. -/
theorem reaches_complete {s s' : State} {r : Running} {ins : List Byte} {rest : List Turn}
    (q : Quiet s ins rest) (hm : s.mode = .busy r) (hp : programOf r s = some (s', .complete)) :
    Reaches s (hostRead Reg.status.offset { s' with mode := .idle, done := true, schedule := rest }) := by
  have so := programOf_sameOutside hp
  have h1 : step s = .next (completeCommand s') := by
    rw [xfer_step q]
    have he : coreEnabled s = true := by rw [coreEnabled_of hm hp]; simp [Point.enabled, q.outSlot]
    rw [xferTurn_core q.outSlot q.done he]
    unfold Machine.coreTurn
    rw [hm]
    dsimp only
    rw [exec_running hm, hp, coreStep_go (by simp [Point.enabled, q.outSlot])]
    rfl
  refine reaches_step h1 (reaches_step (t := hostRead Reg.status.offset { s' with mode := .idle, done := true, schedule := rest }) ?_ (Reaches.refl _))
  have hs : (completeCommand s').schedule = .xfer ins :: rest := by simp [so.schedule, q.schedule]
  have ho : (completeCommand s').outSlot = none := by simp [so.outSlot, q.outSlot]
  simp only [step, takeTurn, hs]
  rw [xferTurn_poll ho rfl]
  rfl

/-- At `Fail`: the CORE ends the command with the error, the HOST reads DONE = 1 and its XFER is over. -/
theorem reaches_fail {s s' : State} {r : Running} {ins : List Byte} {rest : List Turn} {e : ErrCode} {info : Word}
    (q : Quiet s ins rest) (hm : s.mode = .busy r) (hp : programOf r s = some (s', .fail e info)) :
    Reaches s (hostRead Reg.status.offset
      { s' with mode := .idle, done := true, errcode := e.code, errinfo := info, schedule := rest }) := by
  have so := programOf_sameOutside hp
  have h1 : step s = .next (failCommand e info s') := by
    rw [xfer_step q]
    have he : coreEnabled s = true := by rw [coreEnabled_of hm hp]; simp [Point.enabled, q.outSlot]
    rw [xferTurn_core q.outSlot q.done he]
    unfold Machine.coreTurn
    rw [hm]
    dsimp only
    rw [exec_running hm, hp, coreStep_go (by simp [Point.enabled, q.outSlot])]
    rfl
  refine reaches_step h1 (reaches_step (t := hostRead Reg.status.offset
      { s' with mode := .idle, done := true, errcode := e.code, errinfo := info, schedule := rest }) ?_ (Reaches.refl _))
  have hs : (failCommand e info s').schedule = .xfer ins :: rest := by simp [so.schedule, q.schedule]
  have ho : (failCommand e info s').outSlot = none := by simp [so.outSlot, q.outSlot]
  simp only [step, takeTurn, hs]
  rw [xferTurn_poll ho rfl]
  rfl

end Sys2Proof.Machine
end

