-- ==== Sys2Proof/Laws/Pack.lean ====
section
/-! SUPPORT. PACK under XFER: the packed bytes of a bit sequence, the bits of one input byte, the input loop (45_bit_packer.md R110, R111). -/

namespace Sys2Proof.Machine

/-! ### Packed bytes -/

theorem byteOfBits_eight {l : List Bool} (h : l.length = 8) : byteOfBits l = l.foldl pushByte 0#8 := by
  simp [byteOfBits, h]

theorem packBytes_eight {l : List Bool} (h : l.length = 8) (r : List Bool) :
    packBytes (l ++ r) = byteOfBits l :: packBytes r := by
  match l, h with
  | [b0, b1, b2, b3, b4, b5, b6, b7], _ => rfl

theorem packBytes_append (w : Nat) : ∀ (W P : List Bool), W.length = 8 * w → packBytes (W ++ P) = packBytes W ++ packBytes P := by
  induction w with
  | zero => intro W P h; have : W = [] := List.length_eq_zero_iff.1 (by omega); subst this; rfl
  | succ w ih =>
    intro W P h
    have h8 : (W.take 8).length = 8 := by simp; omega
    have hd : (W.drop 8).length = 8 * w := by simp; omega
    have e : W = W.take 8 ++ W.drop 8 := (List.take_append_drop 8 W).symm
    rw [e, List.append_assoc, packBytes_eight h8, packBytes_eight h8, ih _ _ hd, List.cons_append]

theorem packBytes_short {P : List Bool} (h : P.length < 8) : packBytes P = if P = [] then [] else [byteOfBits P] := by
  match P, h with
  | [], _ => rfl
  | [_], _ => rfl
  | [_, _], _ => rfl
  | [_, _, _], _ => rfl
  | [_, _, _, _], _ => rfl
  | [_, _, _, _, _], _ => rfl
  | [_, _, _, _, _, _], _ => rfl
  | [_, _, _, _, _, _, _], _ => rfl
  | _ :: _ :: _ :: _ :: _ :: _ :: _ :: _ :: _, h => simp at h; omega

theorem length_packBytes_whole (w : Nat) : ∀ W : List Bool, W.length = 8 * w → (packBytes W).length = w := by
  induction w with
  | zero => intro W h; have : W = [] := List.length_eq_zero_iff.1 (by omega); subst this; rfl
  | succ w ih =>
    intro W h
    have h8 : (W.take 8).length = 8 := by simp; omega
    have hd : (W.drop 8).length = 8 * w := by simp; omega
    rw [← List.take_append_drop 8 W, packBytes_eight h8, List.length_cons, ih _ hd]

/-! ### The stream frame -/

theorem StreamFrame.refl (s : State) : StreamFrame s s := rfl

theorem StreamFrame.trans {s t u : State} (h : StreamFrame s t) (h' : StreamFrame t u) : StreamFrame s u := by
  unfold StreamFrame at *; rw [h', h]

theorem SameButPack.frame {s t : State} (h : SameButPack s t) : StreamFrame s t := by
  unfold SameButPack at h; unfold StreamFrame; rw [h]

theorem SameButUnpack.frame {s t : State} (h : SameButUnpack s t) : StreamFrame s t := by
  unfold SameButUnpack at h; unfold StreamFrame; rw [h]

theorem StreamFrame.tbl {s t : State} (h : StreamFrame s t) : t.tbl = s.tbl := by unfold StreamFrame at h; rw [h]

theorem StreamFrame.entry {s t : State} (h : StreamFrame s t) (b : Byte) : t.entry b = s.entry b := by
  unfold State.entry; rw [h.tbl]

theorem StreamFrame.expbits {s t : State} (h : StreamFrame s t) : t.expbits = s.expbits := by unfold StreamFrame at h; rw [h]

theorem StreamFrame.lenL {s t : State} (h : StreamFrame s t) : t.lenL = s.lenL := by unfold StreamFrame at h; rw [h]

/-! ### The bits of one input byte -/

/-- The packer in state `u` has packed the whole bytes `W` and the bits `P` of the byte it fills; `base` was taken before. -/
structure Packing (u : State) (base : List Byte) (W P : List Bool) : Prop where
  whole : 8 ∣ W.length
  short : P.length < 8
  nacc : u.nacc = BitVec.ofNat 4 P.length
  acc : u.acc = P.foldl pushByte 0#8
  nb : u.nb = BitVec.ofNat 40 (W ++ P).length
  bitpos : u.bitpos = BitVec.ofNat 32 (W ++ P).length
  taken : u.taken = base ++ packBytes W
  outCount : u.outCount = BitVec.ofNat 32 (4 + W.length / 8)

/-- The state `s` runs a command whose next statements start from `u` as `q` says. -/
structure At (s : State) (ins : List Byte) (rest : List Turn) (u : State) (q : State × Point) : Prop where
  quiet : Quiet s ins rest
  run : ∃ r, s.mode = .busy r ∧ programOf r s = some q
  same : SameButPack s u

theorem Packing.push {u : State} {base : List Byte} {W P : List Bool} (h : Packing u base W P) (x : Bool) (h7 : P.length < 7) :
    Packing (packBit x u) base W (P ++ [x]) := by
  refine ⟨h.whole, by simp; omega, ?_, ?_, ?_, ?_, h.taken, h.outCount⟩
  · simp [packBit, h.nacc, BitVec.ofNat_add]
  · simp [packBit, h.acc]
  · simp [packBit, h.nb, BitVec.ofNat_add, BitVec.add_assoc]
  · simp only [packBit, h.nb]
    apply BitVec.eq_of_toNat_eq
    simp [BitVec.toNat_ofNat, BitVec.toNat_setWidth, BitVec.toNat_add]
    omega

theorem Packing.full {u : State} {base : List Byte} {W P : List Bool} (h : Packing u base W P) (x : Bool) (h7 : P.length = 7) (m : Mode) :
    Packing { packBit x u with
      acc := 0#8, nacc := 0#4, outCount := u.outCount + 1#32, mode := m, taken := u.taken ++ [(packBit x u).acc] }
      base (W ++ P ++ [x]) [] := by
  obtain ⟨w, hw⟩ := h.whole
  refine ⟨by simp; omega, by simp, rfl, rfl, ?_, ?_, ?_, ?_⟩
  · simp [packBit, h.nb, BitVec.ofNat_add, BitVec.add_assoc]
  · simp only [packBit, h.nb]
    apply BitVec.eq_of_toNat_eq
    simp [BitVec.toNat_ofNat, BitVec.toNat_setWidth, BitVec.toNat_add]
    omega
  · have h8 : (P ++ [x]).length = 8 := by simp [h7]
    have e := packBytes_eight h8 []
    rw [List.append_nil] at e
    rw [List.append_assoc, packBytes_append w W _ hw, e, byteOfBits_eight h8]
    simp [packBit, h.taken, h.acc, packBytes]
  · simp only [h.outCount]
    apply BitVec.eq_of_toNat_eq
    simp [BitVec.toNat_add, h7]
    omega

/-- The bits `j - 1 .. 0` of an input byte: under XFER the packer gets to the head of the input loop with them packed. -/
theorem run_packBits {ins : List Byte} {rest : List Turn} (b : Byte) (left : Nat) {base : List Byte} (j : Nat) :
    ∀ {s u : State} {W P : List Bool}, At s ins rest u (packBits b left j u) → Packing u base W P →
      ∃ s' u' W' P', Reaches s s' ∧ At s' ins rest u' (packLoop left u') ∧ Packing u' base W' P' ∧
        W' ++ P' = W ++ P ++ lowBits (s.entry b).code j ∧ StreamFrame s s' ∧ s'.inCount = s.inCount ∧ u'.bitcount = u.bitcount := by
  induction j with
  | zero =>
    intro s u W P ha hp
    exact ⟨s, u, W, P, Reaches.refl s, ha, hp, by simp, StreamFrame.refl s, rfl, rfl⟩
  | succ j ih =>
    intro s u W P ha hp
    have hen : u.entry b = s.entry b := ha.same.frame.entry b
    obtain ⟨r, hm, hr⟩ := ha.run
    simp only [packBits] at hr
    generalize hx : (u.entry b).code.getLsbD j = x at hr
    by_cases h7 : P.length = 7
    · have h8 : (packBit x u).nacc = 8#4 := by simp [packBit, hp.nacc, h7]
      rw [if_pos h8] at hr
      have hreach := reaches_outByte ha.quiet hm hr
      set s1 : State := { packBit x u with
        outCount := s.outCount + 1#32, mode := .busy (.pack (.bits b j left)), taken := s.taken ++ [(packBit x u).acc] } with hs1
      have hso := ha.same.outside
      have hf1 : StreamFrame s s1 := by
        have := ha.same; unfold SameButPack at this
        unfold StreamFrame; rw [hs1]; simp only [packBit]; rw [this]
      set u1 : State := { s1 with acc := 0#8, nacc := 0#4 } with hu1
      have hp1 : Packing u1 base (W ++ P ++ [x]) [] := by
        have := hp.full x h7 (.busy (.pack (.bits b j left)))
        rw [hso.outCount, hso.taken] at this
        exact this
      have ha1 : At s1 ins rest u1 (packBits b left j u1) :=
        { quiet := ⟨by rw [hs1]; simp [packBit, hso.schedule, ha.quiet.schedule], by rw [hs1]; simp [packBit, hso.inSlot, ha.quiet.inSlot],
            by rw [hs1]; simp [packBit, hso.outSlot, ha.quiet.outSlot], by rw [hs1]; simp [packBit, hso.done, ha.quiet.done]⟩
          run := ⟨.pack (.bits b j left), rfl, rfl⟩
          same := rfl }
      obtain ⟨s', u', W', P', g1, g2, g3, g4, g5, g6, g7⟩ := ih ha1 hp1
      refine ⟨s', u', W', P', hreach.trans g1, g2, g3, ?_, hf1.trans g5, ?_, ?_⟩
      · rw [g4, lowBits_succ, hf1.entry, ← hen, hx]; simp
      · rw [g6, hs1]; simp [packBit, hso.inCount]
      · rw [g7]; rfl
    · have hlt : P.length < 7 := by have := hp.short; omega
      have h8 : (packBit x u).nacc ≠ 8#4 := by
        simp only [packBit, hp.nacc]
        intro h
        have := congrArg BitVec.toNat h
        simp at this; omega
      rw [if_neg h8] at hr
      have hp1 := hp.push x hlt
      have ha1 : At s ins rest (packBit x u) (packBits b left j (packBit x u)) :=
        { quiet := ha.quiet, run := ⟨r, hm, hr⟩
          same := by have := ha.same; unfold SameButPack at *; simp only [packBit]; rw [this] }
      obtain ⟨s', u', W', P', g1, g2, g3, g4, g5, g6, g7⟩ := ih ha1 hp1
      refine ⟨s', u', W', P', g1, g2, g3, ?_, g5, g6, ?_⟩
      · rw [g4, lowBits_succ, ← hen, hx]; simp
      · rw [g7]; rfl

/-! ### The input loop -/

theorem ofNat_succ32 (n : Nat) : BitVec.ofNat 32 n + 1#32 = BitVec.ofNat 32 (n + 1) := by
  rw [BitVec.ofNat_add]

/-- The input bytes `S`, all usable: under XFER the packer gets to the head of the loop with `k` bytes to come and the bits of `S` packed. -/
theorem run_packLoop {rest : List Turn} {base more : List Byte} (k : Nat) (S : List Byte) :
    ∀ {s u : State} {W P : List Bool}, At s (S ++ more) rest u (packLoop (S.length + k) u) → Packing u base W P →
      (∀ b ∈ S, (s.entry b).usable = true) →
      ∃ s' u' W' P', Reaches s s' ∧ At s' more rest u' (packLoop k u') ∧ Packing u' base W' P' ∧
        W' ++ P' = W ++ P ++ bitsOf s.tbl S ∧ StreamFrame s s' ∧ s'.inCount = s.inCount + BitVec.ofNat 32 S.length ∧
        u'.bitcount = u.bitcount := by
  induction S with
  | nil =>
    intro s u W P ha hp _
    rw [List.length_nil, Nat.zero_add] at ha
    exact ⟨s, u, W, P, Reaches.refl s, ha, hp, by simp [bitsOf], StreamFrame.refl s, by simp, rfl⟩
  | cons b S ih =>
    intro s u W P ha hp hS
    obtain ⟨r, hm, hr⟩ := ha.run
    have hl : packLoop ((b :: S).length + k) u = (u, .inByte fun b => .pack (.got b (S.length + k))) := by
      rw [List.length_cons, show S.length + 1 + k = S.length + k + 1 by omega]; rfl
    rw [hl] at hr
    have hreach := reaches_inByte (b := b) (more := S ++ more) ha.quiet hm hr
    set s1 : State := { u with
      inCount := s.inCount + 1#32, mode := .busy (.pack (.got b (S.length + k))), schedule := .xfer (S ++ more) :: rest } with hs1
    have hso := ha.same.outside
    have hf1 : StreamFrame s s1 := by
      have := ha.same; unfold SameButPack at this
      unfold StreamFrame; rw [hs1]; rw [this]
    have hus : (s1.entry b).usable = true := by rw [hf1.entry]; exact hS b (by simp)
    have ha1 : At s1 (S ++ more) rest s1 (packBits b (S.length + k) (s1.entry b).len.toNat s1) :=
      { quiet := ⟨rfl, by rw [hs1]; simp [hso.inSlot, ha.quiet.inSlot], by rw [hs1]; simp [hso.outSlot, ha.quiet.outSlot],
          by rw [hs1]; simp [hso.done, ha.quiet.done]⟩
        run := ⟨.pack (.got b (S.length + k)), rfl, by
          have e : packProgram (.got b (S.length + k)) s1 = packBits b (S.length + k) (s1.entry b).len.toNat s1 := if_pos hus
          exact congrArg some e⟩
        same := rfl }
    have hp1 : Packing s1 base W P := ⟨hp.whole, hp.short, hp.nacc, hp.acc, hp.nb, hp.bitpos, hp.taken, hp.outCount⟩
    obtain ⟨s2, u2, W2, P2, g1, g2, g3, g4, g5, g6, g7⟩ := run_packBits b (S.length + k) _ ha1 hp1
    have hf2 := hf1.trans g5
    obtain ⟨s3, u3, W3, P3, k1, k2, k3, k4, k5, k6, k7⟩ := ih g2 g3 (fun c hc => by rw [hf2.entry]; exact hS c (by simp [hc]))
    refine ⟨s3, u3, W3, P3, hreach.trans (g1.trans k1), k2, k3, ?_, hf2.trans k5, ?_, ?_⟩
    · rw [k4, g4, hf2.tbl, hf1.entry, ← bits_def]
      simp [bitsOf, State.entry]
    · rw [k6, g6, hs1, List.length_cons]
      simp only [BitVec.ofNat_add, BitVec.add_assoc]
      rw [BitVec.add_comm 1#32]
    · rw [k7, g7]

/-- After the last input byte: under XFER the packer gets to its check with every packed byte taken. -/
theorem run_packEnd {s u : State} {ins base : List Byte} {rest : List Turn} {W P : List Bool}
    (ha : At s ins rest u (packEnd u)) (hp : Packing u base W P) :
    ∃ s' u', Reaches s s' ∧ At s' ins rest u' (packCheck u') ∧ u'.taken = base ++ packBytes (W ++ P) ∧
      u'.outCount = BitVec.ofNat 32 (4 + ceilDiv8 (W ++ P).length) ∧ u'.nb = BitVec.ofNat 40 (W ++ P).length ∧
      u'.bitpos = BitVec.ofNat 32 (W ++ P).length ∧ StreamFrame s s' ∧ s'.inCount = s.inCount ∧ u'.bitcount = u.bitcount := by
  obtain ⟨w, hw⟩ := hp.whole
  obtain ⟨r, hm, hr⟩ := ha.run
  have hso := ha.same.outside
  by_cases hP : P = []
  · subst hP
    have h0 : u.nacc = 0#4 := by rw [hp.nacc]; rfl
    have e : packEnd u = packCheck u := if_pos h0
    rw [e] at hr
    refine ⟨s, u, Reaches.refl s, ⟨ha.quiet, ⟨r, hm, hr⟩, ha.same⟩, ?_, ?_, hp.nb, hp.bitpos, StreamFrame.refl s, rfl, rfl⟩
    · rw [List.append_nil]; exact hp.taken
    · rw [hp.outCount, List.append_nil]; congr 2; simp only [ceilDiv8]; omega
  · have hl : 0 < P.length := List.length_pos_iff.2 hP
    have hs := hp.short
    have hn : u.nacc.toNat = P.length := by rw [hp.nacc]; simp; omega
    have h0 : u.nacc ≠ 0#4 := by intro h; rw [h] at hn; simp at hn; omega
    have e : packEnd u = (u, .outByte (u.acc <<< (8 - u.nacc.toNat)) (.pack .tail)) := if_neg h0
    rw [e] at hr
    have hreach := reaches_outByte ha.quiet hm hr
    set s1 : State := { u with
      outCount := s.outCount + 1#32, mode := .busy (.pack .tail), taken := s.taken ++ [u.acc <<< (8 - u.nacc.toNat)] } with hs1
    refine ⟨s1, s1, hreach, ⟨⟨by rw [hs1]; simp [hso.schedule, ha.quiet.schedule], by rw [hs1]; simp [hso.inSlot, ha.quiet.inSlot],
      by rw [hs1]; simp [hso.outSlot, ha.quiet.outSlot], by rw [hs1]; simp [hso.done, ha.quiet.done]⟩, ⟨.pack .tail, rfl, rfl⟩, rfl⟩, ?_, ?_, hp.nb, hp.bitpos,
      ?_, hso.inCount, rfl⟩
    · rw [hs1, packBytes_append w W P hw, packBytes_short hs, if_neg hP]
      show s.taken ++ _ = _
      rw [← hso.taken, hp.taken, List.append_assoc, hn, hp.acc]
      rfl
    · rw [hs1]
      show s.outCount + 1#32 = _
      rw [← hso.outCount, hp.outCount, ofNat_succ32, List.length_append]
      congr 1
      simp only [ceilDiv8]; omega
    · have := ha.same; unfold SameButPack at this
      unfold StreamFrame; rw [hs1]; rw [this]

/-! ### The header -/

/-- From the start of PACK past its checks: under XFER the four header bytes are taken and the packer is at the head of its loop. -/
theorem run_packHeader {s : State} {ins : List Byte} {rest : List Turn} (q : Quiet s ins rest) (hm : s.mode = .busy (.pack .start))
    (hl : s.lenL ≠ 0#32) (hv : s.hdrValid = true) (hx : s.expbits.toNat ≤ 2 ^ 31 - 1) (ho : s.outCount = 0#32) (hb : s.bitpos = 0#32) :
    ∃ s' u, Reaches s s' ∧ At s' ins rest u (packLoop s'.lenL.toNat u) ∧
      Packing u (s.taken ++ [headerByte s.expbits 0, headerByte s.expbits 1, headerByte s.expbits 2, headerByte s.expbits 3]) [] [] ∧
      StreamFrame s s' ∧ s'.inCount = s.inCount ∧ u.bitcount = s.expbits.setWidth 32 := by
  have e0 : programOf (.pack .start) s = some (packHeader 0 { s with bitcount := s.expbits.setWidth 32 }) := by
    show some (packStart s) = _
    unfold packStart
    rw [if_neg hl, if_neg (by simp [hv]), if_neg (by omega)]
  have r0 := reaches_outByte q hm e0
  set s1 : State := { s with
    bitcount := s.expbits.setWidth 32, outCount := s.outCount + 1#32, mode := .busy (.pack (.hdr 1))
    taken := s.taken ++ [headerByte s.expbits 0] } with hs1
  have q1 : Quiet s1 ins rest := ⟨q.schedule, q.inSlot, q.outSlot, q.done⟩
  have r1 := reaches_outByte (s := s1) (s' := s1) (r := .pack (.hdr 1)) q1 rfl rfl
  set s2 : State := { s1 with
    outCount := s1.outCount + 1#32, mode := .busy (.pack (.hdr 2)), taken := s1.taken ++ [headerByte s1.expbits 1] } with hs2
  have q2 : Quiet s2 ins rest := ⟨q.schedule, q.inSlot, q.outSlot, q.done⟩
  have r2 := reaches_outByte (s := s2) (s' := s2) (r := .pack (.hdr 2)) q2 rfl rfl
  set s3 : State := { s2 with
    outCount := s2.outCount + 1#32, mode := .busy (.pack (.hdr 3)), taken := s2.taken ++ [headerByte s2.expbits 2] } with hs3
  have q3 : Quiet s3 ins rest := ⟨q.schedule, q.inSlot, q.outSlot, q.done⟩
  have r3 := reaches_outByte (s := s3) (s' := s3) (r := .pack (.hdr 3)) q3 rfl rfl
  set s4 : State := { s3 with
    outCount := s3.outCount + 1#32, mode := .busy (.pack (.hdr 4)), taken := s3.taken ++ [headerByte s3.expbits 3] } with hs4
  refine ⟨s4, { s4 with acc := 0#8, nacc := 0#4, nb := 0#40 }, r0.trans (r1.trans (r2.trans r3)),
    ⟨⟨q.schedule, q.inSlot, q.outSlot, q.done⟩, ⟨.pack (.hdr 4), rfl, rfl⟩, rfl⟩, ?_, rfl, rfl, rfl⟩
  refine ⟨⟨0, rfl⟩, by simp, rfl, rfl, rfl, hb, ?_, ?_⟩
  · simp [hs4, hs3, hs2, hs1, packBytes]
  · simp [hs4, hs3, hs2, hs1, ho]

end Sys2Proof.Machine
end

