-- ==== Sys2Proof/Laws/Unpack.lean ====
section
/-! SUPPORT. UNPACK under XFER against `decodeFrom`, and decoding what was encoded (46_bit_unpacker_decoder.md R116, R118, R121, R122). -/

namespace Sys2Proof.Machine

/-! ### Decoding what was encoded -/

theorem toNat_succ8 {c : BitVec 8} (h : c.toNat < 255) : (c + 1#8).toNat = c.toNat + 1 := by
  simp [BitVec.toNat_add]; omega

/-- A list without repeats whose only member is `s`. -/
theorem eq_singleton_of_nodup {α : Type} {l : List α} {s : α} (hn : l.Nodup) (hs : s ∈ l) (h : ∀ x ∈ l, x = s) : l = [s] := by
  match l, hn, hs, h with
  | [x], _, _, h => rw [h x (by simp)]
  | x :: y :: l, hn, _, h =>
    have hx := h x (by simp)
    have hy := h y (by simp)
    simp [hx, hy] at hn

/-- From the part of a usable entry's code already read, its remaining bits make the decoder emit its symbol. -/
theorem decodeFrom_code {tbl : Vector Entry 256} (hpf : PrefixFree tbl) {x : Byte} (hx : (entryOf tbl x).usable = true) (suf : List Bool) :
    ∀ (clen : BitVec 8) (cand : CodeBits) (t : Nat) (R : List Bool), suf ≠ [] → lowBits cand clen.toNat ++ suf = (entryOf tbl x).bits →
      decodeFrom tbl clen cand t (suf ++ R) =
        { out := x :: (decodeFrom tbl 0#8 0#256 (t + suf.length) R).out, err := (decodeFrom tbl 0#8 0#256 (t + suf.length) R).err } := by
  induction suf with
  | nil => intro _ _ _ _ h; exact absurd rfl h
  | cons y suf ih =>
    intro clen cand t R _ hbits
    have hlen : clen.toNat + (suf.length + 1) = (entryOf tbl x).len.toNat := by
      have := congrArg List.length hbits
      simpa using this
    have hlt := (entryOf tbl x).len.isLt
    have hl := toNat_succ8 (c := clen) (by omega)
    have hcand : lowBits (pushCode cand y) (clen + 1#8).toNat = lowBits cand clen.toNat ++ [y] := by
      rw [hl, lowBits_pushCode _ _ _ (by omega)]
    have hmem : ∀ z, z ∈ matchSet tbl (clen + 1#8) (pushCode cand y) → z = x := by
      intro z hz
      by_contra hne
      rw [mem_matchSet, hcand] at hz
      refine hpf z x hne ((usable_iff _).2 ⟨hz.1, by rw [hz.2]; simp⟩) hx ?_
      show (entryOf tbl z).bits <+: (entryOf tbl x).bits
      rw [hz.2, ← hbits]
      exact ⟨suf, by simp⟩
    rw [List.cons_append, decodeFrom]
    by_cases hs : suf = []
    · subst hs
      have hin : x ∈ matchSet tbl (clen + 1#8) (pushCode cand y) := by
        rw [mem_matchSet, hcand]
        exact ⟨((usable_iff _).1 hx).1, hbits.symm⟩
      rw [eq_singleton_of_nodup (nodup_matchSet _ _ _) hin hmem]
      rfl
    · have hempty : matchSet tbl (clen + 1#8) (pushCode cand y) = [] := by
        rw [List.eq_nil_iff_forall_not_mem]
        intro z hz
        have := hmem z hz
        subst this
        rw [mem_matchSet, hcand] at hz
        have := hz.2.symm.trans hbits.symm
        simp at this
        exact hs this
      have h255 : clen + 1#8 ≠ 255#8 := by
        intro h
        have := congrArg BitVec.toNat h
        have hp := List.length_pos_iff.2 hs
        rw [hl] at this; simp at this; omega
      rw [hempty]
      dsimp only
      rw [if_neg h255, ih (clen + 1#8) (pushCode cand y) (t + 1) R hs (by rw [hcand, ← hbits]; simp)]
      simp only [List.length_cons]
      rw [show t + 1 + suf.length = t + (suf.length + 1) by omega]

/-- Under a prefix-free table, decoding the bits of usable bytes gives the bytes back. -/
theorem decodeFrom_bitsOf {tbl : Vector Entry 256} (hpf : PrefixFree tbl) (S : List Byte) (hS : ∀ b ∈ S, (entryOf tbl b).usable = true) :
    ∀ t, decodeFrom tbl 0#8 0#256 t (bitsOf tbl S) = { out := S, err := none } := by
  induction S with
  | nil => intro t; rfl
  | cons b S ih =>
    intro t
    have hb := hS b (by simp)
    have e : bitsOf tbl (b :: S) = (entryOf tbl b).bits ++ bitsOf tbl S := by simp [bitsOf]
    rw [e, decodeFrom_code hpf hb _ 0#8 0#256 t _ ((usable_iff _).1 hb).2 (by simp), ih (fun c hc => hS c (by simp [hc]))]

/-! ### The bits of one data byte -/

/-- The low `k` bits of a byte, most significant first. -/
def lowBitsByte (b : Byte) (k : Nat) : List Bool := ((List.range k).map b.getLsbD).reverse

theorem lowBitsByte_eight (b : Byte) : lowBitsByte b 8 = bitsOfByte b := rfl

theorem lowBitsByte_succ (b : Byte) (k : Nat) : lowBitsByte b (k + 1) = b.getLsbD k :: lowBitsByte b k := by
  simp [lowBitsByte, List.range_succ]

@[simp] theorem length_lowBitsByte (b : Byte) (k : Nat) : (lowBitsByte b k).length = k := by simp [lowBitsByte]

/-- The state `s` runs UNPACK, whose next statements start from `u` as `q` says; the counters of `u` are in range and mirrored. -/
structure UAt (s : State) (ins : List Byte) (rest : List Turn) (u : State) (q : State × Point) : Prop where
  quiet : Quiet s ins rest
  run : ∃ r, s.mode = .busy r ∧ programOf r s = some q
  same : SameButUnpack s u
  count : u.t.toNat ≤ u.n.toNat
  small : u.n.toNat < 2 ^ 31
  room : u.clen.toNat ≤ 254
  bitpos : u.bitpos = u.t

/-- `s'` is where the run from `s` got, `o` having been emitted since. -/
structure Emitted (s s' : State) (o : List Byte) : Prop where
  reach : Reaches s s'
  frame : StreamFrame s s'
  taken : s'.taken = s.taken ++ o
  outCount : s'.outCount = s.outCount + BitVec.ofNat 32 o.length

theorem Emitted.refl (s : State) : Emitted s s [] := ⟨Reaches.refl s, StreamFrame.refl s, by simp, by simp⟩

theorem Emitted.trans {s s' s'' : State} {o o' : List Byte} (h : Emitted s s' o) (h' : Emitted s' s'' o') : Emitted s s'' (o ++ o') where
  reach := h.reach.trans h'.reach
  frame := h.frame.trans h'.frame
  taken := by rw [h'.taken, h.taken, List.append_assoc]
  outCount := by rw [h'.outCount, h.outCount, List.length_append, BitVec.ofNat_add, BitVec.add_assoc]

/-- The bits `k - 1 .. 0` of a data byte, as far as they are counted: under XFER either the decoder gets to the head of the data loop, having decoded
them, or it fails where `decodeFrom` fails. -/
theorem run_unpackBits {ins : List Byte} {rest : List Turn} (b : Byte) (left : Nat) (k : Nat) :
    ∀ {s u : State}, UAt s ins rest u (unpackBits b left k u) →
      (∃ s' u' o, Emitted s s' o ∧ UAt s' ins rest u' (unpackLoop left u') ∧ s'.inCount = s.inCount ∧ u'.n = u.n ∧ u'.nbytes = u.nbytes ∧
        u'.bitcount = u.bitcount ∧ u'.t.toNat = u.t.toNat + ((lowBitsByte b k).take (u.n.toNat - u.t.toNat)).length ∧
        ∀ R, decodeFrom s.tbl u.clen u.cand u.t.toNat ((lowBitsByte b k).take (u.n.toNat - u.t.toNat) ++ R) =
          { out := o ++ (decodeFrom s.tbl u'.clen u'.cand u'.t.toNat R).out, err := (decodeFrom s.tbl u'.clen u'.cand u'.t.toNat R).err }) ∨
      (∃ s' u' o e, Emitted s s' o ∧ UAt s' ins rest { u' with clen := 0#8 } (u', .fail e u'.t) ∧ s'.inCount = s.inCount ∧ u'.bitcount = u.bitcount ∧
        ∀ R, decodeFrom s.tbl u.clen u.cand u.t.toNat ((lowBitsByte b k).take (u.n.toNat - u.t.toNat) ++ R) =
          { out := o, err := some (e, u'.t.toNat) }) := by
  induction k with
  | zero =>
    intro s u ha
    exact .inl ⟨s, u, [], Emitted.refl s, ha, rfl, rfl, rfl, rfl, by simp [lowBitsByte], by intro R; simp [lowBitsByte]⟩
  | succ k ih =>
    intro s u ha
    obtain ⟨r, hm, hr⟩ := ha.run
    have hso := ha.same.outside
    simp only [unpackBits] at hr
    by_cases hlt : u.t.toNat < u.n.toNat
    · rw [if_pos hlt] at hr
      have hsm := ha.small
      have ht : (u.t + 1#32).toNat = u.t.toNat + 1 := by simp [BitVec.toNat_add]; omega
      have hc := toNat_succ8 (c := u.clen) (by have := ha.room; omega)
      have htk : ∀ R, (lowBitsByte b (k + 1)).take (u.n.toNat - u.t.toNat) ++ R =
          b.getLsbD k :: ((lowBitsByte b k).take (u.n.toNat - (u.t.toNat + 1)) ++ R) := by
        intro R
        rw [lowBitsByte_succ, show u.n.toNat - u.t.toNat = u.n.toNat - (u.t.toNat + 1) + 1 by omega]; rfl
      have htk0 : ((lowBitsByte b (k + 1)).take (u.n.toNat - u.t.toNat)).length =
          ((lowBitsByte b k).take (u.n.toNat - (u.t.toNat + 1))).length + 1 := by
        have := congrArg List.length (htk [])
        simpa using this
      generalize hu1 : unpackBit (b.getLsbD k) u = u1 at hr
      have e1 : u1.clen = u.clen + 1#8 := by rw [← hu1]; rfl
      have e2 : u1.cand = pushCode u.cand (b.getLsbD k) := by rw [← hu1]; rfl
      have e3 : u1.t = u.t + 1#32 := by rw [← hu1]; rfl
      have e4 : u1.n = u.n := by rw [← hu1]; rfl
      have e5 : u1.tbl = s.tbl := by rw [← hu1]; exact ha.same.frame.tbl
      have e6 : u1.bitpos = u1.t := by rw [← hu1]; rfl
      have e7 : u1.nbytes = u.nbytes := by rw [← hu1]; rfl
      have e8 : u1.bitcount = u.bitcount := by rw [← hu1]; rfl
      have hsame : SameButUnpack s u1 := by
        rw [← hu1]; have := ha.same; unfold SameButUnpack at *; simp only [unpackBit]; rw [this]
      have hso1 := hsame.outside
      have hcnt : u1.t.toNat ≤ u1.n.toNat := by rw [e3, e4, ht]; omega
      rcases hms : matchSet s.tbl (u.clen + 1#8) (pushCode u.cand (b.getLsbD k)) with _ | ⟨sym, _ | ⟨y, l⟩⟩
      · rw [e5, e1, e2, hms] at hr
        dsimp only at hr
        by_cases h255 : u.clen + 1#8 = 255#8
        · rw [if_pos h255] at hr
          refine .inr ⟨s, u1, [], .decodeMismatch, Emitted.refl s, ?_, rfl, e8, ?_⟩
          · exact { quiet := ha.quiet, run := ⟨r, hm, hr⟩, count := hcnt, small := by rw [e4]; exact hsm, room := by simp, bitpos := e6
                    same := by unfold SameButUnpack at *; rw [hsame] }
          · intro R
            rw [htk, decodeFrom, hms, e3, ht]
            dsimp only
            rw [if_pos h255]
        · rw [if_neg h255] at hr
          have hroom : u1.clen.toNat ≤ 254 := by
            rw [e1]
            have : (u.clen + 1#8).toNat ≠ 255 := fun h => h255 (BitVec.eq_of_toNat_eq (by simpa using h))
            have := (u.clen + 1#8).isLt
            omega
          have ha1 : UAt s ins rest u1 (unpackBits b left k u1) :=
            { quiet := ha.quiet, run := ⟨r, hm, hr⟩, same := hsame, count := hcnt, small := by rw [e4]; exact hsm, room := hroom, bitpos := e6 }
          have key : ∀ R, decodeFrom s.tbl u.clen u.cand u.t.toNat ((lowBitsByte b (k + 1)).take (u.n.toNat - u.t.toNat) ++ R) =
              decodeFrom s.tbl u1.clen u1.cand u1.t.toNat ((lowBitsByte b k).take (u1.n.toNat - u1.t.toNat) ++ R) := by
            intro R
            rw [htk, decodeFrom, hms, e1, e2, e3, e4, ht]
            dsimp only
            rw [if_neg h255]
          rcases ih ha1 with ⟨s', u', o, g1, g2, g3, g4, g5, g6, g7, g8⟩ | ⟨s', u', o, e, g1, g2, g3, g4, g5⟩
          · refine .inl ⟨s', u', o, g1, g2, g3, g4.trans e4, g5.trans e7, g6.trans e8, ?_, fun R => (key R).trans (g8 R)⟩
            rw [g7, htk0, e3, e4, ht]; omega
          · exact .inr ⟨s', u', o, e, g1, g2, g3, g4.trans e8, fun R => (key R).trans (g5 R)⟩
      · rw [e5, e1, e2, hms] at hr
        dsimp only at hr
        have hreach := reaches_outByte ha.quiet hm hr
        set s1 : State := { u1 with
          outCount := s.outCount + 1#32, mode := .busy (.unpack (.emitted b k left)), taken := s.taken ++ [sym] } with hs1
        have hf1 : StreamFrame s s1 := by
          have := hsame; unfold SameButUnpack at this
          unfold StreamFrame; rw [hs1]; rw [this]
        have he1 : Emitted s s1 [sym] := ⟨hreach, hf1, rfl, rfl⟩
        set u2 : State := { s1 with cand := 0#256, clen := 0#8 } with hu2
        have ha1 : UAt s1 ins rest u2 (unpackBits b left k u2) :=
          { quiet := ⟨by rw [hs1]; exact hso1.schedule.trans ha.quiet.schedule, by rw [hs1]; exact hso1.inSlot.trans ha.quiet.inSlot,
              by rw [hs1]; exact hso1.outSlot.trans ha.quiet.outSlot, by rw [hs1]; exact hso1.done.trans ha.quiet.done⟩
            run := ⟨_, rfl, rfl⟩, same := rfl, count := hcnt, small := by rw [hu2, hs1]; show u1.n.toNat < _; rw [e4]; exact hsm
            room := by simp [hu2], bitpos := e6 }
        have hn2 : u2.n = u.n := e4
        have ht2 : u2.t.toNat = u.t.toNat + 1 := by show u1.t.toNat = _; rw [e3, ht]
        have key : ∀ R, decodeFrom s.tbl u.clen u.cand u.t.toNat ((lowBitsByte b (k + 1)).take (u.n.toNat - u.t.toNat) ++ R) =
            { out := sym :: (decodeFrom s1.tbl u2.clen u2.cand u2.t.toNat ((lowBitsByte b k).take (u2.n.toNat - u2.t.toNat) ++ R)).out
              err := (decodeFrom s1.tbl u2.clen u2.cand u2.t.toNat ((lowBitsByte b k).take (u2.n.toNat - u2.t.toNat) ++ R)).err } := by
          intro R
          rw [htk, decodeFrom, hms, hf1.tbl, hn2, ht2]
        rcases ih ha1 with ⟨s', u', o, g1, g2, g3, g4, g5, g6, g7, g8⟩ | ⟨s', u', o, e, g1, g2, g3, g4, g5⟩
        · refine .inl ⟨s', u', sym :: o, he1.trans g1, g2, g3.trans hso1.inCount, g4.trans e4, g5.trans e7, g6.trans e8, ?_, ?_⟩
          · rw [g7, htk0, hn2, ht2]; omega
          · intro R; rw [key R, g8 R, hf1.tbl]; rfl
        · refine .inr ⟨s', u', sym :: o, e, he1.trans g1, g2, g3.trans hso1.inCount, g4.trans e8, ?_⟩
          intro R; rw [key R, g5 R]
      · rw [e5, e1, e2, hms] at hr
        dsimp only at hr
        refine .inr ⟨s, u1, [], .ambiguousCode, Emitted.refl s, ?_, rfl, e8, ?_⟩
        · exact { quiet := ha.quiet, run := ⟨r, hm, hr⟩, count := hcnt, small := by rw [e4]; exact hsm, room := by simp, bitpos := e6
                  same := by unfold SameButUnpack at *; rw [hsame] }
        · intro R
          rw [htk, decodeFrom, hms, e3, ht]
    · rw [if_neg hlt] at hr
      have h0 : u.n.toNat - u.t.toNat = 0 := by omega
      have ha1 : UAt s ins rest u (unpackBits b left k u) := { ha with run := ⟨r, hm, hr⟩ }
      have := ih ha1
      rw [h0] at this ⊢
      exact this

/-! ### The data loop -/

theorem inCount_add (s : State) (n : Nat) : s.inCount + 1#32 + BitVec.ofNat 32 n = s.inCount + BitVec.ofNat 32 (n + 1) := by
  rw [BitVec.add_assoc, BitVec.add_comm 1#32, ofNat_succ32]

/-- The data bytes `D`: under XFER either the decoder gets to the end of the data, having decoded the counted bits, or it fails where `decodeFrom` fails. -/
theorem run_unpackLoop {rest : List Turn} {more : List Byte} (D : List Byte) :
    ∀ {s u : State}, UAt s (D ++ more) rest u (unpackLoop D.length u) →
      (∃ s' u' o, Emitted s s' o ∧ UAt s' more rest u' (unpackEnd u') ∧ s'.inCount = s.inCount + BitVec.ofNat 32 D.length ∧ u'.n = u.n ∧
        u'.nbytes = u.nbytes ∧ u'.bitcount = u.bitcount ∧
        u'.t.toNat = u.t.toNat + ((D.flatMap bitsOfByte).take (u.n.toNat - u.t.toNat)).length ∧
        ∀ R, decodeFrom s.tbl u.clen u.cand u.t.toNat ((D.flatMap bitsOfByte).take (u.n.toNat - u.t.toNat) ++ R) =
          { out := o ++ (decodeFrom s.tbl u'.clen u'.cand u'.t.toNat R).out, err := (decodeFrom s.tbl u'.clen u'.cand u'.t.toNat R).err }) ∨
      (∃ s' u' o e left, Emitted s s' o ∧ UAt s' left rest { u' with clen := 0#8 } (u', .fail e u'.t) ∧ u'.bitcount = u.bitcount ∧
        ∀ R, decodeFrom s.tbl u.clen u.cand u.t.toNat ((D.flatMap bitsOfByte).take (u.n.toNat - u.t.toNat) ++ R) =
          { out := o, err := some (e, u'.t.toNat) }) := by
  induction D with
  | nil =>
    intro s u ha
    exact .inl ⟨s, u, [], Emitted.refl s, ha, by simp, rfl, rfl, rfl, by simp, by intro R; simp⟩
  | cons b D ih =>
    intro s u ha
    obtain ⟨r, hm, hr⟩ := ha.run
    have hso := ha.same.outside
    have hreach := reaches_inByte (b := b) (more := D ++ more) (k := fun b => .unpack (.gotData b D.length)) ha.quiet hm hr
    set s1 : State := { u with
      inCount := s.inCount + 1#32, mode := .busy (.unpack (.gotData b D.length)), schedule := .xfer (D ++ more) :: rest } with hs1
    have hf1 : StreamFrame s s1 := by
      have := ha.same; unfold SameButUnpack at this
      unfold StreamFrame; rw [hs1]; rw [this]
    have he1 : Emitted s s1 [] := ⟨hreach, hf1, by simpa [hs1] using hso.taken, by simpa [hs1] using hso.outCount⟩
    have ha1 : UAt s1 (D ++ more) rest s1 (unpackBits b D.length 8 s1) :=
      { quiet := ⟨rfl, by rw [hs1]; exact hso.inSlot.trans ha.quiet.inSlot, by rw [hs1]; exact hso.outSlot.trans ha.quiet.outSlot,
          by rw [hs1]; exact hso.done.trans ha.quiet.done⟩
        run := ⟨_, rfl, rfl⟩, same := rfl, count := ha.count, small := ha.small, room := ha.room, bitpos := ha.bitpos }
    have hfl : ∀ m, ((b :: D).flatMap bitsOfByte).take m = (lowBitsByte b 8).take m ++ (D.flatMap bitsOfByte).take (m - 8) := by
      intro m; simp [List.flatMap_cons, List.take_append, lowBitsByte_eight, show (bitsOfByte b).length = 8 from length_lowBitsByte b 8]
    rcases run_unpackBits b D.length 8 ha1 with ⟨s2, u2, o, g1, g2, g3, g4, g5, g6, g7, g8⟩ | ⟨s2, u2, o, e, g1, g2, g3, g4, g5⟩
    · have g4' : u2.n = u.n := g4
      have g7' : u2.t.toNat = u.t.toNat + ((lowBitsByte b 8).take (u.n.toNat - u.t.toNat)).length := g7
      have hrem : u2.n.toNat - u2.t.toNat = u.n.toNat - u.t.toNat - 8 := by
        rw [g4', g7', List.length_take, length_lowBitsByte]; omega
      have key : ∀ R, decodeFrom s.tbl u.clen u.cand u.t.toNat (((b :: D).flatMap bitsOfByte).take (u.n.toNat - u.t.toNat) ++ R) =
          { out := o ++ (decodeFrom s2.tbl u2.clen u2.cand u2.t.toNat ((D.flatMap bitsOfByte).take (u2.n.toNat - u2.t.toNat) ++ R)).out
            err := (decodeFrom s2.tbl u2.clen u2.cand u2.t.toNat ((D.flatMap bitsOfByte).take (u2.n.toNat - u2.t.toNat) ++ R)).err } := by
        intro R
        rw [hfl, List.append_assoc, hrem, (he1.trans g1).frame.tbl]
        have := g8 ((D.flatMap bitsOfByte).take (u.n.toNat - u.t.toNat - 8) ++ R)
        rw [hf1.tbl] at this
        exact this
      rcases ih g2 with ⟨s3, u3, o3, k1, k2, k3, k4, k5, k6, k7, k8⟩ | ⟨s3, u3, o3, e, left, k1, k2, k3, k4⟩
      · refine .inl ⟨s3, u3, o ++ o3, he1.trans (g1.trans k1), k2, ?_, k4.trans g4', k5.trans g5, k6.trans g6, ?_, ?_⟩
        · rw [k3, g3, List.length_cons]; exact inCount_add s D.length
        · rw [k7, hrem, g7', hfl, List.length_append]; omega
        · intro R; rw [key R, k8 R, ((he1.trans g1).frame).tbl, List.append_assoc]
      · refine .inr ⟨s3, u3, o ++ o3, e, left, he1.trans (g1.trans k1), k2, k3.trans g6, ?_⟩
        intro R; rw [key R, k4 R]
    · refine .inr ⟨s2, u2, o, e, D ++ more, he1.trans g1, g2, g4, ?_⟩
      intro R
      rw [hfl, List.append_assoc]
      have := g5 ((D.flatMap bitsOfByte).take (u.n.toNat - u.t.toNat - 8) ++ R)
      rw [hf1.tbl] at this
      exact this

/-- The trailing bytes `T`: under XFER the decoder takes them and gets to its completion. -/
theorem run_unpackTail {rest : List Turn} {more : List Byte} (T : List Byte) :
    ∀ {s u : State}, UAt s (T ++ more) rest u (unpackTail T.length u) →
      ∃ s' u', Emitted s s' [] ∧ UAt s' more rest u' (u', .complete) ∧ s'.inCount = s.inCount + BitVec.ofNat 32 T.length ∧ u'.n = u.n ∧
        u'.t = u.t ∧ u'.bitcount = u.bitcount := by
  induction T with
  | nil =>
    intro s u ha
    exact ⟨s, u, Emitted.refl s, ha, by simp, rfl, rfl, rfl⟩
  | cons b T ih =>
    intro s u ha
    obtain ⟨r, hm, hr⟩ := ha.run
    have hso := ha.same.outside
    have hreach := reaches_inByte (b := b) (more := T ++ more) (k := fun _ => .unpack (.gotTail T.length)) ha.quiet hm hr
    set s1 : State := { u with
      inCount := s.inCount + 1#32, mode := .busy (.unpack (.gotTail T.length)), schedule := .xfer (T ++ more) :: rest } with hs1
    have hf1 : StreamFrame s s1 := by
      have := ha.same; unfold SameButUnpack at this
      unfold StreamFrame; rw [hs1]; rw [this]
    have he1 : Emitted s s1 [] := ⟨hreach, hf1, by simpa [hs1] using hso.taken, by simpa [hs1] using hso.outCount⟩
    have ha1 : UAt s1 (T ++ more) rest s1 (unpackTail T.length s1) :=
      { quiet := ⟨rfl, by rw [hs1]; exact hso.inSlot.trans ha.quiet.inSlot, by rw [hs1]; exact hso.outSlot.trans ha.quiet.outSlot,
          by rw [hs1]; exact hso.done.trans ha.quiet.done⟩
        run := ⟨_, rfl, rfl⟩, same := rfl, count := ha.count, small := ha.small, room := ha.room, bitpos := ha.bitpos }
    obtain ⟨s2, u2, g1, g2, g3, g4, g5, g6⟩ := ih ha1
    refine ⟨s2, u2, he1.trans g1, g2, ?_, g4, g5, g6⟩
    rw [g3, List.length_cons]; exact inCount_add s T.length

/-! ### The header -/

/-- The four header bytes: under XFER the decoder takes them and gets to its header checks. -/
theorem run_unpackStart {s : State} {h0 h1 h2 h3 : Byte} {more : List Byte} {rest : List Turn}
    (q : Quiet s (h0 :: h1 :: h2 :: h3 :: more) rest) (hm : s.mode = .busy (.unpack .start)) (hl : 4 ≤ s.lenL.toNat) :
    Reaches s { s with
      inCount := s.inCount + 4#32, mode := .busy (.unpack (.got3 h0 h1 h2 h3)), schedule := .xfer more :: rest } := by
  have e0 : programOf (.unpack .start) s = some (s, .inByte fun h0 => .unpack (.got0 h0)) := by
    show some (if s.lenL.toNat < 4 then _ else _) = _
    rw [if_neg (by omega)]
  have r0 := reaches_inByte q hm e0
  set s1 : State := { s with
    inCount := s.inCount + 1#32, mode := .busy (.unpack (.got0 h0)), schedule := .xfer (h1 :: h2 :: h3 :: more) :: rest } with hs1
  have q1 : Quiet s1 (h1 :: h2 :: h3 :: more) rest := ⟨rfl, q.inSlot, q.outSlot, q.done⟩
  have r1 := reaches_inByte (s := s1) (s' := s1) (r := .unpack (.got0 h0)) q1 rfl rfl
  set s2 : State := { s1 with
    inCount := s1.inCount + 1#32, mode := .busy (.unpack (.got1 h0 h1)), schedule := .xfer (h2 :: h3 :: more) :: rest } with hs2
  have q2 : Quiet s2 (h2 :: h3 :: more) rest := ⟨rfl, q.inSlot, q.outSlot, q.done⟩
  have r2 := reaches_inByte (s := s2) (s' := s2) (r := .unpack (.got1 h0 h1)) q2 rfl rfl
  set s3 : State := { s2 with
    inCount := s2.inCount + 1#32, mode := .busy (.unpack (.got2 h0 h1 h2)), schedule := .xfer (h3 :: more) :: rest } with hs3
  have q3 : Quiet s3 (h3 :: more) rest := ⟨rfl, q.inSlot, q.outSlot, q.done⟩
  have r3 := reaches_inByte (s := s3) (s' := s3) (r := .unpack (.got2 h0 h1 h2)) q3 rfl rfl
  have e : ({ s with
      inCount := s.inCount + 4#32, mode := .busy (.unpack (.got3 h0 h1 h2 h3)), schedule := .xfer more :: rest } : State) =
      { s3 with inCount := s3.inCount + 1#32, mode := .busy (.unpack (.got3 h0 h1 h2 h3)), schedule := .xfer more :: rest } := by
    simp only [hs3, hs2, hs1, BitVec.add_assoc]
    congr 1
  rw [e]
  exact r0.trans (r1.trans (r2.trans r3))

end Sys2Proof.Machine
end

