-- ==== Sys2Proof/Laws/Packed.lean ====
section
/-! SUPPORT. The packed format: the place of every bit, and reading the bits back (45_bit_packer.md R110, 30_encoding.md R67). -/

namespace Sys2Proof.Machine

theorem length_packBytes (B : List Bool) : (packBytes B).length = ceilDiv8 B.length := by
  have h := packBytes_append (B.length / 8) (B.take (8 * (B.length / 8))) (B.drop (8 * (B.length / 8))) (by simp; omega)
  rw [List.take_append_drop] at h
  rw [h, List.length_append, length_packBytes_whole (B.length / 8) _ (by simp; omega), packBytes_short (by simp; omega)]
  by_cases h0 : List.drop (8 * (B.length / 8)) B = []
  · rw [if_pos h0]
    have := congrArg List.length h0
    simp at this
    simp [ceilDiv8]; omega
  · rw [if_neg h0]
    have := List.length_pos_iff.2 h0
    simp at this
    simp [ceilDiv8]; omega

theorem getLsbD_pushByte_zero (c : Byte) (x : Bool) : (pushByte c x).getLsbD 0 = x := by
  cases x <;> simp [pushByte]

theorem getLsbD_pushByte_succ (c : Byte) (x : Bool) (i : Nat) (h : i + 1 < 8) : (pushByte c x).getLsbD (i + 1) = c.getLsbD i := by
  simp [pushByte]; omega

theorem getLsbD_foldl_pushByte (l : List Bool) : ∀ (c : Byte) (i : Nat), i < 8 →
    (l.foldl pushByte c).getLsbD i = if h : i < l.length then l[l.length - 1 - i] else c.getLsbD (i - l.length) := by
  induction l using List.reverseRecOn with
  | nil => intro c i hi; simp
  | append_singleton l x ih =>
    intro c i hi
    rw [List.foldl_append]
    simp only [List.foldl_cons, List.foldl_nil]
    cases i with
    | zero => rw [getLsbD_pushByte_zero]; simp
    | succ i =>
      rw [getLsbD_pushByte_succ _ _ _ hi, ih _ _ (by omega)]
      by_cases h : i < l.length
      · have : l.length - 1 - i < l.length := by omega
        simp [h, List.getElem_append]
        rw [dif_pos (by omega)]
        congr 1; omega
      · simp [h]

theorem getLsbD_byteOfBits (l : List Bool) (hl : l.length ≤ 8) (j : Nat) (hj : j < 8) : (byteOfBits l).getLsbD (7 - j) = l.getD j false := by
  unfold byteOfBits
  simp only [BitVec.getLsbD_shiftLeft]
  by_cases h : j < l.length
  · rw [getLsbD_foldl_pushByte _ _ _ (by omega)]
    have h2 : 7 - j - (8 - l.length) < l.length := by omega
    rw [dif_pos h2]
    simp only [h, List.getD_eq_getElem?_getD, List.getElem?_eq_getElem, Option.getD_some]
    have : l.length - 1 - (7 - j - (8 - l.length)) = j := by omega
    simp only [this]
    have h3 : ¬ (7 - j < 8 - l.length) := by omega
    simp [h3]; omega
  · simp [List.getD_eq_getElem?_getD, List.getElem?_eq_none (Nat.not_lt.1 h)]
    omega

/-- The place of every bit of the packed bytes; bits past the end are 0 (45_bit_packer.md R110). -/
theorem getLsbD_packBytes : ∀ (n : Nat) (B : List Bool), B.length ≤ n →
    ∀ j, ((packBytes B).getD (j / 8) 0#8).getLsbD (7 - j % 8) = B.getD j false := by
  intro n
  induction n with
  | zero =>
    intro B hB j
    have : B = [] := List.length_eq_zero_iff.1 (by omega)
    subst this; simp [packBytes]
  | succ n ih =>
    intro B hB j
    by_cases h8 : B.length < 8
    · rw [packBytes_short h8]
      split
      · rename_i h; subst h; simp
      · by_cases hj : j < 8
        · have e1 : j / 8 = 0 := by omega
          have e2 : j % 8 = j := by omega
          rw [e1, e2]; simp only [List.getD_cons_zero]
          exact getLsbD_byteOfBits _ (by omega) _ hj
        · have : 1 ≤ j / 8 := by omega
          simp [List.getD_eq_getElem?_getD, List.getElem?_eq_none (l := B) (i := j) (by omega), List.getElem?_eq_none (l := [byteOfBits B]) (i := j/8) (by simp; omega)]
    · have hsp := packBytes_append 1 (B.take 8) (B.drop 8) (by simp; omega)
      rw [List.take_append_drop] at hsp
      have h1 : packBytes (B.take 8) = [byteOfBits (B.take 8)] := by
        have := packBytes_eight (l := B.take 8) (by simp; omega) []
        simpa [packBytes] using this
      rw [hsp, h1]
      by_cases hj : j < 8
      · have e1 : j / 8 = 0 := by omega
        have e2 : j % 8 = j := by omega
        rw [e1, e2]; simp only [List.cons_append, List.getD_cons_zero]
        rw [getLsbD_byteOfBits _ (by simp) _ hj]
        simp [List.getD_eq_getElem?_getD, hj]
      · have e1 : j / 8 = (j - 8) / 8 + 1 := by omega
        have e2 : j % 8 = (j - 8) % 8 := by omega
        rw [e1, e2]; simp only [List.singleton_append, List.getD_cons_succ]
        rw [ih (B.drop 8) (by simp; omega)]
        simp [List.getD_eq_getElem?_getD, List.getElem?_drop, show 8 + (j - 8) = j by omega]

theorem getElem?_bitsOfByte (c : Byte) (i : Nat) (hi : i < 8) : (bitsOfByte c)[i]? = some (c.getLsbD (7 - i)) := by
  unfold bitsOfByte
  rw [List.getElem?_reverse (by simpa using hi)]
  simp [show 8 - 1 - i < 8 by omega]

theorem getElem?_flatMap_bitsOfByte (l : List Byte) (j : Nat) : (l.flatMap bitsOfByte)[j]? = (l[j/8]?).map (fun c => c.getLsbD (7 - j % 8)) := by
  induction l generalizing j with
  | nil => simp
  | cons c l ih =>
    rw [List.flatMap_cons]
    have h8 : (bitsOfByte c).length = 8 := by simp [bitsOfByte]
    by_cases hj : j < 8
    · rw [List.getElem?_append_left (by omega), getElem?_bitsOfByte _ _ hj]
      have e1 : j / 8 = 0 := by omega
      have e2 : j % 8 = j := by omega
      simp [e1, e2]
    · rw [List.getElem?_append_right (by omega), ih, h8]
      have e1 : j / 8 = (j - 8) / 8 + 1 := by omega
      have e2 : j % 8 = (j - 8) % 8 := by omega
      rw [e1, e2]; simp

/-- Reading the bits of the packed bytes gives the bits back. -/
theorem take_bits_packBytes (B : List Bool) : ((packBytes B).flatMap bitsOfByte).take B.length = B := by
  apply List.ext_getElem?
  intro j
  by_cases hj : j < B.length
  · rw [List.getElem?_take_of_lt hj, getElem?_flatMap_bitsOfByte]
    have hb := getLsbD_packBytes _ B (Nat.le_refl _) j
    have hl : j / 8 < (packBytes B).length := by rw [length_packBytes]; unfold ceilDiv8; omega
    rw [List.getElem?_eq_getElem hl, List.getElem?_eq_getElem hj]
    simp [List.getD_eq_getElem?_getD, List.getElem?_eq_getElem hl, List.getElem?_eq_getElem hj] at hb
    simp [hb]
  · rw [List.getElem?_eq_none (by simp; omega), List.getElem?_eq_none (by omega)]

theorem nbitsOf_lt (tbl : Vector Entry 256) (S : List Byte) (h : S.length < 2 ^ 32) : nbitsOf tbl S < 1099511627776 := by
  have : nbitsOf tbl S ≤ 255 * S.length := by
    clear h
    induction S with
    | nil => simp [nbitsOf]
    | cons b S ih =>
      have := (entryOf tbl b).len.isLt
      simp [nbitsOf] at ih ⊢; omega
  have h : S.length < 4294967296 := h
  omega

theorem length_bitsOf (tbl : Vector Entry 256) (S : List Byte) : (bitsOf tbl S).length = nbitsOf tbl S := by
  simp [bitsOf, nbitsOf, List.length_flatMap]

/-- The four header bytes put together again. -/
theorem headerByte_join (e : BitVec 40) : headerByte e 3 ++ headerByte e 2 ++ headerByte e 1 ++ headerByte e 0 = e.setWidth 32 := by
    unfold headerByte
    ext i hi
    simp only [BitVec.getElem_append, BitVec.getElem_extractLsb', BitVec.getElem_setWidth]
    by_cases h1 : i < 8
    · simp [h1]
    by_cases h2 : i < 16
    · rw [dif_neg (by omega), dif_pos (by omega)]; congr 1; omega
    by_cases h3 : i < 24
    · rw [dif_neg (by omega), dif_neg (by omega), dif_pos (by omega)]; congr 1; omega
    rw [dif_neg (by omega), dif_neg (by omega), dif_neg (by omega)]; congr 1; omega

end Sys2Proof.Machine
end

