-- ==== Sys2Proof/Laws/PerInstr.lean ====
section
/-! SUPPORT. One lemma per command: its word is legal and decodes to it, under both ways of decoding (30_encoding.md R62, R63). -/

namespace Sys2Proof.Laws.RoundTrip

/-- A command is well formed, its word passes both checks of a legal word, and the word decodes to the command, on the bus and from the opcode table. -/
def Statement (i : Instr) : Prop :=
  i.wf = true ∧ (CommandWord.ofWord (encode i)).wf = true ∧ decode (encode i) = .ok i ∧ decodeTableWord 32 (encode i).toNat = some i

theorem count : Statement .count := by unfold Statement; decide

theorem build : Statement .build := by unfold Statement; decide

theorem derive : Statement .derive := by unfold Statement; decide

theorem clrtab : Statement .clrtab := by unfold Statement; decide

theorem pack : Statement .pack := by unfold Statement; decide

theorem unpack : Statement .unpack := by unfold Statement; decide

end Sys2Proof.Laws.RoundTrip
end

