-- ==== Sys2Proof/Laws/Script.lean ====
section
/-! SUPPORT. The HOST's writes of a script, and COUNT under XFER (30_encoding.md R71, R72; 41_frequency_counter.md R85). -/

namespace Sys2Proof.Machine

/-! ### Scheduled writes -/

theorem step_write {s : State} {a : Addr} {v : Word} {l : List Turn} (h : s.schedule = .host (.write a v) :: l) :
    step s = hostWrite a v { s with schedule := l } := by
  simp only [step, takeTurn, h]
  rfl

/-- `SETLEN n` to an IDLE CORE. -/
theorem reaches_setLen {s : State} {n : Nat} {l : List Turn} (hm : s.mode = .idle) (h : s.schedule = wrTurn 0x001C n :: l) :
    Reaches s { s with len := BitVec.ofNat 32 n, schedule := l } := by
  refine reaches_step ?_ (Reaches.refl _)
  rw [step_write h]
  have hb : ({ s with schedule := l } : State).busy = false := (not_busy_iff _).2 hm
  have e : decodeAddr (BitVec.ofNat 16 0x001C) = .reg .len := by decide
  simp only [hostWrite, e, writeReg, writeLen, hb]
  rfl

/-- `CMD i` to an IDLE CORE. -/
theorem reaches_cmd {s : State} {i : Instr} {l : List Turn} (hm : s.mode = .idle)
    (h : s.schedule = wrTurn 0x000C (encode i).toNat :: l) : Reaches s (acceptCommand i { s with schedule := l }) := by
  refine reaches_step ?_ (Reaches.refl _)
  rw [step_write h]
  have e : decodeAddr (BitVec.ofNat 16 0x000C) = .reg .cmd := by decide
  have hw : BitVec.ofNat 32 (encode i).toNat = encode i := by simp
  simp only [hostWrite, e, writeReg, hw]
  exact writeCmd_idle hm (decode_encode i)

/-- `ACK`. -/
theorem reaches_ack {s : State} {l : List Turn} (h : s.schedule = wrTurn 0x0010 0x00000002 :: l) :
    Reaches s { s with done := false, schedule := l } := by
  refine reaches_step ?_ (Reaches.refl _)
  rw [step_write h]
  have e : decodeAddr (BitVec.ofNat 16 0x0010) = .reg .status := by decide
  have h1 : (BitVec.ofNat 32 0x00000002).getLsbD 1 = true := by decide
  have h3 : (BitVec.ofNat 32 0x00000002).getLsbD 3 = false := by decide
  simp only [hostWrite, e, writeReg, writeStatus, h1, h3]
  simp

/-- `SETLEN n; CMD i` to an IDLE CORE, then an XFER: the command is at its start, the HOST ready to serve it. -/
theorem reaches_start {s : State} {n : Nat} {i : Instr} {ins : List Byte} {rest : List Turn} (hm : s.mode = .idle)
    (h : s.schedule = wrTurn 0x001C n :: wrTurn 0x000C (encode i).toNat :: .xfer ins :: rest) :
    Reaches s (acceptCommand i { s with len := BitVec.ofNat 32 n, schedule := .xfer ins :: rest }) :=
  (reaches_setLen hm h).trans (reaches_cmd (s := { s with len := BitVec.ofNat 32 n, schedule := _ }) hm rfl)

/-- The accepted command with empty slots is served by the XFER. -/
theorem quiet_accept {s : State} {i : Instr} {ins : List Byte} {rest : List Turn} (h : s.schedule = .xfer ins :: rest)
    (hi : s.inSlot = none) (ho : s.outSlot = none) : Quiet (acceptCommand i s) ins rest := ⟨h, hi, ho, rfl⟩

/-! ### COUNT -/

/-- The counting of the bytes `S` in order. -/
def countAll (S : List Byte) (s : State) : State := S.foldl (fun u b => countByte b u) s

theorem countAll_outside (S : List Byte) (s : State) (i : Word) (m : Mode) (l : List Turn) :
    countAll S { s with inCount := i, mode := m, schedule := l } = { countAll S s with inCount := i, mode := m, schedule := l } := by
  induction S generalizing s with
  | nil => rfl
  | cons b S ih => exact ih (countByte b s)

/-- From the head of COUNT's loop with the bytes `S` to come: under XFER COUNT completes with all of them counted. -/
theorem run_countLoop {more : List Byte} {rest : List Turn} (S : List Byte) :
    ∀ {s u : State} {r : Running}, Quiet s (S ++ more) rest → s.mode = .busy r → programOf r s = some (countLoop S.length u) →
      Reaches s (hostRead Reg.status.offset { countAll S u with
        inCount := s.inCount + BitVec.ofNat 32 S.length, mode := .idle, done := true, schedule := rest }) := by
  induction S with
  | nil =>
    intro s u r q hm hr
    have := reaches_complete q hm hr
    have so := programOf_sameOutside hr
    have e : s.inCount + BitVec.ofNat 32 ([] : List Byte).length = u.inCount := by rw [so.inCount]; simp
    rw [e]
    exact this
  | cons b S ih =>
    intro s u r q hm hr
    have so := programOf_sameOutside hr
    have h1 := reaches_inByte (b := b) (more := S ++ more) (k := fun b => .count (.got b S.length)) q hm hr
    set s1 : State := { u with
      inCount := s.inCount + 1#32, mode := .busy (.count (.got b S.length)), schedule := .xfer (S ++ more) :: rest } with hs1
    have q1 : Quiet s1 (S ++ more) rest :=
      ⟨rfl, by rw [hs1]; exact so.inSlot.trans q.inSlot, by rw [hs1]; exact so.outSlot.trans q.outSlot, by rw [hs1]; exact so.done.trans q.done⟩
    have h2 := ih (s := s1) (u := countByte b s1) (r := .count (.got b S.length)) q1 rfl rfl
    have e : countAll S (countByte b s1) = { countAll S (countByte b u) with
        inCount := s1.inCount, mode := s1.mode, schedule := s1.schedule } :=
      countAll_outside S (countByte b u) s1.inCount s1.mode s1.schedule
    rw [e] at h2
    have ec : s1.inCount + BitVec.ofNat 32 S.length = s.inCount + BitVec.ofNat 32 (b :: S).length := by
      rw [hs1, List.length_cons, BitVec.ofNat_add, BitVec.add_assoc, BitVec.add_comm (BitVec.ofNat 32 S.length)]
    rw [ec] at h2
    exact h1.trans h2

/-- What counting `S` makes of a cleared FREQ. -/
theorem countAll_freq (S : List Byte) : ∀ (s : State) (b : Byte), ((countAll S s).freqOf b).toNat = ((s.freqOf b).toNat + S.count b) % 2 ^ 32 := by
  induction S with
  | nil => intro s b; have := (s.freqOf b).isLt; simp [countAll, Nat.mod_eq_of_lt this]
  | cons c S ih =>
    intro s b
    show ((countAll S (countByte c s)).freqOf b).toNat = _
    rw [ih]
    have : (countByte c s).freqOf b = if c = b then s.freqOf c + 1#32 else s.freqOf b := entryOf_setEntryOf s.freq c b _
    rw [this, List.count_cons]
    by_cases h : c = b
    · subst h; simp [BitVec.toNat_add]; omega
    · simp [h]

theorem countAll_keeps (S : List Byte) : ∀ (s : State), freqSum s.freq = s.total.toNat → (countedSymbols s.freq).length = s.nsym.toNat →
    s.total.toNat + S.length < 2 ^ 32 →
    freqSum (countAll S s).freq = (countAll S s).total.toNat ∧ (countedSymbols (countAll S s).freq).length = (countAll S s).nsym.toNat ∧
      (countAll S s).total.toNat = s.total.toNat + S.length := by
  induction S with
  | nil => intro s h1 h2 _; exact ⟨h1, h2, rfl⟩
  | cons b S ih =>
    intro s h1 h2 h3
    rw [List.length_cons] at h3
    have k := countByte_keeps b h1 h2 (by omega)
    have ht : (countByte b s).total.toNat = s.total.toNat + 1 := by simp [countByte, BitVec.toNat_add]; omega
    obtain ⟨a1, a2, a3⟩ := ih (countByte b s) k.1 k.2 (by omega)
    exact ⟨a1, a2, by rw [List.length_cons]; show (countAll S (countByte b s)).total.toNat = _; omega⟩

/-- Counting writes FREQ, NSYM and TOTAL, nothing else. -/
theorem countAll_same (S : List Byte) : ∀ s : State, countAll S s =
    { s with nsym := (countAll S s).nsym, freq := (countAll S s).freq, total := (countAll S s).total } := by
  induction S with
  | nil => intro s; rfl
  | cons b S ih =>
    intro s
    show countAll S (countByte b s) = { s with
      nsym := (countAll S (countByte b s)).nsym, freq := (countAll S (countByte b s)).freq, total := (countAll S (countByte b s)).total }
    rw [ih (countByte b s)]
    rfl

end Sys2Proof.Machine
end

