-- ==== Sys2Proof/Laws/Step.lean ====
section
/-! SUPPORT. What a step can do, said once: the elementary moves of the machine, and the preservation of a property by all of them. -/

namespace Sys2Proof.Machine

/-! ### The moves -/

/-- Everything a step that answers a next state can have done. -/
inductive StepMove (s : State) : State → Prop
  /-- Nothing but a turn of the schedule. -/
  | pass (l : List Turn) : StepMove s { s with schedule := l }
  /-- A core step that goes on: the statements from `cont`, then the point. -/
  | core (l : List Turn) (r : Running) (u : State) (p : Point) (hm : s.mode = .busy r)
    (hp : programOf r { s with schedule := l } = some (u, p)) (he : p.enabled s = true) : StepMove s (p.perform u)
  | write (a : Addr) (v : Word) (rest : List Turn) (t : State) (hs : s.schedule = .host (.write a v) :: rest)
    (hw : WriteMove a v { s with schedule := rest } t) : StepMove s t
  | read (w : Word) (l : List Turn) : StepMove s (deliverRead w { s with schedule := l })
  | offer (b : Byte) (l : List Turn) (hi : s.inSlot = none)
    (hs : (∃ rest, s.schedule = .host (.offer b) :: rest) ∨ ∃ more rest, s.schedule = .xfer (b :: more) :: rest) :
    StepMove s (offerByte b { s with schedule := l })
  | take (b : Byte) (l : List Turn) (ho : s.outSlot = some b) :
    StepMove s { s with schedule := l, outSlot := none, taken := s.taken ++ [b] }
  | reset (p : Presented) (rest : List Turn) (hs : s.schedule = .host (.reset p) :: rest) :
    StepMove s (resetEdge p { s with schedule := rest })

theorem coreTurn_move {s t : State} {l : List Turn} (h : coreTurn { s with schedule := l } = .next t) : StepMove s t := by
  unfold coreTurn at h
  dsimp only at h
  split at h
  · injection h with h; exact h ▸ .pass l
  · rename_i r hm
    rw [exec_running (s := { s with schedule := l }) hm] at h
    obtain ⟨u, p, hr, ⟨_, rfl⟩ | ⟨he, rfl⟩⟩ := coreStep_next h
    · exact .pass l
    · exact .core l r u p hm hr (by cases p <;> exact he)

theorem takeOutput_move {s : State} {l : List Turn} (h : s.outSlot.isSome = true) : StepMove s (takeOutput { s with schedule := l }) := by
  obtain ⟨b, hb⟩ := Option.isSome_iff_exists.1 h
  unfold takeOutput
  dsimp only
  rw [hb]
  exact .take b l hb

theorem same_schedule (s : State) : ({ s with schedule := s.schedule } : State) = s := rfl

/-- The case analysis of a whole step. -/
theorem step_move {s t : State} (h : step s = .next t) : StepMove s t := by
  unfold step takeTurn at h
  split at h
  · exact coreTurn_move (l := s.schedule) h
  · exact coreTurn_move h
  · rename_i op rest hs
    split at h
    · rename_i he
      cases op with
      | read a => simp only [hostStep] at h; injection h with h; exact h ▸ .read _ rest
      | write a v =>
        obtain ⟨u, hu, hw⟩ := hostWrite_move a v { s with schedule := rest }
        simp only [hostStep] at h
        rw [hu] at h; injection h with h
        exact .write a v rest t hs (h ▸ hw)
      | offer b =>
        simp only [hostStep] at h; injection h with h
        exact h ▸ .offer b rest (by simpa [HostOp.enabled] using he) (.inl ⟨rest, hs⟩)
      | take => simp only [hostStep] at h; injection h with h; exact h ▸ takeOutput_move he
      | reset p => simp only [hostStep] at h; injection h with h; exact h ▸ .reset p rest hs
    · exact coreTurn_move (l := s.schedule) h
  · rename_i ins rest hs
    unfold xferTurn at h
    split at h
    · rename_i ho; injection h with h; exact h ▸ takeOutput_move (l := s.schedule) ho
    · split at h
      · injection h with h; exact h ▸ .read _ rest
      · split at h
        · exact coreTurn_move (l := s.schedule) h
        · split at h
          · rename_i b more hi; injection h with h; exact h ▸ .offer b _ hi (.inr ⟨more, rest, hs⟩)
          · injection h with h; exact h ▸ .read _ s.schedule

/-! ### Preservation -/

/-- The elementary moves of the machine, one field for each way a step can change the state: a property each of them keeps is kept by every step. -/
structure KeptByMoves (P : State → Prop) : Prop where
  /-- A property of the machine does not look at the schedule. -/
  schedule : ∀ s l, P s → P { s with schedule := l }
  /-- A core step that goes on. -/
  core : ∀ s r s' p, P s → s.mode = .busy r → programOf r s = some (s', p) → p.enabled s = true → P (p.perform s')
  accept : ∀ s i, P s → s.mode = .idle → P (acceptCommand i s)
  illegal : ∀ s w, P s → s.mode = .idle → (∀ i, decode w ≠ .ok i) → P (acceptIllegal w s)
  reject : ∀ s, P s → s.busy = true → P (rejectWrite s)
  status : ∀ s v, P s → P (writeStatus v s)
  irqEn : ∀ s b, P s → P { s with irqEn := b }
  reset : ∀ s, P s → P (resetCore s)
  len : ∀ s v, P s → s.mode = .idle → P { s with len := v }
  table : ∀ s e w v, P s → s.mode = .idle → P { s with tbl := setEntryOf s.tbl e ((s.entry e).setWord w v), hdrValid := false }
  read : ∀ s w, P s → P (deliverRead w s)
  draw : ∀ s, P s → P { s with draws := s.draws + 1 }
  offer : ∀ s b, P s → s.inSlot = none → P (offerByte b s)
  take : ∀ s b, P s → s.outSlot = some b → P { s with outSlot := none, taken := s.taken ++ [b] }

variable {P : State → Prop}

theorem KeptByMoves.write (m : KeptByMoves P) {s t : State} {a : Addr} {v : Word} (hp : P s) (h : WriteMove a v s t) : P t := by
  cases h with
  | ignored => exact hp
  | accept i _ hm _ => exact m.accept s i hp hm
  | illegal e _ hm hd => exact m.illegal s v hp hm (fun i hi => by rw [hd] at hi; cases hi)
  | reject r _ hm => exact m.reject s hp ((busy_iff s).2 ⟨r, hm⟩)
  | status => exact m.status s v hp
  | irqEn => exact m.irqEn s _ hp
  | reset => exact m.reset s hp
  | len _ hm => exact m.len s v hp hm
  | table e w _ _ hm => exact m.table s e w v hp hm

/-- Every step keeps a property that every elementary move keeps. -/
theorem KeptByMoves.step (m : KeptByMoves P) {s t : State} (hp : P s) (h : step s = .next t) : P t := by
  cases step_move h with
  | pass l => exact m.schedule s l hp
  | core l r u p hm hr he => exact m.core _ r u p (m.schedule s l hp) hm hr (by cases p <;> exact he)
  | write a v rest t _ hw => exact m.write (m.schedule s rest hp) hw
  | read w l => exact m.read _ w (m.schedule s l hp)
  | offer b l hi _ => exact m.offer _ b (m.schedule s l hp) hi
  | take b l ho => exact m.take _ b (m.schedule s l hp) ho
  | reset p rest _ =>
    have h0 := m.schedule s rest hp
    cases p <;> simp only [resetEdge]
    case read a => exact m.read _ _ (m.reset _ (m.draw _ h0))
    all_goals exact m.reset _ h0

end Sys2Proof.Machine
end

