-- ==== Sys2Proof/Laws/Trace.lean ====
section
/-! SUPPORT. What one CORE step of COUNT, PACK and UNPACK does to the trace of the bytes it took, and that what they put out is a prefix of the artifact, or of what
`Decode` emits. -/

namespace Sys2Proof.Machine

theorem emitted_none {s : State} (h : s.outSlot = none) : s.emitted = s.taken := by simp [State.emitted, h]

theorem emitted_putOutput {s : State} (b : Byte) (k : Running) (h : s.outSlot = none) : (putOutput b k s).emitted = s.emitted ++ [b] := by
  simp [State.emitted, putOutput, h]

/-! ### What a trace looks at -/

/-- The trace of COUNT looks at these fields only. -/
theorem CountTrace.congr {S : List Byte} {s t : State} (h : CountTrace S s) (hm : t.mode = s.mode) (he : t.errcode = s.errcode) (hl : t.lenL = s.lenL)
    (hf : t.freq = s.freq) : CountTrace S t := by
  simp only [CountTrace, State.freqOf, hm, he, hl, hf] at h ⊢
  exact h

/-- The trace of PACK looks at these fields only. -/
theorem PackTrace.congr {base S : List Byte} {s t : State} (h : PackTrace base S s) (hm : t.mode = s.mode) (he : t.errcode = s.errcode)
    (hl : t.lenL = s.lenL) (hx : t.expbits = s.expbits) (ht : t.tbl = s.tbl) (ha : t.acc = s.acc) (hn : t.nacc = s.nacc) (hb : t.nb = s.nb)
    (ho : t.emitted = s.emitted) : PackTrace base S t := by
  simp only [PackTrace, PackedSoFar, State.entry, hm, he, hl, hx, ht, ha, hn, hb, ho] at h ⊢
  exact h

/-- The trace of UNPACK looks at these fields only. -/
theorem UnpackTrace.congr {base S : List Byte} {s t : State} (h : UnpackTrace base S s) (hm : t.mode = s.mode) (he : t.errcode = s.errcode)
    (hl : t.lenL = s.lenL) (ht : t.tbl = s.tbl) (hn : t.n = s.n) (hb : t.nbytes = s.nbytes) (hc : t.cand = s.cand) (hk : t.clen = s.clen) (hj : t.t = s.t)
    (ho : t.emitted = s.emitted) : UnpackTrace base S t := by
  simp only [UnpackTrace, DecodedSoFar, hm, he, hl, ht, hn, hb, hc, hk, hj, ho] at h ⊢
  exact h

theorem CountTrace.busy {S : List Byte} {s : State} (h : CountTrace S s) : s.mode ≠ .idle := fun hm => by
  simp only [CountTrace, hm] at h; exact h.2

theorem PackTrace.busy {base S : List Byte} {s : State} (h : PackTrace base S s) : s.mode ≠ .idle := fun hm => by
  simp only [PackTrace, hm] at h; exact h.2

theorem UnpackTrace.busy {base S : List Byte} {s : State} (h : UnpackTrace base S s) : s.mode ≠ .idle := fun hm => by
  simp only [UnpackTrace, hm] at h; exact h.2

theorem emitted_take {s : State} {l : List Turn} {b : Byte} (h : s.outSlot = some b) :
    ({ s with schedule := l, outSlot := none, taken := s.taken ++ [b] } : State).emitted = s.emitted := by
  simp [State.emitted, h]

/-! ### COUNT -/

theorem countByte_freq {s : State} {b : Byte} {S₀ : List Byte} (hf : ∀ c, (s.freqOf c).toNat = S₀.count c) (hl : S₀.length < 2 ^ 32 - 1) (c : Byte) :
    ((countByte b s).freqOf c).toNat = (S₀ ++ [b]).count c := by
  have hc : S₀.count c ≤ S₀.length := List.count_le_length
  unfold countByte State.freqOf
  dsimp only
  rw [entryOf_setEntryOf]
  split
  · rename_i h
    have hb := hf b
    unfold State.freqOf at hb
    subst h
    rw [BitVec.toNat_add, hb]
    simp at hl ⊢
    omega
  · rename_i h
    have := hf c
    unfold State.freqOf at this
    rw [this, List.count_append, List.count_singleton]
    simp [h]

theorem countLoop_trace {S : List Byte} {left : Nat} {s u : State} {p : Point} (h : countLoop left s = (u, p))
    (he : p.enabled s = true) (h0 : s.errcode = 0#8) (hl : S.length + left = s.lenL.toNat) (hf : ∀ c, (s.freqOf c).toNat = S.count c) :
    TraceStep CountTrace (CountOutcome s.lenL) S s (p.perform u) := by
  cases left with
  | zero => cases h; exact .inr (.inr ⟨rfl, rfl, rfl, h0, hl, hf⟩)
  | succ k =>
    cases h
    obtain ⟨b, hb⟩ := Option.isSome_iff_exists.1 he
    refine .inr (.inl ⟨b, hb, ?_⟩)
    simp only [Point.perform, hb]
    exact ⟨rfl, h0, S, rfl, by simp [takeInput]; omega, hf⟩

/-- What a CORE step of COUNT does to its trace. -/
theorem CountTrace.core {S : List Byte} {s u : State} {r : Running} {p : Point} (h : CountTrace S s) (hm : s.mode = .busy r)
    (hp : programOf r s = some (u, p)) (he : p.enabled s = true) :
    TraceStep CountTrace (CountOutcome s.lenL) S s (p.perform u) := by
  obtain ⟨h0, h⟩ := h
  rw [hm] at h
  cases r <;> try exact h.elim
  rename_i c
  have hp : countProgram c s = (u, p) := by simpa [programOf] using hp
  have hen : ∀ s' : State, s'.inSlot = s.inSlot → s'.outSlot = s.outSlot → p.enabled s' = true := by
    intro s' h1 h2; cases p <;> simpa [Point.enabled, h1, h2] using he
  cases c with
  | start =>
    have h : S = [] := h
    subst h
    exact countLoop_trace (s := countClear s) hp (hen _ rfl rfl) h0 (by simp [countClear]) (by intro c; simp [countClear, State.freqOf])
  | got b left =>
    obtain ⟨S₀, rfl, hl, hf⟩ := h
    have hlt : S₀.length < 2 ^ 32 - 1 := by
      have := s.lenL.isLt; simp at hl; omega
    exact countLoop_trace (s := countByte b s) hp (hen _ rfl rfl) h0 hl (countByte_freq hf hlt)

/-! ### Whole packed bytes -/

theorem take_packBytes (B : List Bool) : (packBytes B).take (B.length / 8) = packBytes (B.take (8 * (B.length / 8))) := by
  have hl : (B.take (8 * (B.length / 8))).length = 8 * (B.length / 8) := by simp; omega
  have h := packBytes_append (B.length / 8) (B.take (8 * (B.length / 8))) (B.drop (8 * (B.length / 8))) hl
  rw [List.take_append_drop] at h
  rw [h, List.take_append_of_le_length (by rw [length_packBytes_whole _ _ hl]), List.take_of_length_le (by rw [length_packBytes_whole _ _ hl])]

theorem take_packBytes_prefix (B X : List Bool) : (packBytes B).take (B.length / 8) <+: packBytes (B ++ X) := by
  rw [take_packBytes]
  have hl : (B.take (8 * (B.length / 8))).length = 8 * (B.length / 8) := by simp; omega
  refine ⟨packBytes (B.drop (8 * (B.length / 8)) ++ X), ?_⟩
  rw [← packBytes_append _ _ _ hl, ← List.append_assoc, List.take_append_drop]

theorem packBytes_whole_take {B : List Bool} (h : B.length % 8 = 0) : (packBytes B).take (B.length / 8) = packBytes B := by
  rw [take_packBytes, List.take_of_length_le (by omega)]

theorem packBytes_prefix {B : List Bool} (h : B.length % 8 = 0) (X : List Bool) : packBytes B <+: packBytes (B ++ X) := by
  rw [← packBytes_whole_take h]; exact take_packBytes_prefix B X

/-- All packed bytes: the whole ones, then the padded one if bits are left. -/
theorem packBytes_split (B : List Bool) : packBytes B = (packBytes B).take (B.length / 8) ++
    (if B.length % 8 = 0 then [] else [byteOfBits (B.drop (8 * (B.length / 8)))]) := by
  have hl : (B.take (8 * (B.length / 8))).length = 8 * (B.length / 8) := by simp; omega
  have h := packBytes_append (B.length / 8) (B.take (8 * (B.length / 8))) (B.drop (8 * (B.length / 8))) hl
  rw [List.take_append_drop] at h
  rw [take_packBytes, h]
  congr 1
  rw [packBytes_short (by simp; omega)]
  by_cases h0 : B.length % 8 = 0
  · rw [if_pos h0, if_pos (List.drop_eq_nil_of_le (by omega))]
  · rw [if_neg h0, if_neg]
    intro hd
    have := congrArg List.length hd
    simp at this; omega

/-! ### The packer -/

theorem PackedSoFar.push {base : List Byte} {B : List Bool} {s : State} (h : PackedSoFar base B s) (x : Bool) (hb : B.length + 1 < 2 ^ 40)
    (h7 : B.length % 8 < 7) : PackedSoFar base (B ++ [x]) (packBit x s) := by
  obtain ⟨h1, h2, h3, h4⟩ := h
  have e : (B ++ [x]).length / 8 = B.length / 8 := by simp; omega
  refine ⟨?_, ?_, ?_, ?_⟩
  · simp only [packBit, BitVec.toNat_add, h1, List.length_append, List.length_singleton]
    exact Nat.mod_eq_of_lt hb
  · simp only [packBit, BitVec.toNat_add, h2, List.length_append, List.length_singleton]
    simp; omega
  · rw [e, List.drop_append_of_le_length (by omega), List.foldl_append]
    simp [packBit, h3]
  · rw [e]
    have : (packBit x s).emitted = s.emitted := rfl
    rw [this, h4]
    congr 1
    rw [take_packBytes]
    have := take_packBytes (B ++ [x])
    rw [e, List.take_append_of_le_length (by omega)] at this
    exact this.symm

/-- The bit that fills a byte: the byte to put out is the next packed byte. -/
theorem PackedSoFar.full {base : List Byte} {B : List Bool} {s : State} (h : PackedSoFar base B s) (x : Bool) (hb : B.length + 1 < 2 ^ 40)
    (h7 : B.length % 8 = 7) : (packBit x s).nb.toNat = (B ++ [x]).length ∧
      s.emitted ++ [(packBit x s).acc] = base ++ headerOf s.expbits ++ packBytes (B ++ [x]) := by
  obtain ⟨h1, h2, h3, h4⟩ := h
  refine ⟨?_, ?_⟩
  · simp only [packBit, BitVec.toNat_add, h1, List.length_append, List.length_singleton]
    exact Nat.mod_eq_of_lt hb
  · have hl : (B.take (8 * (B.length / 8))).length = 8 * (B.length / 8) := by simp; omega
    have hp := packBytes_append (B.length / 8) (B.take (8 * (B.length / 8))) (B.drop (8 * (B.length / 8)) ++ [x]) hl
    rw [← List.append_assoc, List.take_append_drop] at hp
    have h8 : (B.drop (8 * (B.length / 8)) ++ [x]).length = 8 := by simp; omega
    have e := packBytes_eight h8 []
    rw [List.append_nil] at e
    rw [h4, hp, e, byteOfBits_eight h8, take_packBytes, List.append_assoc, List.append_assoc, List.append_assoc]
    simp [packBit, h3, packBytes]

/-- The code bits of an entry from bit `j - 1` down are its last `j` ones. -/
theorem bits_take_lowBits (e : Entry) (j : Nat) (h : j ≤ e.len.toNat) : e.bits = e.bits.take (e.len.toNat - j) ++ lowBits e.code j := by
  rw [bits_def]
  generalize e.len.toNat = l at *
  obtain ⟨k, rfl⟩ := Nat.exists_eq_add_of_le h
  have key : ∀ k, ∃ X, X.length = k ∧ lowBits e.code (j + k) = X ++ lowBits e.code j := by
    intro k
    induction k with
    | zero => exact ⟨[], rfl, rfl⟩
    | succ k ih =>
      obtain ⟨X, hX, h⟩ := ih
      exact ⟨e.code.getLsbD (j + k) :: X, by simp [hX], by rw [← Nat.add_assoc, lowBits_succ, h]; rfl⟩
  obtain ⟨X, hX, h⟩ := key k
  rw [h, show j + k - j = X.length by omega, List.take_left]

theorem bits_take_succ (e : Entry) (j : Nat) (h : j + 1 ≤ e.len.toNat) :
    e.bits.take (e.len.toNat - j) = e.bits.take (e.len.toNat - (j + 1)) ++ [e.code.getLsbD j] := by
  have h1 := bits_take_lowBits e (j + 1) h
  have hl : (e.bits.take (e.len.toNat - (j + 1))).length = e.len.toNat - (j + 1) := by simp
  conv_lhs => rw [h1]
  rw [List.take_append, hl, List.take_of_length_le (by omega), show e.len.toNat - j - (e.len.toNat - (j + 1)) = 1 by omega, lowBits_succ]
  rfl

@[simp] theorem packBit_tbl (x : Bool) (s : State) : (packBit x s).tbl = s.tbl := rfl
@[simp] theorem packBit_entry (x : Bool) (s : State) (b : Byte) : (packBit x s).entry b = s.entry b := rfl

theorem packCheck_trace {base S : List Byte} {s u : State} {p : Point} (h : packCheck s = (u, p)) (he : p.enabled s = true) (h0 : s.errcode = 0#8)
    (hl : S.length = s.lenL.toNat) (hu : ∀ c ∈ S, (s.entry c).usable = true) (hn : s.nb.toNat = nbitsOf s.tbl S)
    (hm : s.emitted = base ++ headerOf s.expbits ++ packBytes (bitsOf s.tbl S)) : 
    TraceStep (PackTrace base) (PackOutcome s.lenL base) S s (p.perform u) := by
  unfold packCheck at h
  split at h
  · rename_i hx
    cases h
    have ho : s.outSlot = none := by simpa [Point.enabled] using he
    rw [emitted_none ho] at hm
    refine .inr (.inr ⟨rfl, rfl, rfl, ho, .inr (.inr ⟨hu, hl, hm, fun _ => h0, fun hne => absurd (hn.symm.trans ?_) hne⟩)⟩)
    rw [hx]; rfl
  · rename_i hx
    cases h
    have ho : s.outSlot = none := by simpa [Point.enabled] using he
    rw [emitted_none ho] at hm
    refine .inr (.inr ⟨rfl, rfl, rfl, ho, .inr (.inr ⟨hu, hl, hm, fun heq => absurd (BitVec.eq_of_toNat_eq (hn.trans heq)) hx, fun _ => ⟨rfl, ?_⟩⟩)⟩)
    show s.nb.setWidth 32 = BitVec.ofNat 32 (nbitsOf s.tbl S)
    rw [← hn]
    apply BitVec.eq_of_toNat_eq
    simp

theorem packLoop_trace {base S : List Byte} {left : Nat} {s u : State} {p : Point} (h : packLoop left s = (u, p)) (he : p.enabled s = true)
    (h0 : s.errcode = 0#8) (hl : S.length + left = s.lenL.toNat) (hu : ∀ c ∈ S, (s.entry c).usable = true)
    (hp : PackedSoFar base (bitsOf s.tbl S) s) : TraceStep (PackTrace base) (PackOutcome s.lenL base) S s (p.perform u) := by
  cases left with
  | succ k =>
    cases h
    obtain ⟨b, hb⟩ := Option.isSome_iff_exists.1 he
    refine .inr (.inl ⟨b, hb, ?_⟩)
    simp only [Point.perform, hb]
    exact ⟨rfl, h0, S, rfl, by simp [takeInput]; omega, hu, hp⟩
  | zero =>
    obtain ⟨h1, h2, h3, h4⟩ := hp
    have h5 := packBytes_split (bitsOf s.tbl S)
    have hlb := length_bitsOf s.tbl S
    by_cases hz : s.nacc = 0#4
    · have h : packCheck s = (u, p) := by rw [← h]; exact (if_pos hz).symm
      have hz' : (bitsOf s.tbl S).length % 8 = 0 := by rw [← h2, hz]; rfl
      rw [packBytes_whole_take hz'] at h4
      exact packCheck_trace h he h0 hl hu (h1.trans hlb) h4
    · have h : (s, Point.outByte (s.acc <<< (8 - s.nacc.toNat)) (.pack .tail)) = (u, p) := by rw [← h]; exact (if_neg hz).symm
      cases h
      have ho : s.outSlot = none := by simpa [Point.enabled] using he
      have hz' : (bitsOf s.tbl S).length % 8 ≠ 0 := by
        intro hc; rw [← h2] at hc; exact hz (BitVec.eq_of_toNat_eq (by simpa using hc))
      refine .inl ⟨.inr rfl, h0, hl, hu, h1.trans hlb, ?_⟩
      show (putOutput _ _ s).emitted = base ++ headerOf s.expbits ++ packBytes (bitsOf s.tbl S)
      rw [emitted_putOutput _ _ ho, h4]
      conv_rhs => rw [h5, if_neg hz']
      simp only [List.append_assoc]
      congr 3
      rw [h2, h3]
      unfold byteOfBits
      congr 2
      simp; omega

theorem packBits_trace {base S₀ : List Byte} {b : Byte} {left : Nat} (j : Nat) : ∀ {s u : State} {p : Point}, packBits b left j s = (u, p) →
    p.enabled s = true → s.errcode = 0#8 → (S₀ ++ [b]).length + left = s.lenL.toNat → (∀ c ∈ S₀ ++ [b], (s.entry c).usable = true) →
    j ≤ (s.entry b).len.toNat → PackedSoFar base (bitsOf s.tbl S₀ ++ (s.entry b).bits.take ((s.entry b).len.toNat - j)) s →
    TraceStep (PackTrace base) (PackOutcome s.lenL base) (S₀ ++ [b]) s (p.perform u) := by
  induction j with
  | zero =>
    intro s u p h he h0 hl hu hj hp
    refine packLoop_trace h he h0 hl hu ?_
    have e : bitsOf s.tbl (S₀ ++ [b]) = bitsOf s.tbl S₀ ++ (s.entry b).bits.take ((s.entry b).len.toNat - 0) := by
      rw [Nat.sub_zero, List.take_of_length_le (by simp)]; simp [bitsOf, State.entry]
    rw [e]; exact hp
  | succ j ih =>
    intro s u p h he h0 hl hu hj hp
    have hcap : (bitsOf s.tbl S₀ ++ (s.entry b).bits.take ((s.entry b).len.toNat - (j + 1))).length + 1 < 2 ^ 40 := by
      have h1 := nbitsOf_lt s.tbl (S₀ ++ [b]) (by have := s.lenL.isLt; omega)
      have h2 := length_bitsOf s.tbl S₀
      have h3 : nbitsOf s.tbl (S₀ ++ [b]) = nbitsOf s.tbl S₀ + (s.entry b).len.toNat := by simp [nbitsOf, State.entry]
      simp only [List.length_append, List.length_take, length_bits, h2]
      omega
    have hbits := bits_take_succ (s.entry b) j hj
    simp only [packBits] at h
    by_cases h7 : (bitsOf s.tbl S₀ ++ (s.entry b).bits.take ((s.entry b).len.toNat - (j + 1))).length % 8 = 7
    · have h8 : (packBit ((s.entry b).code.getLsbD j) s).nacc = 8#4 := by
        apply BitVec.eq_of_toNat_eq
        simp only [packBit, BitVec.toNat_add, hp.2.1, h7]; rfl
      rw [if_pos h8] at h
      cases h
      obtain ⟨g1, g2⟩ := hp.full ((s.entry b).code.getLsbD j) hcap h7
      have ho : s.outSlot = none := by simpa [Point.enabled] using he
      have hB : bitsOf s.tbl S₀ ++ (s.entry b).bits.take ((s.entry b).len.toNat - (j + 1)) ++ [(s.entry b).code.getLsbD j] =
          bitsOf s.tbl S₀ ++ (s.entry b).bits.take ((s.entry b).len.toNat - j) := by rw [hbits, List.append_assoc]
      rw [hB] at g1 g2
      refine .inl ⟨.inr rfl, h0, S₀, rfl, hl, hu, show j < (s.entry b).len.toNat by omega, _, rfl, ?_, g1, ?_⟩
      · show (bitsOf s.tbl S₀ ++ (s.entry b).bits.take ((s.entry b).len.toNat - j)).length % 8 = 0
        rw [← hB, List.length_append, List.length_singleton]; omega
      · show (putOutput _ _ (packBit _ s)).emitted = _
        rw [emitted_putOutput _ _ (show (packBit _ s).outSlot = none from ho)]
        exact g2
    · have hlt : (bitsOf s.tbl S₀ ++ (s.entry b).bits.take ((s.entry b).len.toNat - (j + 1))).length % 8 < 7 := by omega
      have h8 : (packBit ((s.entry b).code.getLsbD j) s).nacc ≠ 8#4 := by
        intro hc
        have := congrArg BitVec.toNat hc
        simp only [packBit, BitVec.toNat_add, hp.2.1] at this
        simp at this hlt; omega
      rw [if_neg h8] at h
      have hp1 := hp.push ((s.entry b).code.getLsbD j) hcap hlt
      rw [List.append_assoc, ← hbits] at hp1
      exact ih (s := packBit ((s.entry b).code.getLsbD j) s) h (by cases p <;> exact he) h0 hl hu (by simp; omega) hp1

/-- What a CORE step of PACK does to its trace. -/
theorem PackTrace.core {base S : List Byte} {s u : State} {r : Running} {p : Point} (h : PackTrace base S s) (hm : s.mode = .busy r)
    (hp : programOf r s = some (u, p)) (he : p.enabled s = true) : TraceStep (PackTrace base) (PackOutcome s.lenL base) S s (p.perform u) := by
  obtain ⟨h0, h⟩ := h
  rw [hm] at h
  cases r <;> try exact h.elim
  rename_i c
  replace hp : packProgram c s = (u, p) := by simpa [programOf] using hp
  cases c with
  | start =>
    obtain ⟨rfl, hb⟩ := h
    simp only [packProgram, packStart] at hp
    split at hp
    · cases hp
      have ho : s.outSlot = none := by simpa [Point.enabled] using he
      exact .inr (.inr ⟨rfl, rfl, rfl, ho, .inl ⟨rfl, (emitted_none ho).symm.trans hb, .inl rfl⟩⟩)
    · split at hp
      · cases hp
        have ho : s.outSlot = none := by simpa [Point.enabled] using he
        exact .inr (.inr ⟨rfl, rfl, rfl, ho, .inl ⟨rfl, (emitted_none ho).symm.trans hb, .inr (.inl rfl)⟩⟩)
      · split at hp
        · cases hp
          have ho : s.outSlot = none := by simpa [Point.enabled] using he
          exact .inr (.inr ⟨rfl, rfl, rfl, ho, .inl ⟨rfl, (emitted_none ho).symm.trans hb, .inr (.inr rfl)⟩⟩)
        · rename_i hl _ _
          cases hp
          have ho : s.outSlot = none := by simpa [Point.enabled] using he
          refine .inl ⟨.inr rfl, h0, rfl, by omega, by omega, hl, ?_⟩
          show (putOutput _ _ _).emitted = _
          rw [emitted_putOutput _ _ (by exact ho)]
          show s.emitted ++ _ = _
          rw [hb]; rfl
  | hdr k =>
    obtain ⟨rfl, h1, h4, hl, hb⟩ := h
    simp only [packProgram] at hp
    split at hp
    · rename_i hk
      cases hp
      have ho : s.outSlot = none := by simpa [Point.enabled] using he
      refine .inl ⟨.inr rfl, h0, rfl, by omega, by omega, hl, ?_⟩
      show (putOutput _ _ s).emitted = base ++ (headerOf s.expbits).take (k + 1)
      rw [emitted_putOutput _ _ ho, hb]
      have : k = 1 ∨ k = 2 ∨ k = 3 := by omega
      rcases this with rfl | rfl | rfl <;> simp [headerOf]
    · have hk : k = 4 := by omega
      subst hk
      refine packLoop_trace (base := base) (S := []) (s := { s with acc := 0#8, nacc := 0#4, nb := 0#40 }) hp (by cases p <;> exact he) h0 (by simp) (by simp) ?_
      refine ⟨rfl, rfl, by simp [bitsOf], ?_⟩
      show s.emitted = _
      rw [hb]; simp [bitsOf, packBytes, headerOf]
  | got b left =>
    obtain ⟨S₀, rfl, hl, hu, hpk⟩ := h
    simp only [packProgram] at hp
    split at hp
    · rename_i hub
      refine packBits_trace _ hp he h0 hl ?_ (Nat.le_refl _) (by simpa using hpk)
      intro c hc
      rcases List.mem_append.1 hc with hc | hc
      · exact hu c hc
      · simp at hc; exact hc ▸ hub
    · rename_i hub
      cases hp
      have ho : s.outSlot = none := by simpa [Point.enabled] using he
      refine .inr (.inr ⟨rfl, rfl, rfl, ho, .inr (.inl ⟨S₀, b, rfl, hu, (Bool.not_eq_true _).mp hub, rfl, rfl, ?_⟩)⟩)
      show s.taken = _
      rw [← emitted_none ho, hpk.2.2.2, length_bitsOf]
      rfl
  | bits b j left =>
    obtain ⟨S₀, rfl, hl, hu, hj, B, hB, h8, hn, hb⟩ := h
    refine packBits_trace (s := { s with acc := 0#8, nacc := 0#4 }) j hp (by cases p <;> exact he) h0 hl hu (Nat.le_of_lt hj) ?_
    show PackedSoFar base (bitsOf s.tbl S₀ ++ (s.entry b).bits.take ((s.entry b).len.toNat - j)) _
    rw [← hB]
    refine ⟨hn, by rw [h8]; rfl, ?_, ?_⟩
    · rw [List.drop_eq_nil_of_le (by omega)]; rfl
    · rw [packBytes_whole_take h8]; exact hb
  | tail =>
    obtain ⟨hl, hu, hn, hb⟩ := h
    exact packCheck_trace hp he h0 hl hu hn hb

/-- What PACK has put out is a prefix of the artifact of the bytes it took. -/
theorem PackTrace.prefix {base S : List Byte} {s : State} (h : PackTrace base S s) :
    s.emitted <+: base ++ headerOf s.expbits ++ packBytes (bitsOf s.tbl S) := by
  obtain ⟨_, h⟩ := h
  have hbits : ∀ S₀ b, bitsOf s.tbl (S₀ ++ [b]) = bitsOf s.tbl S₀ ++ (s.entry b).bits := by intro S₀ b; simp [bitsOf, State.entry]
  rcases hm : s.mode with _ | r
  · rw [hm] at h; exact h.elim
  · rw [hm] at h
    cases r <;> try exact h.elim
    rename_i c
    cases c with
    | start => obtain ⟨rfl, hb⟩ := h; rw [hb, List.append_assoc]; exact List.prefix_append _ _
    | hdr k =>
      obtain ⟨rfl, _, _, _, hb⟩ := h
      rw [hb]
      exact ((List.prefix_append_right_inj base).2 (List.take_prefix _ _)).trans (List.prefix_append _ _)
    | got b left =>
      obtain ⟨S₀, rfl, _, _, hp⟩ := h
      rw [hp.2.2.2, List.prefix_append_right_inj, hbits]
      exact take_packBytes_prefix _ _
    | bits b j left =>
      obtain ⟨S₀, rfl, _, _, hj, B, hB, h8, _, hb⟩ := h
      rw [hb, List.prefix_append_right_inj, hbits, bits_take_lowBits (s.entry b) j (Nat.le_of_lt hj), ← List.append_assoc, ← hB]
      exact packBytes_prefix h8 _
    | tail => obtain ⟨_, _, _, hb⟩ := h; rw [hb]

/-! ### UNPACK -/

theorem HeaderThen.snoc {n lenL : Word} {S D : List Byte} (h : HeaderThen n lenL S D) (b : Byte) : HeaderThen n lenL (S ++ [b]) (D ++ [b]) := by
  obtain ⟨h0, h1, h2, h3, rfl, h⟩ := h
  exact ⟨h0, h1, h2, h3, rfl, h⟩

theorem HeaderThen.length {n lenL : Word} {S D : List Byte} (h : HeaderThen n lenL S D) : S.length = D.length + 4 := by
  obtain ⟨h0, h1, h2, h3, rfl, h⟩ := h; rfl

theorem HeaderThen.small {n lenL : Word} {S D : List Byte} (h : HeaderThen n lenL S D) : n.toNat < 2 ^ 31 := by
  obtain ⟨h0, h1, h2, h3, rfl, _, h, _⟩ := h; exact h

theorem HeaderThen.room {n lenL : Word} {S D : List Byte} (h : HeaderThen n lenL S D) : 4 + ceilDiv8 n.toNat ≤ lenL.toNat := by
  obtain ⟨h0, h1, h2, h3, rfl, _, _, h⟩ := h; exact h

theorem HeaderThen.unique {n m lenL : Word} {S D E : List Byte} (h : HeaderThen n lenL S D) (h' : HeaderThen m lenL S E) : m = n ∧ E = D := by
  obtain ⟨h0, h1, h2, h3, rfl, rfl, _⟩ := h
  obtain ⟨k0, k1, k2, k3, e, rfl, _⟩ := h'
  simp only [List.cons.injEq] at e
  obtain ⟨rfl, rfl, rfl, rfl, rfl⟩ := e
  exact ⟨rfl, rfl⟩

theorem length_flatMap_bitsOfByte (D : List Byte) : (D.flatMap bitsOfByte).length = 8 * D.length := by
  induction D with
  | nil => rfl
  | cons b D ih => rw [List.flatMap_cons, List.length_append, ih, show (bitsOfByte b).length = 8 from length_lowBitsByte b 8]; simp; omega

/-! ### The ends -/

/-- What has been put out and how `Decode` stands once all the counted bits of `D` are consumed. -/
structure AllDecoded (base D : List Byte) (s : State) : Prop where
  err : (decodeBits s.tbl ((D.flatMap bitsOfByte).take s.n.toNat)).err = none
  out : s.emitted = base ++ (decodeBits s.tbl ((D.flatMap bitsOfByte).take s.n.toNat)).out

theorem unpackTail_trace {base S D : List Byte} {left : Nat} {s u : State} {p : Point} (h : unpackTail left s = (u, p)) (he : p.enabled s = true)
    (h0 : s.errcode = 0#8) (hh : HeaderThen s.n s.lenL S D) (hc : ceilDiv8 s.n.toNat ≤ D.length) (hl : S.length + left = s.lenL.toNat)
    (hd : AllDecoded base D s) : TraceStep (UnpackTrace base) (UnpackOutcome s.lenL base) S s (p.perform u) := by
  cases left with
  | zero =>
    cases h
    have ho : s.outSlot = none := by simpa [Point.enabled] using he
    exact .inr (.inr ⟨rfl, rfl, rfl, ho, .inr (.inr (.inl ⟨s.n, D, hh, hl, h0, hd.err, (emitted_none ho).symm.trans hd.out⟩))⟩)
  | succ k =>
    cases h
    obtain ⟨b, hb⟩ := Option.isSome_iff_exists.1 he
    refine .inr (.inl ⟨b, hb, ?_⟩)
    simp only [Point.perform, hb]
    have e : (((D ++ [b]).flatMap bitsOfByte).take s.n.toNat) = (D.flatMap bitsOfByte).take s.n.toNat := by
      rw [List.flatMap_append, List.take_append_of_le_length]
      rw [length_flatMap_bitsOfByte]; unfold ceilDiv8 at hc; omega
    refine ⟨rfl, h0, D ++ [b], hh.snoc b, ?_, ?_, ?_, ?_⟩
    · simp; show ceilDiv8 s.n.toNat ≤ _; omega
    · simp [takeInput]; omega
    · show (decodeBits s.tbl (((D ++ [b]).flatMap bitsOfByte).take s.n.toNat)).err = none
      rw [e]; exact hd.err
    · show s.emitted = base ++ (decodeBits s.tbl (((D ++ [b]).flatMap bitsOfByte).take s.n.toNat)).out
      rw [e]; exact hd.out

/-- The CORE fails where `Decode` does. -/
theorem fail_trace {base S D : List Byte} {u : State} {e : ErrCode} {k : Nat} {lenL : Word} {B : List Bool} {out : List Byte} (ho : u.outSlot = none)
    (hh : HeaderThen u.n lenL S D) (hc : D.length ≤ ceilDiv8 u.n.toNat) (hm : u.emitted = base ++ out) (ht : u.t = BitVec.ofNat 32 k)
    (hB : ∀ E, (D ++ E).length = ceilDiv8 u.n.toNat → ∃ R, ((D ++ E).flatMap bitsOfByte).take u.n.toNat = B ++ R)
    (hd : ∀ E, (D ++ E).length = ceilDiv8 u.n.toNat → ∀ R, ((D ++ E).flatMap bitsOfByte).take u.n.toNat = B ++ R →
      decodeBits u.tbl (B ++ R) = { out := out, err := some (e, k) }) :
    UnpackOutcome lenL base S ((Point.fail e u.t).perform u) := by
  refine ⟨rfl, rfl, ho, .inr (.inr (.inr ⟨u.n, D, e, k, hh, hc, rfl, ht, fun E hE => ?_⟩))⟩
  obtain ⟨R, hR⟩ := hB E hE
  have := hd E hE R hR
  rw [hR]
  exact ⟨congrArg Decoded.err this, by
    show u.taken = base ++ (decodeBits u.tbl (B ++ R)).out
    rw [this, ← emitted_none ho, hm]⟩

theorem unpackEnd_trace {base S D : List Byte} {s u : State} {p : Point} (h : unpackEnd s = (u, p)) (he : p.enabled s = true)
    (h0 : s.errcode = 0#8) (hh : HeaderThen s.n s.lenL S D) (hb : s.nbytes.toNat = ceilDiv8 s.n.toNat) (hD : D.length = ceilDiv8 s.n.toNat)
    (hd : DecodedSoFar base ((D.flatMap bitsOfByte).take s.n.toNat) s.clen s.cand s) :
    TraceStep (UnpackTrace base) (UnpackOutcome s.lenL base) S s (p.perform u) := by
  obtain ⟨ht, _, out, ho, hd⟩ := hd
  have hroom := hh.room
  have hlen := hh.length
  have hnil := hd []
  rw [List.append_nil] at hnil
  unfold unpackEnd at h
  split at h
  · rename_i hc
    refine unpackTail_trace (D := D) h he h0 hh (Nat.le_of_eq hD.symm) (by rw [hb]; omega) ⟨?_, ?_⟩
    · rw [hnil, hc]; rfl
    · rw [hnil, ho, hc]; simp [decodeFrom]
  · rename_i hc
    cases h
    have hos : s.outSlot = none := by simpa [Point.enabled] using he
    refine .inr (.inr ⟨rfl, fail_trace (k := ((D.flatMap bitsOfByte).take s.n.toNat).length) (B := (D.flatMap bitsOfByte).take s.n.toNat)
      (out := out) hos hh (Nat.le_of_eq hD) ho ?_ ?_ ?_⟩)
    · rw [← ht]; simp
    · intro E hE
      have : E = [] := List.length_eq_zero_iff.1 (by rw [List.length_append] at hE; omega)
      subst this; exact ⟨[], by simp⟩
    · intro E hE R hR
      have : E = [] := List.length_eq_zero_iff.1 (by rw [List.length_append] at hE; omega)
      subst this
      rw [List.append_nil] at hR
      have : R = [] := by simpa using hR
      subst this
      rw [List.append_nil, hnil]
      simp [decodeFrom, hc]

theorem unpackLoop_trace {base S D : List Byte} {left : Nat} {s u : State} {p : Point} (h : unpackLoop left s = (u, p)) (he : p.enabled s = true)
    (h0 : s.errcode = 0#8) (hh : HeaderThen s.n s.lenL S D) (hb : s.nbytes.toNat = ceilDiv8 s.n.toNat) (hD : D.length + left = ceilDiv8 s.n.toNat)
    (hd : DecodedSoFar base ((D.flatMap bitsOfByte).take s.n.toNat) s.clen s.cand s) :
    TraceStep (UnpackTrace base) (UnpackOutcome s.lenL base) S s (p.perform u) := by
  cases left with
  | zero => exact unpackEnd_trace h he h0 hh hb hD hd
  | succ k =>
    cases h
    obtain ⟨b, hb'⟩ := Option.isSome_iff_exists.1 he
    refine .inr (.inl ⟨b, hb', ?_⟩)
    simp only [Point.perform, hb']
    have e : (D.flatMap bitsOfByte).take s.n.toNat = D.flatMap bitsOfByte := by
      apply List.take_of_length_le
      rw [length_flatMap_bitsOfByte]; unfold ceilDiv8 at hD; omega
    rw [e] at hd
    exact ⟨rfl, h0, D, hh.snoc b, hb, show D.length + 1 + k = ceilDiv8 s.n.toNat by omega, hd⟩

/-- The counted bits of `D` and the first `m` bits of `b`. -/
theorem take_bits_snoc (D E : List Byte) (b : Byte) (m n : Nat) (hm : m ≤ 8) (hn : 8 * D.length + m ≤ n) :
    ∃ R, ((D ++ [b] ++ E).flatMap bitsOfByte).take n = D.flatMap bitsOfByte ++ (bitsOfByte b).take m ++ R := by
  have h8 : (bitsOfByte b).length = 8 := length_lowBitsByte b 8
  have hp : D.flatMap bitsOfByte ++ (bitsOfByte b).take m <+: ((D ++ [b] ++ E).flatMap bitsOfByte).take n := by
    rw [List.prefix_take_iff]
    refine ⟨?_, by rw [List.length_append, length_flatMap_bitsOfByte]; simp; omega⟩
    rw [List.flatMap_append, List.flatMap_append]
    refine List.IsPrefix.trans ?_ (List.prefix_append _ _)
    rw [List.prefix_append_right_inj]
    simpa using List.take_prefix m (bitsOfByte b)
  obtain ⟨R, hR⟩ := hp
  exact ⟨R, hR.symm⟩

theorem bitsOfByte_take (b : Byte) (k : Nat) (hk : k < 8) : (bitsOfByte b).take (8 - k) = (bitsOfByte b).take (8 - (k + 1)) ++ [b.getLsbD k] := by
  have key : ∀ k < 8, (bitsOfByte b).take (8 - k) = (bitsOfByte b).take (8 - (k + 1)) ++ [b.getLsbD k] := by
    intro k hk
    have : k = 0 ∨ k = 1 ∨ k = 2 ∨ k = 3 ∨ k = 4 ∨ k = 5 ∨ k = 6 ∨ k = 7 := by omega
    rcases this with rfl | rfl | rfl | rfl | rfl | rfl | rfl | rfl <;> rfl
  exact key k hk

theorem unpackBits_trace {base S D : List Byte} {b : Byte} {left : Nat} (k : Nat) : ∀ {s u : State} {p : Point}, unpackBits b left k s = (u, p) →
    p.enabled s = true → s.errcode = 0#8 → HeaderThen s.n s.lenL S (D ++ [b]) → s.nbytes.toNat = ceilDiv8 s.n.toNat →
    D.length + 1 + left = ceilDiv8 s.n.toNat → k ≤ 8 →
    DecodedSoFar base ((D.flatMap bitsOfByte ++ (bitsOfByte b).take (8 - k)).take s.n.toNat) s.clen s.cand s →
    TraceStep (UnpackTrace base) (UnpackOutcome s.lenL base) S s (p.perform u) := by
  induction k with
  | zero =>
    intro s u p h he h0 hh hb hD hk hd
    refine unpackLoop_trace (D := D ++ [b]) h he h0 hh hb (by simpa using hD) ?_
    have : (D ++ [b]).flatMap bitsOfByte = D.flatMap bitsOfByte ++ (bitsOfByte b).take (8 - 0) := by
      rw [List.take_of_length_le (by rw [show (bitsOfByte b).length = 8 from length_lowBitsByte b 8])]; simp
    rw [this]; exact hd
  | succ k ih =>
    intro s u p h he h0 hh hb hD hk hd
    have h8 : (bitsOfByte b).length = 8 := length_lowBitsByte b 8
    have hsm := hh.small
    have hbits := bitsOfByte_take b k (by omega)
    have hlD := length_flatMap_bitsOfByte D
    simp only [unpackBits] at h
    have hlen : (D.flatMap bitsOfByte ++ (bitsOfByte b).take (8 - (k + 1))).length = 8 * D.length + (8 - (k + 1)) := by
      rw [List.length_append, hlD, List.length_take, h8]; omega
    obtain ⟨ht, hc, out, ho, hdec⟩ := hd
    by_cases hlt : s.t.toNat < s.n.toNat
    · rw [if_pos hlt] at h
      have hfull : (D.flatMap bitsOfByte ++ (bitsOfByte b).take (8 - (k + 1))).length < s.n.toNat := by
        rw [List.length_take] at ht; omega
      have e1 : (D.flatMap bitsOfByte ++ (bitsOfByte b).take (8 - (k + 1))).take s.n.toNat = D.flatMap bitsOfByte ++ (bitsOfByte b).take (8 - (k + 1)) :=
        List.take_of_length_le (by omega)
      rw [e1] at ht hdec
      have e2 : (D.flatMap bitsOfByte ++ (bitsOfByte b).take (8 - k)).take s.n.toNat =
          D.flatMap bitsOfByte ++ (bitsOfByte b).take (8 - (k + 1)) ++ [b.getLsbD k] := by
        rw [hbits, ← List.append_assoc, List.take_of_length_le (by rw [List.length_append, List.length_singleton]; omega)]
      generalize hBdef : D.flatMap bitsOfByte ++ (bitsOfByte b).take (8 - (k + 1)) = B at *
      have htt : (s.t + 1#32).toNat = B.length + 1 := by rw [BitVec.toNat_add, ht]; simp; omega
      have hcc := toNat_succ8 (c := s.clen) (by omega)
      have hBx : ∀ E, (D ++ [b] ++ E).length = ceilDiv8 s.n.toNat → ∃ R, ((D ++ [b] ++ E).flatMap bitsOfByte).take s.n.toNat = (B ++ [b.getLsbD k]) ++ R := by
        intro E _
        obtain ⟨R, hR⟩ := take_bits_snoc D E b (8 - k) s.n.toNat (by omega) (by omega)
        exact ⟨R, by rw [hR, hbits, ← List.append_assoc, hBdef]⟩
      have hstep : ∀ R, decodeBits s.tbl (B ++ [b.getLsbD k] ++ R) =
          { out := out ++ (decodeFrom s.tbl s.clen s.cand B.length (b.getLsbD k :: R)).out
            err := (decodeFrom s.tbl s.clen s.cand B.length (b.getLsbD k :: R)).err } := by
        intro R
        have := hdec (b.getLsbD k :: R)
        rw [List.append_assoc]; exact this
      rcases hms : matchSet s.tbl (s.clen + 1#8) (pushCode s.cand (b.getLsbD k)) with _ | ⟨sym, _ | ⟨y, l⟩⟩
      · have hms' : matchSet (unpackBit (b.getLsbD k) s).tbl (unpackBit (b.getLsbD k) s).clen (unpackBit (b.getLsbD k) s).cand = [] := hms
        rw [hms'] at h
        dsimp only at h
        by_cases h255 : s.clen + 1#8 = 255#8
        · have h255' : (unpackBit (b.getLsbD k) s).clen = 255#8 := h255
          rw [if_pos h255'] at h
          cases h
          have hos : s.outSlot = none := by simpa [Point.enabled] using he
          refine .inr (.inr ⟨rfl, fail_trace (u := unpackBit (b.getLsbD k) s) (D := D ++ [b]) (k := B.length + 1) (B := B ++ [b.getLsbD k]) (out := out) hos hh
            (show (D ++ [b]).length ≤ ceilDiv8 s.n.toNat by simp; omega) ho ?_ hBx ?_⟩)
          · show s.t + 1#32 = _
            rw [← htt, BitVec.ofNat_toNat, BitVec.setWidth_eq]
          · intro E _ R _
            show decodeBits s.tbl _ = _
            rw [hstep, decodeFrom, hms]
            dsimp only
            rw [if_pos h255]; simp
        · have h255' : (unpackBit (b.getLsbD k) s).clen ≠ 255#8 := h255
          rw [if_neg h255'] at h
          refine ih (s := unpackBit (b.getLsbD k) s) h (by cases p <;> exact he) h0 hh hb hD (by omega) ⟨?_, ?_, out, ho, ?_⟩
          · show (s.t + 1#32).toNat = (List.take s.n.toNat _).length
            rw [e2, htt]; simp
          · show (s.clen + 1#8).toNat ≤ 254
            have : (s.clen + 1#8).toNat ≠ 255 := fun h => h255 (BitVec.eq_of_toNat_eq (by simpa using h))
            have := (s.clen + 1#8).isLt
            omega
          · intro R
            show decodeBits s.tbl (List.take s.n.toNat _ ++ R) =
              { out := out ++ (decodeFrom s.tbl (s.clen + 1#8) (pushCode s.cand (b.getLsbD k)) (List.take s.n.toNat _).length R).out
                err := (decodeFrom s.tbl (s.clen + 1#8) (pushCode s.cand (b.getLsbD k)) (List.take s.n.toNat _).length R).err }
            rw [e2, hstep, decodeFrom, hms]
            dsimp only
            rw [if_neg h255]; simp
      · have hms' : matchSet (unpackBit (b.getLsbD k) s).tbl (unpackBit (b.getLsbD k) s).clen (unpackBit (b.getLsbD k) s).cand = [sym] := hms
        rw [hms'] at h
        cases h
        have hos : s.outSlot = none := by simpa [Point.enabled] using he
        have hBk : D.flatMap bitsOfByte ++ (bitsOfByte b).take (8 - k) = B ++ [b.getLsbD k] := by rw [hbits, ← List.append_assoc, hBdef]
        refine .inl ⟨.inr rfl, h0, D, hh, hb, hD, by omega, show (s.t + 1#32).toNat ≤ s.n.toNat by omega, ?_, by simp, out ++ [sym], ?_, ?_⟩
        · show (s.t + 1#32).toNat = (D.flatMap bitsOfByte ++ (bitsOfByte b).take (8 - k)).length
          rw [hBk, htt]; simp
        · show (putOutput _ _ (unpackBit _ s)).emitted = _
          rw [emitted_putOutput _ _ (show (unpackBit _ s).outSlot = none from hos), ← List.append_assoc]
          exact congrArg (· ++ [sym]) ho
        · intro R
          show decodeBits s.tbl (D.flatMap bitsOfByte ++ (bitsOfByte b).take (8 - k) ++ R) =
            { out := out ++ [sym] ++ (decodeFrom s.tbl 0#8 0#256 (D.flatMap bitsOfByte ++ (bitsOfByte b).take (8 - k)).length R).out
              err := (decodeFrom s.tbl 0#8 0#256 (D.flatMap bitsOfByte ++ (bitsOfByte b).take (8 - k)).length R).err }
          rw [hBk, hstep, decodeFrom, hms]
          simp
      · have hms' : matchSet (unpackBit (b.getLsbD k) s).tbl (unpackBit (b.getLsbD k) s).clen (unpackBit (b.getLsbD k) s).cand = sym :: y :: l := hms
        rw [hms'] at h
        cases h
        have hos : s.outSlot = none := by simpa [Point.enabled] using he
        refine .inr (.inr ⟨rfl, fail_trace (u := unpackBit (b.getLsbD k) s) (D := D ++ [b]) (k := B.length + 1) (B := B ++ [b.getLsbD k]) (out := out) hos hh
          (show (D ++ [b]).length ≤ ceilDiv8 s.n.toNat by simp; omega) ho ?_ hBx ?_⟩)
        · show s.t + 1#32 = _
          rw [← htt, BitVec.ofNat_toNat, BitVec.setWidth_eq]
        · intro E _ R _
          show decodeBits s.tbl _ = _
          rw [hstep, decodeFrom, hms]
          simp
    · rw [if_neg hlt] at h
      have hge : s.n.toNat ≤ (D.flatMap bitsOfByte ++ (bitsOfByte b).take (8 - (k + 1))).length := by
        rw [List.length_take] at ht; omega
      have e : (D.flatMap bitsOfByte ++ (bitsOfByte b).take (8 - k)).take s.n.toNat =
          (D.flatMap bitsOfByte ++ (bitsOfByte b).take (8 - (k + 1))).take s.n.toNat := by
        rw [hbits, ← List.append_assoc, List.take_append_of_le_length hge]
      refine ih h he h0 hh hb hD (by omega) ?_
      rw [e]
      exact ⟨ht, hc, out, ho, hdec⟩

/-- What a CORE step of UNPACK does to its trace. -/
theorem UnpackTrace.core {base S : List Byte} {s u : State} {r : Running} {p : Point} (h : UnpackTrace base S s) (hm : s.mode = .busy r)
    (hp : programOf r s = some (u, p)) (he : p.enabled s = true) : TraceStep (UnpackTrace base) (UnpackOutcome s.lenL base) S s (p.perform u) := by
  obtain ⟨h0, h⟩ := h
  rw [hm] at h
  cases r <;> try exact h.elim
  rename_i c
  replace hp : unpackProgram c s = (u, p) := by simpa [programOf] using hp
  cases c with
  | start =>
    obtain ⟨rfl, hb⟩ := h
    simp only [unpackProgram] at hp
    split at hp
    · rename_i hl
      cases hp
      have ho : s.outSlot = none := by simpa [Point.enabled] using he
      exact .inr (.inr ⟨rfl, rfl, rfl, ho, .inl ⟨rfl, hl, rfl, rfl, (emitted_none ho).symm.trans hb⟩⟩)
    · rename_i hl
      cases hp
      obtain ⟨b, hb'⟩ := Option.isSome_iff_exists.1 he
      refine .inr (.inl ⟨b, hb', ?_⟩)
      simp only [Point.perform, hb']
      exact ⟨rfl, h0, rfl, Nat.not_lt.1 hl, hb⟩
  | got0 h0' =>
    obtain ⟨rfl, hl, hb⟩ := h
    cases hp
    obtain ⟨b, hb'⟩ := Option.isSome_iff_exists.1 he
    refine .inr (.inl ⟨b, hb', ?_⟩)
    simp only [Point.perform, hb']
    exact ⟨rfl, h0, rfl, hl, hb⟩
  | got1 h0' h1 =>
    obtain ⟨rfl, hl, hb⟩ := h
    cases hp
    obtain ⟨b, hb'⟩ := Option.isSome_iff_exists.1 he
    refine .inr (.inl ⟨b, hb', ?_⟩)
    simp only [Point.perform, hb']
    exact ⟨rfl, h0, rfl, hl, hb⟩
  | got2 h0' h1 h2 =>
    obtain ⟨rfl, hl, hb⟩ := h
    cases hp
    obtain ⟨b, hb'⟩ := Option.isSome_iff_exists.1 he
    refine .inr (.inl ⟨b, hb', ?_⟩)
    simp only [Point.perform, hb']
    exact ⟨rfl, h0, rfl, hl, hb⟩
  | got3 h0' h1 h2 h3 =>
    obtain ⟨rfl, hl, hb⟩ := h
    simp only [unpackProgram, unpackHeader] at hp
    split at hp
    · rename_i hn
      cases hp
      have ho : s.outSlot = none := by simpa [Point.enabled] using he
      exact .inr (.inr ⟨rfl, rfl, rfl, ho, .inr (.inl ⟨h0', h1, h2, h3, rfl, (emitted_none ho).symm.trans hb, .inl ⟨hn, rfl, rfl⟩⟩)⟩)
    · rename_i hn
      split at hp
      · rename_i hsh
        cases hp
        have ho : s.outSlot = none := by simpa [Point.enabled] using he
        exact .inr (.inr ⟨rfl, rfl, rfl, ho, .inr (.inl ⟨h0', h1, h2, h3, rfl, (emitted_none ho).symm.trans hb, .inr ⟨Int.not_lt.1 hn, hsh, rfl, rfl⟩⟩)⟩)
      · rename_i hsh
        have h31 : (headerWord h0' h1 h2 h3).toNat < 2 ^ 31 := by
          by_contra hc
          apply hn
          have := (headerWord h0' h1 h2 h3).isLt
          rw [BitVec.toInt_eq_toNat_cond]
          split <;> omega
        have hroom : 4 + ceilDiv8 (headerWord h0' h1 h2 h3).toNat ≤ s.lenL.toNat := by
          have : ¬ (s.lenL.toNat - 4 < ceilDiv8 (headerWord h0' h1 h2 h3).toNat) := hsh
          omega
        refine unpackLoop_trace (base := base) (S := [h0', h1, h2, h3]) (D := []) (left := ceilDiv8 (headerWord h0' h1 h2 h3).toNat)
          (s := { s with
            bitcount := headerWord h0' h1 h2 h3, n := headerWord h0' h1 h2 h3
            nbytes := BitVec.ofNat 29 (ceilDiv8 (headerWord h0' h1 h2 h3).toNat), cand := 0#256, clen := 0#8, t := 0#32 })
          hp (by cases p <;> exact he) h0 ⟨h0', h1, h2, h3, rfl, rfl, h31, hroom⟩ ?_ (by simp) ?_
        · simp [ceilDiv8]; omega
        · exact ⟨by simp, by simp, [], hb.trans (List.append_nil base).symm, fun R => by simp [decodeBits]⟩
  | gotData b left =>
    obtain ⟨D, hh, hb, hD, hd⟩ := h
    refine unpackBits_trace 8 hp he h0 hh hb hD (Nat.le_refl _) ?_
    have : (D.flatMap bitsOfByte ++ (bitsOfByte b).take (8 - 8)).take s.n.toNat = D.flatMap bitsOfByte := by
      rw [Nat.sub_self, List.take_zero, List.append_nil, List.take_of_length_le]
      rw [length_flatMap_bitsOfByte]; unfold ceilDiv8 at hD; omega
    rw [this]; exact hd
  | emitted b k left =>
    obtain ⟨D, hh, hb, hD, hk, htn, hd⟩ := h
    refine unpackBits_trace (s := { s with cand := 0#256, clen := 0#8 }) k hp (by cases p <;> exact he) h0 hh hb hD (by omega) ?_
    have : (D.flatMap bitsOfByte ++ (bitsOfByte b).take (8 - k)).take s.n.toNat = D.flatMap bitsOfByte ++ (bitsOfByte b).take (8 - k) := by
      apply List.take_of_length_le
      rw [← hd.1]; exact htn
    show DecodedSoFar base ((D.flatMap bitsOfByte ++ (bitsOfByte b).take (8 - k)).take s.n.toNat) 0#8 0#256 _
    rw [this]; exact hd
  | gotTail left =>
    obtain ⟨D, hh, hc, hl, he', hm'⟩ := h
    exact unpackTail_trace hp he h0 hh hc hl ⟨he', hm'⟩

/-- What UNPACK has put out is a prefix of what `Decode` emits on the data, whatever data the artifact goes on with. -/
theorem UnpackTrace.prefix {base S : List Byte} {s : State} (h : UnpackTrace base S s) {n : Word} {D E : List Byte} (hh : HeaderThen n s.lenL S D)
    (hE : ceilDiv8 n.toNat ≤ (D ++ E).length) :
    s.emitted <+: base ++ (decodeBits s.tbl (((D ++ E).flatMap bitsOfByte).take n.toNat)).out := by
  obtain ⟨_, h⟩ := h
  have hlen := hh.length
  rcases hm : s.mode with _ | r
  · rw [hm] at h; exact h.elim
  · rw [hm] at h
    cases r <;> try exact h.elim
    rename_i c
    cases c with
    | start => obtain ⟨rfl, hb⟩ := h; rw [hb]; exact List.prefix_append _ _
    | got0 => obtain ⟨rfl, _, hb⟩ := h; rw [hb]; exact List.prefix_append _ _
    | got1 => obtain ⟨rfl, _, hb⟩ := h; rw [hb]; exact List.prefix_append _ _
    | got2 => obtain ⟨rfl, _, hb⟩ := h; rw [hb]; exact List.prefix_append _ _
    | got3 => obtain ⟨rfl, _, hb⟩ := h; rw [hb]; exact List.prefix_append _ _
    | gotData b left =>
      obtain ⟨D', hh', hb, hD, ht, _, out, ho, hd⟩ := h
      obtain ⟨rfl, rfl⟩ := hh'.unique hh
      obtain ⟨R, hR⟩ := take_bits_snoc D' E b 0 s.n.toNat (by omega) (by unfold ceilDiv8 at hD; omega)
      rw [List.take_zero, List.append_nil] at hR
      rw [ho, hR, hd, List.prefix_append_right_inj]
      exact List.prefix_append _ _
    | emitted b k left =>
      obtain ⟨D', hh', hb, hD, hk, htn, ht, _, out, ho, hd⟩ := h
      obtain ⟨rfl, rfl⟩ := hh'.unique hh
      have h8 : (bitsOfByte b).length = 8 := length_lowBitsByte b 8
      obtain ⟨R, hR⟩ := take_bits_snoc D' E b (8 - k) s.n.toNat (by omega) (by
        rw [List.length_append, length_flatMap_bitsOfByte, List.length_take, h8] at ht; omega)
      rw [ho, hR, hd, List.prefix_append_right_inj]
      exact List.prefix_append _ _
    | gotTail left =>
      obtain ⟨D', hh', hc, hl, _, hb⟩ := h
      obtain ⟨rfl, rfl⟩ := hh'.unique hh
      have : ((D ++ E).flatMap bitsOfByte).take s.n.toNat = (D.flatMap bitsOfByte).take s.n.toNat := by
        rw [List.flatMap_append, List.take_append_of_le_length]
        rw [length_flatMap_bitsOfByte]; unfold ceilDiv8 at hc; omega
      rw [hb, this]

end Sys2Proof.Machine
end

