-- ==== Sys2Proof/Tests/Slice0.lean ====
section
/-! SUPPORT. Tests, with expected results written out from the spec's encodings and from spec/95_test_vectors.md, and a witness for the hypotheses of every statement. -/

namespace Sys2Proof.Machine.Tests

set_option Elab.async false

/-! ### Well-formedness: an ill-formed term for each check -/

/-- 30_encoding.md R63: "bits [31:4] are 0". -/
theorem test_wf_reserved_bit : CommandWord.wf { rsv := 1#28, opc := 1#4 } = false := by decide
/-- 30_encoding.md R64: OPC 0x0. -/
theorem test_wf_opcode_zero : CommandWord.wf { rsv := 0#28, opc := 0#4 } = false := by decide
/-- 30_encoding.md R64: OPC 0x7. -/
theorem test_wf_opcode_seven : CommandWord.wf { rsv := 0#28, opc := 7#4 } = false := by decide
theorem test_wf_unpack_word : CommandWord.wf { rsv := 0#28, opc := 6#4 } = true := by decide
theorem test_wf_line_address : (Line.wr 0x10000 0).wf = false := by decide
theorem test_wf_line_value : (Line.wr 0 0x100000000).wf = false := by decide
theorem test_wf_line_expected : (Line.rd 0 (some 0x100000000)).wf = false := by decide
theorem test_wf_line_input : (Line.input [0, 256]).wf = false := by decide
theorem test_wf_line_take : (Line.take [256]).wf = false := by decide
theorem test_wf_line_length : (Line.setLen 0x100000000).wf = false := by decide
theorem test_wf_line_transfer : (Line.xfer [0xFF] [256]).wf = false := by decide
theorem test_wf_line_expect : (Line.expect .status 0x100000000).wf = false := by decide
theorem test_wf_line_entry_symbol : (Line.loadEnt 256 1 0).wf = false := by decide
theorem test_wf_line_entry_length : (Line.loadEnt 0 256 0).wf = false := by decide
theorem test_wf_line_entry_code : (Line.loadEnt 0 1 (2 ^ 256)).wf = false := by decide

/-! ### Decoding: words written out from 30_encoding.md R62 and R63, and from vectors V2.1 to V2.4 -/

theorem test_decode_count : decode 0b00000000000000000000000000000001#32 = .ok .count := by decide
theorem test_decode_build : decode 0b00000000000000000000000000000010#32 = .ok .build := by decide
theorem test_decode_derive : decode 0b00000000000000000000000000000011#32 = .ok .derive := by decide
theorem test_decode_clrtab : decode 0b00000000000000000000000000000100#32 = .ok .clrtab := by decide
theorem test_decode_pack : decode 0b00000000000000000000000000000101#32 = .ok .pack := by decide
theorem test_decode_unpack : decode 0b00000000000000000000000000000110#32 = .ok .unpack := by decide
theorem test_decode_seven : decode 0x00000007#32 = .error .unknownOpcode := by decide
theorem test_decode_zero : decode 0x00000000#32 = .error .unknownOpcode := by decide
theorem test_decode_bit_four : decode 0x00000011#32 = .error .reservedBits := by decide
theorem test_decode_high_bits : decode 0xF0000002#32 = .error .reservedBits := by decide
theorem test_table_word : decodeTableWord 32 0x00000005 = some .pack := by decide
theorem test_table_word_refused : decodeTableWord 32 0x00000007 = none := by decide

/-! ### Small states -/

/-- The state after reset with a TABLE of known content, so that nothing drawn is left in it. -/
def base : State := { State.reset with tbl := Vector.replicate 256 { valid := false, len := 0#8, code := 0#256 } }

/-- `base` while a command stands at `r`. -/
def at_ (r : Running) : State := { base with mode := .busy r }

/-- FREQ of a list of counts. -/
def freqs (l : List (Byte × Word)) : Vector Word 256 := l.foldl (fun v p => setEntryOf v p.1 p.2) (Vector.replicate 256 0#32)

/-- A TABLE of a list of valid codes. -/
def codes (l : List (Byte × BitVec 8 × CodeBits)) : Vector Entry 256 :=
  l.foldl (fun v p => setEntryOf v p.1 { valid := true, len := p.2.1, code := p.2.2 })
    (Vector.replicate 256 { valid := false, len := 0#8, code := 0#256 })

/-- FREQ of "aaabbc" (E1). -/
def freqAbc : Vector Word 256 := freqs [(0x61#8, 3#32), (0x62#8, 2#32), (0x63#8, 1#32)]

/-- TABLE of "aaabbc" (E1): a "0", b "11", c "10". -/
def tblAbc : Vector Entry 256 := codes [(0x61#8, 1#8, 0#256), (0x62#8, 2#8, 3#256), (0x63#8, 2#8, 2#256)]

/-- An arena of a list of nodes. -/
def arena (l : List Node) : Vector Node 511 :=
  (l.zipIdx).foldl (fun v p => v.setIfInBounds p.2 p.1) blankArena

/-- The arena of "aaabbc" (V4.3). -/
def nodeAbc : Vector Node 511 :=
  arena [.leaf 0x61#8 3#32, .leaf 0x62#8 2#32, .leaf 0x63#8 1#32, .internal 3#32 2#9 1#9, .internal 6#32 0#9 3#9]

/-- The state after COUNT and BUILD of "aaabbc" (V4.3), with DERIVE about to take its step. -/
def treeAbc : State :=
  { at_ .derive with
    freq := freqAbc, total := 6#32, nsym := 3#9, node := nodeAbc, nnodes := 5#10, root := 4#9, treeValid := true, opc := 3#4 }

/-- The state T(aaabbc) of 95_test_vectors.md. -/
def derived : State := { treeAbc with mode := .idle, tbl := tblAbc, expbits := 9#40, maxlen := 2#8, hdrValid := true }

/-- A state with a tree that BUILD's own definition made and no table yet, DERIVE about to take its step. -/
def beforeDerive (freq : Vector Word 256) (total : Word) (nsym : BitVec 9) : State :=
  { buildWrite { base with freq := freq, total := total, nsym := nsym } with mode := .busy .derive }

/-- What holds of the next state; false where there is none. -/
def nextHolds (o : Host.Outcome State Fault Refusal) (p : State → Bool) : Bool :=
  match o with
  | .next t => p t
  | .fault _ => false
  | .refused _ => false

/-! ### The bus (V1, V2) -/

/-- V1.2. -/
theorem test_read_ignores_low_bits : readWord 0x0003#16 base = 0x48554646#32 := by decide
/-- V1.6 and V1.7: reserved bits ignored; SRST with bit 0 set leaves IRQ_EN 0. -/
theorem test_ctrl_write : nextHolds (hostWrite 0x0008#16 0xFFFFFFFD#32 base) (·.irqEn) = true := by decide
theorem test_ctrl_reset : nextHolds (hostWrite 0x0008#16 0x00000003#32 { base with irqEn := true, len := 5#32 })
    (fun t => !t.irqEn && t.len == 0#32) = true := by decide
/-- V2.1. -/
theorem test_illegal_command : nextHolds (hostWrite 0x000C#16 0x00000007#32 base)
    (fun t => readWord 0x0010#16 t == 0x00000706#32 && readWord 0x0014#16 t == 0x01#32 && readWord 0x0018#16 t == 0x00000007#32) = true := by
  decide
/-- V2.5 and V2.6: a rejected command and a rejected LEN. -/
theorem test_rejected_command : nextHolds (hostWrite 0x000C#16 2#32 { at_ (.count .start) with opc := 1#4 })
    (fun t => statusWord t false false == 0x00000109#32) = true := by decide
theorem test_rejected_length : nextHolds (hostWrite 0x001C#16 9#32 { at_ (.count .start) with len := 2#32 })
    (fun t => t.rej && t.len == 2#32) = true := by decide
/-- V2.12: the acceptance clears the record of the last failure. -/
theorem test_acceptance_clears : nextHolds (exec .clrtab { base with done := true, errcode := 6#8, errinfo := 0x64#32 })
    (fun t => !t.done && t.errcode == 0#8 && t.errinfo == 0#32 && t.busy) = true := by decide
/-- V6.4: META's reserved bits are not stored. -/
theorem test_table_meta : nextHolds (hostWrite 0x4000#16 0xFFFFFFFF#32 base) (fun t => readWord 0x4000#16 t == 0x800000FF#32) = true := by
  decide
/-- V1.14: TABLE word 9. -/
theorem test_table_word_nine : nextHolds (hostWrite 0x4024#16 5#32 base) (fun t => readWord 0x4024#16 t == 0#32) = true := by decide

/-! ### The commands (V3 to V8), one CORE step each -/

/-- V3.4, the third byte of 0A 00 0A. -/
theorem test_count_last_byte :
    nextHolds (exec .count { at_ (.count (.got 0x0A#8 0)) with freq := freqs [(0x0A#8, 1#32), (0x00#8, 1#32)], nsym := 2#9, total := 2#32 })
      (fun t => t.freqOf 0x0A#8 == 2#32 && t.freqOf 0x00#8 == 1#32 && t.nsym == 2#9 && t.total == 3#32 && t.done) = true := by decide
/-- V3.1: LEN = 0 completes at once. -/
theorem test_count_nothing : nextHolds (exec .count { at_ (.count .start) with freq := freqAbc, total := 6#32, nsym := 3#9, opc := 1#4 })
    (fun t => t.total == 0#32 && t.nsym == 0#9 && t.freqOf 0x61#8 == 0#32 && readWord 0x0010#16 t == 0x00000102#32) = true := by decide

/-- V4.3 and its NODE encodings. -/
theorem test_build_aaabbc : nextHolds (exec .build { at_ .build with freq := freqAbc })
    (fun t => nodeAt t.node 3 == .internal 3#32 2#9 1#9 && nodeAt t.node 4 == .internal 6#32 0#9 3#9 && t.root == 4#9 && t.nnodes == 5#10 &&
      readWord 0x101C#16 t == 0x80020001#32 && readWord 0x1024#16 t == 0x80000003#32) = true := by decide +kernel
/-- V4.5, "abracadabra". -/
theorem test_build_abracadabra :
    nextHolds (exec .build { at_ .build with
        freq := freqs [(0x61#8, 5#32), (0x62#8, 2#32), (0x63#8, 1#32), (0x64#8, 1#32), (0x72#8, 2#32)] })
      (fun t => nodeAt t.node 5 == .internal 2#32 2#9 3#9 && nodeAt t.node 6 == .internal 4#32 1#9 4#9 &&
        nodeAt t.node 7 == .internal 6#32 5#9 6#9 && nodeAt t.node 8 == .internal 11#32 0#9 7#9 && t.root == 8#9) = true := by decide +kernel

/-- V5.2 and its TABLE encodings. -/
theorem test_derive_aaabbc : nextHolds (exec .derive treeAbc)
    (fun t => t.expbits == 9#40 && t.maxlen == 2#8 && readWord 0x5840#16 t == 0x80000001#32 && readWord 0x5844#16 t == 0#32 &&
      readWord 0x5884#16 t == 3#32 && readWord 0x58C4#16 t == 2#32 && readWord 0x0010#16 t == 0x00000332#32) = true := by decide +kernel
/-- V5.3, one symbol. -/
theorem test_derive_one_symbol :
    nextHolds (exec .derive { at_ .derive with treeValid := true, node := arena [.leaf 0x41#8 4#32], nnodes := 1#10 })
      (fun t => t.entry 0x41#8 == { valid := true, len := 1#8, code := 0#256 } && t.expbits == 4#40 && t.maxlen == 1#8) = true := by
  decide +kernel

/-- V6.1: the code is kept. -/
theorem test_clrtab : nextHolds (exec .clrtab { derived with mode := .busy .clrtab, opc := 4#4 })
    (fun t => readWord 0x5840#16 t == 1#32 && readWord 0x5884#16 t == 3#32 && readWord 0x0010#16 t == 0x00000412#32) = true := by
  decide +kernel

/-- V7.1, the step at the last input byte: after a, a, a, b, b the packer holds 0001111, and c = "10" fills the byte 1F. -/
theorem test_pack_fills_a_byte :
    nextHolds (exec .pack { derived with mode := .busy (.pack (.got 0x63#8 0)), acc := 0x0F#8, nacc := 7#4, nb := 7#40 })
      (fun t => t.outSlot == some 0x1F#8 && t.nb == 8#40 && t.mode == .busy (.pack (.bits 0x63#8 1 0))) = true := by decide +kernel
/-- V7.5: 61 61 64. -/
theorem test_pack_no_code :
    nextHolds (exec .pack { derived with mode := .busy (.pack (.got 0x64#8 0)), nacc := 2#4, nb := 2#40, bitpos := 2#32 })
      (fun t => t.errcode == 6#8 && t.errinfo == 0x64#32 && t.bitpos == 2#32 && t.outSlot == none && t.done) = true := by decide +kernel
/-- The data of V7.1 and V7.2. -/
theorem test_packed_bytes : packBytes (bitsOf tblAbc [0x61#8, 0x61#8, 0x61#8, 0x62#8, 0x62#8, 0x63#8]) = [0x1F#8, 0x00#8] ∧
    packBytes (bitsOf tblAbc [0x63#8, 0x62#8, 0x62#8, 0x61#8, 0x61#8, 0x61#8]) = [0xBC#8, 0x00#8] := by decide +kernel

/-- V8.1, the step at the first data byte: 1F starts with "0", which is a. -/
theorem test_unpack_emits :
    nextHolds (exec .unpack { derived with mode := .busy (.unpack (.gotData 0x1F#8 1)), n := 9#32, nbytes := 2#29 })
      (fun t => t.outSlot == some 0x61#8 && t.bitpos == 1#32 && t.mode == .busy (.unpack (.emitted 0x1F#8 7 1))) = true := by decide +kernel
/-- V8.6: the header FF FF FF FF. -/
theorem test_unpack_negative : nextHolds (exec .unpack { at_ (.unpack (.got3 0xFF#8 0xFF#8 0xFF#8 0xFF#8)) with lenL := 4#32 })
    (fun t => t.errcode == 9#8 && t.errinfo == 0xFFFFFFFF#32 && t.bitcount == 0xFFFFFFFF#32) = true := by decide
/-- The data of V8.11: the first match wins. -/
theorem test_first_match : decodeBits (codes [(0x41#8, 1#8, 0#256), (0x42#8, 2#8, 1#256)]) ((bitsOfByte 0x40#8).take 2) =
    { out := [0x41#8], err := some (.decodeMismatch, 2) } := by decide +kernel
/-- V8.10. -/
theorem test_ambiguous_code : decodeBits (codes [(0x41#8, 1#8, 0#256), (0x42#8, 1#8, 0#256)]) [false] =
    { out := [], err := some (.ambiguousCode, 1) } := by decide +kernel

/-! ### Witnesses: for every statement with hypotheses, states and operands that meet them

Where a statement has several clauses, each has its own, at a boundary of its range. -/

/-- A next state with a property, from the evaluation of both. -/
theorem of_nextHolds {o : Host.Outcome State Fault Refusal} {p : State → Bool} (h : nextHolds o p = true) :
    ∃ t, o = .next t ∧ p t = true := by
  cases o with
  | next t => exact ⟨t, rfl, h⟩
  | fault _ => cases h
  | refused _ => cases h

/-- A running command whose program reaches a point takes its step. -/
theorem running_next {s : State} {r : Running} {up : State × Point} (hm : s.mode = .busy r) (hp : programOf r s = some up) :
    ∃ t, exec r.instr s = .next t := by
  rw [exec_running hm, hp]
  exact ⟨_, rfl⟩

/-- A HOST script on `base`. -/
def ready (lines : List Line) : State := { base with schedule := scriptTurns lines }

theorem hostReady_ready (lines : List Line) : HostReady (ready lines) lines [] :=
  ⟨rfl, rfl, rfl, (List.append_nil _).symm⟩

/-- The same on the state T(aaabbc). -/
theorem hostReady_derived (lines : List Line) : HostReady { derived with schedule := scriptTurns lines } lines [] :=
  ⟨rfl, rfl, rfl, (List.append_nil _).symm⟩

theorem counted_freqAbc : countedSymbols freqAbc = [0x61#8, 0x62#8, 0x63#8] := by decide +kernel

theorem treeInv_built (u : State) (hn : u.node = blankArena) (h : countedSymbols u.freq ≠ []) :
    TreeInv { buildWrite u with mode := .busy .derive } := by
  refine ⟨(by rintro b left h; cases h), (by intro h; cases h), fun _ => ⟨h, ?_⟩⟩
  simp [buildWrite, buildClear, hn]

theorem beforeDerive_treeInv : TreeInv (beforeDerive freqAbc 6#32 3#9) :=
  treeInv_built _ rfl (by show countedSymbols freqAbc ≠ []; rw [counted_freqAbc]; decide)

theorem freqSum_freqAbc : freqSum freqAbc = 6 := by decide +kernel

theorem beforeDerive_countInv : CountInv (beforeDerive freqAbc 6#32 3#9) :=
  ⟨freqSum_freqAbc, by show (countedSymbols freqAbc).length = 3; rw [counted_freqAbc]; decide, trivial⟩

theorem beforeDerive_next : ∃ t, exec .derive (beforeDerive freqAbc 6#32 3#9) = .next t ∧ t.hdrValid = true ∧ (t.entry 0x61#8).valid = true := by
  obtain ⟨t, h, hp⟩ := of_nextHolds (o := exec .derive (beforeDerive freqAbc 6#32 3#9)) (p := fun t => t.hdrValid && (t.entry 0x61#8).valid)
    (by decide +kernel)
  rw [Bool.and_eq_true] at hp
  exact ⟨t, h, hp⟩

/-- A state whose table DERIVE itself made, `mode` = IDLE, with a schedule. -/
def afterDerive (m : Mode) (sched : List Turn) : State :=
  match deriveCodes treeAbc.node treeAbc.root.toNat (invalidateAll base.tbl) with
  | some d => { deriveWrite d treeAbc with mode := m, schedule := sched }
  | none => base

theorem derivedInv_written (u : State) (d : Derived) (tbl : Vector Entry 256) (m : Mode) (sched : List Turn) (hv : u.treeValid = true)
    (hd : deriveCodes u.node u.root.toNat (invalidateAll tbl) = some d) : DerivedInv { deriveWrite d u with mode := m, schedule := sched } :=
  fun _ => ⟨hv, tbl, d, hd, rfl, rfl, rfl⟩

theorem afterDerive_derivedInv (m : Mode) (sched : List Turn) : DerivedInv (afterDerive m sched) := by
  unfold afterDerive
  split
  · rename_i d hd
    exact derivedInv_written _ d base.tbl m sched rfl hd
  · intro h; cases h

theorem witness_DecodeAndEncodeAgree : Instr.wf .unpack = true ∧ decode 0x00000006#32 = .ok .unpack := by decide

theorem witness_StepRunsTheDecodedCommand_write : (0x000F#16 : Addr).toNat / 4 = 3 ∧ decode 0x00000006#32 = .ok .unpack ∧ base.mode = .idle := by
  decide
theorem witness_StepRunsTheDecodedCommand_word : decodeTableWord 32 0x00000001 = some .count := by decide
theorem witness_StepRunsTheDecodedCommand_core :
    { at_ .build with schedule := [.core] }.mode = .busy .build ∧ { at_ .build with schedule := [.core] }.schedule = .core :: [] ∧
    (at_ .build).mode = .busy .build ∧ (at_ .build).schedule = [] := ⟨rfl, rfl, rfl, rfl⟩
theorem witness_StepRunsTheDecodedCommand_host : (HostOp.offer 0xFF#8).enabled base = true ∧
    (HostOp.offer 0xFF#8).enabled { at_ .build with inSlot := some 0x00#8 } = false := by decide

theorem witness_CmdWriteStartsOrFailsACommand :
    (0x000C#16 : Addr).toNat / 4 = 3 ∧ (at_ .build).mode = .busy .build ∧ base.mode = .idle ∧ decode 0x00000001#32 = .ok .count ∧
    decode 0x00000007#32 = .error .unknownOpcode ∧ decode 0x00000011#32 = .error .reservedBits := by decide
theorem witness_CmdWriteStartsOrFailsACommand_start :
    ∃ t, (ready [.cmd .clrtab]).mode = .idle ∧ t.mode ≠ .idle ∧ step (ready [.cmd .clrtab]) = .next t := by
  obtain ⟨t, h, hp⟩ := of_nextHolds (o := step (ready [.cmd .clrtab])) (p := (·.mode != .idle)) (by decide +kernel)
  exact ⟨t, rfl, by simpa using hp, h⟩

theorem witness_CommandIsAcceptedOrRejected : base.mode = .idle ∧ (at_ .build).mode = .busy .build ∧ Running.build.instr ≠ .count := by decide

theorem witness_BusyCoreRejectsWrites :
    (at_ .build).mode = .busy .build ∧ (0x000C#16 : Addr).toNat / 4 = 3 ∧ (0x001F#16 : Addr).toNat / 4 = 7 ∧
    (0x4000 ≤ (0x4000#16 : Addr).toNat ∧ (0x4000#16 : Addr).toNat < 0x8000) ∧ (0x4000 ≤ (0x7FFF#16 : Addr).toNat ∧ (0x7FFF#16 : Addr).toNat < 0x8000) ∧
    (0x0008#16 : Addr).toNat / 4 = 2 ∧ (0x0010#16 : Addr).toNat / 4 = 4 := by decide
theorem witness_BusyCoreRejectsWrites_ignored :
    (0x3FFC#16 : Addr).toNat / 4 ≠ 2 ∧ (0x3FFC#16 : Addr).toNat / 4 ≠ 3 ∧ (0x3FFC#16 : Addr).toNat / 4 ≠ 4 ∧ (0x3FFC#16 : Addr).toNat / 4 ≠ 7 ∧
    ¬ (0x4000 ≤ (0x3FFC#16 : Addr).toNat ∧ (0x3FFC#16 : Addr).toNat < 0x8000) := by decide

theorem witness_RejRecordsRejectedWrites_sets : ∃ t, step { at_ .build with schedule := [.host (.write 0x7FFC#16 0#32)] } = .next t ∧
    { at_ .build with schedule := [.host (.write 0x7FFC#16 0#32)] }.rej = false ∧ t.rej = true := by
  obtain ⟨t, h, hp⟩ := of_nextHolds (o := step { at_ .build with schedule := [.host (.write 0x7FFC#16 0#32)] }) (p := (·.rej)) (by decide +kernel)
  exact ⟨t, h, rfl, hp⟩
theorem witness_RejRecordsRejectedWrites_clears : ∃ t, step { base with rej := true, schedule := [.host (.write 0x0010#16 8#32)] } = .next t ∧
    { base with rej := true, schedule := [.host (.write 0x0010#16 8#32)] }.rej = true ∧ t.rej = false := by
  obtain ⟨t, h, hp⟩ := of_nextHolds (o := step { base with rej := true, schedule := [.host (.write 0x0010#16 8#32)] })
    (p := (!·.rej)) (by decide +kernel)
  exact ⟨t, h, rfl, by simpa using hp⟩

/-- One state for each kind of point: `InByte`, `OutByte`, `Complete`, `Fail`; with the slot full and empty. -/
theorem witness_CoreStepDoesStatementsAndPoint_in : ∃ u k, (at_ (.unpack (.got0 1#8))).mode = .busy (.unpack (.got0 1#8)) ∧
    programOf (.unpack (.got0 1#8)) (at_ (.unpack (.got0 1#8))) = some (u, .inByte k) ∧
    Point.enabled (at_ (.unpack (.got0 1#8))) (.inByte k) = false ∧ (at_ (.unpack (.got0 1#8))).inSlot = none := ⟨_, _, rfl, rfl, rfl, rfl⟩
theorem witness_CoreStepDoesStatementsAndPoint_taken : ∃ u k, { at_ (.unpack (.got0 1#8)) with inSlot := some 2#8 }.inSlot = some 2#8 ∧
    programOf (.unpack (.got0 1#8)) { at_ (.unpack (.got0 1#8)) with inSlot := some 2#8 } = some (u, .inByte k) := ⟨_, _, rfl, rfl⟩
theorem witness_CoreStepDoesStatementsAndPoint_out : ∃ u b k, (at_ (.pack (.hdr 3))).mode = .busy (.pack (.hdr 3)) ∧
    (at_ (.pack (.hdr 3))).outSlot = none ∧
    programOf (.pack (.hdr 3)) (at_ (.pack (.hdr 3))) = some (u, .outByte b k) := ⟨_, _, _, rfl, rfl, rfl⟩
theorem witness_CoreStepDoesStatementsAndPoint_full : ∃ u b k, { at_ (.pack (.hdr 3)) with outSlot := some 0#8 }.outSlot = some 0#8 ∧
    programOf (.pack (.hdr 3)) { at_ (.pack (.hdr 3)) with outSlot := some 0#8 } = some (u, .outByte b k) ∧
    Point.enabled { at_ (.pack (.hdr 3)) with outSlot := some 0#8 } (.outByte b k) = false := ⟨_, _, _, rfl, rfl, rfl⟩
theorem witness_CoreStepDoesStatementsAndPoint_complete : ∃ u, (at_ .clrtab).mode = .busy .clrtab ∧ (at_ .clrtab).outSlot = none ∧
    programOf .clrtab (at_ .clrtab) = some (u, .complete) := ⟨_, rfl, rfl, rfl⟩
theorem witness_CoreStepDoesStatementsAndPoint_fail : ∃ u e info, (at_ .derive).mode = .busy .derive ∧ (at_ .derive).outSlot = none ∧
    programOf .derive (at_ .derive) = some (u, .fail e info) := ⟨_, _, _, rfl, rfl, rfl⟩

theorem witness_CommandsTouchOnlyTheirState :
    (∃ t, exec .count { at_ (.count (.got 1#8 0)) with lenL := 1#32 } = .next t) ∧ (∃ t, exec .build (at_ .build) = .next t) ∧
    (∃ t, exec .derive (at_ .derive) = .next t) ∧ (∃ t, exec .clrtab (at_ .clrtab) = .next t) ∧
    (∃ t, exec .pack (at_ (.pack .start)) = .next t) ∧ (∃ t, exec .unpack (at_ (.unpack .start)) = .next t) :=
  ⟨running_next (r := .count _) rfl rfl, running_next (r := .build) rfl rfl, running_next (r := .derive) rfl rfl,
    running_next (r := .clrtab) rfl rfl, running_next (r := .pack _) rfl rfl, running_next (r := .unpack _) rfl rfl⟩

theorem witness_StepKeepsControlInv : ControlInv { at_ .clrtab with opc := 4#4 } ∧ ∃ t, step { at_ .clrtab with opc := 4#4 } = .next t :=
  ⟨⟨rfl, rfl, rfl, rfl⟩, ⟨_, rfl⟩⟩

theorem not_reset {s : State} (h : s.schedule = []) : ¬ ResetScheduled s := by
  rintro (⟨a, v, rest, hs, -⟩ | ⟨p, rest, hs⟩) <;> rw [h] at hs <;> cases hs

/-- "aaabbc" counted, a seventh byte 41 taken, the CORE about to count it and to complete. -/
def lastCount : State :=
  { at_ (.count (.got 0x41#8 0)) with freq := freqAbc, total := 6#32, nsym := 3#9, lenL := 7#32, inCount := 7#32 }

theorem witness_StepKeepsCountInv : CountInv lastCount ∧ lastCount.mode = .busy (.count (.got 0x41#8 0)) ∧
    ∃ t, step lastCount = .next t ∧ exec .count lastCount = .next t ∧ t.mode = .idle := by
  refine ⟨⟨freqSum_freqAbc, by show (countedSymbols freqAbc).length = 3; rw [counted_freqAbc]; decide, rfl, rfl⟩, rfl, ?_⟩
  obtain ⟨t, h, hp⟩ := of_nextHolds (o := exec .count lastCount) (p := (·.mode == .idle)) (by decide +kernel)
  exact ⟨t, h, h, by simpa using hp⟩

/-- COUNT takes a byte after "a", and it ends; the acceptance. -/
theorem witness_StepKeepsCountInv_trace :
    CountTrace [0x61#8] { at_ (.count (.got 0x61#8 1)) with lenL := 2#32, inSlot := some 0x62#8 } ∧
    (∃ t, step { at_ (.count (.got 0x61#8 1)) with lenL := 2#32, inSlot := some 0x62#8 } = .next t) ∧
    ¬ ResetScheduled { at_ (.count (.got 0x61#8 1)) with lenL := 2#32, inSlot := some 0x62#8 } ∧
    CountTrace [0x61#8] { at_ (.count (.got 0x61#8 0)) with lenL := 1#32 } ∧
    base.mode = .idle ∧ ∃ t, exec .count base = .next t :=
  ⟨⟨rfl, [], rfl, rfl, fun c => by simp [at_, base, State.reset, State.freqOf]⟩, ⟨_, rfl⟩, not_reset rfl,
    ⟨rfl, [], rfl, rfl, fun c => by simp [at_, base, State.reset, State.freqOf]⟩, rfl, _, rfl⟩

theorem witness_StepKeepsPositionInv : PositionInv { at_ (.unpack .start) with lenL := 4#32, inSlot := some 9#8 } ∧
    ∃ t, step { at_ (.unpack .start) with lenL := 4#32, inSlot := some 9#8 } = .next t ∧
      exec .unpack { at_ (.unpack .start) with lenL := 4#32, inSlot := some 9#8 } = .next t ∧ t.inSlot = none := by
  refine ⟨rfl, ?_⟩
  obtain ⟨t, h, hp⟩ := of_nextHolds (o := exec .unpack { at_ (.unpack .start) with lenL := 4#32, inSlot := some 9#8 })
    (p := (·.inSlot == none)) (by decide +kernel)
  exact ⟨t, h, h, by simpa using hp⟩

theorem witness_StepKeepsProgressInv : ProgressInv { at_ (.pack (.hdr 4)) with outCount := 4#32, lenL := 1#32, inSlot := some 0#8 } ∧
    ∃ t, step { at_ (.pack (.hdr 4)) with outCount := 4#32, lenL := 1#32, inSlot := some 0#8 } = .next t :=
  ⟨⟨rfl, rfl, by decide, by decide⟩, ⟨_, rfl⟩⟩

/-- PACK of two bytes: the header taken by the HOST, the first byte taken by the CORE, nothing packed yet. -/
def firstPacked : State :=
  { derived with
    mode := .busy (.pack (.got 0x61#8 1)), lenL := 2#32, inSlot := some 0x62#8, taken := headerOf derived.expbits }

theorem witness_StepKeepsProgressInv_pack : PackTrace [] [0x61#8] firstPacked ∧ (∃ t, step firstPacked = .next t) ∧ ¬ ResetScheduled firstPacked ∧
    base.mode = .idle ∧ ∃ t, exec .pack base = .next t :=
  ⟨⟨rfl, [], rfl, rfl, by simp, by decide +kernel, by decide +kernel, by decide +kernel, by decide +kernel⟩, (show ∃ t, exec .pack firstPacked = .next t from running_next (r := .pack _) rfl rfl),
    not_reset rfl, rfl, _, rfl⟩

/-- UNPACK of an artifact of 9 bits with the first data byte taken, and, for the prefix, the second to come. -/
def firstData : State :=
  { derived with mode := .busy (.unpack (.gotData 0x1F#8 1)), n := 9#32, nbytes := 2#29, lenL := 6#32 }

theorem witness_StepKeepsProgressInv_unpack : UnpackTrace [] [9#8, 0#8, 0#8, 0#8, 0x1F#8] firstData ∧
    (∃ t, step firstData = .next t) ∧ ¬ ResetScheduled firstData ∧
    HeaderThen 9#32 firstData.lenL [9#8, 0#8, 0#8, 0#8, 0x1F#8] [0x1F#8] ∧ ceilDiv8 (9#32 : Word).toNat ≤ ([0x1F#8] ++ [0x00#8] : List Byte).length ∧
    base.mode = .idle ∧ ∃ t, exec .unpack base = .next t :=
  ⟨⟨rfl, [], ⟨_, _, _, _, rfl, by decide, by decide, by decide⟩, by decide, by decide, rfl, by decide, [], rfl, fun R => rfl⟩,
    (show ∃ t, exec .unpack firstData = .next t from running_next (r := .unpack _) rfl rfl), not_reset rfl, ⟨_, _, _, _, rfl, by decide, by decide, by decide⟩, by decide, rfl, _, rfl⟩

theorem witness_StepKeepsTreeInv : TreeInv (beforeDerive freqAbc 6#32 3#9) ∧ ∃ t, step (beforeDerive freqAbc 6#32 3#9) = .next t := by
  obtain ⟨t, h, -⟩ := beforeDerive_next
  exact ⟨beforeDerive_treeInv, t, h⟩

theorem witness_HdrValidMeansDerived_keeps : DerivedInv (afterDerive .idle [.host (.read 0x0010#16)]) ∧
    (afterDerive .idle [.host (.read 0x0010#16)]).hdrValid = true ∧ ∃ t, step (afterDerive .idle [.host (.read 0x0010#16)]) = .next t := by
  obtain ⟨t, h, -⟩ := of_nextHolds (o := step (afterDerive .idle [.host (.read 0x0010#16)])) (p := fun _ => true) (by decide +kernel)
  exact ⟨afterDerive_derivedInv _ _, by decide +kernel, t, h⟩
theorem witness_HdrValidMeansDerived_sets : ∃ t, step (beforeDerive freqAbc 6#32 3#9) = .next t ∧
    (beforeDerive freqAbc 6#32 3#9).hdrValid = false ∧ t.hdrValid = true := by
  obtain ⟨t, h, hp, -⟩ := beforeDerive_next
  exact ⟨t, h, rfl, hp⟩
theorem witness_HdrValidMeansDerived_clears : ∃ t, step (afterDerive .idle [.host (.write 0x4020#16 0#32)]) = .next t ∧
    (afterDerive .idle [.host (.write 0x4020#16 0#32)]).hdrValid = true ∧ t.hdrValid = false := by
  obtain ⟨t, h, hp⟩ := of_nextHolds (o := step (afterDerive .idle [.host (.write 0x4020#16 0#32)])) (p := (!·.hdrValid)) (by decide +kernel)
  exact ⟨t, h, by decide +kernel, by simpa using hp⟩

theorem witness_NoRunStops : TreeInv (beforeDerive freqAbc 6#32 3#9) := beforeDerive_treeInv

theorem witness_CountRunsItsProgram :
    ((at_ (.count .start)).lenL = 0#32 ∧ (at_ (.count .start)).outSlot = none) ∧
    ({ at_ (.count .start) with lenL := 0xFFFFFFFF#32, inSlot := some 0xFF#8 }.lenL.toNat = 0xFFFFFFFE + 1 ∧
      { at_ (.count .start) with lenL := 0xFFFFFFFF#32, inSlot := some 0xFF#8 }.inSlot = some 0xFF#8) ∧
    ((at_ (.count (.got 0xFF#8 0))).mode = .busy (.count (.got 0xFF#8 0)) ∧ (at_ (.count (.got 0xFF#8 0))).outSlot = none) ∧
    ({ at_ (.count (.got 0xFF#8 (0 + 1))) with inSlot := some 0#8 }.mode = .busy (.count (.got 0xFF#8 (0 + 1))) ∧
      { at_ (.count (.got 0xFF#8 (0 + 1))) with inSlot := some 0#8 }.inSlot = some 0#8) := by decide

theorem witness_CountedInputRun : ([0x0A#8, 0x00#8, 0x0A#8] : List Byte).length < 2 ^ 32 ∧
    HostReady (ready [.setLen 3, .cmd .count, xferLine [0x0A#8, 0x00#8, 0x0A#8]]) [.setLen 3, .cmd .count, xferLine [0x0A#8, 0x00#8, 0x0A#8]] [] :=
  ⟨by decide, hostReady_ready _⟩

theorem witness_CountIgnoresOrder : ([0x61#8, 0x62#8, 0x61#8] : List Byte).length < 2 ^ 32 ∧
    ([0x61#8, 0x62#8, 0x61#8] : List Byte).Perm [0x61#8, 0x61#8, 0x62#8] := by decide

theorem witness_OnlyCountAndBuildUseFreq_changes : ∃ t, step lastCount = .next t ∧ t.freq ≠ lastCount.freq := by
  obtain ⟨t, h, hp⟩ := of_nextHolds (o := step lastCount) (p := fun t => t.freqOf 0x41#8 != lastCount.freqOf 0x41#8) (by decide +kernel)
  exact ⟨t, h, fun e => by simp [State.freqOf, e] at hp⟩
theorem witness_OnlyCountAndBuildUseFreq_others : ∃ t, (at_ .clrtab).mode = .busy .clrtab ∧ Running.clrtab.instr ≠ .count ∧
    Running.clrtab.instr ≠ .build ∧ exec Running.clrtab.instr (at_ .clrtab) = .next t := ⟨_, rfl, by decide, by decide, rfl⟩

theorem witness_BuildRunsInOneStep :
    ((at_ .build).mode = .busy .build ∧ (at_ .build).outSlot = none ∧ ∀ b, (at_ .build).freqOf b = 0#32) ∧
    ({ at_ .build with freq := freqAbc }.outSlot = none ∧ ∃ b, { at_ .build with freq := freqAbc }.freqOf b ≠ 0#32) ∧
    { at_ .build with outSlot := some 0#8 }.outSlot = some 0#8 := by
  refine ⟨⟨rfl, rfl, fun b => ?_⟩, ⟨rfl, 0x61#8, by decide +kernel⟩, rfl⟩
  simp only [at_, base, State.reset, State.freqOf, entryOf, Vector.getElem_replicate]

theorem witness_ExtractMinTakesTheFirst : ([0, 1] : List Nat) ≠ [] := by decide

theorem witness_BuildMakesAStrictTree :
    { at_ .build with freq := freqAbc, total := 6#32, nsym := 3#9 }.mode = .busy .build ∧
    { at_ .build with freq := freqAbc, total := 6#32, nsym := 3#9 }.outSlot = none ∧
    CountInv { at_ .build with freq := freqAbc, total := 6#32, nsym := 3#9 } ∧
    countedSymbols { at_ .build with freq := freqAbc, total := 6#32, nsym := 3#9 }.freq ≠ [] :=
  ⟨rfl, rfl, ⟨freqSum_freqAbc, (by show (countedSymbols freqAbc).length = 3; rw [counted_freqAbc]; decide), trivial⟩, (by show countedSymbols freqAbc ≠ []; rw [counted_freqAbc]; decide)⟩

theorem witness_LeavesAscendAndOneSymbolIsOneLeaf : { at_ .build with freq := freqs [(0xFF#8, 1#32)] }.mode = .busy .build ∧
    { at_ .build with freq := freqs [(0xFF#8, 1#32)] }.outSlot = none ∧
    countedSymbols { at_ .build with freq := freqs [(0xFF#8, 1#32)] }.freq = [0xFF#8] :=
  ⟨rfl, rfl, by decide +kernel⟩

theorem witness_BuildDependsOnFreqAlone : (at_ .build).freq = { at_ .build with node := nodeAbc }.freq ∧
    (∃ t, exec .build (at_ .build) = .next t) ∧ ∃ t', exec .build { at_ .build with node := nodeAbc } = .next t' :=
  ⟨rfl, running_next (r := .build) rfl rfl, running_next (r := .build) rfl rfl⟩

theorem witness_DeriveNeedsATree : (at_ .derive).mode = .busy .derive ∧ (at_ .derive).treeValid = false ∧ (at_ .derive).outSlot = none :=
  ⟨rfl, rfl, rfl⟩

/-- For DeriveCompletes, DerivedTableIsPrefixFree, CodeLengthsAreBoundedByTheTree and ExpectedBitsAreExact, K = 3. -/
theorem witness_DeriveCompletes : (beforeDerive freqAbc 6#32 3#9).mode = .busy .derive ∧ (beforeDerive freqAbc 6#32 3#9).treeValid = true ∧
    TreeInv (beforeDerive freqAbc 6#32 3#9) ∧ (beforeDerive freqAbc 6#32 3#9).outSlot = none := ⟨rfl, rfl, beforeDerive_treeInv, rfl⟩
theorem witness_DerivedTableIsPrefixFree : ∃ t, (beforeDerive freqAbc 6#32 3#9).treeValid = true ∧ TreeInv (beforeDerive freqAbc 6#32 3#9) ∧
    2 ≤ (countedSymbols (beforeDerive freqAbc 6#32 3#9).freq).length ∧ (beforeDerive freqAbc 6#32 3#9).freqOf 0x64#8 = 0#32 ∧
    (beforeDerive freqAbc 6#32 3#9).freqOf 0x61#8 ≠ 0#32 ∧ exec .derive (beforeDerive freqAbc 6#32 3#9) = .next t := by
  obtain ⟨t, h, -⟩ := beforeDerive_next
  exact ⟨t, rfl, beforeDerive_treeInv, by show 2 ≤ (countedSymbols freqAbc).length; rw [counted_freqAbc]; decide, by decide +kernel, by decide +kernel, h⟩
theorem witness_CodeLengthsAreBoundedByTheTree : ∃ t, TreeInv (beforeDerive freqAbc 6#32 3#9) ∧
    exec .derive (beforeDerive freqAbc 6#32 3#9) = .next t ∧ (t.entry 0x61#8).valid = true := by
  obtain ⟨t, h, -, hp⟩ := beforeDerive_next
  exact ⟨t, beforeDerive_treeInv, h, hp⟩
theorem witness_ExpectedBitsAreExact : ∃ t, TreeInv (beforeDerive freqAbc 6#32 3#9) ∧ CountInv (beforeDerive freqAbc 6#32 3#9) ∧
    exec .derive (beforeDerive freqAbc 6#32 3#9) = .next t ∧
    ∀ b : Byte, ((beforeDerive freqAbc 6#32 3#9).freqOf b).toNat = [0x61#8, 0x61#8, 0x61#8, 0x62#8, 0x62#8, 0x63#8].count b := by
  obtain ⟨t, h, -⟩ := beforeDerive_next
  exact ⟨t, beforeDerive_treeInv, beforeDerive_countInv, h, by decide +kernel⟩

theorem witness_OneSymbolGetsTheCodeZero :
    { at_ .derive with treeValid := true, node := arena [.leaf 0x41#8 4#32], nnodes := 1#10 }.mode = .busy .derive ∧
    { at_ .derive with treeValid := true, node := arena [.leaf 0x41#8 4#32], nnodes := 1#10 }.treeValid = true ∧
    { at_ .derive with treeValid := true, node := arena [.leaf 0x41#8 4#32], nnodes := 1#10 }.outSlot = none ∧
    nodeAt { at_ .derive with treeValid := true, node := arena [.leaf 0x41#8 4#32], nnodes := 1#10 }.node 0 = .leaf 0x41#8 4#32 := by
  decide +kernel

theorem witness_ClrtabInvalidatesEveryEntry : (at_ .clrtab).mode = .busy .clrtab ∧ (at_ .clrtab).outSlot = none ∧
    { at_ .clrtab with outSlot := some 0#8 }.outSlot = some 0#8 := ⟨rfl, rfl, rfl⟩

/-- The four outcomes, EXPBITS on both sides of 2^31 - 1. -/
theorem witness_PackChecksBeforeAnyByte :
    (at_ (.pack .start)).mode = .busy (.pack .start) ∧ (at_ (.pack .start)).outSlot = none ∧ (at_ (.pack .start)).lenL = 0#32 ∧
    { at_ (.pack .start) with lenL := 1#32 }.lenL ≠ 0#32 ∧ { at_ (.pack .start) with lenL := 1#32 }.hdrValid = false ∧
    2 ^ 31 - 1 < { at_ (.pack .start) with lenL := 1#32, hdrValid := true, expbits := 0x80000000#40 }.expbits.toNat ∧
    { at_ (.pack .start) with lenL := 1#32, hdrValid := true, expbits := 0x7FFFFFFF#40 }.expbits.toNat ≤ 2 ^ 31 - 1 := by decide

theorem witness_PackFailsOnAnUncodedByte_fails : (at_ (.pack (.got 0xFF#8 0))).mode = .busy (.pack (.got 0xFF#8 0)) ∧
    (at_ (.pack (.got 0xFF#8 0))).outSlot = none ∧ ((at_ (.pack (.got 0xFF#8 0))).entry 0xFF#8).valid = false ∧
    ({ at_ (.pack (.got 0x00#8 0)) with tbl := codes [(0x00#8, 0#8, 0#256)] }.entry 0x00#8).len = 0#8 := by decide +kernel
theorem witness_PackFailsOnAnUncodedByte_others : ∃ t, { derived with mode := .busy (.pack (.got 0x61#8 1)), inSlot := some 0#8 }.errcode = 0#8 ∧
    ({ derived with mode := .busy (.pack (.got 0x61#8 1)), inSlot := some 0#8 }.entry 0x61#8).valid = true ∧
    ({ derived with mode := .busy (.pack (.got 0x61#8 1)), inSlot := some 0#8 }.entry 0x61#8).len ≠ 0#8 ∧
    exec .pack { derived with mode := .busy (.pack (.got 0x61#8 1)), inSlot := some 0#8 } = .next t := by
  obtain ⟨t, h, -⟩ := of_nextHolds (o := exec .pack { derived with mode := .busy (.pack (.got 0x61#8 1)), inSlot := some 0#8 })
    (p := fun _ => true) (by decide +kernel)
  exact ⟨t, rfl, by decide +kernel, by decide +kernel, h⟩

/-- A bit of a byte that is full, and the padding bits of one that is not. -/
theorem witness_PackedBytesHoldTheBits : 7 < (List.replicate 8 true).length ∧ [true].length ≤ 7 ∧ 7 < 8 * ceilDiv8 [true].length := by decide

theorem usable_abc : ∀ b ∈ ([0x61#8, 0x62#8, 0x63#8] : List Byte), (derived.entry b).usable = true := by decide +kernel

/-- Both ends of PackRun: with 9 bits the check of EXPBITS holds, with 5 it does not. -/
theorem witness_PackRun_completes : derived.hdrValid = true ∧ derived.expbits.toNat ≤ 2 ^ 31 - 1 ∧
    (∀ b ∈ ([0x61#8, 0x61#8, 0x61#8, 0x62#8, 0x62#8, 0x63#8] : List Byte), (derived.entry b).usable = true) ∧
    nbitsOf derived.tbl [0x61#8, 0x61#8, 0x61#8, 0x62#8, 0x62#8, 0x63#8] = derived.expbits.toNat ∧
    HostReady { derived with schedule := scriptTurns [.setLen 6, .cmd .pack, xferLine [0x61#8, 0x61#8, 0x61#8, 0x62#8, 0x62#8, 0x63#8]] }
      [.setLen 6, .cmd .pack, xferLine [0x61#8, 0x61#8, 0x61#8, 0x62#8, 0x62#8, 0x63#8]] [] :=
  ⟨rfl, by decide +kernel, by decide +kernel, by decide +kernel, hostReady_derived _⟩
theorem witness_PackRun_fails : (∀ b ∈ ([0x61#8, 0x62#8, 0x63#8] : List Byte), (derived.entry b).usable = true) ∧
    nbitsOf derived.tbl [0x61#8, 0x62#8, 0x63#8] ≠ derived.expbits.toNat ∧
    HostReady { derived with schedule := scriptTurns [.setLen 3, .cmd .pack, xferLine [0x61#8, 0x62#8, 0x63#8]] }
      [.setLen 3, .cmd .pack, xferLine [0x61#8, 0x62#8, 0x63#8]] [] :=
  ⟨usable_abc, by decide +kernel, hostReady_derived _⟩

theorem witness_PackRunStopsAtAnUncodedByte : ([0x61#8, 0x61#8] ++ 0x64#8 :: [0x61#8] : List Byte).length < 2 ^ 32 ∧ derived.hdrValid = true ∧
    derived.expbits.toNat ≤ 2 ^ 31 - 1 ∧ (∀ c ∈ ([0x61#8, 0x61#8] : List Byte), (derived.entry c).usable = true) ∧
    (derived.entry 0x64#8).usable = false ∧
    HostReady { derived with schedule := scriptTurns [.setLen 4, .cmd .pack, xferLine [0x61#8, 0x61#8, 0x64#8, 0x61#8]] }
      [.setLen 4, .cmd .pack, xferLine [0x61#8, 0x61#8, 0x64#8, 0x61#8]] [] :=
  ⟨by decide, rfl, by decide +kernel, by decide +kernel, by decide +kernel, hostReady_derived _⟩

theorem witness_UnpackTakesItsHeader :
    { at_ (.unpack .start) with lenL := 3#32 }.lenL.toNat < 4 ∧ { at_ (.unpack .start) with lenL := 3#32 }.outSlot = none ∧
    4 ≤ { at_ (.unpack .start) with lenL := 4#32, inSlot := some 0#8 }.lenL.toNat ∧
    { at_ (.unpack .start) with lenL := 4#32, inSlot := some 0#8 }.inSlot = some 0#8 ∧
    { at_ (.unpack (.got0 0#8)) with inSlot := some 0#8 }.mode = .busy (.unpack (.got0 0#8)) ∧
    { at_ (.unpack (.got1 0#8 0#8)) with inSlot := some 0#8 }.mode = .busy (.unpack (.got1 0#8 0#8)) ∧
    { at_ (.unpack (.got2 0#8 0#8 0#8)) with inSlot := some 0#8 }.inSlot = some 0#8 := by decide

/-- The least negative header, a header of one bit without and with its byte, a header of no bits alone and with the most trailing bytes. -/
theorem witness_UnpackChecksItsHeader :
    ((0x80#8 ++ 0x00#8 ++ 0x00#8 ++ 0x00#8 : Word).toInt < 0) ∧
    (0 ≤ (0x00#8 ++ 0x00#8 ++ 0x00#8 ++ 0x01#8 : Word).toInt ∧ (4#32 : Word).toNat - 4 < ceilDiv8 (0x00#8 ++ 0x00#8 ++ 0x00#8 ++ 0x01#8 : Word).toNat) ∧
    (ceilDiv8 (0x00#8 ++ 0x00#8 ++ 0x00#8 ++ 0x01#8 : Word).toNat ≤ (5#32 : Word).toNat - 4 ∧
      ceilDiv8 (0x00#8 ++ 0x00#8 ++ 0x00#8 ++ 0x01#8 : Word).toNat = 0 + 1) ∧
    ((0x00#8 ++ 0x00#8 ++ 0x00#8 ++ 0x00#8 : Word) = 0#32 ∧ (4#32 : Word).toNat = 4 ∧ (0xFFFFFFFF#32 : Word).toNat = 4 + (0xFFFFFFFA + 1)) := by decide

theorem prefixFree_abc : PrefixFree tblAbc := by
  have h : ∀ x, (entryOf tblAbc x).usable = true → x ∈ [0x61#8, 0x62#8, 0x63#8] := by
    intro x hx
    by_contra hn
    simp only [List.mem_cons, List.not_mem_nil, or_false, not_or] at hn
    rw [tblAbc, codes, List.foldl_cons, List.foldl_cons, List.foldl_cons, List.foldl_nil, entryOf_setEntryOf_ne _ _ (Ne.symm hn.2.2),
      entryOf_setEntryOf_ne _ _ (Ne.symm hn.2.1), entryOf_setEntryOf_ne _ _ (Ne.symm hn.1), entryOf, Vector.getElem_replicate] at hx
    exact absurd hx (by decide)
  have k : ∀ x ∈ [0x61#8, 0x62#8, 0x63#8], ∀ y ∈ [0x61#8, 0x62#8, 0x63#8], x ≠ y →
      ¬ (entryOf tblAbc x).bits <+: (entryOf tblAbc y).bits := by decide +kernel
  exact fun x y hne hx hy => k x (h x hx) y (h y hy) hne

theorem witness_MatchComparesTheWholeCode : 1 ≤ (255#8 : BitVec 8).toNat ∧ (entryOf tblAbc 0x00#8).len = 0#8 ∧ PrefixFree tblAbc :=
  ⟨by decide, by decide +kernel, prefixFree_abc⟩

/-- UNPACK of one bit with a trailing byte: a bit that decodes, and one that does not. -/
theorem witness_UnpackRunIsDecode : 0 ≤ (0x00#8 ++ 0x00#8 ++ 0x00#8 ++ 0x01#8 : Word).toInt ∧
    ([0x00#8] : List Byte).length = ceilDiv8 (0x00#8 ++ 0x00#8 ++ 0x00#8 ++ 0x01#8 : Word).toNat ∧
    4 + ([0x00#8] : List Byte).length + ([0xAA#8] : List Byte).length < 2 ^ 32 ∧
    HostReady { derived with schedule := scriptTurns [.setLen 6, .cmd .unpack, xferLine [1#8, 0#8, 0#8, 0#8, 0x00#8, 0xAA#8]] }
      [.setLen 6, .cmd .unpack, xferLine [1#8, 0#8, 0#8, 0#8, 0x00#8, 0xAA#8]] [] ∧
    (decodeBits derived.tbl (([0x00#8].flatMap bitsOfByte).take 1)).err = none ∧
    (decodeBits derived.tbl (([0x80#8].flatMap bitsOfByte).take 1)).err = some (.decodeMismatch, 1) :=
  ⟨by decide, by decide, by decide, hostReady_derived _, by decide +kernel, by decide +kernel⟩

theorem witness_PackHeaderAndStreamEnds :
    (at_ (.pack (.hdr 3))).mode = .busy (.pack (.hdr 3)) ∧ (at_ (.pack (.hdr 3))).outSlot = none ∧
    { at_ (.pack (.hdr 4)) with lenL := 1#32, inSlot := some 0#8 }.lenL.toNat = 0 + 1 ∧
    (at_ (.pack .tail)).nb = (at_ (.pack .tail)).expbits ∧ { at_ (.pack .tail) with nb := 1#40 }.nb ≠ { at_ (.pack .tail) with nb := 1#40 }.expbits ∧
    (at_ (.unpack (.gotTail 0))).mode = .busy (.unpack (.gotTail 0)) ∧
    { at_ (.unpack (.gotTail (0 + 1))) with inSlot := some 0#8 }.inSlot = some 0#8 := by decide

theorem witness_DecodeUndoesPack : PrefixFree tblAbc ∧ ∀ b ∈ ([0x61#8, 0x62#8, 0x63#8] : List Byte), (entryOf tblAbc b).usable = true :=
  ⟨prefixFree_abc, usable_abc⟩

/-- The script of the round-trip law for "aaa", E2's one symbol, whose EXPBITS is 3. -/
theorem witness_RoundTripLaw : 1 ≤ ([0x61#8, 0x61#8, 0x61#8] : List Byte).length ∧ ([0x61#8, 0x61#8, 0x61#8] : List Byte).length < 2 ^ 32 ∧
    HostReady (ready [.setLen 3, .cmd .count, xferLine [0x61#8, 0x61#8, 0x61#8], .ack, .cmd .build, .waitDone, .ack, .cmd .derive, .waitDone])
      [.setLen 3, .cmd .count, xferLine [0x61#8, 0x61#8, 0x61#8], .ack, .cmd .build, .waitDone, .ack, .cmd .derive, .waitDone] [] :=
  ⟨by decide, by decide, hostReady_ready _⟩

/-- The ends of every window: FREQ, both words of NODE 0 and NODE 510, TABLE, and every gap. -/
theorem witness_AddressMapIsAsLaidOut :
    decodeAddr 0x0400#16 = .freq 0x00#8 ∧ decodeAddr 0x07FC#16 = .freq 0xFF#8 ∧ decodeAddr 0x1000#16 = .node 0 false ∧
    decodeAddr 0x1FF4#16 = .node 510 true ∧ decodeAddr 0x4000#16 = .table 0x00#8 0 ∧ decodeAddr 0x7FFC#16 = .table 0xFF#8 15 ∧
    decodeAddr 0x0048#16 = .reg .bitpos := by decide
theorem witness_AddressMapIsAsLaidOut_gaps :
    decodeAddr 0x004C#16 = .unmapped ∧ decodeAddr 0x03FF#16 = .unmapped ∧ decodeAddr 0x0800#16 = .unmapped ∧ decodeAddr 0x0FFF#16 = .unmapped ∧
    decodeAddr 0x1FF8#16 = .unmapped ∧ decodeAddr 0x3FFF#16 = .unmapped ∧ decodeAddr 0x8000#16 = .unmapped ∧ decodeAddr 0xFFFF#16 = .unmapped := by
  decide

/-- The ends of the read-only registers, and of FREQ. -/
theorem witness_AddressMapIsAsLaidOut_reads : (0x0000#16 : Addr).toNat / 4 ≤ 1 ∧ (0x0007#16 : Addr).toNat / 4 ≤ 1 ∧ (0x0014#16 : Addr).toNat / 4 = 5 ∧
    (0x0018#16 : Addr).toNat / 4 = 6 ∧ 8 ≤ (0x0020#16 : Addr).toNat / 4 ∧ (0x004B#16 : Addr).toNat / 4 ≤ 18 ∧
    (0x0400#16 : Addr).toNat = 0x0400 + 4 * (0x00#8 : Byte).toNat ∧ (0x07FC#16 : Addr).toNat = 0x0400 + 4 * (0xFF#8 : Byte).toNat := by decide

theorem witness_AccessesMoveOneWord : (0x0000#16 : Addr).toNat / 4 = (0x0003#16 : Addr).toNat / 4 := by decide

theorem witness_ReadsChangeNothing : base.mode = .idle ∧ (∀ i x, decodeAddr 0x0400#16 = .node i x → i < base.nnodes.toNat) ∧ TreeInv base :=
  ⟨rfl, fun i x h => (by rw [show decodeAddr 0x0400#16 = .freq 0#8 by decide] at h; cases h),
    ⟨fun _ _ h => (by cases h), fun _ => ⟨rfl, rfl⟩, fun h => (by cases h)⟩⟩

/-- The registers at the ends of the ranges, an unmapped word, STATUS. -/
theorem witness_ReadsChangeNothing_registers : (0x000F#16 : Addr).toNat / 4 < 4 ∧ 5 ≤ (0x0014#16 : Addr).toNat / 4 ∧ (0x0027#16 : Addr).toNat / 4 ≤ 9 ∧
    decodeAddr 0x004C#16 = .unmapped ∧ (0x0010#16 : Addr).toNat / 4 = 4 := by decide

theorem witness_RegistersReadTheirFields : base.mode = .idle := rfl

theorem witness_StatusReadsAndClears : base.mode = .idle ∧ (0x0013#16 : Addr).toNat / 4 = 4 := by decide

theorem witness_UnitReadsWhileBusyAreDraws : (at_ .build).mode = .busy .build ∧
    (0x028 ≤ (0x004B#16 : Addr).toNat ∧ (0x004B#16 : Addr).toNat < 0x04C) ∧ (0x0400 ≤ (0x07FF#16 : Addr).toNat ∧ (0x07FF#16 : Addr).toNat < 0x0800) ∧
    (0x1000 ≤ (0x1FF7#16 : Addr).toNat ∧ (0x1FF7#16 : Addr).toNat < 0x1FF8) ∧ (0x4000 ≤ (0x7FFF#16 : Addr).toNat ∧ (0x7FFF#16 : Addr).toNat < 0x8000) ∧
    (0x0010#16 : Addr).toNat / 4 = 4 := by decide

theorem witness_CtrlWriteEnablesOrResets : (0x000B#16 : Addr).toNat / 4 = 2 ∧ (0xFFFFFFFD#32 : Word).getLsbD 1 = false ∧
    (0x00000003#32 : Word).getLsbD 1 = true := by decide

theorem witness_LenIsTheHosts_write : (0x001C#16 : Addr).toNat / 4 = 7 ∧ base.mode = .idle ∧ ∃ t, exec .count base = .next t := ⟨by decide, rfl, _, rfl⟩
theorem witness_LenIsTheHosts_changes : ∃ t, step (ready [.setLen 5]) = .next t ∧ t.len ≠ (ready [.setLen 5]).len := by
  obtain ⟨t, h, hp⟩ := of_nextHolds (o := step (ready [.setLen 5])) (p := fun t => t.len == 5#32) (by decide +kernel)
  exact ⟨t, h, by have e : t.len = 5#32 := by simpa using hp
                  rw [e]; decide⟩

/-- Entry FF, words 0, 8 and 15. -/
theorem witness_TableWritesReadBack : base.mode = .idle ∧ (0x7FC0#16 : Addr).toNat = 0x4000 + 64 * (0xFF#8 : Byte).toNat + 4 * 0 ∧
    (0x7FE0#16 : Addr).toNat = 0x4000 + 64 * (0xFF#8 : Byte).toNat + 4 * 8 ∧
    (0x7FFC#16 : Addr).toNat = 0x4000 + 64 * (0xFF#8 : Byte).toNat + 4 * 15 := by decide

theorem witness_SavedEntryReloads_idle : derived.mode = .idle ∧ base.mode = .idle ∧ 0xFF#8 ∈ symbols ∧ 0x00#8 ∉ [0xFF#8] ∧ ∀ b : Byte, b ∈ symbols :=
  ⟨rfl, rfl, mem_symbols _, by decide, mem_symbols⟩
theorem witness_SavedEntryReloads : 255 < 2 ^ 8 ∧ 0x100000001 < 2 ^ 256 ∧
    HostReady (ready [.loadEnt (0xFF#8 : Byte).toNat 255 0x100000001]) [.loadEnt (0xFF#8 : Byte).toNat 255 0x100000001] [] :=
  ⟨by decide, by decide, hostReady_ready _⟩

/-- Nodes 2 (a leaf), 3 (internal) and 510 (past NNODES). -/
theorem witness_NodeWindowReadsTheArena : derived.mode = .idle ∧ 510 < 511 ∧ (0x1FF4#16 : Addr).toNat = 0x1000 + 8 * 510 + 4 ∧
    2 < derived.nnodes.toNat ∧ nodeAt derived.node 2 = .leaf 0x63#8 1#32 ∧ nodeAt derived.node 3 = .internal 3#32 2#9 1#9 ∧
    derived.nnodes.toNat ≤ 510 := by decide +kernel

/-- A byte put out, a byte taken by the CORE, a byte offered. -/
theorem witness_StreamsKeepTheirBytes : (∃ t, step (at_ (.pack (.hdr 1))) = .next t) ∧
    (∃ t, { at_ (.unpack (.got0 0#8)) with inSlot := some 1#8 }.inSlot = some 1#8 ∧
      step { at_ (.unpack (.got0 0#8)) with inSlot := some 1#8 } = .next t) ∧
    ∃ t, (ready [.input [0xFF]]).inSlot = none ∧ step (ready [.input [0xFF]]) = .next t ∧ t.inSlot = some 0xFF#8 :=
  ⟨⟨_, rfl⟩, ⟨_, rfl, rfl⟩, ⟨_, rfl, rfl, rfl⟩⟩

/-- A CORE that waits for a byte. -/
theorem witness_IrqIsEnableAndDone_ready : ∃ u k, (at_ (.unpack (.got0 0#8))).mode = .busy (.unpack (.got0 0#8)) ∧
    programOf (.unpack (.got0 0#8)) (at_ (.unpack (.got0 0#8))) = some (u, .inByte k) := ⟨_, _, rfl, rfl⟩
theorem witness_IrqIsEnableAndDone_rises : ∃ t, step (at_ .clrtab) = .next t ∧ (at_ .clrtab).done = false ∧ t.done = true := ⟨_, rfl, rfl, rfl⟩
theorem witness_IrqIsEnableAndDone_falls : ∃ t, step { ready [.ack] with done := true } = .next t ∧ { ready [.ack] with done := true }.done = true ∧
    t.done = false := by
  obtain ⟨t, h, hp⟩ := of_nextHolds (o := step { ready [.ack] with done := true }) (p := (!·.done)) (by decide +kernel)
  exact ⟨t, h, rfl, by simpa using hp⟩
theorem witness_IrqIsEnableAndDone_enables : ∃ t, step (ready [.wr 8 1]) = .next t ∧ t.irqEn ≠ (ready [.wr 8 1]).irqEn := by
  obtain ⟨t, h, hp⟩ := of_nextHolds (o := step (ready [.wr 8 1])) (p := (·.irqEn)) (by decide +kernel)
  exact ⟨t, h, by rw [hp]; decide⟩

theorem witness_ResetClearsTheCore : (0x0008#16 : Addr).toNat / 4 = 2 ∧ (2#32 : Word).getLsbD 1 = true ∧
    ({ base with schedule := [.host (.reset (.offer 0#8))] }.schedule = .host (.reset (.offer 0#8)) :: [] ∧ ∀ a, Presented.offer 0#8 ≠ .read a) ∧
    { base with schedule := [.host (.reset (.read 0x1000#16))] }.schedule = .host (.reset (.read 0x1000#16)) :: [] :=
  ⟨by decide, by decide, ⟨rfl, fun a h => by cases h⟩, rfl⟩

end Sys2Proof.Machine.Tests
end

section
/-! SUPPORT. What a point of a program and a turn of a BUSY CORE leave alone, in the form the invariants of every step use
(40_command_control.md R74, R77 to R81). -/

namespace Sys2Proof.Machine

/-! ### What a point writes -/

/-- A point writes the control registers, the slots and the byte counters, nothing else (R78 to R81). -/
theorem perform_frame (p : Point) (s : State) : p.perform s = { s with
    mode := (p.perform s).mode, done := (p.perform s).done, errcode := (p.perform s).errcode, errinfo := (p.perform s).errinfo
    inSlot := (p.perform s).inSlot, inCount := (p.perform s).inCount
    outSlot := (p.perform s).outSlot, outCount := (p.perform s).outCount } := by
  cases p with
  | inByte k =>
    unfold Point.perform
    dsimp only
    split <;> rfl
  | outByte b k => rfl
  | complete => rfl
  | fail e info => rfl

@[simp] theorem perform_len (p : Point) (s : State) : (p.perform s).len = s.len := by rw [perform_frame]
@[simp] theorem perform_lenL (p : Point) (s : State) : (p.perform s).lenL = s.lenL := by rw [perform_frame]
@[simp] theorem perform_treeValid (p : Point) (s : State) : (p.perform s).treeValid = s.treeValid := by rw [perform_frame]
@[simp] theorem perform_hdrValid (p : Point) (s : State) : (p.perform s).hdrValid = s.hdrValid := by rw [perform_frame]
@[simp] theorem perform_nsym (p : Point) (s : State) : (p.perform s).nsym = s.nsym := by rw [perform_frame]
@[simp] theorem perform_total (p : Point) (s : State) : (p.perform s).total = s.total := by rw [perform_frame]
@[simp] theorem perform_nnodes (p : Point) (s : State) : (p.perform s).nnodes = s.nnodes := by rw [perform_frame]
@[simp] theorem perform_root (p : Point) (s : State) : (p.perform s).root = s.root := by rw [perform_frame]
@[simp] theorem perform_maxlen (p : Point) (s : State) : (p.perform s).maxlen = s.maxlen := by rw [perform_frame]
@[simp] theorem perform_expbits (p : Point) (s : State) : (p.perform s).expbits = s.expbits := by rw [perform_frame]
@[simp] theorem perform_freq (p : Point) (s : State) : (p.perform s).freq = s.freq := by rw [perform_frame]
@[simp] theorem perform_node (p : Point) (s : State) : (p.perform s).node = s.node := by rw [perform_frame]
@[simp] theorem perform_tbl (p : Point) (s : State) : (p.perform s).tbl = s.tbl := by rw [perform_frame]

/-- Every state the point `p` can lead to from `u` has the property `P`. -/
def Point.Leads (P : State → Prop) (u : State) : Point → Prop
  | .inByte k => ∀ b, P (takeInput (k b) u)
  | .outByte b k => P (putOutput b k u)
  | .complete => P (completeCommand u)
  | .fail e info => P (failCommand e info u)

/-- A point enabled in `s` is performed in `u`, which holds the same input byte. -/
theorem Point.Leads.perform {P : State → Prop} {s u : State} {p : Point} (h : p.Leads P u) (he : p.enabled s = true)
    (hi : u.inSlot = s.inSlot) : P (p.perform u) := by
  cases p with
  | inByte k =>
    obtain ⟨b, hb⟩ := Option.isSome_iff_exists.1 he
    simp only [Point.perform, hi, hb]
    exact h b
  | outByte b k => exact h
  | complete => exact h
  | fail e info => exact h

/-- After a point of a command of `i` the CORE is IDLE or still runs `i`. -/
theorem Point.StaysIn.leads {i : Instr} {p : Point} (h : p.StaysIn i) (u : State) :
    p.Leads (fun t => t.mode = .idle ∨ ∃ r, t.mode = .busy r ∧ r.instr = i) u := by
  cases p with
  | inByte k => exact fun b => .inr ⟨k b, rfl, h b⟩
  | outByte b k => exact .inr ⟨k, rfl, h⟩
  | complete => exact .inl rfl
  | fail e info => exact .inl rfl

theorem perform_mode {s u : State} {r : Running} {p : Point} (hp : programOf r s = some (u, p)) (he : p.enabled s = true) :
    (p.perform u).mode = .idle ∨ ∃ r', (p.perform u).mode = .busy r' ∧ r'.instr = r.instr :=
  ((programOf_staysIn hp).leads u).perform he (programOf_sameOutside hp).inSlot

/-! ### What the programs write -/

/-- `s'` differs from `s` only in what COUNT's internal statements write (41_frequency_counter.md R85). -/
def SameButCount (s s' : State) : Prop :=
  s' = { s with
    freq := s'.freq, nsym := s'.nsym, total := s'.total, treeValid := s'.treeValid, hdrValid := s'.hdrValid
    nnodes := s'.nnodes, root := s'.root }

/-- `s'` differs from `s` only in what BUILD's internal statements write (42_huffman_tree_builder.md R91). -/
def SameButBuild (s s' : State) : Prop :=
  s' = { s with
    treeValid := s'.treeValid, hdrValid := s'.hdrValid, nnodes := s'.nnodes, root := s'.root, node := s'.node, q := s'.q }

/-- `s'` differs from `s` only in what the internal statements of DERIVE and CLRTAB write (43_code_table_deriver.md R97,
44_code_table_sram.md R104). -/
def SameButTable (s s' : State) : Prop :=
  s' = { s with tbl := s'.tbl, expbits := s'.expbits, maxlen := s'.maxlen, hdrValid := s'.hdrValid }

theorem countProgram_same (c : CountCont) (s : State) : SameButCount s (countProgram c s).1 := by
  cases c with
  | start => rw [countProgram, countLoop_same]; rfl
  | got b left => rw [countProgram, countLoop_same]; rfl

theorem buildProgram_same (s : State) : SameButBuild s (buildProgram s).1 := by
  unfold buildProgram
  split <;> rfl

theorem deriveProgram_same {s u : State} {p : Point} (h : deriveProgram s = some (u, p)) : SameButTable s u := by
  unfold deriveProgram at h
  split at h
  · split at h <;> cases h
    rfl
  · cases h; rfl

/-- `s'` differs from `s` only in what the internal statements of the running command write. -/
def Running.Writes (s s' : State) : Running → Prop
  | .count _ => SameButCount s s'
  | .build => SameButBuild s s'
  | .derive => SameButTable s s'
  | .clrtab => SameButTable s s'
  | .pack _ => SameButPack s s'
  | .unpack _ => SameButUnpack s s'

/-- What holds of a program's result holds of the state and the point it answers. -/
theorem of_program (motive : State → Point → Prop) {q : State × Point} {u : State} {p : Point} (h : some q = some (u, p))
    (hq : motive q.1 q.2) : motive u p := by
  cases h
  exact hq

/-- What each command's program writes: the one frame the invariants use (20_memory.md R55). -/
theorem programOf_writes {r : Running} {s u : State} {p : Point} (h : programOf r s = some (u, p)) : r.Writes s u := by
  cases r with
  | count c => exact of_program (fun u _ => SameButCount s u) h (countProgram_same c s)
  | build => exact of_program (fun u _ => SameButBuild s u) h (buildProgram_same s)
  | derive => exact deriveProgram_same h
  | clrtab =>
    cases h
    rfl
  | pack c => exact of_program (fun u _ => SameButPack s u) h (packProgram_same c s)
  | unpack c => exact of_program (fun u _ => SameButUnpack s u) h (unpackProgram_same c s)

/-- Only COUNT writes FREQ, NSYM and TOTAL (20_memory.md R55). -/
theorem programOf_keeps_counts {r : Running} {s u : State} {p : Point} (h : programOf r s = some (u, p)) (hr : r.instr ≠ .count) :
    u.freq = s.freq ∧ u.nsym = s.nsym ∧ u.total = s.total := by
  have hw := programOf_writes h
  cases r <;> simp only [Running.Writes] at hw
  case count => exact absurd rfl hr
  all_goals exact hw ▸ ⟨rfl, rfl, rfl⟩

/-- Only COUNT and BUILD write the arena and its registers (20_memory.md R55). -/
theorem programOf_keeps_tree {r : Running} {s u : State} {p : Point} (h : programOf r s = some (u, p)) (hc : r.instr ≠ .count)
    (hb : r.instr ≠ .build) :
    u.treeValid = s.treeValid ∧ u.nnodes = s.nnodes ∧ u.root = s.root ∧ u.freq = s.freq ∧ u.node = s.node := by
  have hw := programOf_writes h
  cases r <;> simp only [Running.Writes] at hw
  case count => exact absurd rfl hc
  case build => exact absurd rfl hb
  all_goals exact hw ▸ ⟨rfl, rfl, rfl, rfl, rfl⟩

/-- The point ends the command (40_command_control.md R80, R81). -/
def Point.Ends : Point → Prop
  | .inByte _ => False
  | .outByte _ _ => False
  | .complete => True
  | .fail _ _ => True

/-- BUILD, DERIVE and CLRTAB end in their first step (42_huffman_tree_builder.md R91, 43_code_table_deriver.md R97,
44_code_table_sram.md R104). -/
theorem programOf_ends {r : Running} {s u : State} {p : Point} (h : programOf r s = some (u, p))
    (hr : r.instr ∈ [Instr.build, .derive, .clrtab]) : p.Ends := by
  cases r with
  | build =>
    simp only [programOf, buildProgram, Option.some.injEq] at h
    split at h <;> cases h <;> trivial
  | derive =>
    simp only [programOf, deriveProgram] at h
    split at h
    · split at h <;> cases h
      trivial
    · cases h
      trivial
  | clrtab =>
    cases h
    trivial
  | count c => exact absurd hr (by simp [Running.instr])
  | pack c => exact absurd hr (by simp [Running.instr])
  | unpack c => exact absurd hr (by simp [Running.instr])

/-! ### Counters -/

/-- A counter below a bound of its own width does not wrap. -/
theorem toNat_succ32 {w v : Word} (h : w.toNat < v.toNat) : (w + 1#32).toNat = w.toNat + 1 := by
  have := v.isLt
  rw [BitVec.toNat_add, BitVec.toNat_ofNat]
  omega

/-! ### A turn of a BUSY CORE -/

/-- `t` differs from `s` only in what the HOST's turns of a BUSY CORE change, a reset apart: no byte leaves `in_slot`, none put out is lost
(40_command_control.md R74, R76). -/
structure HostTurn (s t : State) : Prop where
  frame : t = { s with
    irqEn := t.irqEn, done := t.done, rej := t.rej, inSlot := t.inSlot, outSlot := t.outSlot
    draws := t.draws, schedule := t.schedule, reads := t.reads, taken := t.taken }
  emitted : t.emitted = s.emitted
  inSlot : s.inSlot = none ∨ t.inSlot = s.inSlot

theorem WriteMove.hostTurn {a : Addr} {v : Word} {s t : State} (h : WriteMove a v s t) (hm : s.mode ≠ .idle)
    (hr : ¬ (a.toNat / 4 = 2 ∧ v.getLsbD 1 = true)) : HostTurn s t := by
  cases h with
  | ignored => exact ⟨rfl, rfl, .inr rfl⟩
  | accept i _ hi _ => exact absurd hi hm
  | illegal e _ hi _ => exact absurd hi hm
  | reject r => exact ⟨rfl, rfl, .inr rfl⟩
  | status => exact ⟨rfl, rfl, .inr rfl⟩
  | irqEn => exact ⟨rfl, rfl, .inr rfl⟩
  | reset ha hv => exact absurd ⟨ha, hv⟩ hr
  | len _ hi => exact absurd hi hm
  | table e w _ _ hi => exact absurd hi hm

/-- A step of a BUSY CORE, a reset apart: a turn of the HOST, or the program's next point. -/
theorem step_busy {s t : State} (h : step s = .next t) (hm : s.mode ≠ .idle) (hr : ¬ ResetScheduled s) :
    HostTurn s t ∨ ∃ l r u p, s.mode = .busy r ∧ programOf r { s with schedule := l } = some (u, p) ∧ p.enabled s = true ∧
      t = p.perform u := by
  cases step_move h with
  | pass l => exact .inl ⟨rfl, rfl, .inr rfl⟩
  | core l r u p hb hp he => exact .inr ⟨l, r, u, p, hb, hp, he, rfl⟩
  | write a v rest t hs hw =>
    obtain ⟨h1, h2, h3⟩ := hw.hostTurn hm fun hc => hr (.inl ⟨a, v, rest, hs, hc⟩)
    exact .inl ⟨h1, h2, h3⟩
  | read w l => exact .inl ⟨rfl, rfl, .inr rfl⟩
  | offer b l hi => exact .inl ⟨rfl, rfl, .inl hi⟩
  | take b l ho => exact .inl ⟨rfl, emitted_take ho, .inr rfl⟩
  | reset p rest hs => exact absurd (.inr ⟨p, rest, hs⟩) hr

theorem lenL_of_step {s t : State} (h : step s = .next t) (hm : s.mode ≠ .idle) (hr : ¬ ResetScheduled s) : t.lenL = s.lenL := by
  rcases step_busy h hm hr with ht | ⟨l, r, u, p, -, hp, -, rfl⟩
  · rw [ht.frame]
  · rw [perform_lenL, (programOf_sameOutside hp).lenL]

/-- A trace that the HOST's turns keep, and that a core step keeps or ends as it should, is kept or ended so by every step but a reset. -/
theorem TraceStep.of_step {P Q : List Byte → State → Prop} {S : List Byte} {s t : State} (h : step s = .next t) (hm : s.mode ≠ .idle)
    (hr : ¬ ResetScheduled s) (host : HostTurn s t → P S t)
    (core : ∀ l r u p, s.mode = .busy r → programOf r { s with schedule := l } = some (u, p) → p.enabled s = true →
      TraceStep P Q S { s with schedule := l } (p.perform u)) : TraceStep P Q S s t := by
  rcases step_busy h hm hr with ht | ⟨l, r, u, p, hb, hp, he, rfl⟩
  · exact .inl ⟨ht.inSlot, host ht⟩
  · exact core l r u p hb hp he

end Sys2Proof.Machine
end

section
/-! SUPPORT. FREQ, NSYM and TOTAL at every step, and the trace of COUNT (10_state.md R28, R29; 41_frequency_counter.md R85, R86). -/

namespace Sys2Proof.Machine

/-- While COUNT does not run, CountInv is about FREQ and its two registers only. -/
theorem countInv_of_sums {s : State} (hs : freqSum s.freq = s.total.toNat) (hn : (countedSymbols s.freq).length = s.nsym.toNat)
    (hm : ∀ c, s.mode ≠ .busy (.count c)) : CountInv s := by
  refine ⟨hs, hn, ?_⟩
  split
  · exact absurd ‹_› (hm _)
  · exact absurd ‹_› (hm _)
  · trivial

/-- CountInv, and an IDLE CORE has counted `lenL` bytes: what a COUNT step leads to. -/
def CountSound (t : State) : Prop :=
  CountInv t ∧ (t.mode = .idle → t.done = true ∧ t.total = t.lenL ∧ t.inCount = t.lenL)

/-- At the head of the loop every byte taken is counted. -/
theorem countLoop_leads {left : Nat} {s : State} (hs : freqSum s.freq = s.total.toNat)
    (hn : (countedSymbols s.freq).length = s.nsym.toNat) (hl : s.inCount.toNat + left = s.lenL.toNat)
    (ht : s.total = s.inCount) : (countLoop left s).2.Leads CountSound (countLoop left s).1 := by
  cases left with
  | zero =>
    have hi : s.inCount = s.lenL := BitVec.eq_of_toNat_eq hl
    exact ⟨⟨hs, hn, trivial⟩, fun _ => ⟨rfl, ht.trans hi, hi⟩⟩
  | succ k =>
    intro b
    have h1 := toNat_succ32 (w := s.inCount) (v := s.lenL) (by omega)
    refine ⟨⟨hs, hn, ?_, ?_⟩, fun hm => nomatch hm⟩
    · show (s.inCount + 1#32).toNat + k = s.lenL.toNat
      omega
    · show s.total.toNat + 1 = (s.inCount + 1#32).toNat
      rw [ht, h1]

theorem countProgram_leads {c : CountCont} {s : State} (h : CountInv s) (hm : s.mode = .busy (.count c)) :
    (countProgram c s).2.Leads CountSound (countProgram c s).1 := by
  obtain ⟨hs, hn, h⟩ := h
  rw [hm] at h
  cases c with
  | start =>
    have h : s.inCount = 0#32 := h
    refine countLoop_leads (s := countClear s) freqSum_zero (congrArg List.length countedSymbols_zero) ?_ h.symm
    show s.inCount.toNat + s.lenL.toNat = s.lenL.toNat
    rw [h]
    exact Nat.zero_add _
  | got b left =>
    obtain ⟨hl, ht⟩ : s.inCount.toNat + left = s.lenL.toNat ∧ s.total.toNat + 1 = s.inCount.toNat := h
    obtain ⟨hs', hn'⟩ := countByte_keeps b hs hn (ht ▸ s.inCount.isLt)
    refine countLoop_leads hs' hn' hl (BitVec.eq_of_toNat_eq ?_)
    show (s.total + 1#32).toNat = s.inCount.toNat
    rw [toNat_succ32 (v := s.inCount) (by omega), ht]

/-- After a step of another command COUNT does not run. -/
theorem not_counting {s u : State} {r : Running} {p : Point} (hp : programOf r s = some (u, p)) (he : p.enabled s = true)
    (hr : r.instr ≠ .count) (c : CountCont) : (p.perform u).mode ≠ .busy (.count c) := by
  intro hc
  rcases perform_mode hp he with hi | ⟨r', hr', hi⟩
  · cases hi.symm.trans hc
  · cases hr'.symm.trans hc
    exact hr hi.symm

theorem instr_eq_count {r : Running} (h : r.instr = .count) : ∃ c, r = .count c := by
  cases r with
  | count c => exact ⟨c, rfl⟩
  | _ => cases h

theorem CountInv.core {s u : State} {r : Running} {p : Point} (h : CountInv s) (hm : s.mode = .busy r)
    (hp : programOf r s = some (u, p)) (he : p.enabled s = true) : CountInv (p.perform u) := by
  by_cases hr : r.instr = .count
  · obtain ⟨c, rfl⟩ := instr_eq_count hr
    have hl := of_program (fun u p => p.Leads CountSound u) hp (countProgram_leads h hm)
    exact (hl.perform he (programOf_sameOutside hp).inSlot).1
  · obtain ⟨hf, hn, ht⟩ := programOf_keeps_counts hp hr
    refine countInv_of_sums ?_ ?_ fun c hc => ?_
    · rw [perform_freq, perform_total, hf, ht]; exact h.1
    · rw [perform_freq, perform_nsym, hf, hn]; exact h.2.1
    · exact not_counting hp he hr c hc

theorem countInv_kept : KeptByMoves CountInv where
  schedule _ _ h := h
  core _ _ _ _ h hm hp he := h.core hm hp he
  accept s i h _ := ⟨h.1, h.2.1, by cases i <;> trivial⟩
  illegal s w h hm _ := countInv_of_sums h.1 h.2.1 fun c hc => by rw [acceptIllegal_mode, hm] at hc; cases hc
  reject _ h _ := h
  status _ _ h := h
  irqEn _ _ h := h
  reset s _ := ⟨freqSum_zero, congrArg List.length countedSymbols_zero, trivial⟩
  len _ _ h _ := h
  table _ _ _ _ h _ := h
  read _ _ h := h
  draw _ h := h
  offer _ _ h _ := h
  take _ _ h _ := h

theorem CountTrace.host {S : List Byte} {s t : State} (h : CountTrace S s) (ht : HostTurn s t) : CountTrace S t := by
  have hf := ht.frame
  exact h.congr (by rw [hf]) (by rw [hf]) (by rw [hf]) (by rw [hf])

/-- Settles O11: the sums follow each counted byte, the place of COUNT says how many are counted, and its trace which ones. -/
theorem stepKeepsCountInv : Obligations.StepKeepsCountInv := by
  refine ⟨fun s t => countInv_kept.step, fun s t c h hm hx hi => ?_, fun s t hm hx => ?_,
    fun S s t h hs hr => ⟨lenL_of_step hs h.busy hr, ?_⟩⟩
  · obtain ⟨u, p, hp, ⟨-, rfl⟩ | ⟨he, rfl⟩⟩ := coreStep_next ((exec_running hm).symm.trans hx)
    · rw [hm] at hi; cases hi
    · have hl := of_program (fun u p => p.Leads CountSound u) hp (countProgram_leads h hm)
      obtain ⟨⟨hsum, hsym, -⟩, hend⟩ := hl.perform he (programOf_sameOutside hp).inSlot
      obtain ⟨hd, ht, hc⟩ := hend hi
      exact ⟨hd, ht ▸ hsum, ht, hc, hsym⟩
  · rw [exec_idle hm] at hx
    cases hx
    exact ⟨rfl, rfl⟩
  · exact .of_step hs h.busy hr h.host fun l r u p hm hp he => CountTrace.core (s := { s with schedule := l }) h hm hp he

end Sys2Proof.Machine
end

section
/-! SUPPORT. The place of a stream command against IN_COUNT at every step (10_state.md R26; 41_frequency_counter.md R85, 45_bit_packer.md R111,
46_bit_unpacker_decoder.md R116). -/

namespace Sys2Proof.Machine

/-- What a point does with PositionInv from `u`: it leads to states that meet it, and a byte is taken only below `lenL`. -/
def Point.InPlace (u : State) (p : Point) : Prop :=
  p.Leads PositionInv u ∧ ∀ k, p = .inByte k → u.inCount.toNat < u.lenL.toNat

theorem inPlace_inByte {u : State} {k : Byte → Running} (h : u.inCount.toNat < u.lenL.toNat)
    (hk : ∀ b, PositionInv (takeInput (k b) u)) : (Point.inByte k).InPlace u := ⟨hk, fun _ _ => h⟩

/-- A byte is taken where `left + 1` of `total` bytes are to come: `left` are to come after it. -/
theorem inPlace_take {u : State} {k : Byte → Running} {left total : Nat} (h : u.inCount.toNat + (left + 1) = total)
    (hl : total ≤ u.lenL.toNat) (hk : ∀ b, (u.inCount + 1#32).toNat + left = total → PositionInv (takeInput (k b) u)) :
    (Point.inByte k).InPlace u := by
  have hlt : u.inCount.toNat < u.lenL.toNat := by omega
  exact inPlace_inByte hlt fun b => hk b (by rw [toNat_succ32 hlt]; omega)

theorem inPlace_outByte {u : State} {b : Byte} {k : Running} (h : PositionInv (putOutput b k u)) : (Point.outByte b k).InPlace u :=
  ⟨h, fun _ hk => nomatch hk⟩

theorem inPlace_end {u : State} {p : Point} (h : p.Ends) : p.InPlace u := by
  cases p with
  | inByte k => exact h.elim
  | outByte b k => exact h.elim
  | complete => exact ⟨trivial, fun _ hk => nomatch hk⟩
  | fail e info => exact ⟨trivial, fun _ hk => nomatch hk⟩

theorem inPlace_complete (u : State) : Point.complete.InPlace u := inPlace_end trivial

theorem inPlace_fail (u : State) (e : ErrCode) (info : Word) : (Point.fail e info).InPlace u := inPlace_end trivial

/-! ### COUNT -/

theorem countLoop_inPlace {left : Nat} {s : State} (h : s.inCount.toNat + left = s.lenL.toNat) :
    (countLoop left s).2.InPlace (countLoop left s).1 := by
  cases left with
  | zero => exact inPlace_complete s
  | succ k => exact inPlace_take h (Nat.le_refl _) fun _ h => h

theorem countProgram_inPlace {c : CountCont} {s : State} (h : PositionInv s) (hm : s.mode = .busy (.count c)) :
    (countProgram c s).2.InPlace (countProgram c s).1 := by
  rw [PositionInv, hm] at h
  cases c with
  | start =>
    refine countLoop_inPlace (s := countClear s) ?_
    show s.inCount.toNat + s.lenL.toNat = s.lenL.toNat
    rw [show s.inCount = 0#32 from h]
    exact Nat.zero_add _
  | got b left => exact countLoop_inPlace (s := countByte b s) h

/-! ### PACK -/

theorem packCheck_inPlace (s : State) : (packCheck s).2.InPlace (packCheck s).1 := by
  unfold packCheck
  split
  · exact inPlace_complete s
  · exact inPlace_fail s _ _

theorem packLoop_inPlace {left : Nat} {s : State} (h : s.inCount.toNat + left = s.lenL.toNat) :
    (packLoop left s).2.InPlace (packLoop left s).1 := by
  cases left with
  | zero =>
    rw [packLoop, packEnd]
    split
    · exact packCheck_inPlace s
    · exact inPlace_outByte (BitVec.eq_of_toNat_eq h : s.inCount = s.lenL)
  | succ k => exact inPlace_take h (Nat.le_refl _) fun _ h => h

theorem packBits_inPlace (b : Byte) {left : Nat} (j : Nat) {s : State} (h : s.inCount.toNat + left = s.lenL.toNat) :
    (packBits b left j s).2.InPlace (packBits b left j s).1 := by
  induction j generalizing s with
  | zero => exact packLoop_inPlace h
  | succ j ih =>
    rw [packBits]
    split
    · exact inPlace_outByte h
    · exact ih h

theorem packStart_inPlace {s : State} (h : s.inCount = 0#32) : (packStart s).2.InPlace (packStart s).1 := by
  unfold packStart
  split
  · exact inPlace_fail s _ _
  split
  · exact inPlace_fail s _ _
  split
  · exact inPlace_fail s _ _
  · exact inPlace_outByte h

theorem packProgram_inPlace {c : PackCont} {s : State} (h : PositionInv s) (hm : s.mode = .busy (.pack c)) :
    (packProgram c s).2.InPlace (packProgram c s).1 := by
  rw [PositionInv, hm] at h
  cases c with
  | start => exact packStart_inPlace h
  | hdr k =>
    have h : s.inCount = 0#32 := h
    rw [packProgram]
    split
    · exact inPlace_outByte h
    · refine packLoop_inPlace ?_
      show s.inCount.toNat + s.lenL.toNat = s.lenL.toNat
      rw [h]
      exact Nat.zero_add _
  | got b left =>
    rw [packProgram]
    split
    · exact packBits_inPlace b _ h
    · exact inPlace_fail s _ _
  | bits b j left => exact packBits_inPlace b j h
  | tail => exact packCheck_inPlace s

/-! ### UNPACK -/

theorem unpackTail_inPlace {left : Nat} {s : State} (h : s.inCount.toNat + left = s.lenL.toNat) :
    (unpackTail left s).2.InPlace (unpackTail left s).1 := by
  cases left with
  | zero => exact inPlace_complete s
  | succ k => exact inPlace_take h (Nat.le_refl _) fun _ h => h

theorem unpackLoop_inPlace {left : Nat} {s : State} (h : s.inCount.toNat + left = 4 + s.nbytes.toNat)
    (hl : 4 + s.nbytes.toNat ≤ s.lenL.toNat) : (unpackLoop left s).2.InPlace (unpackLoop left s).1 := by
  cases left with
  | zero =>
    rw [unpackLoop, unpackEnd]
    split
    · exact unpackTail_inPlace (by omega)
    · exact inPlace_fail s _ _
  | succ k => exact inPlace_take h hl fun _ h => ⟨h, hl⟩

theorem unpackBits_inPlace (b : Byte) {left : Nat} (k : Nat) {s : State} (h : s.inCount.toNat + left = 4 + s.nbytes.toNat)
    (hl : 4 + s.nbytes.toNat ≤ s.lenL.toNat) : (unpackBits b left k s).2.InPlace (unpackBits b left k s).1 := by
  induction k generalizing s with
  | zero => exact unpackLoop_inPlace h hl
  | succ k ih =>
    rw [unpackBits]
    split
    · dsimp only
      split
      · split
        · exact inPlace_fail _ _ _
        · exact ih h hl
      · exact inPlace_outByte ⟨h, hl⟩
      · exact inPlace_fail _ _ _
    · exact ih h hl

theorem toNat_lt_of_toInt_nonneg {n : Word} (h : ¬ n.toInt < 0) : n.toNat < 2 ^ 31 := by
  rw [BitVec.toInt_neg_iff] at h
  omega

theorem toNat_ofNat_ceilDiv8 {n : Word} (h : n.toNat < 2 ^ 31) : (BitVec.ofNat 29 (ceilDiv8 n.toNat)).toNat = ceilDiv8 n.toNat := by
  rw [BitVec.toNat_ofNat]
  refine Nat.mod_eq_of_lt ?_
  unfold ceilDiv8
  omega

theorem unpackHeader_inPlace {hw : Word} {s : State} (h : s.inCount = 4#32) (hl : 4 ≤ s.lenL.toNat) :
    (unpackHeader hw s).2.InPlace (unpackHeader hw s).1 := by
  unfold unpackHeader
  dsimp only
  split
  · exact inPlace_fail _ _ _
  rename_i hpos
  split
  · exact inPlace_fail _ _ _
  · rename_i hroom
    have hn := toNat_ofNat_ceilDiv8 (toNat_lt_of_toInt_nonneg hpos)
    refine unpackLoop_inPlace ?_ ?_
    · show s.inCount.toNat + ceilDiv8 hw.toNat = 4 + (BitVec.ofNat 29 (ceilDiv8 hw.toNat)).toNat
      rw [h, hn]
      rfl
    · show 4 + (BitVec.ofNat 29 (ceilDiv8 hw.toNat)).toNat ≤ s.lenL.toNat
      omega

/-- One of the first three header bytes is taken: the place is right after it. -/
theorem headerTake_inPlace {i : Word} {s : State} {k : Byte → Running} (hi : i.toNat < 4) (h : s.inCount = i) (hl : 4 ≤ s.lenL.toNat)
    (hk : ∀ b, s.inCount + 1#32 = i + 1#32 ∧ 4 ≤ s.lenL.toNat → PositionInv (takeInput (k b) s)) : (Point.inByte k).InPlace s :=
  inPlace_inByte (by rw [h]; omega) fun b => hk b ⟨congrArg (· + 1#32) h, hl⟩

theorem unpackProgram_inPlace {c : UnpackCont} {s : State} (h : PositionInv s) (hm : s.mode = .busy (.unpack c)) :
    (unpackProgram c s).2.InPlace (unpackProgram c s).1 := by
  rw [PositionInv, hm] at h
  cases c with
  | start =>
    rw [unpackProgram]
    split
    · exact inPlace_fail _ _ _
    · exact headerTake_inPlace (i := 0#32) (by decide) h (Nat.le_of_not_lt ‹_›) fun _ h => h
  | got0 h0 => exact headerTake_inPlace (by decide) h.1 h.2 fun _ h => h
  | got1 h0 h1 => exact headerTake_inPlace (by decide) h.1 h.2 fun _ h => h
  | got2 h0 h1 h2 => exact headerTake_inPlace (by decide) h.1 h.2 fun _ h => h
  | got3 h0 h1 h2 h3 => exact unpackHeader_inPlace h.1 h.2
  | gotData b left => exact unpackBits_inPlace b 8 h.1 h.2
  | emitted b k left => exact unpackBits_inPlace b k h.1 h.2
  | gotTail left => exact unpackTail_inPlace h

/-! ### Every step -/

theorem programOf_inPlace {r : Running} {s u : State} {p : Point} (h : PositionInv s) (hm : s.mode = .busy r)
    (hp : programOf r s = some (u, p)) : p.InPlace u := by
  cases r with
  | count c => exact of_program (fun u p => p.InPlace u) hp (countProgram_inPlace h hm)
  | build => exact inPlace_end (programOf_ends hp (by decide))
  | derive => exact inPlace_end (programOf_ends hp (by decide))
  | clrtab => exact inPlace_end (programOf_ends hp (by decide))
  | pack c => exact of_program (fun u p => p.InPlace u) hp (packProgram_inPlace h hm)
  | unpack c => exact of_program (fun u p => p.InPlace u) hp (unpackProgram_inPlace h hm)

theorem positionInv_of_idle {s : State} (hm : s.mode = .idle) : PositionInv s := by
  rw [PositionInv, hm]
  trivial

theorem positionInv_kept : KeptByMoves PositionInv where
  schedule _ _ h := h
  core _ _ _ _ h hm hp he := (programOf_inPlace h hm hp).1.perform he (programOf_sameOutside hp).inSlot
  accept s i _ _ := by cases i <;> trivial
  illegal _ _ _ hm _ := positionInv_of_idle hm
  reject _ h _ := h
  status _ _ h := h
  irqEn _ _ h := h
  reset _ _ := trivial
  len _ _ h _ := h
  table _ _ _ _ h _ := h
  read _ _ h := h
  draw _ h := h
  offer _ _ h _ := h
  take _ _ h _ := h

/-- A point that empties `in_slot` is an `InByte`. -/
theorem inByte_of_inSlot {u : State} {p : Point} {b : Byte} (hb : u.inSlot = some b) (hn : (p.perform u).inSlot = none) :
    ∃ k, p = .inByte k ∧ p.perform u = takeInput (k b) u := by
  cases p with
  | inByte k => exact ⟨k, rfl, by simp only [Point.perform, hb]⟩
  | outByte c k => cases hb.symm.trans hn
  | complete => cases hb.symm.trans hn
  | fail e info => cases hb.symm.trans hn

/-- Settles O12: each loop head has as many bytes to come as `lenL` leaves, and takes one only if there are some. -/
theorem stepKeepsPositionInv : Obligations.StepKeepsPositionInv := by
  refine ⟨fun s t => positionInv_kept.step, fun s t b r h hm hb hx hn => ?_⟩
  obtain ⟨u, p, hp, ⟨-, rfl⟩ | ⟨-, rfl⟩⟩ := coreStep_next ((exec_running hm).symm.trans hx)
  · cases hb.symm.trans hn
  · have hs := programOf_sameOutside hp
    obtain ⟨k, rfl, hk⟩ := inByte_of_inSlot (hs.inSlot.trans hb) hn
    have hlt := (programOf_inPlace h hm hp).2 k rfl
    rw [hk, takeInput_inCount, toNat_succ32 hlt, hs.inCount]
    rw [hs.inCount, hs.lenL] at hlt
    exact ⟨hlt, rfl⟩

end Sys2Proof.Machine
end

section
/-! SUPPORT. The bit counters and OUT_COUNT of PACK and UNPACK at every step, and their traces (10_state.md R27, R35, R41;
45_bit_packer.md R111 to R115; 46_bit_unpacker_decoder.md R116, R121). -/

namespace Sys2Proof.Machine

theorem leads_progressInv_of_ends {u : State} {p : Point} (h : p.Ends) : p.Leads ProgressInv u := by
  cases p with
  | inByte k => exact h.elim
  | outByte b k => exact h.elim
  | complete => trivial
  | fail e info => trivial

/-! ### PACK -/

/-- Between two bits: BITPOS mirrors `nb`, `nacc` counts the bits of the byte being filled, OUT_COUNT the bytes put out
(45_bit_packer.md R111). -/
structure PackCounters (s : State) : Prop where
  bitpos : s.bitpos = s.nb.setWidth 32
  nacc : s.nacc.toNat = s.nb.toNat % 8
  outCount : s.outCount = BitVec.ofNat 32 (4 + s.nb.toNat / 8)

theorem packCheck_ends (s : State) : (packCheck s).2.Ends := by
  unfold packCheck
  split <;> trivial

theorem packLoop_progress {left : Nat} {s : State} (h : PackCounters s) :
    (packLoop left s).2.Leads ProgressInv (packLoop left s).1 := by
  cases left with
  | zero =>
    rw [packLoop, packEnd]
    split
    · exact leads_progressInv_of_ends (packCheck_ends s)
    · rename_i hn
      have hne : s.nb.toNat % 8 ≠ 0 := fun h0 => hn (BitVec.eq_of_toNat_eq (h.nacc.trans h0))
      refine ⟨h.bitpos, hne, ?_⟩
      show s.outCount + 1#32 = BitVec.ofNat 32 (5 + s.nb.toNat / 8)
      rw [h.outCount, ofNat_succ32]
      congr 1
      omega
  | succ k => exact fun b => ⟨h.bitpos, h.nacc, h.outCount⟩

/-- One bit more: the counters still agree, or the byte is full. -/
theorem PackCounters.push {s : State} (h : PackCounters s) (x : Bool) :
    ((packBit x s).nacc ≠ 8#4 → PackCounters (packBit x s)) ∧
    ((packBit x s).nacc = 8#4 → (packBit x s).nb.toNat % 8 = 0 ∧
      s.outCount + 1#32 = BitVec.ofNat 32 (4 + (packBit x s).nb.toNat / 8)) := by
  obtain ⟨-, hn, ho⟩ := h
  have hnacc : (packBit x s).nacc.toNat = s.nb.toNat % 8 + 1 := by
    show (s.nacc + 1#4).toNat = _
    rw [BitVec.toNat_add, BitVec.toNat_ofNat]
    omega
  have hnb : (packBit x s).nb.toNat = (s.nb.toNat + 1) % 2 ^ 40 := BitVec.toNat_add _ _
  constructor
  · intro h8
    have hlt : s.nb.toNat % 8 + 1 ≠ 8 := fun he => h8 (BitVec.eq_of_toNat_eq (hnacc.trans he))
    refine ⟨rfl, by rw [hnacc, hnb]; omega, ?_⟩
    show s.outCount = _
    rw [ho, hnb]
    congr 2
    omega
  · intro h8
    rw [h8] at hnacc
    have h7 : s.nb.toNat % 8 = 7 := Nat.succ.inj hnacc.symm
    refine ⟨by rw [hnb]; omega, BitVec.eq_of_toNat_eq ?_⟩
    rw [ho, hnb, ofNat_succ32, BitVec.toNat_ofNat, BitVec.toNat_ofNat]
    omega

theorem packBits_progress (b : Byte) {left : Nat} (j : Nat) {s : State} (hj : j ≤ (s.entry b).len.toNat) (h : PackCounters s) :
    (packBits b left j s).2.Leads ProgressInv (packBits b left j s).1 := by
  induction j generalizing s with
  | zero => exact packLoop_progress h
  | succ j ih =>
    obtain ⟨hmore, hfull⟩ := h.push ((s.entry b).code.getLsbD j)
    rw [packBits]
    split
    · rename_i h8
      obtain ⟨hnb, hout⟩ := hfull h8
      exact ⟨rfl, hnb, h8, hj, hout⟩
    · rename_i h8
      exact ih (by rw [packBit_entry]; omega) (hmore h8)

theorem packStart_progress {s : State} (ho : s.outCount = 0#32) (hb : s.bitpos = 0#32) :
    (packStart s).2.Leads ProgressInv (packStart s).1 := by
  unfold packStart
  split
  · trivial
  split
  · trivial
  split
  · trivial
  · exact ⟨congrArg (· + 1#32) ho, hb, Nat.le_refl 1, by decide⟩

theorem packProgram_progress {c : PackCont} {s : State} (h : ProgressInv s) (hm : s.mode = .busy (.pack c)) :
    (packProgram c s).2.Leads ProgressInv (packProgram c s).1 := by
  rw [ProgressInv, hm] at h
  cases c with
  | start => exact packStart_progress h.1 h.2
  | hdr k =>
    obtain ⟨ho, hb, h1, h4⟩ := h
    rw [packProgram]
    split
    · refine ⟨?_, hb, by omega, by omega⟩
      show s.outCount + 1#32 = BitVec.ofNat 32 (k + 1)
      rw [ho, ofNat_succ32]
    · obtain rfl : k = 4 := by omega
      exact packLoop_progress ⟨hb, rfl, by simpa using ho⟩
  | got b left =>
    obtain ⟨hb, hn, ho⟩ := h
    rw [packProgram]
    split
    · exact packBits_progress b _ (Nat.le_refl _) ⟨hb, hn, ho⟩
    · trivial
  | bits b j left =>
    obtain ⟨hb, hn, -, hj, ho⟩ := h
    exact packBits_progress b j (Nat.le_of_lt hj) ⟨hb, hn.symm, ho⟩
  | tail => exact leads_progressInv_of_ends (packCheck_ends s)

/-! ### UNPACK -/

/-- Before bit `pos` of the data: BITPOS mirrors `t`, `t` is the counted bits among those read, and each byte put out took one at least
(46_bit_unpacker_decoder.md R116). -/
structure UnpackCounters (pos : Nat) (s : State) : Prop where
  bitpos : s.bitpos = s.t
  small : s.n.toNat < 2 ^ 31
  nbytes : s.nbytes.toNat = ceilDiv8 s.n.toNat
  t : s.t.toNat = min s.n.toNat pos
  room : s.clen.toNat ≤ 254
  outCount : s.outCount.toNat + s.clen.toNat ≤ s.t.toNat

theorem unpackTail_progress {left : Nat} {s : State} (hb : s.bitpos = s.t) (ht : s.t = s.n) (hn : s.n.toNat < 2 ^ 31)
    (ho : s.outCount.toNat ≤ s.t.toNat) : (unpackTail left s).2.Leads ProgressInv (unpackTail left s).1 := by
  cases left with
  | zero => trivial
  | succ k => exact fun b => ⟨hb, ht, hn, ho⟩

theorem unpackLoop_progress {left : Nat} {s : State} (hl : left ≤ s.nbytes.toNat) (h : UnpackCounters (8 * (s.nbytes.toNat - left)) s) :
    (unpackLoop left s).2.Leads ProgressInv (unpackLoop left s).1 := by
  obtain ⟨hb, hn, hnb, ht, hr, ho⟩ := h
  unfold ceilDiv8 at hnb
  cases left with
  | zero =>
    rw [unpackLoop, unpackEnd]
    split
    · exact unpackTail_progress hb (BitVec.eq_of_toNat_eq (by omega)) hn (by omega)
    · trivial
  | succ k =>
    refine fun b => ⟨hb, hn, hnb, hl, ?_, hr, ho⟩
    show s.t.toNat = 8 * (s.nbytes.toNat - k - 1)
    omega

/-- One counted bit more. -/
theorem UnpackCounters.push {pos : Nat} {s : State} (h : UnpackCounters pos s) (x : Bool) (hlt : s.t.toNat < s.n.toNat) :
    (unpackBit x s).t.toNat = pos + 1 ∧ (unpackBit x s).t.toNat = s.t.toNat + 1 ∧
      ((unpackBit x s).clen ≠ 255#8 → UnpackCounters (pos + 1) (unpackBit x s)) := by
  obtain ⟨-, hn, hnb, ht, hr, ho⟩ := h
  have ht' : (unpackBit x s).t.toNat = s.t.toNat + 1 := toNat_succ32 hlt
  have hc' : (unpackBit x s).clen.toNat = s.clen.toNat + 1 := toNat_succ8 (by omega)
  refine ⟨by omega, ht', fun h255 => ⟨rfl, hn, hnb, ?_, ?_, ?_⟩⟩
  · show (unpackBit x s).t.toNat = min s.n.toNat (pos + 1)
    omega
  · have : s.clen.toNat + 1 ≠ 255 := fun he => h255 (BitVec.eq_of_toNat_eq (hc'.trans he))
    omega
  · show s.outCount.toNat + _ ≤ _
    omega

/-- A padding bit: `t` stays at `n`. -/
theorem UnpackCounters.pad {pos : Nat} {s : State} (h : UnpackCounters pos s) (hge : s.n.toNat ≤ s.t.toNat) :
    UnpackCounters (pos + 1) s := by
  obtain ⟨hb, hn, hnb, ht, hr, ho⟩ := h
  exact ⟨hb, hn, hnb, by omega, hr, ho⟩

theorem unpackBits_progress (b : Byte) {left : Nat} (k : Nat) {pos : Nat} {s : State} (hl : left < s.nbytes.toNat) (hk : k ≤ 8)
    (hp : pos + k = 8 * (s.nbytes.toNat - left)) (h : UnpackCounters pos s) :
    (unpackBits b left k s).2.Leads ProgressInv (unpackBits b left k s).1 := by
  induction k generalizing pos s with
  | zero => exact unpackLoop_progress (Nat.le_of_lt hl) (hp ▸ h)
  | succ k ih =>
    rw [unpackBits]
    split
    · rename_i hlt
      obtain ⟨hpos, ht, hmore⟩ := h.push (b.getLsbD k) hlt
      dsimp only
      split
      · split
        · trivial
        · exact ih (s := unpackBit _ s) hl (by omega) (show pos + 1 + k = 8 * (s.nbytes.toNat - left) by omega) (hmore ‹_›)
      · have hout := h.outCount
        refine ⟨rfl, h.small, h.nbytes, hl, by omega, ?_, ?_, ?_⟩
        · show (unpackBit (b.getLsbD k) s).t.toNat = 8 * (s.nbytes.toNat - left - 1) + 8 - k
          omega
        · show (unpackBit (b.getLsbD k) s).t.toNat ≤ s.n.toNat
          omega
        · show (s.outCount + 1#32).toNat ≤ (unpackBit (b.getLsbD k) s).t.toNat
          rw [toNat_succ32 (v := s.n) (by omega)]
          omega
      · trivial
    · exact ih hl (by omega) (by omega) (h.pad (by omega))

theorem unpackHeader_progress {hw : Word} {s : State} (ho : s.outCount = 0#32) (hb : s.bitpos = 0#32) :
    (unpackHeader hw s).2.Leads ProgressInv (unpackHeader hw s).1 := by
  unfold unpackHeader
  dsimp only
  split
  · trivial
  rename_i hpos
  split
  · trivial
  · have h31 := toNat_lt_of_toInt_nonneg hpos
    have hn := toNat_ofNat_ceilDiv8 h31
    refine unpackLoop_progress (Nat.le_of_eq hn.symm) ⟨hb, h31, hn, ?_, Nat.zero_le _, ?_⟩
    · show 0 = min hw.toNat (8 * ((BitVec.ofNat 29 (ceilDiv8 hw.toNat)).toNat - ceilDiv8 hw.toNat))
      omega
    · show s.outCount.toNat + 0 ≤ 0
      rw [ho]
      exact Nat.le_refl 0

theorem unpackProgram_progress {c : UnpackCont} {s : State} (h : ProgressInv s) (hm : s.mode = .busy (.unpack c)) :
    (unpackProgram c s).2.Leads ProgressInv (unpackProgram c s).1 := by
  rw [ProgressInv, hm] at h
  cases c with
  | start =>
    rw [unpackProgram]
    split
    · trivial
    · exact fun _ => h
  | got0 h0 => exact fun _ => h
  | got1 h0 h1 => exact fun _ => h
  | got2 h0 h1 h2 => exact fun _ => h
  | got3 h0 h1 h2 h3 => exact unpackHeader_progress h.1 h.2
  | gotData b left =>
    obtain ⟨hb, hn, hnb, hl, ht, hr, ho⟩ := h
    refine unpackBits_progress b 8 (pos := 8 * (s.nbytes.toNat - left - 1)) hl (Nat.le_refl 8) (by omega) ⟨hb, hn, hnb, ?_, hr, ho⟩
    unfold ceilDiv8 at hnb
    omega
  | emitted b k left =>
    obtain ⟨hb, hn, hnb, hl, hk, ht, htn, ho⟩ := h
    exact unpackBits_progress b k (s := { s with cand := 0#256, clen := 0#8 }) (pos := 8 * (s.nbytes.toNat - left - 1) + 8 - k)
      hl (by omega) (show _ = 8 * (s.nbytes.toNat - left) by omega) ⟨hb, hn, hnb, show s.t.toNat = min s.n.toNat _ by omega, Nat.zero_le _, ho⟩
  | gotTail left =>
    obtain ⟨hb, ht, hn, ho⟩ := h
    exact unpackTail_progress hb ht hn ho

/-! ### Every step -/

/-- ProgressInv says nothing of COUNT. -/
theorem countLoop_progress (left : Nat) (s : State) : (countLoop left s).2.Leads ProgressInv (countLoop left s).1 := by
  cases left with
  | zero => trivial
  | succ k => exact fun _ => trivial

theorem countProgram_progress (c : CountCont) (s : State) : (countProgram c s).2.Leads ProgressInv (countProgram c s).1 := by
  cases c with
  | start => exact countLoop_progress _ _
  | got b left => exact countLoop_progress _ _

theorem programOf_progress {r : Running} {s u : State} {p : Point} (h : ProgressInv s) (hm : s.mode = .busy r)
    (hp : programOf r s = some (u, p)) : p.Leads ProgressInv u := by
  cases r with
  | count c => exact of_program (fun u p => p.Leads ProgressInv u) hp (countProgram_progress c s)
  | build => exact leads_progressInv_of_ends (programOf_ends hp (by decide))
  | derive => exact leads_progressInv_of_ends (programOf_ends hp (by decide))
  | clrtab => exact leads_progressInv_of_ends (programOf_ends hp (by decide))
  | pack c => exact of_program (fun u p => p.Leads ProgressInv u) hp (packProgram_progress h hm)
  | unpack c => exact of_program (fun u p => p.Leads ProgressInv u) hp (unpackProgram_progress h hm)

theorem progressInv_of_idle {s : State} (hm : s.mode = .idle) : ProgressInv s := by
  rw [ProgressInv, hm]
  trivial

theorem progressInv_kept : KeptByMoves ProgressInv where
  schedule _ _ h := h
  core _ _ _ _ h hm hp he := (programOf_progress h hm hp).perform he (programOf_sameOutside hp).inSlot
  accept s i _ _ := by cases i <;> trivial
  illegal _ _ _ hm _ := progressInv_of_idle hm
  reject _ h _ := h
  status _ _ h := h
  irqEn _ _ h := h
  reset _ _ := trivial
  len _ _ h _ := h
  table _ _ _ _ _ hm := progressInv_of_idle hm
  read _ _ h := h
  draw _ h := h
  offer _ _ h _ := h
  take _ _ h _ := h

/-! ### The traces -/

theorem PackTrace.host {base S : List Byte} {s t : State} (h : PackTrace base S s) (ht : HostTurn s t) : PackTrace base S t := by
  have hf := ht.frame
  refine h.congr ?_ ?_ ?_ ?_ ?_ ?_ ?_ ?_ ht.emitted <;> rw [hf]

theorem UnpackTrace.host {base S : List Byte} {s t : State} (h : UnpackTrace base S s) (ht : HostTurn s t) : UnpackTrace base S t := by
  have hf := ht.frame
  refine h.congr ?_ ?_ ?_ ?_ ?_ ?_ ?_ ?_ ?_ ht.emitted <;> rw [hf]

theorem PackTrace.mode {base S : List Byte} {s : State} (h : PackTrace base S s) : ∃ c, s.mode = .busy (.pack c) := by
  rcases hm : s.mode with _ | r
  · exact absurd hm h.busy
  · obtain ⟨-, h⟩ := h
    rw [hm] at h
    cases r with
    | pack c => exact ⟨c, rfl⟩
    | _ => exact h.elim

theorem UnpackTrace.mode {base S : List Byte} {s : State} (h : UnpackTrace base S s) : ∃ c, s.mode = .busy (.unpack c) := by
  rcases hm : s.mode with _ | r
  · exact absurd hm h.busy
  · obtain ⟨-, h⟩ := h
    rw [hm] at h
    cases r with
    | unpack c => exact ⟨c, rfl⟩
    | _ => exact h.elim

/-- While PACK or UNPACK runs nothing but a reset changes the TABLE or EXPBITS (20_memory.md R55, 40_command_control.md R76). -/
theorem table_of_step {s t : State} (h : step s = .next t) (hr : ¬ ResetScheduled s) {r : Running} (hm : s.mode = .busy r)
    (hi : r.instr = .pack ∨ r.instr = .unpack) : t.tbl = s.tbl ∧ t.expbits = s.expbits := by
  rcases step_busy h (by rw [hm]; exact fun h => nomatch h) hr with ht | ⟨l, r', u, p, hm', hp, -, rfl⟩
  · have hf := ht.frame
    exact ⟨by rw [hf], by rw [hf]⟩
  · cases hm.symm.trans hm'
    have hw := programOf_writes hp
    have hf : StreamFrame { s with schedule := l } u := by
      cases r with
      | pack c => exact SameButPack.frame hw
      | unpack c => exact SameButUnpack.frame hw
      | _ => simp [Running.instr] at hi
    rw [perform_tbl, perform_expbits]
    exact ⟨hf.tbl, hf.expbits⟩

/-- Settles O13: each bit packed or read moves its counters together, and each core step keeps the trace of PACK or UNPACK or ends it as the
rules say. -/
theorem stepKeepsProgressInv : Obligations.StepKeepsProgressInv := by
  refine ⟨fun s t => progressInv_kept.step, fun s t hm hx => ?_, fun base S s t h hs hr => ?_, fun base S s h => h.prefix,
    fun s t hm hx => ?_, fun base S s t h hs hr => ?_, fun base S D E n s h hh hE => h.prefix hh hE⟩
  · rw [exec_idle hm] at hx
    cases hx
    exact ⟨rfl, rfl, rfl⟩
  · obtain ⟨c, hm⟩ := h.mode
    obtain ⟨ht, hb⟩ := table_of_step hs hr hm (.inl rfl)
    exact ⟨lenL_of_step hs h.busy hr, ht, hb, .of_step hs h.busy hr h.host fun l r u p hm hp he =>
      PackTrace.core (s := { s with schedule := l }) h hm hp he⟩
  · rw [exec_idle hm] at hx
    cases hx
    exact ⟨rfl, rfl, rfl⟩
  · obtain ⟨c, hm⟩ := h.mode
    exact ⟨lenL_of_step hs h.busy hr, (table_of_step hs hr hm (.inr rfl)).1, .of_step hs h.busy hr h.host fun l r u p hm hp he =>
      UnpackTrace.core (s := { s with schedule := l }) h hm hp he⟩

end Sys2Proof.Machine
end

section
/-! SUPPORT. The arena and the TABLE against their valid bits at every step (10_state.md R22, R30, R31, R36, R39; 42_huffman_tree_builder.md R91,
43_code_table_deriver.md R97). -/

namespace Sys2Proof.Machine

/-! ### TREE_VALID -/

/-- Without a valid tree, and with NNODES and ROOT 0, TreeInv holds in any mode. -/
theorem treeInv_of_invalid {s : State} (hv : s.treeValid = false) (hn : s.nnodes = 0#10) (hr : s.root = 0#9) : TreeInv s :=
  ⟨fun _ _ _ => hv, fun _ => ⟨hn, hr⟩, fun h => absurd (hv.symm.trans h) (by decide)⟩

/-- TreeInv looks at the arena, its registers and FREQ, and at `mode` for COUNT only. -/
theorem TreeInv.congr {s t : State} (h : TreeInv s) (hm : ∀ b left, t.mode ≠ .busy (.count (.got b left))) (hv : t.treeValid = s.treeValid)
    (hn : t.nnodes = s.nnodes) (hr : t.root = s.root) (hf : t.freq = s.freq) (hd : t.node = s.node) : TreeInv t := by
  obtain ⟨-, h0, h1⟩ := h
  refine ⟨fun b left h => absurd h (hm b left), ?_, ?_⟩
  · rw [hv, hn, hr]
    exact h0
  · rw [hv, hn, hr, hf, hd]
    exact h1

/-- What BUILD writes is what it makes over a blank arena (42_huffman_tree_builder.md R96). -/
theorem treeInv_build {s t : State} (hK : countedSymbols s.freq ≠ []) (hf : t.freq = s.freq) (hd : t.node = (buildTree s.freq s.node).node)
    (hn : t.nnodes = BitVec.ofNat 10 (buildTree s.freq s.node).n) (hr : t.root = BitVec.ofNat 9 ((buildTree s.freq s.node).q.headD 0))
    (hv : t.treeValid = true) (hm : ∀ b left, t.mode ≠ .busy (.count (.got b left))) : TreeInv t := by
  obtain ⟨hq, hN, hA⟩ := buildTree_agree s.freq s.node blankArena
  refine ⟨fun b left h => absurd h (hm b left), fun h => absurd (hv.symm.trans h) (by decide), fun _ => ?_⟩
  rw [hf, hd, hn, hr, hq, hN]
  exact ⟨hK, rfl, rfl, fun i hi => hA i (hN ▸ hi)⟩

theorem countProgram_invalid {c : CountCont} {s : State} (h : TreeInv s) (hm : s.mode = .busy (.count c)) :
    (countProgram c s).1.treeValid = false ∧ (countProgram c s).1.nnodes = 0#10 ∧ (countProgram c s).1.root = 0#9 := by
  cases c with
  | start =>
    rw [countProgram, countLoop_same]
    exact ⟨rfl, rfl, rfl⟩
  | got b left =>
    have hv := h.1 b left hm
    rw [countProgram, countLoop_same]
    exact ⟨hv, h.2.1 hv⟩

theorem instr_eq_build {r : Running} (h : r.instr = .build) : r = .build := by
  cases r with
  | build => rfl
  | _ => cases h

theorem TreeInv.core {s u : State} {r : Running} {p : Point} (h : TreeInv s) (hm : s.mode = .busy r)
    (hp : programOf r s = some (u, p)) (he : p.enabled s = true) : TreeInv (p.perform u) := by
  by_cases hc : r.instr = .count
  · obtain ⟨c, rfl⟩ := instr_eq_count hc
    obtain ⟨hv, hn, hr⟩ := of_program (fun u _ => u.treeValid = false ∧ u.nnodes = 0#10 ∧ u.root = 0#9) hp (countProgram_invalid h hm)
    exact treeInv_of_invalid ((perform_treeValid p u).trans hv) ((perform_nnodes p u).trans hn) ((perform_root p u).trans hr)
  have hnc := fun b left => not_counting hp he hc (.got b left)
  by_cases hb : r.instr = .build
  · obtain rfl := instr_eq_build hb
    simp only [programOf, buildProgram, Option.some.injEq] at hp
    split at hp <;> cases hp
    · exact treeInv_of_invalid rfl rfl rfl
    · exact treeInv_build (s := s) ‹_› rfl rfl rfl rfl rfl hnc
  · obtain ⟨hv, hn, hr, hf, hd⟩ := programOf_keeps_tree hp hc hb
    exact h.congr hnc ((perform_treeValid p u).trans hv) ((perform_nnodes p u).trans hn) ((perform_root p u).trans hr)
      ((perform_freq p u).trans hf) ((perform_node p u).trans hd)

theorem treeInv_kept : KeptByMoves TreeInv where
  schedule _ _ h := h
  core _ _ _ _ h hm hp he := h.core hm hp he
  accept s i h _ := h.congr (fun b left => by cases i <;> exact fun h => nomatch h) rfl rfl rfl rfl rfl
  illegal _ _ h _ _ := h
  reject _ h _ := h
  status _ _ h := h
  irqEn _ _ h := h
  reset _ _ := treeInv_of_invalid rfl rfl rfl
  len _ _ h _ := h
  table _ _ _ _ h _ := h
  read _ _ h := h
  draw _ h := h
  offer _ _ h _ := h
  take _ _ h _ := h

/-- Settles O14: BUILD's arena depends on FREQ alone, COUNT clears the tree, and no other command writes either. -/
theorem stepKeepsTreeInv : Obligations.StepKeepsTreeInv := fun _ _ => treeInv_kept.step

/-! ### HDR_VALID -/

/-- `t` has the arena and the table of `s`, with their valid bits: all that DerivedInv looks at. -/
structure SameDerived (s t : State) : Prop where
  hdrValid : t.hdrValid = s.hdrValid
  treeValid : t.treeValid = s.treeValid
  root : t.root = s.root
  node : t.node = s.node
  tbl : t.tbl = s.tbl
  expbits : t.expbits = s.expbits
  maxlen : t.maxlen = s.maxlen

theorem DerivedInv.congr {s t : State} (h : DerivedInv s) (hs : SameDerived s t) : DerivedInv t := by
  unfold DerivedInv at h ⊢
  rw [hs.hdrValid, hs.treeValid, hs.root, hs.node, hs.tbl, hs.expbits, hs.maxlen]
  exact h

theorem derivedInv_of_invalid {s : State} (h : s.hdrValid = false) : DerivedInv s := fun h' => absurd (h.symm.trans h') (by decide)

theorem sameDerived_perform {s u : State} (h : SameDerived s u) (p : Point) : SameDerived s (p.perform u) where
  hdrValid := (perform_hdrValid p u).trans h.hdrValid
  treeValid := (perform_treeValid p u).trans h.treeValid
  root := (perform_root p u).trans h.root
  node := (perform_node p u).trans h.node
  tbl := (perform_tbl p u).trans h.tbl
  expbits := (perform_expbits p u).trans h.expbits
  maxlen := (perform_maxlen p u).trans h.maxlen

/-- DERIVE completes with what it worked out, or fails for want of a tree with nothing written (43_code_table_deriver.md R97). -/
theorem deriveProgram_cases {s u : State} {p : Point} (h : deriveProgram s = some (u, p)) :
    (s.treeValid = true ∧ p = .complete ∧
      ∃ d, deriveCodes s.node s.root.toNat (invalidateAll s.tbl) = some d ∧ u = deriveWrite d s) ∨
    (p = .fail .noTree 0#32 ∧ u = s) := by
  unfold deriveProgram at h
  split at h
  · rename_i hv
    split at h <;> cases h
    exact .inl ⟨hv, rfl, _, ‹_›, rfl⟩
  · cases h
    exact .inr ⟨rfl, rfl⟩

/-- Every other command leaves the arena and the table alone, or clears HDR_VALID (10_state.md R36). -/
theorem programOf_derived {r : Running} {s u : State} {p : Point} (h : programOf r s = some (u, p)) (hr : r ≠ .derive) :
    SameDerived s u ∨ (u.hdrValid = false ∧ (r.instr = .count ∨ r.instr = .build ∨ r.instr = .clrtab)) := by
  cases r with
  | count c =>
    have hu := congrArg Prod.fst (Option.some.inj h)
    cases c with
    | start =>
      rw [countProgram, countLoop_same] at hu
      obtain rfl : countClear s = u := hu
      exact .inr ⟨rfl, .inl rfl⟩
    | got b left =>
      rw [countProgram, countLoop_same] at hu
      obtain rfl : countByte b s = u := hu
      exact .inl ⟨rfl, rfl, rfl, rfl, rfl, rfl, rfl⟩
  | build =>
    simp only [programOf, buildProgram, Option.some.injEq] at h
    split at h <;> cases h <;> exact .inr ⟨rfl, .inr (.inl rfl)⟩
  | derive => exact absurd rfl hr
  | clrtab =>
    cases h
    exact .inr ⟨rfl, .inr (.inr rfl)⟩
  | pack c =>
    have hw : SameButPack s u := programOf_writes h
    exact .inl (hw ▸ ⟨rfl, rfl, rfl, rfl, rfl, rfl, rfl⟩)
  | unpack c =>
    have hw : SameButUnpack s u := programOf_writes h
    exact .inl (hw ▸ ⟨rfl, rfl, rfl, rfl, rfl, rfl, rfl⟩)

theorem DerivedInv.core {s u : State} {r : Running} {p : Point} (h : DerivedInv s) (hp : programOf r s = some (u, p)) :
    DerivedInv (p.perform u) := by
  by_cases hr : r = .derive
  · subst hr
    rcases deriveProgram_cases hp with ⟨hv, rfl, d, hd, rfl⟩ | ⟨rfl, rfl⟩
    · exact fun _ => ⟨hv, s.tbl, d, hd, rfl, rfl, rfl⟩
    · exact h
  · rcases programOf_derived hp hr with hs | ⟨hv, -⟩
    · exact h.congr (sameDerived_perform hs p)
    · exact derivedInv_of_invalid ((perform_hdrValid p u).trans hv)

theorem derivedInv_kept : KeptByMoves DerivedInv where
  schedule _ _ h := h
  core _ _ _ _ h _ hp _ := h.core hp
  accept _ _ h _ := h
  illegal _ _ h _ _ := h
  reject _ h _ := h
  status _ _ h := h
  irqEn _ _ h := h
  reset _ _ := derivedInv_of_invalid rfl
  len _ _ h _ := h
  table _ _ _ _ _ _ := derivedInv_of_invalid rfl
  read _ _ h := h
  draw _ h := h
  offer _ _ h _ := h
  take _ _ h _ := h

/-- What a step does to HDR_VALID: nothing, or a DERIVE sets it as it completes, or one of the named causes clears it (10_state.md R36). -/
theorem step_hdrValid {s t : State} (h : step s = .next t) :
    t.hdrValid = s.hdrValid ∨
    (t.hdrValid = true ∧ s.mode = .busy .derive ∧ s.treeValid = true ∧ t.mode = .idle ∧ t.done = true ∧ t.errcode = s.errcode) ∨
    (t.hdrValid = false ∧
      ((∃ r, s.mode = .busy r ∧ (r.instr = .count ∨ r.instr = .build ∨ r.instr = .clrtab)) ∨
        (∃ a v rest, s.schedule = .host (.write a v) :: rest ∧
          s.mode = .idle ∧ 0x4000 ≤ a.toNat ∧ a.toNat < 0x8000 ∧ a.toNat % 64 / 4 ≤ 8) ∨ ResetScheduled s)) := by
  cases step_move h with
  | pass l => exact .inl rfl
  | core l r u p hm hp he =>
    rw [perform_hdrValid]
    by_cases hr : r = .derive
    · subst hr
      rcases deriveProgram_cases hp with ⟨hv, rfl, d, -, rfl⟩ | ⟨rfl, rfl⟩
      · exact .inr (.inl ⟨rfl, hm, hv, rfl, rfl, rfl⟩)
      · exact .inl rfl
    · rcases programOf_derived hp hr with hs | ⟨hv, hi⟩
      · exact .inl hs.hdrValid
      · exact .inr (.inr ⟨hv, .inl ⟨r, hm, hi⟩⟩)
  | write a v rest t hs hw =>
    cases hw with
    | reset ha hv => exact .inr (.inr ⟨rfl, .inr (.inr (.inl ⟨a, v, rest, hs, ha, hv⟩))⟩)
    | table e w hw ha hm =>
      have := e.isLt
      exact .inr (.inr ⟨rfl, .inr (.inl ⟨a, v, rest, hs, hm, by omega, by omega, by omega⟩)⟩)
    | _ => exact .inl rfl
  | read w l => exact .inl rfl
  | offer b l => exact .inl rfl
  | take b l => exact .inl rfl
  | reset p rest hs => exact .inr (.inr ⟨by cases p <;> rfl, .inr (.inr (.inr ⟨p, rest, hs⟩))⟩)

/-- Settles O15: DERIVE writes what it works out of the arena as it sets HDR_VALID, and whatever changes either clears it. -/
theorem hdrValidMeansDerived : Obligations.HdrValidMeansDerived := by
  refine ⟨fun s t => derivedInv_kept.step, fun s t h h0 h1 => ?_, fun s t h h1 h0 => ?_⟩
  · rcases step_hdrValid h with hs | ⟨-, hd⟩ | ⟨hf, -⟩
    · cases h0.symm.trans (hs.symm.trans h1)
    · exact hd
    · cases hf.symm.trans h1
  · rcases step_hdrValid h with hs | ⟨ht, -⟩ | ⟨-, hc⟩
    · cases h0.symm.trans (hs.trans h1)
    · cases h0.symm.trans ht
    · exact hc

end Sys2Proof.Machine
end

section
/-! SUPPORT. The registers on the bus, and the state after reset (10_state.md R18 to R35, R42; 70_reset_and_hazards.md R146). -/

namespace Sys2Proof.Machine

/-- A bus read of a register. -/
theorem readWord_reg {a : Addr} {s : State} {r : Reg} (h : a.toNat / 4 = r.offset.toNat / 4) :
    readWord a s = readReg r (Config.readDraw s.draws) s := by
  unfold readWord
  rw [decodeAddr_reg.2 h]

/-- A bus read at a register's own offset. -/
theorem readWord_offset (r : Reg) (s : State) : readWord r.offset s = readReg r (Config.readDraw s.draws) s := readWord_reg rfl

/-- A unit register while IDLE: no draw (20_memory.md R48). -/
theorem ite_busy_of_idle {s : State} (h : s.mode = .idle) (d w : Word) : (if s.busy then d else w) = w := by
  rw [(not_busy_iff s).2 h]
  rfl

theorem flagBit_zero (b : Bool) : flagBit 0 b = if b then 1#32 else 0#32 := by
  cases b <;> rfl

/-! ### STATUS -/

theorem getLsbD_flagBit {k : Nat} (hk : k < 32) (b : Bool) (i : Nat) : (flagBit k b).getLsbD i = (b && decide (k = i)) := by
  cases b <;> simp [flagBit, BitVec.getLsbD_twoPow, hk]

/-- The bits of STATUS: six flags, then OPC from bit 8 (10_state.md R22). -/
theorem getLsbD_statusWord (s : State) (tv hv : Bool) (i : Nat) (hi : i < 32) : (statusWord s tv hv).getLsbD i =
    ((s.busy && decide (0 = i)) || (s.done && decide (1 = i)) || (s.err && decide (2 = i)) || (s.rej && decide (3 = i)) ||
      (tv && decide (4 = i)) || (hv && decide (5 = i)) || (decide (8 ≤ i) && s.opc.getLsbD (i - 8))) := by
  have h8 : (!decide (i < 8)) = decide (8 ≤ i) := by
    rw [← decide_not]
    simp only [Nat.not_lt]
  have ho : ((s.opc.setWidth 32) <<< 8).getLsbD i = (decide (8 ≤ i) && s.opc.getLsbD (i - 8)) := by
    rw [BitVec.getLsbD_shiftLeft, BitVec.getLsbD_setWidth, h8]
    simp [hi, show i - 8 < 32 by omega]
  simp only [statusWord, BitVec.getLsbD_or, ho]
  rw [getLsbD_flagBit (by decide), getLsbD_flagBit (by decide), getLsbD_flagBit (by decide), getLsbD_flagBit (by decide),
    getLsbD_flagBit (by decide), getLsbD_flagBit (by decide)]

theorem getLsbD_statusWord_high (s : State) (tv hv : Bool) {i : Nat} (h6 : 6 ≤ i) (hi : i < 32) :
    (statusWord s tv hv).getLsbD i = (decide (8 ≤ i) && s.opc.getLsbD (i - 8)) := by
  have hne : ∀ k, k < 6 → decide (k = i) = false := fun k hk => decide_eq_false (by omega)
  rw [getLsbD_statusWord s tv hv i hi, hne 0 (by decide), hne 1 (by decide), hne 2 (by decide), hne 3 (by decide), hne 4 (by decide),
    hne 5 (by decide)]
  simp only [Bool.and_false, Bool.false_or]

/-- STATUS reads as its word, with TREE_VALID and HDR_VALID true to the state while IDLE (20_memory.md R48). -/
theorem readStatus (s : State) : ∃ tv hv, readWord 0x010#16 s = statusWord s tv hv ∧
    (s.mode = .idle → tv = s.treeValid ∧ hv = s.hdrValid) := by
  have hr : readWord 0x010#16 s = _ := readWord_offset .status s
  rw [hr, readReg]
  cases hb : s.busy with
  | false => exact ⟨_, _, rfl, fun _ => ⟨rfl, rfl⟩⟩
  | true => exact ⟨_, _, rfl, fun hm => by rw [(not_busy_iff s).2 hm] at hb; cases hb⟩

/-- Settles O50, by the bits of the STATUS word. -/
theorem statusReadsAndClears : Obligations.StatusReadsAndClears := by
  refine ⟨fun s => ?_, fun a v s ha => ?_⟩
  · obtain ⟨tv, hv, hr, hidle⟩ := readStatus s
    rw [hr]
    have hb := getLsbD_statusWord s tv hv
    refine ⟨?_, (hb 1 (by decide)).trans (by simp), ?_, (hb 3 (by decide)).trans (by simp), fun hm => ?_, ?_, ?_, ?_⟩
    · rw [hb 0 (by decide), ne_eq, ← not_busy_iff]
      simp
    · rw [hb 2 (by decide)]
      simp [State.err]
    · obtain ⟨rfl, rfl⟩ := hidle hm
      exact ⟨(hb 4 (by decide)).trans (by simp), (hb 5 (by decide)).trans (by simp)⟩
    · ext i hi
      rw [BitVec.getElem_extractLsb', getLsbD_statusWord_high s tv hv (by omega) (by omega)]
      simp [show ¬ 8 ≤ 6 + i by omega]
    · ext i hi
      rw [BitVec.getElem_extractLsb', getLsbD_statusWord_high s tv hv (by omega) (by omega), Nat.add_sub_cancel_left, BitVec.getLsbD_eq_getElem hi]
      simp
    · ext i hi
      rw [BitVec.getElem_extractLsb', getLsbD_statusWord_high s tv hv (by omega) (by omega), BitVec.getLsbD_of_ge _ _ (by omega)]
      simp
  · rw [hostWrite_reg (r := .status) ha, writeReg, writeStatus]
    cases v.getLsbD 1 <;> cases v.getLsbD 3 <;> simp

/-- Settles O52: CTRL is one bit, and writing bit 1 is the reset. -/
theorem ctrlWriteEnablesOrResets : Obligations.CtrlWriteEnablesOrResets := by
  intro a v s ha
  have hw : hostWrite a v s = .next (writeCtrl v s) := hostWrite_reg (r := .ctrl) ha
  rw [hw, writeCtrl]
  refine ⟨fun h => by rw [h]; rfl, fun h => ⟨by rw [h]; rfl, rfl, rfl⟩, ?_⟩
  rw [readWord_reg (r := .ctrl) ha]
  exact flagBit_zero s.irqEn

/-- Settles O53: of all moves of a step only a LEN write and the reset write LEN. -/
theorem lenIsTheHosts : Obligations.LenIsTheHosts := by
  refine ⟨fun a v s ha hm => ?_, fun s t h hne => ?_, fun i s t hm hx => ?_⟩
  · rw [hostWrite_reg (r := .len) ha, writeReg, writeLen, (not_busy_iff s).2 hm]
    rfl
  · cases step_move h with
    | core l r u p hm hp he =>
      rw [perform_len, (programOf_sameOutside hp).len] at hne
      exact absurd rfl hne
    | write a v rest t hs hw =>
      cases hw with
      | len ha hm => exact .inl ⟨a, v, rest, hs, ha, hm, rfl⟩
      | reset ha hv => exact .inr ⟨.inl ⟨a, v, rest, hs, ha, hv⟩, rfl⟩
      | _ => exact absurd rfl hne
    | reset p rest hs => exact .inr ⟨.inr ⟨p, rest, hs⟩, by cases p <;> rfl⟩
    | _ => exact absurd rfl hne
  · rw [exec_idle hm] at hx
    cases hx
    exact ⟨rfl, rfl⟩

/-- Reserved bits above a field read 0. -/
theorem setWidth_zero_append {m n : Nat} (x : BitVec n) : x.setWidth (m + n) = 0#m ++ x := by
  refine BitVec.eq_of_toNat_eq ?_
  rw [BitVec.toNat_setWidth, BitVec.toNat_append, BitVec.toNat_ofNat, Nat.zero_mod, Nat.zero_shiftLeft, Nat.zero_or]
  exact Nat.mod_eq_of_lt (Nat.lt_of_lt_of_le x.isLt (Nat.pow_le_pow_right (by decide) (Nat.le_add_left n m)))

/-- EXPBITS_HI and EXPBITS_LO together (10_state.md R33). -/
theorem expbits_words (x : BitVec 40) : (x.extractLsb' 32 8).setWidth 32 ++ x.extractLsb' 0 32 = 0#24 ++ x := by
  ext i hi
  rw [BitVec.getElem_append, BitVec.getElem_append]
  by_cases h : i < 32
  · rw [dif_pos h, dif_pos (by omega), BitVec.getElem_extractLsb', Nat.zero_add, BitVec.getLsbD_eq_getElem]
  · rw [dif_neg h, BitVec.getElem_setWidth, BitVec.getLsbD_extractLsb']
    by_cases h' : i < 40
    · rw [dif_pos h', show 32 + (i - 32) = i by omega, BitVec.getLsbD_eq_getElem h']
      simp [show i - 32 < 8 by omega]
    · rw [dif_neg h']
      simp [show ¬ i - 32 < 8 by omega]

/-- Settles O49: each register's word is its field, zero-extended. -/
theorem registersReadTheirFields : Obligations.RegistersReadTheirFields := by
  refine ⟨fun s => ⟨rfl, rfl, flagBit_zero s.irqEn, rfl, setWidth_zero_append s.errcode, rfl, rfl, rfl, rfl⟩, fun s hm => ?_⟩
  have idle : ∀ d w : Word, (if s.busy then d else w) = w := ite_busy_of_idle hm
  refine ⟨(idle _ _).trans (setWidth_zero_append s.nsym), idle _ _, (idle _ _).trans (setWidth_zero_append s.nnodes),
    (idle _ _).trans (setWidth_zero_append s.root), (idle _ _).trans (setWidth_zero_append s.maxlen), ?_, idle _ _, idle _ _⟩
  have hhi : readWord 0x040#16 s = (s.expbits.extractLsb' 32 8).setWidth 32 := idle _ _
  have hlo : readWord 0x03C#16 s = s.expbits.extractLsb' 0 32 := idle _ _
  rw [hhi, hlo, expbits_words]

theorem freqOf_reset (b : Byte) : State.reset.freqOf b = 0#32 := entryOf_replicate _ b

theorem nodeAt_reset (i : Nat) : nodeAt State.reset.node i = .unspecified := by
  unfold nodeAt
  split
  · exact Vector.getElem_replicate _
  · rfl

theorem entry_reset (b : Byte) : (State.reset.entry b).valid = false := by
  rw [entry_def]
  exact congrArg Entry.valid (entryOf_resetTable 0 b)

/-- Settles O60, field by field. -/
theorem resetStateIsAsStated : Obligations.ResetStateIsAsStated := by
  exact ⟨rfl, rfl, rfl, rfl, rfl, rfl, rfl, rfl, rfl, rfl, rfl, rfl, rfl, rfl, rfl, rfl, rfl, rfl, rfl, rfl, rfl, rfl,
    freqOf_reset, nodeAt_reset, entry_reset, rfl, rfl⟩

/-- Settles O16: IDLE, with nothing counted, no tree and no table. -/
theorem invariantsHoldAtReset : Obligations.InvariantsHoldAtReset :=
  ⟨⟨rfl, by decide, fun _ => rfl⟩, countInv_of_sums freqSum_zero (congrArg List.length countedSymbols_zero) (fun c h => nomatch h),
    positionInv_of_idle rfl, progressInv_of_idle rfl, treeInv_of_invalid rfl rfl rfl, derivedInv_of_invalid rfl⟩

end Sys2Proof.Machine
end

section
/-! SUPPORT. That there is always a next state, in every sound state and in every run from reset (20_memory.md R45, 60_exceptions.md R135). -/

namespace Sys2Proof.Machine

/-! ### The one step that could stop -/

/-- DERIVE alone could reach no point, and with a sound arena it reaches one: the tree BUILD made is no deeper than the walk goes
(42_huffman_tree_builder.md R93, R95). -/
theorem programOf_isSome {s : State} (h : TreeInv s) (r : Running) : ∃ q, programOf r s = some q := by
  cases r with
  | derive =>
    rw [programOf, deriveProgram]
    cases hv : s.treeValid with
    | false => exact ⟨_, rfl⟩
    | true =>
      obtain ⟨d, ls, hd⟩ := derive_facts hv h
      rw [if_pos rfl, hd.eq]
      exact ⟨_, rfl⟩
  | _ => exact ⟨_, rfl⟩

theorem coreTurn_isNext {s : State} (h : TreeInv s) : ∃ t, coreTurn s = .next t := by
  unfold coreTurn
  cases hm : s.mode with
  | idle => exact ⟨_, rfl⟩
  | busy r =>
    obtain ⟨q, hq⟩ := programOf_isSome h r
    dsimp only
    rw [exec_running hm, hq]
    exact ⟨_, rfl⟩

/-! ### The HOST's turns -/

theorem hostStep_isNext (op : HostOp) (s : State) : ∃ t, hostStep op s = .next t := by
  cases op with
  | write a v =>
    obtain ⟨t, ht, -⟩ := hostWrite_move a v s
    exact ⟨t, ht⟩
  | _ => exact ⟨_, rfl⟩

theorem xferTurn_isNext {s : State} (h : TreeInv s) (ins : List Byte) (rest : List Turn) : ∃ t, xferTurn ins rest s = .next t := by
  unfold xferTurn
  split
  · exact ⟨_, rfl⟩
  · split
    · exact ⟨_, rfl⟩
    · split
      · exact coreTurn_isNext h
      · split <;> exact ⟨_, rfl⟩

/-- Every turn of the schedule answers a next state. -/
theorem step_isNext {s : State} (h : TreeInv s) : ∃ t, step s = .next t := by
  unfold step takeTurn
  split
  · exact coreTurn_isNext h
  · exact coreTurn_isNext (treeInv_kept.schedule s _ h)
  · split
    · exact hostStep_isNext _ _
    · exact coreTurn_isNext h
  · exact xferTurn_isNext h _ _

/-! ### Runs -/

/-- A run is safe where an invariant that every step keeps gives every state a next one. -/
theorem safeRun_of_invariant {P : State → Prop} (kept : ∀ s t, P s → step s = .next t → P t)
    (next : ∀ s, P s → ∃ t, step s = .next t) {s : State} (hs : P s) : SafeRun s := by
  intro k
  induction k generalizing s with
  | zero => exact ⟨s, rfl⟩
  | succ k ih =>
    obtain ⟨t, ht⟩ := next s hs
    rw [runSteps, ht]
    exact ih (kept s t hs ht)

/-- Settles O17: the arena stays one that BUILD made or none at all, and over such an arena DERIVE's walk ends. -/
theorem noRunStops : Obligations.NoRunStops := by
  refine ⟨fun s => step_isNext, fun l => safeRun_of_invariant stepKeepsTreeInv (fun s => step_isNext) ?_⟩
  exact treeInv_kept.schedule State.reset l (treeInv_of_invalid rfl rfl rfl)

end Sys2Proof.Machine
end

section
/-! SUPPORT. What a step does to the two streams (20_memory.md R50, R52; 40_command_control.md R74, R78, R79). -/

namespace Sys2Proof.Machine

/-- What a step of `s` that answers `t` may do to the output stream: nothing but a take, one new byte put into the empty slot, or a reset,
which drops the byte in the slot. -/
def OutStep (s t : State) : Prop :=
  t.emitted = s.emitted ∨
    (∃ b, s.outSlot = none ∧ t.outSlot = some b ∧ t.taken = s.taken ∧ s.mode ≠ .idle ∧ t.outCount = s.outCount + 1#32) ∨
    (ResetScheduled s ∧ t.outSlot = none ∧ t.taken = s.taken)

/-- What a step of `s` that answers `t` may do to the streams: in, nothing, an `InByte` of the running command, or the HOST's offer. -/
structure StreamStep (s t : State) : Prop where
  out : OutStep s t
  stays : ∀ b, s.inSlot = some b → t.inSlot = some b ∨ (t.inSlot = none ∧ s.mode ≠ .idle ∧ t.inCount = s.inCount + 1#32)
  offered : ∀ b, s.inSlot = none → t.inSlot = some b →
    (∃ rest, s.schedule = .host (.offer b) :: rest) ∨ ∃ more rest, s.schedule = .xfer (b :: more) :: rest

/-- The input slot is as it was: nothing is taken and nothing offered. -/
theorem StreamStep.of_inSlot {s t : State} (hi : t.inSlot = s.inSlot) (out : OutStep s t) : StreamStep s t where
  out := out
  stays _ hb := .inl (hi.trans hb)
  offered _ hn hb := nomatch hn.symm.trans (hi.symm.trans hb)

theorem StreamStep.of_same {s t : State} (hi : t.inSlot = s.inSlot) (ho : t.emitted = s.emitted) : StreamStep s t := .of_inSlot hi (.inl ho)

theorem StreamStep.of_reset {s t : State} (hr : ResetScheduled s) (hi : t.inSlot = s.inSlot) (ho : t.outSlot = none)
    (ht : t.taken = s.taken) : StreamStep s t := .of_inSlot hi (.inr (.inr ⟨hr, ho, ht⟩))

theorem SameOutside.emitted {s u : State} (h : SameOutside s u) : u.emitted = s.emitted := by
  rw [State.emitted, h.taken, h.outSlot, State.emitted]

/-- A point of the running command: `InByte` takes the byte in `in_slot`, `OutByte` fills the empty `out_slot`, an end touches neither. -/
theorem streamStep_perform {s u : State} {l : List Turn} {p : Point} (hm : s.mode ≠ .idle)
    (hu : SameOutside { s with schedule := l } u) (he : p.enabled s = true) :
    StreamStep s (p.perform u) := by
  cases p with
  | inByte k =>
    obtain ⟨b, hb⟩ := Option.isSome_iff_exists.1 he
    simp only [Point.perform, hu.inSlot, hb]
    refine ⟨.inl hu.emitted, fun _ _ => .inr ⟨rfl, hm, ?_⟩, fun _ hn => nomatch hn.symm.trans hb⟩
    rw [takeInput_inCount, hu.inCount]
  | outByte b k =>
    have hn : s.outSlot = none := Option.isNone_iff_eq_none.1 he
    refine .of_inSlot hu.inSlot (.inr (.inl ⟨b, hn, rfl, hu.taken, hm, ?_⟩))
    rw [Point.perform, putOutput_outCount, hu.outCount]
  | complete => exact .of_same hu.inSlot hu.emitted
  | fail e info => exact .of_same hu.inSlot hu.emitted

/-- A bus write touches no slot, but for the reset. -/
theorem WriteMove.streams {a : Addr} {v : Word} {s t : State} (h : WriteMove a v s t) :
    t.inSlot = s.inSlot ∧ t.taken = s.taken ∧ (t.outSlot = s.outSlot ∨ (a.toNat / 4 = 2 ∧ v.getLsbD 1 = true ∧ t.outSlot = none)) := by
  cases h with
  | reset ha hv => exact ⟨rfl, rfl, .inr ⟨ha, hv, rfl⟩⟩
  | _ => exact ⟨rfl, rfl, .inl rfl⟩

theorem step_streams {s t : State} (h : step s = .next t) : StreamStep s t := by
  cases step_move h with
  | pass l => exact .of_same rfl rfl
  | core l r u p hm hp he =>
    have hb : s.mode ≠ .idle := fun hi => nomatch hi.symm.trans hm
    exact streamStep_perform hb (programOf_sameOutside hp) he
  | write a v rest t hs hw =>
    obtain ⟨hi, ht, ho | ⟨ha, hv, ho⟩⟩ := hw.streams
    · refine .of_same hi ?_
      rw [State.emitted, ht, ho, State.emitted]
    · exact .of_reset (.inl ⟨a, v, rest, hs, ha, hv⟩) hi ho ht
  | read w l => exact .of_same rfl rfl
  | offer b l hi hs =>
    refine ⟨.inl rfl, fun _ hb => (nomatch hi.symm.trans hb), fun c _ hc => ?_⟩
    obtain rfl : b = c := Option.some.inj hc
    exact hs
  | take b l ho => exact .of_same rfl (emitted_take ho)
  | reset p rest hs =>
    have hr : ResetScheduled s := .inr ⟨p, rest, hs⟩
    cases p <;> exact .of_reset hr rfl rfl rfl

/-- Settles O57, by what each move of a step does to the two slots. -/
theorem streamsKeepTheirBytes : Obligations.StreamsKeepTheirBytes := fun _ _ h =>
  have hs := step_streams h
  ⟨hs.out, hs.stays, hs.offered⟩

end Sys2Proof.Machine
end

section
/-! SUPPORT. The frame of each command's own steps: its program's frame, then that of the points it leads to (10_state.md R37,
20_memory.md R55; 40_command_control.md R78 to R81). -/

namespace Sys2Proof.Machine

/-- A step of the running command: it waits, or its program's statements and point happen (40_command_control.md R77). -/
theorem exec_running_next {s t : State} {r : Running} (hm : s.mode = .busy r) (h : exec r.instr s = .next t) :
    t = s ∨ ∃ u p, programOf r s = some (u, p) ∧ p.enabled s = true ∧ t = p.perform u := by
  obtain ⟨u, p, hp, ⟨-, ht⟩ | ⟨he, ht⟩⟩ := coreStep_next ((exec_running hm).symm.trans h)
  · exact .inl ht
  · exact .inr ⟨u, p, hp, he, ht⟩

/-! ### The points of a command that puts nothing out -/

/-- The point that ends a command touches no slot and no counter (R80, R81). -/
theorem perform_frame_of_ends {p : Point} (h : p.Ends) (s : State) : p.perform s = { s with
    mode := (p.perform s).mode, done := (p.perform s).done, errcode := (p.perform s).errcode, errinfo := (p.perform s).errinfo } := by
  cases p with
  | complete => rfl
  | fail e info => rfl
  | inByte k => exact h.elim
  | outByte b k => exact h.elim

/-- `InByte` touches the input slot and its counter, `Complete` not even those (R78, R80): neither fails, neither puts a byte out. -/
def Point.TakesOrCompletes : Point → Prop
  | .inByte _ => True
  | .complete => True
  | .outByte _ _ => False
  | .fail _ _ => False

theorem perform_frame_of_takesOrCompletes {p : Point} (h : p.TakesOrCompletes) (s : State) : p.perform s = { s with
    mode := (p.perform s).mode, done := (p.perform s).done, inSlot := (p.perform s).inSlot, inCount := (p.perform s).inCount } := by
  cases p with
  | complete => rfl
  | inByte k =>
    unfold Point.perform
    dsimp only
    split <;> rfl
  | outByte b k => exact h.elim
  | fail e info => exact h.elim

theorem countLoop_takesOrCompletes (left : Nat) (s : State) : (countLoop left s).2.TakesOrCompletes := by
  cases left <;> trivial

/-- COUNT does not fail and puts nothing out (41_frequency_counter.md R85). -/
theorem countProgram_takesOrCompletes (c : CountCont) (s : State) : (countProgram c s).2.TakesOrCompletes := by
  cases c <;> exact countLoop_takesOrCompletes _ _

/-- Settles O9: each command's statements write its own registers, and its points are those its program has. -/
theorem commandsTouchOnlyTheirState : Obligations.CommandsTouchOnlyTheirState := by
  refine ⟨fun s t c hm hx => ?_, fun s t hm hx => ?_, fun s t hm hx => ?_, fun s t hm hx => ?_, fun s t c hm hx => ?_,
    fun s t c hm hx => ?_⟩
  · rcases exec_running_next hm hx with rfl | ⟨u, p, hp, -, rfl⟩
    · rfl
    · have hu : SameButCount s u := programOf_writes hp
      have hpt := of_program (fun _ p => p.TakesOrCompletes) hp (countProgram_takesOrCompletes c s)
      rw [perform_frame_of_takesOrCompletes hpt u, hu]
  · rcases exec_running_next hm hx with rfl | ⟨u, p, hp, -, rfl⟩
    · rfl
    · have hu : SameButBuild s u := programOf_writes hp
      rw [perform_frame_of_ends (programOf_ends hp (by decide)) u, hu]
  · rcases exec_running_next hm hx with rfl | ⟨u, p, hp, -, rfl⟩
    · rfl
    · have hu : SameButTable s u := programOf_writes hp
      rw [perform_frame_of_ends (programOf_ends hp (by decide)) u, hu]
  · rcases exec_running_next hm hx with rfl | ⟨u, p, hp, -, rfl⟩
    · rfl
    · cases hp
      rfl
  · rcases exec_running_next hm hx with rfl | ⟨u, p, hp, -, rfl⟩
    · rfl
    · have hu : SameButPack s u := programOf_writes hp
      rw [perform_frame p u, hu]
  · rcases exec_running_next hm hx with rfl | ⟨u, p, hp, -, rfl⟩
    · rfl
    · have hu : SameButUnpack s u := programOf_writes hp
      rw [perform_frame p u, hu]

end Sys2Proof.Machine
end

section
/-! SUPPORT. The address map, and what bus reads see of the state (20_memory.md R44 to R49). -/

namespace Sys2Proof.Machine

/-! ### The map -/

/-- A word index of the register window holds a register up to the nineteenth. -/
theorem ofIndex_eq_none {x : Nat} (h : Reg.ofIndex x = none) : 19 ≤ x := by
  by_contra hx
  interval_cases x <;> cases h

/-- An unmapped word lies in one of the holes of the map (20_memory.md R44). -/
theorem hole_of_unmapped {a : Addr} (h : decodeAddr a = .unmapped) :
    (0x004C ≤ a.toNat ∧ a.toNat ≤ 0x03FF) ∨ (0x0800 ≤ a.toNat ∧ a.toNat ≤ 0x0FFF) ∨
      (0x1FF8 ≤ a.toNat ∧ a.toNat ≤ 0x3FFF) ∨ 0x8000 ≤ a.toNat := by
  unfold decodeAddr at h
  dsimp only at h
  split at h
  · split at h
    · cases h
    · have := ofIndex_eq_none ‹_›
      omega
  · repeat' split at h
    all_goals cases h
    all_goals omega

/-- A write elsewhere than to CTRL, CMD, STATUS, LEN and the TABLE window is ignored (20_memory.md R47). -/
theorem hostWrite_ignored {a : Addr} (v : Word) (s : State)
    (h : a.toNat / 4 ≠ 2 ∧ a.toNat / 4 ≠ 3 ∧ a.toNat / 4 ≠ 4 ∧ a.toNat / 4 ≠ 7 ∧ (a.toNat < 0x4000 ∨ 0x8000 ≤ a.toNat)) :
    hostWrite a v s = .next s := by
  obtain ⟨h2, h3, h4, h7, ht⟩ := h
  obtain ⟨t, hw, hmove⟩ := hostWrite_move a v s
  cases hmove with
  | ignored => exact hw
  | accept i ha => exact absurd ha h3
  | illegal e ha => exact absurd ha h3
  | reject r ha => omega
  | status ha => exact absurd ha h4
  | irqEn ha => exact absurd ha h2
  | reset ha => exact absurd ha h2
  | len ha => exact absurd ha h7
  | table e w hw ha =>
    have := e.isLt
    omega

theorem readWord_unmapped {a : Addr} {s : State} (h : decodeAddr a = .unmapped) : readWord a s = 0#32 := by
  unfold readWord
  rw [h]

theorem readWord_freq {a : Addr} {b : Byte} {s : State} (h : decodeAddr a = .freq b) :
    readWord a s = if s.busy then Config.readDraw s.draws else s.freqOf b := by
  unfold readWord
  rw [h]

theorem readWord_node {a : Addr} {i : Nat} {x : Bool} {s : State} (h : decodeAddr a = .node i x) :
    readWord a s = readNode i x (Config.readDraw s.draws) s := by
  unfold readWord
  rw [h]

theorem readWord_table {a : Addr} {e : Byte} {w : Nat} {s : State} (h : decodeAddr a = .table e w) :
    readWord a s = if s.busy then Config.readDraw s.draws else (s.entry e).word w := by
  unfold readWord
  rw [h]

/-- Settles O46, by the address decoder; of the words that take a write none lies in the windows named. -/
theorem addressMapIsAsLaidOut : Obligations.AddressMapIsAsLaidOut := by
  refine ⟨fun r => decodeAddr_reg.2 rfl, fun a b ha => decodeAddr_freq.2 (by omega), fun a i hi => ⟨fun ha => ?_, fun ha => ?_⟩,
    fun a e w hw ha => decodeAddr_table.2 ⟨hw, by omega⟩, fun a v s ha => ⟨readWord_unmapped (decodeAddr_unmapped ha), ?_⟩,
    fun a v s ha => ?_, fun a v s ha => ?_, fun a b s hm ha => ?_⟩
  · exact decodeAddr_node.2 ⟨hi, by simp only [Bool.false_eq_true, if_false]; omega⟩
  · exact decodeAddr_node.2 ⟨hi, by simp only [if_true]; omega⟩
  · exact hostWrite_ignored v s (by omega)
  · exact hostWrite_ignored v s (by omega)
  · exact hostWrite_ignored v s (by omega)
  · rw [readWord_freq (decodeAddr_freq.2 (show _ = 0x100 + b.toNat by omega)), ite_busy_of_idle hm]

/-- Settles O47: an access looks at its address through the decoder only, and every bus write is one of the known moves. -/
theorem accessesMoveOneWord : Obligations.AccessesMoveOneWord := by
  refine ⟨fun a b s h => ?_, fun a b v s h => ?_, fun a v s => ?_⟩
  · rw [readWord, readWord, decodeAddr_congr h]
  · rw [hostWrite, hostWrite, decodeAddr_congr h]
  · obtain ⟨t, ht, -⟩ := hostWrite_move a v s
    exact ⟨t, ht⟩

/-! ### Reads while BUSY -/

/-- The registers of the six units, which while BUSY read as a draw (20_memory.md R48). -/
def Reg.ofUnit : Reg → Bool
  | .nsym | .total | .nnodes | .root | .maxlen | .expbitsLo | .expbitsHi | .bitcount | .bitpos => true
  | .id | .version | .ctrl | .cmd | .status | .errcode | .errinfo | .len | .inCount | .outCount => false

theorem ofUnit_iff (r : Reg) : r.ofUnit = true ↔ 10 ≤ r.offset.toNat / 4 := by
  cases r <;> decide

theorem readReg_ofUnit_busy {r : Reg} {s : State} (hr : r.ofUnit = true) (hb : s.busy = true) (d : Word) : readReg r d s = d := by
  cases r <;> simp_all [readReg, Reg.ofUnit]

/-- A word from NSYM on that is mapped reads as the draw while BUSY. -/
theorem readWord_busy {a : Addr} {s : State} (hb : s.busy = true) (hu : 10 ≤ a.toNat / 4) (hm : decodeAddr a ≠ .unmapped) :
    readWord a s = Config.readDraw s.draws := by
  rcases hd : decodeAddr a with r | b | ⟨i, x⟩ | ⟨e, w⟩ | _
  · have ha := decodeAddr_reg.1 hd
    rw [readWord_reg ha, readReg_ofUnit_busy ((ofUnit_iff r).2 (ha ▸ hu)) hb]
  · rw [readWord_freq hd, if_pos hb]
  · rw [readWord_node hd, readNode, if_pos hb]
  · rw [readWord_table hd, if_pos hb]
  · exact absurd hd hm

/-- STATUS while BUSY: its word with TREE_VALID and HDR_VALID drawn (20_memory.md R48). -/
theorem readWord_status_busy {a : Addr} {s : State} (hb : s.busy = true) (ha : a.toNat / 4 = 4) :
    readWord a s = statusWord s ((Config.readDraw s.draws).getLsbD 4) ((Config.readDraw s.draws).getLsbD 5) := by
  rw [readWord_reg (r := .status) ha, readReg, if_pos hb]

/-- Settles O51: in the windows named no word is unmapped, and every unit's word is the draw. -/
theorem unitReadsWhileBusyAreDraws : Obligations.UnitReadsWhileBusyAreDraws := by
  intro s r a hm
  have hb : s.busy = true := (busy_iff s).2 ⟨r, hm⟩
  refine ⟨fun ha => readWord_busy hb (by omega) fun hd => ?_, fun ha => ?_⟩
  · have := hole_of_unmapped hd
    omega
  · rw [readWord_status_busy hb ha, getLsbD_statusWord _ _ _ 4 (by decide), getLsbD_statusWord _ _ _ 5 (by decide)]
    simp

/-! ### Reading twice -/

/-- A register that is neither STATUS nor a unit's reads the same whatever the draw, as it does after any read. -/
theorem readReg_after_read {r : Reg} (hr : r.ofUnit = false) (hs : r ≠ .status) (d d' w : Word) (s : State) :
    readReg r d' (deliverRead w s) = readReg r d s := by
  cases r <;> simp_all [readReg, Reg.ofUnit]

theorem readReg_after_read_idle {s : State} (hm : s.mode = .idle) (r : Reg) (d d' w : Word) :
    readReg r d' (deliverRead w s) = readReg r d s := by
  have hb : s.busy = false := (not_busy_iff s).2 hm
  have hb' : (deliverRead w s).busy = false := hb
  cases r <;> simp only [readReg, hb, hb'] <;> rfl

/-- In a sound arena every index below NNODES holds a node BUILD wrote (10_state.md R39, 42_huffman_tree_builder.md R93). -/
theorem node_word_isSome {s : State} (h : TreeInv s) {i : Nat} (hi : i < s.nnodes.toNat) (x : Bool) :
    ∃ w, (nodeAt s.node i).word x = some w := by
  obtain ⟨-, h0, h1⟩ := h
  cases hv : s.treeValid with
  | false =>
    rw [(h0 hv).1] at hi
    cases hi
  | true =>
    obtain ⟨-, hn, -, hA⟩ := h1 hv
    have hin : i < (buildTree s.freq blankArena).n := by
      rw [hn, BitVec.toNat_ofNat] at hi
      exact Nat.lt_of_lt_of_le hi (Nat.mod_le _ _)
    rw [hA i hin]
    obtain ⟨hok, -⟩ := buildTree_ok s.freq blankArena
    by_cases hK : i < (countedSymbols s.freq).length
    · rw [hok.leaf i hK]
      exact ⟨_, rfl⟩
    · obtain ⟨l, r, he, -⟩ := hok.inner i (Nat.le_of_not_lt hK) hin
      rw [he]
      exact ⟨_, rfl⟩

/-- A NODE word that is no draw (20_memory.md R46). -/
theorem readNode_after_read {s : State} (hm : s.mode = .idle) (ht : TreeInv s) {i : Nat} (hi : i < s.nnodes.toNat) (x : Bool)
    (d d' w : Word) : readNode i x d' (deliverRead w s) = readNode i x d s := by
  obtain ⟨v, hv⟩ := node_word_isSome ht hi x
  have hb : s.busy = false := (not_busy_iff s).2 hm
  have hb' : (deliverRead w s).busy = false := hb
  simp [readNode, hb, hb', hi, hv]

theorem readWord_after_read_idle {s : State} (hm : s.mode = .idle) (ht : TreeInv s) (a b : Addr)
    (hn : ∀ i x, decodeAddr a = .node i x → i < s.nnodes.toNat) : readWord a (hostRead b s) = readWord a s := by
  have hm' : (hostRead b s).mode = .idle := hm
  rcases hd : decodeAddr a with r | c | ⟨i, x⟩ | ⟨e, w⟩ | _
  · have ha := decodeAddr_reg.1 hd
    rw [readWord_reg ha, readWord_reg ha]
    exact readReg_after_read_idle hm r _ _ _
  · rw [readWord_freq hd, readWord_freq hd, ite_busy_of_idle hm, ite_busy_of_idle hm']
    rfl
  · rw [readWord_node hd, readWord_node hd]
    exact readNode_after_read hm ht (hn i x hd) x _ _ _
  · rw [readWord_table hd, readWord_table hd, ite_busy_of_idle hm, ite_busy_of_idle hm']
    rfl
  · rw [readWord_unmapped hd, readWord_unmapped hd]

theorem readWord_after_read_reg {r : Reg} (hr : r.ofUnit = false) (hs : r ≠ .status) {a : Addr} (hd : decodeAddr a = .reg r) (b : Addr)
    (s : State) : readWord a (hostRead b s) = readWord a s := by
  have ha := decodeAddr_reg.1 hd
  rw [readWord_reg ha, readWord_reg ha]
  exact readReg_after_read hr hs _ _ _ s

/-- A word below the units' registers but STATUS is a register of another kind. -/
theorem reg_below_units {a : Addr} (h : a.toNat / 4 < 4 ∨ (5 ≤ a.toNat / 4 ∧ a.toNat / 4 ≤ 9)) :
    ∃ r : Reg, decodeAddr a = .reg r ∧ r.ofUnit = false ∧ r ≠ .status := by
  rcases hd : decodeAddr a with r | b | ⟨i, x⟩ | ⟨e, w⟩ | _
  · have ha := decodeAddr_reg.1 hd
    refine ⟨r, rfl, ?_, ?_⟩
    · rw [← Bool.not_eq_true, ofUnit_iff]
      omega
    · rintro rfl
      have : a.toNat / 4 = 4 := ha
      omega
  · have := decodeAddr_freq.1 hd
    omega
  · have := (decodeAddr_node.1 hd).2
    omega
  · have := (decodeAddr_table.1 hd).2
    omega
  · have := hole_of_unmapped hd
    omega

theorem readWord_status (a : Addr) (ha : a.toNat / 4 = 4) (s : State) : ∃ tv hv, readWord a s = statusWord s tv hv := by
  rw [readWord_reg (r := .status) ha, readReg]
  split <;> exact ⟨_, _, rfl⟩

/-- Only bits 4 and 5 of STATUS are TREE_VALID and HDR_VALID (10_state.md R22). -/
theorem getLsbD_statusWord_congr (s : State) (tv hv tv' hv' : Bool) {i : Nat} (h4 : i ≠ 4) (h5 : i ≠ 5) :
    (statusWord s tv hv).getLsbD i = (statusWord s tv' hv').getLsbD i := by
  by_cases hi : i < 32
  · rw [getLsbD_statusWord s tv hv i hi, getLsbD_statusWord s tv' hv' i hi, decide_eq_false h4.symm, decide_eq_false h5.symm]
    simp only [Bool.and_false]
  · rw [BitVec.getLsbD_of_ge _ _ (Nat.le_of_not_lt hi), BitVec.getLsbD_of_ge _ _ (Nat.le_of_not_lt hi)]

/-- Settles O48: a read writes the HOST's log and the count of draws, and what is no draw looks at neither. -/
theorem readsChangeNothing : Obligations.ReadsChangeNothing := by
  refine ⟨fun a s => rfl, fun a b s hm hn ht => readWord_after_read_idle hm ht a b hn, fun a b s h => ?_, fun a b s i ha h4 h5 => ?_⟩
  · rw [← or_assoc] at h
    rcases h with h | hd
    · obtain ⟨r, hd, hr, hs⟩ := reg_below_units h
      exact readWord_after_read_reg hr hs hd b s
    · rw [readWord_unmapped hd, readWord_unmapped hd]
  · obtain ⟨tv, hv, hr⟩ := readWord_status a ha s
    obtain ⟨tv', hv', hr'⟩ := readWord_status a ha (hostRead b s)
    rw [hr, hr']
    exact getLsbD_statusWord_congr s tv' hv' tv hv h4 h5

end Sys2Proof.Machine
end

section
/-! SUPPORT. Command words by their two fields (30_encoding.md R62 to R64), and the NODE window while IDLE (30_encoding.md R70, 20_memory.md R46). -/

namespace Sys2Proof.Machine

/-! ### Command words by their fields -/

/-- The decoder reads bits [31:4] and OPC, and nothing else (30_encoding.md R63, R64). -/
theorem decode_ok_iff_fields {w : Word} {i : Instr} :
    decode w = .ok i ↔ w.extractLsb' 4 28 = 0#28 ∧ w.extractLsb' 0 4 = opcode i := by
  rw [← ofOpcode_some]
  by_cases hz : w.extractLsb' 4 28 = 0#28
  · cases ho : ofOpcode (w.extractLsb' 0 4) <;> simp [decode, CommandWord.rsvZero, CommandWord.ofWord, hz, ho]
  · simp [decode, CommandWord.rsvZero, CommandWord.ofWord, hz]

/-- The opcodes in use are 0x1 to 0x6 (30_encoding.md R63, R64). -/
theorem exists_eq_opcode_iff (o : BitVec 4) : (∃ i, o = opcode i) ↔ 1 ≤ o.toNat ∧ o.toNat ≤ 6 := by
  constructor
  · rintro ⟨i, rfl⟩
    cases i <;> decide
  · have key : ∀ o : BitVec 4, 1 ≤ o.toNat ∧ o.toNat ≤ 6 → ∃ i ∈ Instr.all, o = opcode i := by decide
    intro h
    obtain ⟨i, -, hi⟩ := key o h
    exact ⟨i, hi⟩

/-- Settles O2: a word decodes to the command it encodes, and the decoder looks at the two fields only. -/
theorem decodeAndEncodeAgree : Obligations.DecodeAndEncodeAgree := by
  refine ⟨fun i _ => decode_encode i, fun w i h => decode_iff.1 h, fun w => ?_, fun w i h => (decode_ok_iff_fields.1 h).2⟩
  simp only [decode_ok_iff_fields, exists_and_left, exists_eq_opcode_iff]

/-- Settles O1: each of the six words is the one its command encodes to. -/
theorem commandWordsDecode : Obligations.CommandWordsDecode :=
  ⟨decode_encode .count, decode_encode .build, decode_encode .derive,
    decode_encode .clrtab, decode_encode .pack, decode_encode .unpack⟩

/-! ### The NODE window while IDLE -/

/-- The words of node `i` lie at B = 0x1000 + 8 * i and at B + 4 (30_encoding.md R70). -/
theorem decodeAddr_nodeWord {a : Addr} {i : Nat} {second : Bool} (hi : i < 511)
    (ha : a.toNat = 0x1000 + 8 * i + (if second then 4 else 0)) : decodeAddr a = .node i second := by
  refine decodeAddr_node.2 ⟨hi, ?_⟩
  cases second
  · rw [if_neg Bool.false_ne_true] at ha ⊢
    omega
  · rw [if_pos rfl] at ha ⊢
    omega

/-- Below NNODES an IDLE CORE reads the node's word (30_encoding.md R70). -/
theorem readNode_of_lt {s : State} (hm : s.mode = .idle) {i : Nat} (hi : i < s.nnodes.toNat) {second : Bool} {v : Word}
    (hv : (nodeAt s.node i).word second = some v) (d : Word) : readNode i second d s = v := by
  rw [readNode, ite_busy_of_idle hm, if_pos hi, hv, Option.getD_some]

/-- From NNODES on an IDLE CORE reads the draw (20_memory.md R46). -/
theorem readNode_of_ge {s : State} (hm : s.mode = .idle) {i : Nat} (hi : s.nnodes.toNat ≤ i) (second : Bool) (d : Word) :
    readNode i second d s = d := by
  rw [readNode, ite_busy_of_idle hm, if_neg (Nat.not_lt.2 hi)]

/-- Settles O56: the address selects the node and its word, and NNODES tells a stored word from a draw. -/
theorem nodeWindowReadsTheArena : Obligations.NodeWindowReadsTheArena := by
  intro s a i second hm hi ha
  rw [readWord_node (decodeAddr_nodeWord hi ha)]
  refine ⟨fun sym f hn hleaf => readNode_of_lt hm hn ?_ _, fun f l r hn hinner => readNode_of_lt hm hn ?_ _,
    fun hn => readNode_of_ge hm hn second _⟩
  · rw [hleaf, Node.word, BitVec.setWidth_eq_append (by decide)]
    rfl
  · rw [hinner, Node.word]

end Sys2Proof.Machine
end

section
/-! SUPPORT. The control registers against `mode` (10_state.md R22 to R24; 40_command_control.md R82), the CORE's steps point by point, and what a CMD
write and a rejected write do (R75 to R83). -/

namespace Sys2Proof.Machine

/-! ### The control registers at every step -/

theorem controlInv_iff (s : State) : ControlInv s ↔
    (s.mode = .idle → s.outSlot = none ∧ s.errcode.toNat ≤ 0x0B ∧ (s.errcode = 0#8 → s.errinfo = 0#32)) ∧
    ∀ r, s.mode = .busy r → s.done = false ∧ s.errcode = 0#8 ∧ s.errinfo = 0#32 ∧ s.opc = opcode r.instr := by
  unfold ControlInv
  cases s.mode <;> simp

theorem errCode_toNat_le (e : ErrCode) : e.code.toNat ≤ 0x0B := by
  cases e <;> decide

theorem errCode_ne_zero (e : ErrCode) : e.code ≠ 0#8 := by
  cases e <;> decide

/-- The statements before a point leave the control registers as they are (R77). -/
theorem ControlInv.of_program {s u : State} {r : Running} {p : Point} (h : ControlInv s) (hp : programOf r s = some (u, p)) :
    ControlInv u := by
  have hu := programOf_sameOutside hp
  rw [controlInv_iff, hu.mode, hu.done, hu.errcode, hu.errinfo, hu.opc, hu.outSlot]
  exact (controlInv_iff s).1 h

/-- `InByte` and `OutByte` stay in the command. A command ends only with `out_slot` empty, where `Complete` leaves ERRCODE and ERRINFO at 0 and `Fail`
writes a code in use (R77, R80, R81). -/
theorem ControlInv.core {s u : State} {r : Running} {p : Point} (h : ControlInv s) (hm : s.mode = .busy r)
    (hp : programOf r s = some (u, p)) (he : p.enabled s = true) : ControlInv (p.perform u) := by
  have hu := programOf_sameOutside hp
  have hr := programOf_staysIn hp
  obtain ⟨hd, hc, hi, ho⟩ := ((controlInv_iff u).1 (h.of_program hp)).2 r (hu.mode.trans hm)
  have hl : p.Leads ControlInv u := by
    cases p with
    | inByte k => exact fun b => ⟨hd, hc, hi, ho.trans (congrArg opcode (hr b).symm)⟩
    | outByte b k => exact ⟨hd, hc, hi, ho.trans (congrArg opcode (Eq.symm hr))⟩
    | complete => exact ⟨hu.outSlot.trans (Option.isNone_iff_eq_none.1 he), by simp [hc], fun _ => hi⟩
    | fail e info =>
      exact ⟨hu.outSlot.trans (Option.isNone_iff_eq_none.1 he), errCode_toNat_le e, fun h0 => absurd h0 (errCode_ne_zero e)⟩
  exact hl.perform he hu.inSlot

theorem controlInv_kept : KeptByMoves ControlInv where
  schedule _ _ h := h
  core _ _ _ _ h hm hp he := h.core hm hp he
  accept s i _ _ := ⟨rfl, rfl, rfl, by rw [acceptCommand_opc, encode_opcode, instr_start]⟩
  illegal s w h hm _ := (controlInv_iff _).2
    ⟨fun _ => ⟨(((controlInv_iff s).1 h).1 hm).1, errCode_toNat_le .illegalCmd, fun h0 => absurd h0 (errCode_ne_zero .illegalCmd)⟩,
      fun _ hb => nomatch hm.symm.trans hb⟩
  reject _ h _ := h
  status s v h := by
    obtain ⟨hidle, hbusy⟩ := (controlInv_iff s).1 h
    refine (controlInv_iff _).2 ⟨hidle, fun r hm => ?_⟩
    obtain ⟨hd, hrest⟩ := hbusy r hm
    exact ⟨by rw [writeStatus_done, hd, Bool.false_and], hrest⟩
  irqEn _ _ h := h
  reset _ _ := ⟨rfl, Nat.zero_le _, fun _ => rfl⟩
  len _ _ h _ := h
  table _ _ _ _ h _ := h
  read _ _ h := h
  draw _ h := h
  offer _ _ h _ := h
  take s b h _ := by
    obtain ⟨hidle, hbusy⟩ := (controlInv_iff s).1 h
    exact (controlInv_iff _).2 ⟨fun hm => ⟨rfl, (hidle hm).2⟩, hbusy⟩

/-- Settles O10: the moves of a step, of which only an acceptance, a point and a reset change `mode`. -/
theorem stepKeepsControlInv : Obligations.StepKeepsControlInv := fun _ _ => controlInv_kept.step

/-! ### What a CMD write does (R75, R76) -/

theorem hostWrite_cmd {a : Addr} (ha : a.toNat / 4 = 3) (w : Word) (s : State) : hostWrite a w s = writeCmd w s :=
  hostWrite_reg (r := .cmd) ha

/-- The acceptance of a command, field by field (R75). -/
theorem acceptCommand_eq (i : Instr) (s : State) : acceptCommand i s = { s with
    done := false, errcode := 0#8, errinfo := 0#32, opc := opcode i
    inCount := 0#32, outCount := 0#32, bitcount := 0#32, bitpos := 0#32
    lenL := s.len, mode := .busy (Running.start i) } := by
  rw [acceptCommand, beginCommand, encode_opcode]

/-- Only the acceptance of a scheduled CMD write takes an IDLE CORE to BUSY (R75). -/
theorem step_starts {s t : State} (h : step s = .next t) (hm : s.mode = .idle) (ht : t.mode ≠ .idle) :
    ∃ a w i rest, s.schedule = .host (.write a w) :: rest ∧ a.toNat / 4 = 3 ∧ decode w = .ok i ∧ t.mode = .busy (Running.start i) := by
  cases step_move h with
  | core l r u p hb => cases hm.symm.trans hb
  | write a w rest t hs hw =>
    cases hw with
    | accept i ha _ hd => exact ⟨a, w, i, rest, hs, ha, hd, rfl⟩
    | reset => exact absurd rfl ht
    | _ => exact absurd hm ht
  | reset p rest hs => cases p <;> exact absurd rfl ht
  | _ => exact absurd hm ht

/-- Settles O4: a CMD write by `mode` and by what its word decodes to; of all moves of a step only the acceptance makes the CORE BUSY. -/
theorem cmdWriteStartsOrFailsACommand : Obligations.CmdWriteStartsOrFailsACommand := by
  refine ⟨fun s a w ha => ⟨fun r hm => ?_, fun i hm hd => ?_, fun e hm hd => ?_⟩, fun s t hm ht h => step_starts h hm ht⟩
  · rw [hostWrite_cmd ha, writeCmd_busy hm, rejectWrite]
  · rw [hostWrite_cmd ha, writeCmd_idle hm hd, acceptCommand_eq, ← decode_iff.1 hd, encode_opcode]
  · rw [hostWrite_cmd ha, writeCmd_illegal hm hd]
    rfl

/-! ### Writes to a BUSY CORE (R76) -/

/-- A write to CMD, LEN or the TABLE window of a BUSY CORE is rejected. -/
theorem hostWrite_rejected {s : State} {r : Running} {a : Addr} (hm : s.mode = .busy r) (v : Word)
    (ha : a.toNat / 4 = 3 ∨ a.toNat / 4 = 7 ∨ (0x4000 ≤ a.toNat ∧ a.toNat < 0x8000)) :
    hostWrite a v s = .next (rejectWrite s) := by
  have hb : s.busy = true := (busy_iff s).2 ⟨r, hm⟩
  rcases ha with ha | ha | ⟨h4, h8⟩
  · rw [hostWrite_cmd ha, writeCmd_busy hm]
  · rw [hostWrite_reg (r := .len) ha, writeReg, writeLen, if_pos hb]
  · have he : a.toNat / 4 = 0x1000 + 16 * (BitVec.ofNat 8 ((a.toNat - 0x4000) / 64)).toNat + a.toNat / 4 % 16 := by
      rw [BitVec.toNat_ofNat]
      omega
    rw [hostWrite_table (Nat.mod_lt _ (by decide)) he, if_pos hb]

/-- Settles O6, by the word the address selects. -/
theorem busyCoreRejectsWrites : Obligations.BusyCoreRejectsWrites := by
  refine fun s r a v hm => ⟨fun ha => hostWrite_rejected hm v ha, fun ha => ?_, fun ha => ?_, fun h2 h3 h4 h7 ht => ?_⟩
  · rw [hostWrite_reg (r := .ctrl) ha, writeReg, writeCtrl]
  · rw [hostWrite_reg (r := .status) ha, writeReg, writeStatus]
  · exact hostWrite_ignored v s ⟨h2, h3, h4, h7, by omega⟩

/-! ### A step of the running command (R77 to R81, R83) -/

section
variable {s u : State} {r : Running} {p : Point}

/-- Where the point is not enabled nothing happens (R83). -/
theorem exec_waits (hm : s.mode = .busy r) (hp : programOf r s = some (u, p)) (he : p.enabled s = false) :
    exec r.instr s = .next s := by
  rw [exec_running hm, hp, coreStep_wait he]

/-- Where the point is enabled the statements before it and the point happen together (R77). -/
theorem exec_performs (hm : s.mode = .busy r) (hp : programOf r s = some (u, p)) (he : p.enabled s = true) :
    exec r.instr s = .next (p.perform u) := by
  rw [exec_running hm, hp, coreStep_go he]

end

/-- Every point but `InByte` is enabled exactly while `out_slot` is empty (R77). -/
theorem enabled_of_not_inByte {p : Point} (h : ∀ k, p ≠ .inByte k) (s : State) : p.enabled s = s.outSlot.isNone := by
  cases p with
  | inByte k => exact absurd rfl (h k)
  | _ => rfl

/-- Settles O8: the core step of the program, by the kind of its point, and the frame of its statements. -/
theorem coreStepDoesStatementsAndPoint : Obligations.CoreStepDoesStatementsAndPoint := by
  intro s u r p hm hp
  have hu := programOf_sameOutside hp
  refine ⟨exec_waits hm hp, ?_, ?_, ?_, ?_, ?_, ?_, ?_⟩
  · rintro k b rfl hb
    rw [exec_performs hm hp (by rw [Point.enabled, hb]; rfl), Point.perform, hu.inSlot, hb, ← hu.inCount]
    rfl
  · rintro k b rfl ho
    rw [exec_performs hm hp (by rw [Point.enabled, ho]; rfl), ← hu.outCount]
    rfl
  · rintro rfl ho
    exact exec_performs hm hp (by rw [Point.enabled, ho]; rfl)
  · rintro e info rfl ho
    exact exec_performs hm hp (by rw [Point.enabled, ho]; rfl)
  · rintro k rfl hi
    exact exec_waits hm hp (by rw [Point.enabled, hi]; rfl)
  · intro b hk ho
    exact exec_waits hm hp (by rw [enabled_of_not_inByte hk, ho]; rfl)
  · exact ⟨hu.irqEn, hu.mode, hu.done, hu.rej, hu.opc, hu.errcode, hu.errinfo, hu.len, hu.lenL, hu.inCount, hu.outCount, hu.inSlot, hu.outSlot,
      hu.draws, hu.schedule, hu.reads, hu.taken⟩

/-! ### Whose step comes next (R73, R74) -/

theorem coreTurn_busy {s : State} {r : Running} (hm : s.mode = .busy r) : coreTurn s = exec r.instr s := by
  rw [coreTurn, hm]

/-- An enabled HOST step is taken. -/
theorem step_host {s : State} {op : HostOp} {rest : List Turn} (h : s.schedule = .host op :: rest) (he : op.enabled s = true) :
    step s = hostStep op { s with schedule := rest } := by
  rw [step, takeTurn, h]
  exact if_pos he

/-- A HOST step that is not enabled waits while the CORE goes on. -/
theorem step_host_waits {s : State} {op : HostOp} {rest : List Turn} (h : s.schedule = .host op :: rest) (he : op.enabled s = false) :
    step s = coreTurn s := by
  rw [step, takeTurn, h]
  exact if_neg (Bool.eq_false_iff.1 he)

theorem step_core {s : State} {rest : List Turn} (h : s.schedule = .core :: rest) : step s = coreTurn { s with schedule := rest } := by
  rw [step, takeTurn, h]

theorem step_unscheduled {s : State} (h : s.schedule = []) : step s = coreTurn s := by
  rw [step, takeTurn, h]

/-- A scheduled CMD write of a command's word to an IDLE CORE runs the command's first face. -/
theorem step_cmd_write {s : State} {a : Addr} {w : Word} {i : Instr} {rest : List Turn} (ha : a.toNat / 4 = 3) (hd : decode w = .ok i)
    (hm : s.mode = .idle) (h : s.schedule = .host (.write a w) :: rest) : step s = exec i { s with schedule := rest } := by
  rw [step_write h, hostWrite_cmd ha, writeCmd_idle (s := { s with schedule := rest }) hm hd, exec_idle (s := { s with schedule := rest }) hm]

/-- A word of the opcode table is the CMD word it is placed as. -/
theorem decode_of_decodeTableWord {nbits w : Nat} {i : Instr} (h : decodeTableWord nbits w = some i) :
    decode (BitVec.ofNat 32 (w % 2 ^ nbits)) = .ok i := by
  unfold decodeTableWord at h
  dsimp only at h
  split at h
  · split at h
    · rename_i j hj
      cases h
      exact hj
    · cases h
  · cases h

/-- Settles O3, by the turn at the head of the schedule. -/
theorem stepRunsTheDecodedCommand : Obligations.StepRunsTheDecodedCommand := by
  refine ⟨fun s a w i rest ha hd hm h => step_cmd_write ha hd hm h, fun s nbits w i hw => ?_, fun s r rest hm h => ?_, fun s r hm h => ?_,
    fun s op rest h he => step_host h he, fun s op r rest h he hm => ?_⟩
  · exact step_cmd_write (s := s.withFetchWord nbits w) rfl (decode_of_decodeTableWord hw) rfl rfl
  · exact (step_core h).trans (coreTurn_busy hm)
  · exact (step_unscheduled h).trans (coreTurn_busy hm)
  · exact (step_host_waits h he).trans (coreTurn_busy hm)

/-- Settles O5, by `mode`. -/
theorem commandIsAcceptedOrRejected : Obligations.CommandIsAcceptedOrRejected := by
  refine ⟨fun i s hm => ?_, fun i r s hm hr => ?_⟩
  · rw [exec_idle hm, acceptCommand_eq]
  · rw [exec_other hm hr, rejectWrite]

end Sys2Proof.Machine
end

section
/-! SUPPORT. COUNT step by step and as a whole run, its indifference to the order of the bytes, and who else depends on FREQ (41_frequency_counter.md R85 to R88). -/

namespace Sys2Proof.Machine

/-! ### Any FREQ under the other commands (R88) -/

/-- FREQ replaced. -/
def State.withFreq (s : State) (f : Vector Word 256) : State := { s with freq := f }

/-- The result of a program, with FREQ replaced. -/
def withFreqResult (f : Vector Word 256) (q : State × Point) : State × Point := (q.1.withFreq f, q.2)

section
variable (f : Vector Word 256)

theorem packCheck_withFreq (s : State) : packCheck (s.withFreq f) = withFreqResult f (packCheck s) := by
  rw [packCheck, packCheck, apply_ite (withFreqResult f)]
  rfl

theorem packEnd_withFreq (s : State) : packEnd (s.withFreq f) = withFreqResult f (packEnd s) := by
  rw [packEnd, packEnd, apply_ite (withFreqResult f), packCheck_withFreq]
  rfl

theorem packLoop_withFreq (left : Nat) (s : State) : packLoop left (s.withFreq f) = withFreqResult f (packLoop left s) := by
  cases left with
  | zero => exact packEnd_withFreq f s
  | succ k => rfl

theorem packBits_withFreq (b : Byte) (left j : Nat) (s : State) :
    packBits b left j (s.withFreq f) = withFreqResult f (packBits b left j s) := by
  induction j generalizing s with
  | zero => exact packLoop_withFreq f left s
  | succ j ih =>
    rw [packBits, packBits, apply_ite (withFreqResult f), ← ih]
    rfl

theorem packStart_withFreq (s : State) : packStart (s.withFreq f) = withFreqResult f (packStart s) := by
  rw [packStart, packStart, apply_ite (withFreqResult f), apply_ite (withFreqResult f), apply_ite (withFreqResult f)]
  rfl

theorem packProgram_withFreq (c : PackCont) (s : State) : packProgram c (s.withFreq f) = withFreqResult f (packProgram c s) := by
  cases c with
  | start => exact packStart_withFreq f s
  | hdr k =>
    simp only [packProgram]
    rw [apply_ite (withFreqResult f), ← packLoop_withFreq]
    rfl
  | got b left =>
    simp only [packProgram]
    rw [apply_ite (withFreqResult f), ← packBits_withFreq]
    rfl
  | bits b j left => exact packBits_withFreq f b left j { s with acc := 0#8, nacc := 0#4 }
  | tail => exact packCheck_withFreq f s

theorem unpackTail_withFreq (left : Nat) (s : State) : unpackTail left (s.withFreq f) = withFreqResult f (unpackTail left s) := by
  cases left <;> rfl

theorem unpackEnd_withFreq (s : State) : unpackEnd (s.withFreq f) = withFreqResult f (unpackEnd s) := by
  rw [unpackEnd, unpackEnd, apply_ite (withFreqResult f), ← unpackTail_withFreq]
  rfl

theorem unpackLoop_withFreq (left : Nat) (s : State) : unpackLoop left (s.withFreq f) = withFreqResult f (unpackLoop left s) := by
  cases left with
  | zero => exact unpackEnd_withFreq f s
  | succ k => rfl

theorem unpackBits_withFreq (b : Byte) (left k : Nat) (s : State) :
    unpackBits b left k (s.withFreq f) = withFreqResult f (unpackBits b left k s) := by
  induction k generalizing s with
  | zero => exact unpackLoop_withFreq f left s
  | succ k ih =>
    have he : unpackBit (b.getLsbD k) (s.withFreq f) = (unpackBit (b.getLsbD k) s).withFreq f := rfl
    simp only [unpackBits]
    rw [he, ih, ih, apply_ite (withFreqResult f)]
    refine if_congr Iff.rfl ?_ rfl
    dsimp only [State.withFreq]
    split
    · rw [apply_ite (withFreqResult f)]
      rfl
    · rfl
    · rfl

theorem unpackHeader_withFreq (hw : Word) (s : State) : unpackHeader hw (s.withFreq f) = withFreqResult f (unpackHeader hw s) := by
  simp only [unpackHeader]
  rw [apply_ite (withFreqResult f), apply_ite (withFreqResult f), ← unpackLoop_withFreq]
  rfl

theorem unpackProgram_withFreq (c : UnpackCont) (s : State) :
    unpackProgram c (s.withFreq f) = withFreqResult f (unpackProgram c s) := by
  cases c with
  | start =>
    simp only [unpackProgram]
    rw [apply_ite (withFreqResult f)]
    rfl
  | got0 h0 => rfl
  | got1 h0 h1 => rfl
  | got2 h0 h1 h2 => rfl
  | got3 h0 h1 h2 h3 => exact unpackHeader_withFreq f _ s
  | gotData b left => exact unpackBits_withFreq f b left 8 s
  | emitted b k left => exact unpackBits_withFreq f b left k { s with cand := 0#256, clen := 0#8 }
  | gotTail left => exact unpackTail_withFreq f left s

theorem deriveProgram_withFreq (s : State) : deriveProgram (s.withFreq f) = (deriveProgram s).map (withFreqResult f) := by
  simp only [deriveProgram]
  rw [apply_ite (Option.map (withFreqResult f))]
  refine if_congr Iff.rfl ?_ rfl
  dsimp only [State.withFreq]
  split <;> rfl

/-- No command but COUNT and BUILD looks at FREQ: over another FREQ its program writes the same and reaches the same point (R88). -/
theorem programOf_withFreq {r : Running} (hc : r.instr ≠ .count) (hb : r.instr ≠ .build) (s : State) :
    programOf r (s.withFreq f) = (programOf r s).map (withFreqResult f) := by
  cases r with
  | count c => exact absurd rfl hc
  | build => exact absurd rfl hb
  | derive => exact deriveProgram_withFreq f s
  | clrtab => rfl
  | pack c => exact congrArg some (packProgram_withFreq f c s)
  | unpack c => exact congrArg some (unpackProgram_withFreq f c s)

theorem enabled_withFreq (s : State) (p : Point) : p.enabled (s.withFreq f) = p.enabled s := by
  cases p <;> rfl

theorem perform_withFreq (s : State) (p : Point) : p.perform (s.withFreq f) = (p.perform s).withFreq f := by
  cases p with
  | inByte k =>
    simp only [Point.perform]
    dsimp only [State.withFreq]
    split <;> rfl
  | outByte b k => rfl
  | complete => rfl
  | fail e info => rfl

theorem coreStep_withFreq {s t : State} {q : Option (State × Point)} (h : coreStep s q = .next t) :
    coreStep (s.withFreq f) (q.map (withFreqResult f)) = .next (t.withFreq f) := by
  obtain ⟨u, p, rfl, ⟨he, rfl⟩ | ⟨he, rfl⟩⟩ := coreStep_next h
  · exact coreStep_wait ((enabled_withFreq f _ p).trans he)
  · exact (coreStep_go ((enabled_withFreq f _ p).trans he)).trans (congrArg Host.Outcome.next (perform_withFreq f u p))

end

/-- A step writes FREQ only as a core step of COUNT or as a reset (R88, 20_memory.md R55). -/
theorem freq_of_step {s t : State} (h : step s = .next t) :
    t.freq = s.freq ∨ (∃ c, s.mode = .busy (.count c)) ∨ ResetScheduled s := by
  cases step_move h with
  | core l r u p hm hp =>
    by_cases hr : r.instr = .count
    · obtain ⟨c, rfl⟩ := instr_eq_count hr
      exact .inr (.inl ⟨c, hm⟩)
    · obtain ⟨hf, -⟩ := programOf_keeps_counts hp hr
      exact .inl ((perform_freq p u).trans hf)
  | write a v rest t hs hw =>
    cases hw with
    | reset ha hv => exact .inr (.inr (.inl ⟨a, v, rest, hs, ha, hv⟩))
    | _ => exact .inl rfl
  | reset p rest hs => exact .inr (.inr (.inr ⟨p, rest, hs⟩))
  | _ => exact .inl rfl

/-- Settles O21: of all moves of a step only a core step of COUNT and a reset write FREQ, and the programs of the other commands run the same over any FREQ. -/
theorem onlyCountAndBuildUseFreq : Obligations.OnlyCountAndBuildUseFreq := by
  refine ⟨fun s t h hne => (freq_of_step h).resolve_left hne, fun s t r f hm hc hb h => ?_⟩
  rw [exec_running hm] at h
  rw [exec_running (s := { s with freq := f }) hm]
  exact (congrArg (coreStep _) (programOf_withFreq f hc hb s)).trans (coreStep_withFreq f h)

/-! ### What counting an input makes (R85, R86) -/

/-- FREQ, NSYM and TOTAL are those of the bytes `S` (10_state.md R28, R29, R38). -/
structure CountsOf (S : List Byte) (t : State) : Prop where
  freqOf : ∀ b, (t.freqOf b).toNat = S.count b
  total : t.total.toNat = S.length
  freqSum : freqSum t.freq = S.length
  nsym : t.nsym.toNat = (countedSymbols t.freq).length

/-- Counting `S` from a cleared FREQ: no counter wraps, `S` being shorter than 2^32. -/
theorem countsOf_countAll {S : List Byte} (hS : S.length < 2 ^ 32) (s : State) : CountsOf S (countAll S (countClear s)) := by
  have hz : (countClear s).total.toNat + S.length = S.length := Nat.zero_add _
  obtain ⟨hsum, hsym, htot⟩ := countAll_keeps S (countClear s) freqSum_zero (congrArg List.length countedSymbols_zero) (hz.symm ▸ hS)
  refine ⟨fun b => ?_, htot.trans hz, hsum.trans (htot.trans hz), hsym.symm⟩
  have h0 : ((countClear s).freqOf b).toNat = 0 := congrArg BitVec.toNat (entryOf_replicate 0#32 b)
  rw [countAll_freq, h0, Nat.zero_add, Nat.mod_eq_of_lt (List.count_le_length.trans_lt hS)]

/-- The counted symbols are the bytes of the input. -/
theorem CountsOf.mem_countedSymbols_iff {S : List Byte} {t : State} (h : CountsOf S t) (b : Byte) : b ∈ countedSymbols t.freq ↔ b ∈ S := by
  have hb : (entryOf t.freq b).toNat = S.count b := h.freqOf b
  rw [mem_countedSymbols, ← List.count_pos_iff, ← hb, Nat.pos_iff_ne_zero, Ne, Ne, ← BitVec.toNat_inj]
  rfl

/-- The counts of an input are those of the same bytes in any other order (R87). -/
theorem CountsOf.eq_of_perm {S S' : List Byte} {t t' : State} (h : CountsOf S t) (h' : CountsOf S' t') (hp : S.Perm S') :
    t.freq = t'.freq ∧ t.nsym = t'.nsym ∧ t.total = t'.total := by
  have hf : t.freq = t'.freq := eq_of_entryOf_eq fun b => BitVec.eq_of_toNat_eq
    ((h.freqOf b).trans ((hp.count_eq b).trans (h'.freqOf b).symm))
  exact ⟨hf, BitVec.eq_of_toNat_eq (by rw [h.nsym, h'.nsym, hf]), BitVec.eq_of_toNat_eq (by rw [h.total, h'.total, hp.length_eq])⟩

/-- Settles O20: the counts are those of the input, which its order does not change. -/
theorem countIgnoresOrder : Obligations.CountIgnoresOrder := fun s _ _ hS hp =>
  (countsOf_countAll hS s).eq_of_perm (countsOf_countAll (hp.length_eq ▸ hS) s) hp

/-! ### The steps of COUNT (R85) -/

/-- Settles O18: each step of COUNT is the statements before its next point, then that point. -/
theorem countRunsItsProgram : Obligations.CountRunsItsProgram := by
  refine ⟨fun s hm hl ho => ?_, fun s b k hm hl hi => ?_, fun s b hm ho => ?_, fun s b c k hm hi => ?_⟩
  · have hp : programOf (.count .start) s = some (countClear s, .complete) := by
      rw [programOf, countProgram, hl]
      rfl
    obtain ⟨-, -, -, hcomplete, -⟩ := coreStepDoesStatementsAndPoint _ _ _ _ hm hp
    exact hcomplete rfl ho
  · have hp : programOf (.count .start) s = some (countClear s, .inByte fun b => .count (.got b k)) := by
      rw [programOf, countProgram, hl]
      rfl
    obtain ⟨-, hin, -⟩ := coreStepDoesStatementsAndPoint _ _ _ _ hm hp
    exact hin _ b rfl hi
  · obtain ⟨-, -, -, hcomplete, -⟩ := coreStepDoesStatementsAndPoint _ (countByte b s) _ .complete hm rfl
    exact hcomplete rfl ho
  · obtain ⟨-, hin, -⟩ := coreStepDoesStatementsAndPoint _ (countByte b s) _ (.inByte fun c => .count (.got c k)) hm rfl
    exact hin _ c rfl hi

/-! ### The run of COUNT under its script (30_encoding.md R72) -/

/-- The turns of `SETLEN n; CMD i; XFER [S]`. -/
theorem HostReady.schedule_transfer {s : State} {n : Nat} {i : Instr} {S : List Byte} {rest : List Turn}
    (h : HostReady s [.setLen n, .cmd i, xferLine S] rest) :
    s.schedule = wrTurn 0x001C n :: wrTurn 0x000C (encode i).toNat :: .xfer S :: rest := by
  have hx : (S.map BitVec.toNat).map (BitVec.ofNat 8) = S := by simp [Function.comp_def]
  rw [h.scheduled, scriptTurns, xferLine]
  simp only [List.flatMap_cons, List.flatMap_nil, Line.turns, hx]
  rfl

/-- Settles O19: from the acceptance COUNT clears FREQ and its loop counts every byte that XFER offers. -/
theorem countedInputRun : Obligations.CountedInputRun := by
  intro s S rest hS h
  set a : State := acceptCommand .count { s with len := BitVec.ofNat 32 S.length, schedule := .xfer S :: rest }
  have hstart : Reaches s a := reaches_start h.idle h.schedule_transfer
  have hq : Quiet a (S ++ []) rest := by
    rw [List.append_nil]
    exact quiet_accept rfl h.inEmpty h.outEmpty
  have hl : a.lenL.toNat = S.length := (BitVec.toNat_ofNat _ _).trans (Nat.mod_eq_of_lt hS)
  have hp : programOf (.count .start) a = some (countLoop S.length (countClear a)) := by
    rw [programOf, countProgram, hl]
  have hrun := hstart.trans (run_countLoop S hq rfl hp)
  have hc := countsOf_countAll hS a
  have hin : (a.inCount + BitVec.ofNat 32 S.length).toNat = S.length :=
    (congrArg BitVec.toNat (BitVec.zero_add _)).trans hl
  rw [countAll_same] at hrun hc
  exact ⟨_, hrun, ⟨rfl, rfl, rfl, rfl, h.outEmpty, rfl⟩, hc.freqOf, hc.total, hc.freqSum, hc.nsym, hc.mem_countedSymbols_iff, hin,
    rfl, rfl, h.inEmpty, rfl, rfl, rfl, rfl, rfl, rfl, rfl, rfl, rfl, rfl, rfl⟩

end Sys2Proof.Machine
end

section
/-! SUPPORT. BUILD as its one core step, and the arena it leaves (42_huffman_tree_builder.md R89 to R96). -/

namespace Sys2Proof.Machine

/-! ### The counted symbols (R90) -/

theorem countedSymbols_eq_nil_iff (v : Vector Word 256) : countedSymbols v = [] ↔ ∀ b, entryOf v b = 0#32 := by
  simp only [List.eq_nil_iff_forall_not_mem, mem_countedSymbols, Ne, not_not]

theorem pairwise_symbols : symbols.Pairwise fun a b => a.toNat < b.toNat := by
  rw [List.pairwise_iff_getElem]
  intro i j hi hj hij
  rw [length_symbols] at hi hj
  rw [getElem_symbols, getElem_symbols, BitVec.toNat_ofNat, BitVec.toNat_ofNat]
  omega

theorem pairwise_countedSymbols (v : Vector Word 256) : (countedSymbols v).Pairwise fun a b => a.toNat < b.toNat :=
  pairwise_symbols.filter _

/-! ### The core step of BUILD (R91) -/

section
variable {s : State}

/-- Both points of BUILD wait for the output slot. -/
theorem buildProgram_enabled (s : State) : (buildProgram s).2.enabled s = s.outSlot.isNone := by
  unfold buildProgram
  split <;> rfl

theorem exec_build_waits (hm : s.mode = .busy .build) {b : Byte} (ho : s.outSlot = some b) : exec .build s = .next s :=
  exec_waits (u := (buildProgram s).1) (p := (buildProgram s).2) hm rfl (by rw [buildProgram_enabled, ho]; rfl)

theorem exec_build_performs (hm : s.mode = .busy .build) (ho : s.outSlot = none) :
    exec .build s = .next ((buildProgram s).2.perform (buildProgram s).1) :=
  exec_performs hm rfl (by rw [buildProgram_enabled, ho]; rfl)

theorem exec_build_fails (hm : s.mode = .busy .build) (ho : s.outSlot = none) (hK : countedSymbols s.freq = []) :
    exec .build s = .next (failCommand .emptyInput 0#32 (buildClear s)) := by
  rw [exec_build_performs hm ho, buildProgram, if_pos hK]
  rfl

theorem exec_build_completes (hm : s.mode = .busy .build) (ho : s.outSlot = none) (hK : countedSymbols s.freq ≠ []) :
    exec .build s = .next (completeCommand (buildWrite s)) := by
  rw [exec_build_performs hm ho, buildProgram, if_neg hK]
  rfl

/-- NNODES holds the size of the arena: at most 511 entries fit its 10 bits. -/
theorem buildWrite_nnodes (hK : countedSymbols s.freq ≠ []) :
    (buildWrite s).nnodes.toNat = 2 * (countedSymbols s.freq).length - 1 := by
  obtain ⟨hn, -⟩ := buildTree_root s.node hK
  have hle := length_countedSymbols_le s.freq
  simp only [buildWrite, hn, BitVec.toNat_ofNat]
  omega

/-- ROOT holds the last index of the arena: it is at most 510. -/
theorem buildWrite_root (hK : countedSymbols s.freq ≠ []) :
    (buildWrite s).root.toNat = 2 * (countedSymbols s.freq).length - 2 := by
  obtain ⟨-, hq⟩ := buildTree_root s.node hK
  have hle := length_countedSymbols_le s.freq
  simp only [buildWrite, hq, List.headD_cons, BitVec.toNat_ofNat]
  omega

end

/-- Settles O22: the core step of BUILD's program, by whether any symbol is counted. -/
theorem buildRunsInOneStep : Obligations.BuildRunsInOneStep := by
  refine fun s hm => ⟨fun ho h0 => ?_, fun ho h => ?_, fun b ho => exec_build_waits hm ho⟩
  · exact exec_build_fails hm ho ((countedSymbols_eq_nil_iff _).2 h0)
  · obtain ⟨b, hb⟩ := h
    exact exec_build_completes hm ho fun hK => hb ((countedSymbols_eq_nil_iff _).1 hK b)

/-! ### The extraction order (R89) -/

/-- Settles O23: the minimum of the order that compares frequencies, then indices. -/
theorem extractMinTakesTheFirst : Obligations.ExtractMinTakesTheFirst := by
  intro v q hq
  obtain ⟨m, hm⟩ := extractMin_isSome (v := v) hq
  obtain ⟨hmem, -, hfirst⟩ := extractMin_spec hm
  exact ⟨m, hm, hmem, hfirst⟩

/-! ### The leaves (R90, R92) -/

/-- Settles O25: the counted symbols are taken out of the ascending list of all symbols; a single leaf is never merged. -/
theorem leavesAscendAndOneSymbolIsOneLeaf : Obligations.LeavesAscendAndOneSymbolIsOneLeaf := by
  refine ⟨fun freq => ⟨mem_countedSymbols freq, pairwise_countedSymbols freq⟩, fun s x hm ho hx => ?_⟩
  have hK : countedSymbols s.freq ≠ [] := by
    rw [hx]
    exact List.cons_ne_nil _ _
  have hlen : (countedSymbols s.freq).length = 1 := congrArg List.length hx
  obtain ⟨hok, -⟩ := buildTree_ok s.freq s.node
  have hleaf := hok.leaf 0 (by omega)
  simp only [hx, List.getElem_cons_zero] at hleaf
  have hroot := buildWrite_root hK
  have hnodes := buildWrite_nnodes hK
  rw [hlen] at hroot hnodes
  exact ⟨_, exec_build_completes hm ho hK, hleaf, BitVec.eq_of_toNat_eq hroot, BitVec.eq_of_toNat_eq hnodes, rfl⟩

/-! ### The arena depends on FREQ alone (R96) -/

/-- Settles O26: over any two arenas BUILD writes the same entries, and without a counted symbol it writes none. -/
theorem buildDependsOnFreqAlone : Obligations.BuildDependsOnFreqAlone := by
  intro s s' t t' hm hm' ho ho' hf h h'
  by_cases hK : countedSymbols s.freq = []
  · obtain rfl := Host.Outcome.next.inj ((exec_build_fails hm ho hK).symm.trans h)
    obtain rfl := Host.Outcome.next.inj ((exec_build_fails hm' ho' (hf ▸ hK)).symm.trans h')
    exact ⟨rfl, rfl, rfl, fun i hi => absurd hi (Nat.not_lt_zero i)⟩
  · obtain rfl := Host.Outcome.next.inj ((exec_build_completes hm ho hK).symm.trans h)
    obtain rfl := Host.Outcome.next.inj ((exec_build_completes hm' ho' (hf ▸ hK)).symm.trans h')
    have ha : Agree (buildTree s.freq s.node) (buildTree s'.freq s'.node) := hf ▸ buildTree_agree s.freq s.node s'.node
    obtain ⟨hq, hn, hnode⟩ := ha
    refine ⟨rfl, congrArg (BitVec.ofNat 10) hn, congrArg (fun q : List Nat => BitVec.ofNat 9 (q.headD 0)) hq, fun i hi => hnode i ?_⟩
    calc i < (BitVec.ofNat 10 (buildTree s.freq s.node).n).toNat := hi
      _ = (buildTree s.freq s.node).n % 2 ^ 10 := BitVec.toNat_ofNat _ _
      _ ≤ (buildTree s.freq s.node).n := Nat.mod_le _ _

/-! ### The strict binary tree (R93) -/

section
variable {freq : Vector Word 256} {b : Builder}

/-- An entry past the leaves, with its children as the 9-bit fields hold them: nothing is lost, and the sum of two counts does not wrap. -/
theorem ArenaOk.internal_node (h : ArenaOk freq b) (hs : freqSum freq < 2 ^ 32) {i : Nat}
    (hi : (countedSymbols freq).length ≤ i) (hn : i < b.n) :
    ∃ f l r, nodeAt b.node i = .internal f l r ∧ l.toNat < i ∧ r.toNat < i ∧ l ≠ r ∧
      f.toNat = (nodeAt b.node l.toNat).freq.toNat + (nodeAt b.node r.toNat).freq.toNat ∧
      precedes b.node l.toNat r.toNat = true := by
  obtain ⟨l, r, he, hl, hr, hne, hb⟩ := h.inner i hi hn
  have hsize := h.size
  have hle := length_countedSymbols_le freq
  have el : (BitVec.ofNat 9 l).toNat = l := ofNat9_toNat (by omega)
  have er : (BitVec.ofNat 9 r).toNat = r := ofNat9_toNat (by omega)
  refine ⟨_, _, _, he, el.trans_lt hl, er.trans_lt hr, fun e => hne ?_, h.exact hs i _ _ _ hn he, ?_⟩
  · rw [← el, ← er, e]
  · rw [el, er, precedes_iff]
    exact hb

/-- An entry that is no longer in Q has exactly one parent. -/
theorem ArenaOk.one_parent (h : ArenaOk freq b) {j : Nat} (hj : j < b.n) (hq : j ∉ b.q) :
    ∃ i, (countedSymbols freq).length ≤ i ∧ i < b.n ∧ ChildOf b.node i j ∧ ∀ i', i' < b.n → ChildOf b.node i' j → i' = i := by
  obtain ⟨i, hi, hn, hc⟩ := (h.covered j hj).resolve_left hq
  exact ⟨i, hi, hn, hc, (h.once i j hn hc).2⟩

/-- When one index is left in Q, all counts have been added up in it. -/
theorem ArenaOk.root_freq (h : ArenaOk freq b) (hs : freqSum freq < 2 ^ 32) {root : Nat} (hq : b.q = [root]) :
    (nodeAt b.node root).freq.toNat = freqSum freq := by
  have hsum := h.sum hs
  rwa [hq, List.map_singleton, List.sum_singleton] at hsum

end

/-- Settles O24: the shape every merge keeps, read off the arena when one index is left in Q. -/
theorem buildMakesAStrictTree : Obligations.BuildMakesAStrictTree := by
  intro s hm ho hc hK
  obtain ⟨hsum, -⟩ := hc
  obtain ⟨hok, -⟩ := buildTree_ok s.freq s.node
  obtain ⟨hn, hq⟩ := buildTree_root s.node hK
  have hs : freqSum s.freq < 2 ^ 32 := hsum ▸ s.total.isLt
  have hpos := List.length_pos_iff.2 hK
  have hnodes : (completeCommand (buildWrite s)).nnodes.toNat = 2 * (countedSymbols s.freq).length - 1 := buildWrite_nnodes hK
  have hroot : (completeCommand (buildWrite s)).root.toNat = 2 * (countedSymbols s.freq).length - 2 := buildWrite_root hK
  refine ⟨_, exec_build_completes hm ho hK, rfl, rfl, rfl, rfl, hnodes, by omega, hok.leaf, ?_, ?_, ?_⟩
  · intro i hi hlt
    exact hok.internal_node hs hi (by omega)
  · intro j hj
    have hjq : j ∉ (buildTree s.freq s.node).q := by
      rw [hq, List.mem_singleton]
      omega
    obtain ⟨i, hi, hlt, hchild, honly⟩ := hok.one_parent (by omega) hjq
    exact ⟨i, hi, by omega, hchild, fun i' hi' => honly i' (by omega)⟩
  · rw [hroot]
    exact BitVec.eq_of_toNat_eq ((hok.root_freq hs hq).trans hsum)

end Sys2Proof.Machine
end

section
/-! SUPPORT. How long the codes of BUILD's arena are (42_huffman_tree_builder.md R95, 43_code_table_deriver.md R97). -/

namespace Sys2Proof.Machine

theorem exec_derive_completes {s : State} {d : Derived} (hm : s.mode = .busy .derive) (hv : s.treeValid = true) (ho : s.outSlot = none)
    (hd : deriveCodes s.node s.root.toNat (invalidateAll s.tbl) = some d) :
    exec .derive s = .next (completeCommand (deriveWrite d s)) := by
  have hp : programOf .derive s = some (deriveWrite d s, .complete) := by
    rw [programOf, deriveProgram, if_pos hv, hd]
  exact exec_performs hm hp (by rw [Point.enabled, ho]; rfl)

section
variable {s : State} {d : Derived} {ls : List (List Bool × Nat)}

theorem DeriveFacts.paths_ne_nil (D : DeriveFacts s d ls) : ls ≠ [] := by
  rintro rfl
  have hlen := D.perm.length_eq
  rw [List.length_range] at hlen
  exact D.ne (List.length_eq_zero_iff.1 hlen.symm)

/-- M is the length of a longest path. -/
theorem DeriveFacts.longest (D : DeriveFacts s d ls) : (∃ x ∈ ls, x.1.length = d.m) ∧ ∀ x ∈ ls, x.1.length ≤ d.m := by
  have hne : ls.map (fun x => x.1.length) ≠ [] := fun h => D.paths_ne_nil (List.map_eq_nil_iff.1 h)
  have hm : d.m = (ls.map fun x => x.1.length).max hne := by
    rw [D.m, ← List.foldl_map, List.foldl_max_eq_max hne, Nat.zero_max]
  rw [hm]
  exact ⟨List.mem_map.1 (List.max_mem hne), fun x hx => List.le_max_of_mem (List.mem_map_of_mem (f := fun x => x.1.length) hx)⟩

/-- A path is at most 255 bits long, so `len` holds its length. -/
theorem DeriveFacts.len_toNat (D : DeriveFacts s d ls) {x : List Bool × Nat} (hx : x ∈ ls) :
    (BitVec.ofNat 8 x.1.length).toNat = x.1.length := by
  obtain ⟨-, hle, -⟩ := D.len x hx
  rw [BitVec.toNat_ofNat, Nat.mod_eq_of_lt (by omega)]

theorem DeriveFacts.m_toNat (D : DeriveFacts s d ls) : (BitVec.ofNat 8 d.m).toNat = d.m := by
  obtain ⟨⟨x, hx, hm⟩, -⟩ := D.longest
  rw [← hm, D.len_toNat hx]

end

/-- Settles O30: a valid entry's length is that of its leaf's path, and M is the longest of these. -/
theorem codeLengthsAreBoundedByTheTree : Obligations.CodeLengthsAreBoundedByTheTree := by
  intro s t hm hv ht ho h
  obtain ⟨d, ls, D⟩ := derive_facts hv ht
  obtain rfl := Host.Outcome.next.inj ((exec_derive_completes hm hv ho D.eq).symm.trans h)
  obtain ⟨⟨x, hx, hxm⟩, hlongest⟩ := D.longest
  have hpath : ∀ b, (entryOf d.tbl b).valid = true → ∃ x ∈ ls, (entryOf d.tbl b).len.toNat = x.1.length := by
    intro b hb
    obtain ⟨x, hx, -, -, he, -⟩ := D.path_of b ((D.valid_iff b).1 hb)
    exact ⟨x, hx, by rw [he, D.len_toNat hx]⟩
  refine ⟨fun b hb => ?_, fun b hb => ?_, ?_⟩
  · obtain ⟨y, hy, hl⟩ := hpath b hb
    obtain ⟨-, -, hle⟩ := D.len y hy
    exact hl.trans_le hle
  · obtain ⟨y, hy, hl⟩ := hpath b hb
    calc (entryOf d.tbl b).len.toNat = y.1.length := hl
      _ ≤ d.m := hlongest y hy
      _ = (BitVec.ofNat 8 d.m).toNat := D.m_toNat.symm
  · obtain ⟨hlt, he⟩ := D.ent x hx
    refine ⟨(countedSymbols s.freq)[x.2], congrArg Entry.valid he, ?_⟩
    exact (congrArg Entry.len he).trans (congrArg (BitVec.ofNat 8) hxm)

end Sys2Proof.Machine
end

section
/-! SUPPORT. DERIVE as its one core step, and the TABLE and EXPBITS it leaves (43_code_table_deriver.md R97 to R101). -/

namespace Sys2Proof.Machine

/-! ### The core step of DERIVE (R97) -/

/-- Settles O27: without a tree the program of DERIVE is NO_TREE and no statement before it. -/
theorem deriveNeedsATree : Obligations.DeriveNeedsATree := by
  intro s hm hv ho
  have hp : programOf .derive s = some (s, .fail .noTree 0#32) := by
    rw [programOf, deriveProgram, hv]
    rfl
  exact exec_performs hm hp (by rw [Point.enabled, ho]; rfl)

/-- Settles O28: the arena of a BUILD is a tree, so the walk over it ends. -/
theorem deriveCompletes : Obligations.DeriveCompletes := by
  intro s hm hv ht ho
  obtain ⟨d, ls, D⟩ := derive_facts hv ht
  exact ⟨d, D.eq, exec_derive_completes hm hv ho D.eq⟩

/-- A DERIVE that is done has left what its walk worked out. -/
theorem exec_derive_next {s t : State} (hm : s.mode = .busy .derive) (hv : s.treeValid = true) (ht : TreeInv s)
    (ho : s.outSlot = none) (h : exec .derive s = .next t) :
    ∃ d ls, DeriveFacts s d ls ∧ t = completeCommand (deriveWrite d s) := by
  obtain ⟨d, ls, D⟩ := derive_facts hv ht
  exact ⟨d, ls, D, Host.Outcome.next.inj (h.symm.trans (exec_derive_completes hm hv ho D.eq))⟩

/-! ### One symbol (R98) -/

/-- DERIVE's working values when the tree is the single leaf of `x`. -/
def Derived.single (tbl : Vector Entry 256) (x : Byte) (f : Word) : Derived :=
  ({ tbl := tbl, h := 0, m := 0 } : Derived).leaf x f 1 0#256

theorem deriveCodes_leaf {v : Vector Node 511} {root : Nat} {x : Byte} {f : Word} (h : nodeAt v root = .leaf x f)
    (tbl : Vector Entry 256) : deriveCodes v root tbl = some (Derived.single tbl x f) := by
  rw [deriveCodes, h]
  rfl

theorem Derived.single_h (tbl : Vector Entry 256) (x : Byte) (f : Word) : (Derived.single tbl x f).h = f.toNat := by
  simp only [Derived.single, Derived.leaf, Nat.zero_add, Nat.mul_one]

theorem Derived.single_self (tbl : Vector Entry 256) (x : Byte) (f : Word) :
    entryOf (Derived.single tbl x f).tbl x = { valid := true, len := 1#8, code := 0#256 } :=
  entryOf_setEntryOf_self _ _ _

theorem Derived.single_ne (tbl : Vector Entry 256) {x b : Byte} (f : Word) (h : b ≠ x) :
    entryOf (Derived.single tbl x f).tbl b = entryOf tbl b :=
  entryOf_setEntryOf_ne _ _ h.symm

/-- Settles O32: the code of a tree that is one leaf is given without a walk. -/
theorem oneSymbolGetsTheCodeZero : Obligations.OneSymbolGetsTheCodeZero := by
  intro s x f hm hv ho hn
  have hx := Derived.single_self (invalidateAll s.tbl) x f
  refine ⟨_, exec_derive_completes hm hv ho (deriveCodes_leaf hn _), hx, ?_, ?_, rfl, rfl, rfl, fun b hb => ?_⟩
  · exact (congrArg Entry.bits hx).trans (by decide)
  · have hlt := f.isLt
    calc (BitVec.ofNat 40 (Derived.single (invalidateAll s.tbl) x f).h).toNat = f.toNat % 2 ^ 40 := by
          rw [Derived.single_h, BitVec.toNat_ofNat]
      _ = f.toNat := Nat.mod_eq_of_lt (by omega)
  · exact (Derived.single_ne _ f hb).trans (entryOf_invalidateAll _ _)

/-! ### The codes (R101) -/

section
variable {s : State} {d : Derived} {ls : List (List Bool × Nat)}

theorem DeriveFacts.len_bounds (D : DeriveFacts s d ls) {b : Byte} (hb : s.freqOf b ≠ 0#32) :
    1 ≤ (entryOf d.tbl b).len.toNat ∧ (entryOf d.tbl b).len.toNat ≤ 255 := by
  obtain ⟨x, hx, -, -, -, hbits⟩ := D.path_of b hb
  obtain ⟨hpos, hle, -⟩ := D.len x hx
  rw [← length_bits, hbits]
  exact ⟨hpos, hle⟩

/-- Two symbols have two leaves, and no leaf's path begins another's. -/
theorem DeriveFacts.not_prefix (D : DeriveFacts s d ls) {b c : Byte} (hne : b ≠ c) (hb : s.freqOf b ≠ 0#32) (hc : s.freqOf c ≠ 0#32) :
    ¬ (entryOf d.tbl b).bits <+: (entryOf d.tbl c).bits := by
  obtain ⟨x, hx, hxlt, rfl, -, hxbits⟩ := D.path_of b hb
  obtain ⟨y, hy, hylt, rfl, -, hybits⟩ := D.path_of c hc
  have hxy : x ≠ y := by
    rintro rfl
    exact hne rfl
  have hsymm : Std.Symm fun x y : List Bool × Nat => ¬ x.1 <+: y.1 ∧ ¬ y.1 <+: x.1 := ⟨fun _ _ h => h.symm⟩
  obtain ⟨hpre, -⟩ := D.pf.forall hx hy hxy
  rwa [hxbits, hybits]

theorem DeriveFacts.walk_bits (D : DeriveFacts s d ls) (hK : 2 ≤ (countedSymbols s.freq).length) {b : Byte} (hb : s.freqOf b ≠ 0#32) :
    walkPath s.node s.root.toNat (entryOf d.tbl b).bits = .leaf b (s.freqOf b) := by
  obtain ⟨x, hx, hlt, rfl, -, hbits⟩ := D.path_of b hb
  rw [hbits, D.walk hK x hx, D.leaf x.2 hlt]

end

/-- Settles O29: each valid entry's code is the path of its symbol's leaf. -/
theorem derivedTableIsPrefixFree : Obligations.DerivedTableIsPrefixFree := by
  intro s t hm hv ht ho h
  obtain ⟨d, ls, D, rfl⟩ := exec_derive_next hm hv ht ho h
  have hcounted : ∀ {b}, (entryOf d.tbl b).valid = true → s.freqOf b ≠ 0#32 := fun {b} => (D.valid_iff b).1
  exact ⟨D.valid_iff, fun b hb => D.len_bounds (hcounted hb), fun x y hne hx hy => D.not_prefix hne (hcounted hx) (hcounted hy),
    fun hK b hb => D.walk_bits hK (hcounted hb), D.out⟩

/-! ### EXPBITS (R99, R100) -/

/-- The counts of the counted symbols are all there is to add up. -/
theorem sum_countedSymbols (freq : Vector Word 256) :
    ((countedSymbols freq).map fun b => (entryOf freq b).toNat).sum = freqSum freq :=
  sum_filter_symbols freq symbols

theorem freqSum_pos {freq : Vector Word 256} (hK : countedSymbols freq ≠ []) : 1 ≤ freqSum freq := by
  obtain ⟨b, hb⟩ := List.exists_mem_of_ne_nil _ hK
  have hpos : (entryOf freq b).toNat ≠ 0 := fun h => (mem_countedSymbols freq b).1 hb (BitVec.eq_of_toNat_eq h)
  exact (Nat.one_le_iff_ne_zero.2 hpos).trans (entryOf_le_freqSum freq b)

/-- The sum of count times length is the number of bits of any input with these counts (45_bit_packer.md R110). -/
theorem sum_countedSymbols_eq_nbitsOf {freq : Vector Word 256} {S : List Byte} (h : ∀ b, (entryOf freq b).toNat = S.count b)
    (tbl : Vector Entry 256) :
    ((countedSymbols freq).map fun b => (entryOf freq b).toNat * (entryOf tbl b).len.toNat).sum = nbitsOf tbl S := by
  have hmem : (countedSymbols freq).toFinset = S.toFinset := by
    ext b
    rw [List.mem_toFinset, List.mem_toFinset, mem_countedSymbols, ← List.count_pos_iff, ← h, Nat.pos_iff_ne_zero, Ne, Ne, ← BitVec.toNat_inj]
    rfl
  rw [nbitsOf, Finset.sum_list_map_count S, ← hmem, List.sum_toFinset _ (nodup_countedSymbols freq)]
  simp only [h, smul_eq_mul]

section
variable {s : State} {d : Derived} {ls : List (List Bool × Nat)}

theorem DeriveFacts.leafSym_eq (D : DeriveFacts s d ls) {i : Nat} (h : i < (countedSymbols s.freq).length) :
    leafSym s.node i = (countedSymbols s.freq)[i] := by
  rw [leafSym, D.leaf i h]

/-- The walk meets the leaf of each counted symbol once. -/
theorem DeriveFacts.symbols_perm (D : DeriveFacts s d ls) : (ls.map fun x => leafSym s.node x.2).Perm (countedSymbols s.freq) := by
  have hrange : (List.range (countedSymbols s.freq).length).map (leafSym s.node) = countedSymbols s.freq := by
    refine List.ext_getElem (by simp) fun i hi hi' => ?_
    rw [List.getElem_map, List.getElem_range, D.leafSym_eq hi']
  have hperm := D.perm.map (leafSym s.node)
  rwa [List.map_map, hrange] at hperm

/-- H adds up count times length, symbol by symbol (R99). -/
theorem DeriveFacts.h_eq (D : DeriveFacts s d ls) :
    d.h = ((countedSymbols s.freq).map fun b => (s.freqOf b).toNat * (entryOf d.tbl b).len.toNat).sum := by
  have hterm : ∀ x ∈ ls, (nodeAt s.node x.2).freq.toNat * x.1.length =
      (s.freqOf (leafSym s.node x.2)).toNat * (entryOf d.tbl (leafSym s.node x.2)).len.toNat := by
    intro x hx
    obtain ⟨hlt, he⟩ := D.ent x hx
    rw [D.leafSym_eq hlt, D.leaf x.2 hlt, he, D.len_toNat hx, freq_leaf]
  rw [D.h, List.map_congr_left hterm, ← (D.symbols_perm.map _).sum_eq, List.map_map]
  rfl

/-- Each length being 1 to 255, H lies between the sum of FREQ and 255 times it (R100). -/
theorem DeriveFacts.h_bounds (D : DeriveFacts s d ls) : freqSum s.freq ≤ d.h ∧ d.h ≤ 255 * freqSum s.freq := by
  have hlen : ∀ b ∈ countedSymbols s.freq, 1 ≤ (entryOf d.tbl b).len.toNat ∧ (entryOf d.tbl b).len.toNat ≤ 255 :=
    fun b hb => D.len_bounds ((mem_countedSymbols _ _).1 hb)
  rw [D.h_eq, ← sum_countedSymbols, ← List.sum_map_mul_left]
  refine ⟨List.sum_le_sum fun b hb => ?_, List.sum_le_sum fun b hb => ?_⟩
  · exact Nat.le_mul_of_pos_right _ (hlen b hb).1
  · rw [Nat.mul_comm 255]
    exact Nat.mul_le_mul_left _ (hlen b hb).2

end

/-- Settles O31: H is at most 255 times a 32-bit TOTAL, so its register of 40 bits holds it. -/
theorem expectedBitsAreExact : Obligations.ExpectedBitsAreExact := by
  intro s t hm hv ht hc ho h
  obtain ⟨d, ls, D, rfl⟩ := exec_derive_next hm hv ht ho h
  obtain ⟨hsum, -⟩ := hc
  obtain ⟨hlow, hhigh⟩ := D.h_bounds
  have hpos := freqSum_pos D.ne
  rw [hsum] at hlow hhigh hpos
  have hlt := s.total.isLt
  have hexp : (completeCommand (deriveWrite d s)).expbits.toNat = d.h :=
    (BitVec.toNat_ofNat _ _).trans (Nat.mod_eq_of_lt (by omega))
  rw [hexp]
  exact ⟨D.h_eq, fun S hS => D.h_eq.trans (sum_countedSymbols_eq_nbitsOf hS d.tbl), hpos, hlow, hhigh⟩

end Sys2Proof.Machine
end

section
/-! SUPPORT. `Decode` against the packed format (45_bit_packer.md R110; 46_bit_unpacker_decoder.md R121, R122). -/

namespace Sys2Proof.Machine

/-- Settles O44: the packed bytes hold the bits of S, and in these no code begins another's, so `Decode` splits them one byte at a time. -/
theorem decodeUndoesPack : Obligations.DecodeUndoesPack := by
  intro tbl S hpf hS
  rw [← length_bitsOf, take_bits_packBytes]
  exact decodeFrom_bitsOf hpf S hS 0

end Sys2Proof.Machine
end

section
/-! SUPPORT. The TABLE as CLRTAB, the match and the bus see it: which entries match a candidate, what a TABLE word reads as and what a write stores, and an
entry written word by word (44_code_table_sram.md R104 to R109; 30_encoding.md R69, R72). -/

namespace Sys2Proof.Machine

/-! ### CLRTAB (R104) -/

/-- Settles O33: the core step of CLRTAB's program, whose one point is its completion. -/
theorem clrtabInvalidatesEveryEntry : Obligations.ClrtabInvalidatesEveryEntry := by
  intro s hm
  have hp : programOf .clrtab s = some (clrtabWrite s, .complete) := rfl
  refine ⟨fun ho => ⟨completeCommand (clrtabWrite s), ?_, rfl, fun b => ?_⟩, fun b ho => ?_⟩
  · exact exec_performs hm hp (by rw [Point.enabled, ho]; rfl)
  · have hb : (completeCommand (clrtabWrite s)).entry b = { s.entry b with valid := false } := entryOf_invalidateAll s.tbl b
    rw [hb]
    exact ⟨rfl, rfl, rfl⟩
  · exact exec_waits hm hp (by rw [Point.enabled, ho]; rfl)

/-! ### The match (R109) -/

/-- An entry's bit string is a candidate's when it is as long and agrees with it bit by bit. -/
theorem bits_eq_lowBits_iff (e : Entry) (l : BitVec 8) (c : CodeBits) :
    e.bits = lowBits c l.toNat ↔ e.len = l ∧ ∀ i, i < l.toNat → e.code.getLsbD i = c.getLsbD i := by
  rw [bits_def]
  constructor
  · intro h
    have hl : e.len = l := BitVec.eq_of_toNat_eq (by simpa using congrArg List.length h)
    rw [hl] at h
    exact ⟨hl, lowBits_inj.1 h⟩
  · rintro ⟨rfl, h⟩
    exact lowBits_inj.2 h

/-- Two entries that match one candidate have the same bit string, and each is then a prefix of the other (00_scope.md R14). -/
theorem PrefixFree.matchSet_unique {tbl : Vector Entry 256} (hpf : PrefixFree tbl) {l : BitVec 8} (hl : 1 ≤ l.toNat) {c : CodeBits} {x y : Byte}
    (hx : x ∈ matchSet tbl l c) (hy : y ∈ matchSet tbl l c) : x = y := by
  rw [mem_matchSet] at hx hy
  obtain ⟨hxv, hxb⟩ := hx
  obtain ⟨hyv, hyb⟩ := hy
  have hne : lowBits c l.toNat ≠ [] := List.ne_nil_of_length_pos (by rwa [length_lowBits])
  by_contra hxy
  refine hpf x y hxy ((usable_iff _).2 ⟨hxv, hxb ▸ hne⟩) ((usable_iff _).2 ⟨hyv, hyb ▸ hne⟩) ?_
  rw [Entry.prefixOf, hxb, hyb]

/-- Settles O41: a match is an equality of bit strings. -/
theorem matchComparesTheWholeCode : Obligations.MatchComparesTheWholeCode := by
  intro tbl l c hl
  have hmem : ∀ x, x ∈ matchSet tbl l c ↔ (entryOf tbl x).valid = true ∧ (entryOf tbl x).len = l ∧
      ∀ i, i < l.toNat → (entryOf tbl x).code.getLsbD i = c.getLsbD i := fun x => by
    rw [mem_matchSet, bits_eq_lowBits_iff]
  refine ⟨hmem, fun x h0 hx => ?_, fun hpf => ?_⟩
  · obtain ⟨-, hlen, -⟩ := (hmem x).1 hx
    rw [← hlen, h0] at hl
    exact absurd hl (by decide)
  · rcases hms : matchSet tbl l c with _ | ⟨x, m⟩
    · exact Nat.zero_le _
    · have hx : x ∈ matchSet tbl l c := hms ▸ List.mem_cons_self
      rw [← hms, eq_singleton_of_nodup (nodup_matchSet tbl l c) hx fun y hy => hpf.matchSet_unique hl hy hx]
      exact le_rfl

/-! ### The words of an entry (30_encoding.md R69) -/

/-- META: VALID in bit 31, LEN in bits 7:0. -/
theorem Entry.word_zero (x : Entry) : x.word 0 = BitVec.ofBool x.valid ++ 0#23 ++ x.len := word_meta x.valid x.len

theorem Entry.word_code (x : Entry) {w : Nat} (h1 : 1 ≤ w) (h8 : w ≤ 8) : x.word w = codeWord x.code (w - 1) := by
  rw [Entry.word, if_neg (by omega), if_pos h8]

theorem Entry.word_spare (x : Entry) {w : Nat} (h9 : 9 ≤ w) : x.word w = 0#32 := by
  rw [Entry.word, if_neg (by omega), if_neg (by omega)]

theorem Entry.setWord_zero (x : Entry) (v : Word) : x.setWord 0 v = { x with valid := v.getLsbD 31, len := v.extractLsb' 0 8 } := rfl

theorem Entry.setWord_code (x : Entry) (v : Word) {w : Nat} (h1 : 1 ≤ w) (h8 : w ≤ 8) :
    x.setWord w v = { x with code := setCodeWord x.code (w - 1) v } := by
  rw [Entry.setWord, if_neg (by omega), if_pos h8]

theorem Entry.setWord_spare (x : Entry) (v : Word) {w : Nat} (h9 : 9 ≤ w) : x.setWord w v = x := by
  rw [Entry.setWord, if_neg (by omega), if_neg (by omega)]

/-- A code word reads back what was written to it. -/
theorem codeWord_setCodeWord (c : CodeBits) {k : Nat} (hk : k < 8) (v : Word) : codeWord (setCodeWord c k v) k = v := by
  ext j hj
  rw [← BitVec.getLsbD_eq_getElem, getLsbD_codeWord, getLsbD_setCodeWord _ _ _ _ (by omega), if_pos (by omega), decide_eq_true hj,
    Bool.true_and, Nat.add_sub_cancel_left, BitVec.getLsbD_eq_getElem]

/-- A write of a code word keeps the bits of the other words. -/
theorem getLsbD_setCodeWord_outside (c : CodeBits) (k : Nat) (v : Word) {i : Nat} (h : i < 32 * k ∨ 32 * (k + 1) ≤ i) :
    (setCodeWord c k v).getLsbD i = c.getLsbD i := by
  by_cases hi : i < 256
  · rw [getLsbD_setCodeWord _ _ _ _ hi, if_neg (by omega)]
  · rw [BitVec.getLsbD_of_ge _ _ (Nat.le_of_not_lt hi), BitVec.getLsbD_of_ge _ _ (Nat.le_of_not_lt hi)]

/-- META reads back with its bits 30:8 as 0. -/
theorem Entry.word_setWord_zero (x : Entry) (v : Word) : (x.setWord 0 v).word 0 = v.extractLsb' 31 1 ++ 0#23 ++ v.extractLsb' 0 8 := by
  have hbit : BitVec.ofBool (v.getLsbD 31) = v.extractLsb' 31 1 := by
    ext i hi
    obtain rfl : i = 0 := by omega
    simp
  rw [Entry.word_zero, Entry.setWord_zero, hbit]

/-! ### A TABLE word on the bus of an IDLE CORE (R105, R106) -/

section
variable {s : State} {a : Addr} {e : Byte} {w : Nat}

theorem decodeAddr_tableWord (hw : w < 16) (ha : a.toNat = 0x4000 + 64 * e.toNat + 4 * w) : decodeAddr a = .table e w :=
  decodeAddr_table.2 ⟨hw, by omega⟩

theorem readWord_tableWord (hm : s.mode = .idle) (hw : w < 16) (ha : a.toNat = 0x4000 + 64 * e.toNat + 4 * w) :
    readWord a s = (s.entry e).word w := by
  rw [readWord_table (decodeAddr_tableWord hw ha), ite_busy_of_idle hm]

theorem hostWrite_tableWord (hm : s.mode = .idle) (hw : w < 16) (ha : a.toNat = 0x4000 + 64 * e.toNat + 4 * w) (v : Word) :
    hostWrite a v s = .next (writeTable e w v s) := by
  rw [hostWrite_table (e := e) hw (by omega), (not_busy_iff s).2 hm]
  rfl

theorem toNat_tableAddr (e : Byte) (hw : w < 16) : (tableAddr e w).toNat = 0x4000 + 64 * e.toNat + 4 * w := by
  have he := e.isLt
  rw [tableAddr, BitVec.toNat_ofNat, Nat.mod_eq_of_lt (by omega)]

end

/-- TABLE with entry `e` replaced, the code no longer the one DERIVE made (10_state.md R36). -/
def storeEntry (e : Byte) (x : Entry) (s : State) : State := { s with tbl := setEntryOf s.tbl e x, hdrValid := false }

@[simp] theorem entry_storeEntry_self (e : Byte) (x : Entry) (s : State) : (storeEntry e x s).entry e = x :=
  entryOf_setEntryOf_self s.tbl e x

theorem entry_storeEntry_ne {e b : Byte} (h : b ≠ e) (x : Entry) (s : State) : (storeEntry e x s).entry b = s.entry b :=
  entryOf_setEntryOf_ne s.tbl x h.symm

/-- Of two replacements of an entry the later one stays. -/
@[simp] theorem storeEntry_storeEntry (e : Byte) (x y : Entry) (s : State) : storeEntry e x (storeEntry e y s) = storeEntry e x s := by
  have h : setEntryOf (setEntryOf s.tbl e y) e x = setEntryOf s.tbl e x := by
    rw [setEntryOf, setEntryOf, setEntryOf, Vector.set_set]
  rw [storeEntry, storeEntry, storeEntry, h]

theorem writeTable_eq_storeEntry {w : Nat} (h8 : w ≤ 8) (e : Byte) (v : Word) (s : State) :
    writeTable e w v s = storeEntry e ((s.entry e).setWord w v) s := if_pos h8

/-- Words 9 to 15 ignore a write (log 10). -/
theorem writeTable_spare {w : Nat} (h9 : 9 ≤ w) (e : Byte) (v : Word) (s : State) : writeTable e w v s = s := if_neg (by omega)

theorem mode_writeTable (e : Byte) (w : Nat) (v : Word) (s : State) : (writeTable e w v s).mode = s.mode := by
  rw [writeTable]
  split <;> rfl

theorem entry_writeTable_self (e : Byte) (w : Nat) (v : Word) (s : State) : (writeTable e w v s).entry e = (s.entry e).setWord w v := by
  by_cases h8 : w ≤ 8
  · rw [writeTable_eq_storeEntry h8, entry_storeEntry_self]
  · rw [writeTable_spare (by omega), Entry.setWord_spare _ _ (by omega)]

theorem entry_writeTable_ne {e b : Byte} (h : b ≠ e) (w : Nat) (v : Word) (s : State) : (writeTable e w v s).entry b = s.entry b := by
  by_cases h8 : w ≤ 8
  · rw [writeTable_eq_storeEntry h8, entry_storeEntry_ne h]
  · rw [writeTable_spare (by omega)]

/-- Settles O54: META, a code word and a spare word, each read and written through the entry's own word operations. -/
theorem tableWritesReadBack : Obligations.TableWritesReadBack := by
  refine ⟨fun s a e w hm hw ha => ?_, fun s a e w v hm hw ha => ?_⟩
  · rw [readWord_tableWord hm hw ha]
    refine ⟨?_, fun h1 h8 => Entry.word_code _ h1 h8, fun h9 => Entry.word_spare _ h9⟩
    rintro rfl
    rw [Entry.word_zero]
    cases (s.entry e).valid <;> rfl
  · have hread := readWord_tableWord ((mode_writeTable e w v s).trans hm) hw ha
    rw [entry_writeTable_self] at hread
    refine ⟨_, hostWrite_tableWord hm hw ha v, ?_, fun h1 h8 => ?_, fun h9 => ?_, fun b hb => entry_writeTable_ne hb w v s⟩
    · rintro rfl
      exact ⟨rfl, entry_writeTable_self e 0 v s, hread.trans (Entry.word_setWord_zero _ v)⟩
    · have hback : codeWord (setCodeWord (s.entry e).code (w - 1) v) (w - 1) = v := codeWord_setCodeWord _ (by omega) v
      rw [Entry.setWord_code _ _ h1 h8, Entry.word_code _ h1 h8] at hread
      rw [entry_writeTable_self, Entry.setWord_code _ _ h1 h8]
      refine ⟨?_, rfl, rfl, hback, fun i hi => getLsbD_setCodeWord_outside _ _ _ (by omega), hread.trans hback⟩
      rw [writeTable_eq_storeEntry h8]
      rfl
    · rw [Entry.setWord_spare _ _ h9, Entry.word_spare _ h9] at hread
      exact ⟨writeTable_spare h9 e v s, hread⟩

/-! ### An entry written word by word (R107) -/

/-- `x` with its words `ws` overwritten by those of `y`. -/
def Entry.copyWords (y : Entry) (ws : List Nat) (x : Entry) : Entry := ws.foldl (fun z w => z.setWord w (y.word w)) x

/-- META carries VALID and LEN whole. -/
theorem Entry.setWord_zero_word (x y : Entry) : x.setWord 0 (y.word 0) = { x with valid := y.valid, len := y.len } := by
  have hv : (BitVec.ofBool y.valid ++ 0#23 ++ y.len).getLsbD 31 = y.valid := by
    rw [BitVec.getLsbD_append, BitVec.getLsbD_append]
    simp
  have hl : (BitVec.ofBool y.valid ++ 0#23 ++ y.len).extractLsb' 0 8 = y.len := BitVec.extractLsb'_append_eq_right
  rw [Entry.word_zero, Entry.setWord_zero, hv, hl]

/-- Words 0 to `n` carry VALID, LEN and the low `32 * n` bits of the code. -/
theorem Entry.copyWords_range (x y : Entry) (n : Nat) (hn : n ≤ 8) :
    (y.copyWords (List.range (n + 1)) x).valid = y.valid ∧ (y.copyWords (List.range (n + 1)) x).len = y.len ∧
      ∀ i, i < 32 * n → (y.copyWords (List.range (n + 1)) x).code.getLsbD i = y.code.getLsbD i := by
  induction n with
  | zero =>
    have h0 : y.copyWords (List.range 1) x = { x with valid := y.valid, len := y.len } := Entry.setWord_zero_word x y
    rw [h0]
    exact ⟨rfl, rfl, fun i hi => absurd hi (Nat.not_lt_zero i)⟩
  | succ n ih =>
    obtain ⟨hv, hl, hc⟩ := ih (by omega)
    have hstep : y.copyWords (List.range (n + 1 + 1)) x =
        { y.copyWords (List.range (n + 1)) x with
          code := setCodeWord (y.copyWords (List.range (n + 1)) x).code n (codeWord y.code n) } := by
      rw [Entry.copyWords, List.range_succ, List.foldl_append, List.foldl_cons, List.foldl_nil, ← Entry.copyWords,
        Entry.setWord_code _ _ (by omega) hn, Entry.word_code _ (by omega) hn]
      rfl
    rw [hstep]
    refine ⟨hv, hl, fun i hi => ?_⟩
    by_cases hlow : i < 32 * n
    · exact (getLsbD_setCodeWord_outside _ _ _ (.inl hlow)).trans (hc i hlow)
    · rw [getLsbD_setCodeWord _ _ _ _ (by omega), if_pos (by omega), getLsbD_codeWord, decide_eq_true (by omega), Bool.true_and,
        Nat.add_sub_cancel' (Nat.le_of_not_lt hlow)]

/-- Words 0 to 8 carry the whole entry. -/
theorem Entry.copyWords_all (x y : Entry) : y.copyWords (List.range 9) x = y := by
  obtain ⟨hv, hl, hc⟩ := Entry.copyWords_range x y 8 le_rfl
  have hcode : (y.copyWords (List.range 9) x).code = y.code := BitVec.eq_of_getLsbD_eq hc
  calc y.copyWords (List.range 9) x
      = ⟨(y.copyWords (List.range 9) x).valid, (y.copyWords (List.range 9) x).len, (y.copyWords (List.range 9) x).code⟩ := rfl
    _ = y := by rw [hv, hl, hcode]

/-! ### Words written one after the other (20_memory.md R47, 30_encoding.md R71) -/

/-- The bus writes of words `ws` of `y` to entry `e`. -/
def entryWrites (e : Byte) (y : Entry) (ws : List Nat) : List (Addr × Word) := ws.map fun w => (tableAddr e w, y.word w)

/-- The same writes as turns of the HOST. -/
def entryTurns (e : Byte) (y : Entry) (ws : List Nat) : List Turn := ws.map fun w => .host (.write (tableAddr e w) (y.word w))

theorem hostWrite_tableAddr {s : State} (hm : s.mode = .idle) (e : Byte) {w : Nat} (h8 : w ≤ 8) (v : Word) :
    hostWrite (tableAddr e w) v s = .next (storeEntry e ((s.entry e).setWord w v) s) := by
  rw [hostWrite_tableWord hm (by omega) (toNat_tableAddr e (by omega)), writeTable_eq_storeEntry h8]

theorem writeAll_cons {a : Addr} {v : Word} {s t : State} (h : hostWrite a v s = .next t) (l : List (Addr × Word)) :
    writeAll ((a, v) :: l) s = writeAll l t := by
  rw [writeAll, h]

theorem writeAll_append {s t : State} {l : List (Addr × Word)} (h : writeAll l s = .next t) (l' : List (Addr × Word)) :
    writeAll (l ++ l') s = writeAll l' t := by
  induction l generalizing s with
  | nil =>
    cases h
    rfl
  | cons p l ih =>
    obtain ⟨u, hu, -⟩ := hostWrite_move p.1 p.2 s
    rw [writeAll_cons hu] at h
    rw [List.cons_append, writeAll_cons hu, ih h]

/-- The words after the first only change what the first has stored. -/
theorem writeAll_entryWrites {s : State} (hm : s.mode = .idle) (e : Byte) (y : Entry) {w : Nat} {ws : List Nat} (h : ∀ k ∈ w :: ws, k ≤ 8) :
    writeAll (entryWrites e y (w :: ws)) s = .next (storeEntry e (y.copyWords (w :: ws) (s.entry e)) s) := by
  obtain ⟨hw, hws⟩ := List.forall_mem_cons.1 h
  induction ws generalizing w s with
  | nil => exact writeAll_cons (hostWrite_tableAddr hm e hw _) []
  | cons k ws ih =>
    obtain ⟨hk, hks⟩ := List.forall_mem_cons.1 hws
    have hrest := ih (s := storeEntry e ((s.entry e).setWord w (y.word w)) s) hm hws hk hks
    rw [entry_storeEntry_self, storeEntry_storeEntry] at hrest
    exact (writeAll_cons (hostWrite_tableAddr hm e hw _) _).trans hrest

/-- The same, scheduled. -/
theorem reaches_entryTurns {s : State} (hm : s.mode = .idle) (e : Byte) (y : Entry) {w : Nat} {ws : List Nat} (h : ∀ k ∈ w :: ws, k ≤ 8)
    {rest : List Turn} (hs : s.schedule = entryTurns e y (w :: ws) ++ rest) :
    Reaches s (storeEntry e (y.copyWords (w :: ws) (s.entry e)) { s with schedule := rest }) := by
  obtain ⟨hw, hws⟩ := List.forall_mem_cons.1 h
  induction ws generalizing w s with
  | nil =>
    have hfirst := (step_write hs).trans (hostWrite_tableAddr (s := { s with schedule := rest }) hm e hw (y.word w))
    exact reaches_step hfirst (Reaches.refl _)
  | cons k ws ih =>
    obtain ⟨hk, hks⟩ := List.forall_mem_cons.1 hws
    have hfirst := (step_write hs).trans
      (hostWrite_tableAddr (s := { s with schedule := entryTurns e y (k :: ws) ++ rest }) hm e hw (y.word w))
    have hrest := ih (s := storeEntry e ((s.entry e).setWord w (y.word w)) { s with schedule := entryTurns e y (k :: ws) ++ rest })
      hm hws rfl hk hks
    rw [entry_storeEntry_self] at hrest
    exact reaches_step hfirst (storeEntry_storeEntry e _ _ { s with schedule := rest } ▸ hrest)

/-- Words 0 to 8 written to entry `e` make it `y`. -/
theorem writeAll_entry {s : State} (hm : s.mode = .idle) (e : Byte) (y : Entry) :
    writeAll (entryWrites e y (List.range 9)) s = .next (storeEntry e y s) := by
  have h := writeAll_entryWrites hm e y (w := 0) (ws := (List.range 8).map Nat.succ) (by decide)
  rwa [← List.range_succ_eq_map, Entry.copyWords_all] at h

theorem reaches_entry {s : State} (hm : s.mode = .idle) (e : Byte) (y : Entry) {rest : List Turn}
    (hs : s.schedule = entryTurns e y (List.range 9) ++ rest) : Reaches s (storeEntry e y { s with schedule := rest }) := by
  rw [List.range_succ_eq_map] at hs
  have h := reaches_entryTurns hm e y (by decide) hs
  rwa [← List.range_succ_eq_map, Entry.copyWords_all] at h

/-! ### Entries saved and reloaded (R107) -/

/-- The entries `es` of `s₀` stored one after the other. -/
def restoreEntries (s₀ : State) : List Byte → State → State
  | [], s => s
  | e :: es, s => restoreEntries s₀ es (storeEntry e (s₀.entry e) s)

theorem savedWords_cons {s₀ : State} (hm : s₀.mode = .idle) (e : Byte) (es : List Byte) :
    savedWords (e :: es) s₀ = entryWrites e (s₀.entry e) (List.range 9) ++ savedWords es s₀ := by
  have h : (List.range 9).map (fun w => (tableAddr e w, readWord (tableAddr e w) s₀)) = entryWrites e (s₀.entry e) (List.range 9) := by
    refine List.map_congr_left fun w hw => ?_
    have hw9 : w < 9 := List.mem_range.1 hw
    rw [readWord_tableWord hm (by omega) (toNat_tableAddr e (by omega))]
  rw [savedWords, List.flatMap_cons, h, savedWords]

theorem writeAll_savedWords {s₀ : State} (hm₀ : s₀.mode = .idle) (es : List Byte) {s : State} (hm : s.mode = .idle) :
    writeAll (savedWords es s₀) s = .next (restoreEntries s₀ es s) := by
  induction es generalizing s with
  | nil => rfl
  | cons e es ih =>
    rw [savedWords_cons hm₀, writeAll_append (writeAll_entry hm e _)]
    exact ih (s := storeEntry e (s₀.entry e) s) hm

theorem restoreEntries_frame (s₀ : State) (es : List Byte) (s : State) :
    restoreEntries s₀ es s = { s with tbl := (restoreEntries s₀ es s).tbl, hdrValid := if es = [] then s.hdrValid else false } := by
  induction es generalizing s with
  | nil => rfl
  | cons e es ih =>
    rw [restoreEntries, ih, if_neg (List.cons_ne_nil e es)]
    simp only [storeEntry, ite_self]

theorem entry_restoreEntries (s₀ : State) (es : List Byte) (s : State) (b : Byte) :
    (restoreEntries s₀ es s).entry b = if b ∈ es then s₀.entry b else s.entry b := by
  induction es generalizing s with
  | nil => exact (if_neg List.not_mem_nil).symm
  | cons e es ih =>
    rw [restoreEntries, ih]
    by_cases hb : b = e
    · subst hb
      rw [entry_storeEntry_self, ite_self, if_pos List.mem_cons_self]
    · simp only [entry_storeEntry_ne hb, List.mem_cons, hb, false_or]

/-! ### LOADENT (30_encoding.md R72) -/

/-- The entry `LOADENT s, l, c` writes. -/
def loadedEntry (l c : Nat) : Entry := { valid := true, len := BitVec.ofNat 8 l, code := BitVec.ofNat 256 c }

/-- META of a valid entry as the script writes it. -/
theorem word_loadedEntry_zero {l : Nat} (hl : l < 2 ^ 8) (c : Nat) : (loadedEntry l c).word 0 = BitVec.ofNat 32 (0x80000000 + l) := by
  have h : ∀ x : BitVec 8, flagBit 31 true ||| x.setWidth 32 = BitVec.ofNat 32 (0x80000000 + x.toNat) := by decide
  have hx := h (BitVec.ofNat 8 l)
  rwa [BitVec.toNat_ofNat, Nat.mod_eq_of_lt hl] at hx

/-- A code word as the script writes it. -/
theorem word_loadedEntry_succ (l : Nat) {c k : Nat} (hc : c < 2 ^ 256) (hk : k < 8) :
    (loadedEntry l c).word (k + 1) = BitVec.ofNat 32 (c / 2 ^ (32 * k) % 2 ^ 32) := by
  refine BitVec.eq_of_toNat_eq ?_
  rw [Entry.word_code _ (by omega) (by omega), Nat.add_sub_cancel, loadedEntry, codeWord, BitVec.extractLsb'_toNat,
    BitVec.toNat_ofNat, BitVec.toNat_ofNat, Nat.mod_mod, Nat.mod_eq_of_lt hc, Nat.shiftRight_eq_div_pow]

/-- LOADENT writes the nine words of its entry. -/
theorem turns_loadEnt (e : Byte) {l c : Nat} (hl : l < 2 ^ 8) (hc : c < 2 ^ 256) :
    (Line.loadEnt e.toNat l c).turns = entryTurns e (loadedEntry l c) (List.range 9) := by
  have hcode : ∀ k ∈ List.range 8, wrTurn (0x4004 + 64 * e.toNat + 4 * k) (c / 2 ^ (32 * k) % 2 ^ 32) =
      .host (.write (tableAddr e (k + 1)) ((loadedEntry l c).word (k + 1))) := fun k hk => by
    rw [wrTurn, tableAddr, word_loadedEntry_succ l hc (List.mem_range.1 hk),
      show 0x4000 + 64 * e.toNat + 4 * (k + 1) = 0x4004 + 64 * e.toNat + 4 * k by omega]
  rw [Line.turns, List.map_congr_left hcode, wrTurn, ← word_loadedEntry_zero hl c, entryTurns, List.range_succ_eq_map (n := 8),
    List.map_cons, List.map_map]
  rfl

/-- Settles O55: an entry's nine words written over any entry make it the same entry, whether they were read from the bus or stand in a script. -/
theorem savedEntryReloads : Obligations.SavedEntryReloads := by
  refine ⟨fun s₀ s es hm₀ hm => ?_, fun s e l c rest hl hc hr => ?_⟩
  · have hentry := entry_restoreEntries s₀ es s
    have hframe := restoreEntries_frame s₀ es s
    have hidle : (restoreEntries s₀ es s).mode = .idle := (congrArg State.mode hframe).trans hm
    have hin : ∀ e ∈ es, (restoreEntries s₀ es s).entry e = s₀.entry e := fun e he => (hentry e).trans (if_pos he)
    refine ⟨_, writeAll_savedWords hm₀ es hm, hframe, fun e he => ⟨hin e he, fun w hw => ?_⟩, fun b hb => (hentry b).trans (if_neg hb),
      fun hall => eq_of_entryOf_eq fun b => hin b (hall b)⟩
    have ha := toNat_tableAddr e hw
    rw [readWord_tableWord hidle hw ha, readWord_tableWord hm₀ hw ha, hin e he]
  · have hs : s.schedule = entryTurns e (loadedEntry l c) (List.range 9) ++ rest := by
      rw [hr.scheduled, scriptTurns, List.flatMap_singleton, turns_loadEnt e hl hc]
    exact ⟨_, reaches_entry hr.idle e (loadedEntry l c) hs, rfl, entry_storeEntry_self _ _ _, fun b hb => entry_storeEntry_ne hb _ _⟩

end Sys2Proof.Machine
end

section
/-! SUPPORT. The packed format, PACK step by step, and the steps that end UNPACK (45_bit_packer.md R110 to R114;
46_bit_unpacker_decoder.md R116, R120). -/

namespace Sys2Proof.Machine

/-! ### The packed format (R110) -/

/-- Settles O36: the place of every bit, those past the end of `B` being 0. -/
theorem packedBytesHoldTheBits : Obligations.PackedBytesHoldTheBits := by
  refine ⟨length_bitsOf, fun B => ⟨length_packBytes B, fun j hj => ?_, fun j hj _ => ?_⟩⟩
  · rw [getLsbD_packBytes _ B le_rfl]
    exact List.getD_eq_getElem B false hj
  · rw [getLsbD_packBytes _ B le_rfl]
    exact List.getD_eq_default B false hj

/-! ### A core step by the kind of its point (40_command_control.md R78 to R81) -/

section
variable {s u : State} {r : Running}

theorem exec_inByte {k : Byte → Running} {b : Byte} (hm : s.mode = .busy r) (hp : programOf r s = some (u, .inByte k))
    (hi : s.inSlot = some b) :
    exec r.instr s = .next { u with inSlot := none, inCount := s.inCount + 1#32, mode := .busy (k b) } := by
  obtain ⟨-, hin, -⟩ := coreStepDoesStatementsAndPoint _ _ _ _ hm hp
  exact hin k b rfl hi

theorem exec_outByte {b : Byte} {k : Running} (hm : s.mode = .busy r) (hp : programOf r s = some (u, .outByte b k))
    (ho : s.outSlot = none) :
    exec r.instr s = .next { u with outSlot := some b, outCount := s.outCount + 1#32, mode := .busy k } := by
  obtain ⟨-, -, hout, -⟩ := coreStepDoesStatementsAndPoint _ _ _ _ hm hp
  exact hout k b rfl ho

theorem exec_complete (hm : s.mode = .busy r) (hp : programOf r s = some (u, .complete)) (ho : s.outSlot = none) :
    exec r.instr s = .next { u with mode := .idle, done := true } := by
  obtain ⟨-, -, -, hcomplete, -⟩ := coreStepDoesStatementsAndPoint _ _ _ _ hm hp
  exact hcomplete rfl ho

theorem exec_fail {e : ErrCode} {info : Word} (hm : s.mode = .busy r) (hp : programOf r s = some (u, .fail e info))
    (ho : s.outSlot = none) :
    exec r.instr s = .next { u with mode := .idle, done := true, errcode := e.code, errinfo := info } := by
  obtain ⟨-, -, -, -, hfail, -⟩ := coreStepDoesStatementsAndPoint _ _ _ _ hm hp
  exact hfail e info rfl ho

end

/-! ### The checks of PACK (R112, R113, R114) -/

section
variable {s : State}

theorem packStart_empty (hl : s.lenL = 0#32) : packStart s = (s, .fail .emptyInput 0#32) := if_pos hl

theorem packStart_notDerived (hl : s.lenL ≠ 0#32) (hv : s.hdrValid = false) : packStart s = (s, .fail .notDerived 0#32) := by
  rw [packStart, if_neg hl, if_pos hv]

theorem packStart_overflow (hl : s.lenL ≠ 0#32) (hv : s.hdrValid = true) (hx : 2 ^ 31 - 1 < s.expbits.toNat) :
    packStart s = (s, .fail .hdrOverflow (s.expbits.extractLsb' 0 32)) := by
  rw [packStart, if_neg hl, if_neg (ne_false_of_eq_true hv), if_pos hx, BitVec.setWidth_eq_extractLsb' (by decide)]

theorem packStart_header (hl : s.lenL ≠ 0#32) (hv : s.hdrValid = true) (hx : s.expbits.toNat ≤ 2 ^ 31 - 1) :
    packStart s = packHeader 0 { s with bitcount := s.expbits.extractLsb' 0 32 } := by
  rw [packStart, if_neg hl, if_neg (ne_false_of_eq_true hv), if_neg (Nat.not_lt.2 hx), BitVec.setWidth_eq_extractLsb' (by decide)]

theorem packProgram_got_unusable {b : Byte} (left : Nat) (h : (s.entry b).usable = false) :
    packProgram (.got b left) s = (s, .fail .noCode (b.setWidth 32)) := if_neg (Bool.eq_false_iff.1 h)

theorem packProgram_got_usable {b : Byte} (left : Nat) (h : (s.entry b).usable = true) :
    packProgram (.got b left) s = packBits b left (s.entry b).len.toNat s := if_pos h

theorem packCheck_match (h : s.nb = s.expbits) : packCheck s = (s, .complete) := if_pos h

theorem packCheck_mismatch (h : s.nb ≠ s.expbits) : packCheck s = (s, .fail .packLength (s.nb.setWidth 32)) := if_neg h

end

/-- Settles O34, by the first check that fails. -/
theorem packChecksBeforeAnyByte : Obligations.PackChecksBeforeAnyByte := by
  refine fun s hm ho => ⟨fun hl => ?_, fun hl hv => ?_, fun hl hv hx => ?_, fun hl hv hx => ?_⟩
  · exact exec_fail hm (congrArg some (packStart_empty hl)) ho
  · exact exec_fail hm (congrArg some (packStart_notDerived hl hv)) ho
  · exact exec_fail hm (congrArg some (packStart_overflow hl hv hx)) ho
  · exact exec_outByte hm (congrArg some (packStart_header hl hv hx)) ho

/-! ### NO_CODE (R113) -/

theorem usable_eq_true_iff (e : Entry) : e.usable = true ↔ e.valid = true ∧ e.len ≠ 0#8 := by
  rw [Entry.usable, Bool.and_eq_true, bne_iff_ne]

theorem usable_eq_false_iff (e : Entry) : e.usable = false ↔ e.valid = false ∨ e.len = 0#8 := by
  rw [Entry.usable, Bool.and_eq_false_iff, bne_eq_false_iff_eq]

/-- ERRCODE is not NO_CODE's (60_exceptions.md R124). -/
def NotNoCode (t : State) : Prop := t.errcode ≠ ErrCode.noCode.code

theorem notNoCode_of_zero {s : State} (h : s.errcode = 0#8) : NotNoCode s := fun h' => nomatch h.symm.trans h'

theorem packLoop_notNoCode (left : Nat) {s : State} (h : s.errcode = 0#8) : (packLoop left s).2.Leads NotNoCode (packLoop left s).1 := by
  cases left with
  | zero =>
    by_cases hn : s.nacc = 0#4
    · rw [packLoop, packEnd, if_pos hn]
      by_cases hx : s.nb = s.expbits
      · rw [packCheck_match hx]
        exact notNoCode_of_zero h
      · rw [packCheck_mismatch hx]
        exact (by decide : ErrCode.packLength.code ≠ ErrCode.noCode.code)
    · rw [packLoop, packEnd, if_neg hn]
      exact notNoCode_of_zero h
  | succ k => exact fun _ => notNoCode_of_zero h

theorem packBits_notNoCode (b : Byte) (left j : Nat) {s : State} (h : s.errcode = 0#8) :
    (packBits b left j s).2.Leads NotNoCode (packBits b left j s).1 := by
  induction j generalizing s with
  | zero => exact packLoop_notNoCode left h
  | succ j ih =>
    rw [packBits]
    split
    · exact notNoCode_of_zero h
    · exact ih h

/-- Settles O35: the entry is looked up once, before the bits of the byte; no point after it fails with NO_CODE. -/
theorem packFailsOnAnUncodedByte : Obligations.PackFailsOnAnUncodedByte := by
  refine ⟨fun s b left hm ho hbad => ?_, fun s t b left hm h0 hv hl ht => ?_⟩
  · exact exec_fail hm (congrArg some (packProgram_got_unusable left ((usable_eq_false_iff _).2 hbad))) ho
  · have hp := packProgram_got_usable left ((usable_eq_true_iff _).2 ⟨hv, hl⟩)
    obtain ⟨u, p, hr, ⟨-, rfl⟩ | ⟨he, rfl⟩⟩ := coreStep_next ((exec_running hm).symm.trans ht)
    · exact notNoCode_of_zero h0
    · exact (of_program (fun u p => p.Leads NotNoCode u) ((congrArg some hp).symm.trans hr) (packBits_notNoCode b left _ h0)).perform he
        (programOf_sameOutside hr).inSlot

/-! ### The header, and the ends of PACK and UNPACK (R111, R114; 46_bit_unpacker_decoder.md R120) -/

/-- Settles O43: each step is the statements before its next point, then that point. -/
theorem packHeaderAndStreamEnds : Obligations.PackHeaderAndStreamEnds := by
  refine ⟨fun s k hm hk ho => ?_, fun s k b hm hl hi => ?_, fun s hm ho => ⟨fun hx => ?_, fun hx => ?_⟩, fun s hm ho => ?_,
    fun s k b hm hi => ?_⟩
  · exact exec_outByte hm (congrArg some (if_pos hk)) ho
  · have hp : packProgram (.hdr 4) s = ({ s with acc := 0#8, nacc := 0#4, nb := 0#40 }, .inByte fun b => .pack (.got b k)) := by
      rw [packProgram, if_neg (lt_irrefl 4), hl, packLoop]
    exact exec_inByte hm (congrArg some hp) hi
  · exact exec_complete hm (congrArg some (packCheck_match hx)) ho
  · rw [← BitVec.setWidth_eq_extractLsb' (by decide)]
    exact exec_fail hm (congrArg some (packCheck_mismatch hx)) ho
  · exact exec_complete (r := .unpack (.gotTail 0)) hm rfl ho
  · exact exec_inByte (r := .unpack (.gotTail (k + 1))) hm rfl hi

end Sys2Proof.Machine
end

section
/-! SUPPORT. PACK as a whole run under XFER: with every byte of the input usable, and stopped by a byte that is not (45_bit_packer.md R111 to R115;
60_exceptions.md R130; 30_encoding.md R72). -/

namespace Sys2Proof.Machine

/-! ### What a stream command leaves alone (20_memory.md R55) -/

theorem StreamFrame.freq {s t : State} (h : StreamFrame s t) : t.freq = s.freq := by
  unfold StreamFrame at h; rw [h]

theorem StreamFrame.node {s t : State} (h : StreamFrame s t) : t.node = s.node := by
  unfold StreamFrame at h; rw [h]

theorem StreamFrame.treeValid {s t : State} (h : StreamFrame s t) : t.treeValid = s.treeValid := by
  unfold StreamFrame at h; rw [h]

theorem StreamFrame.hdrValid {s t : State} (h : StreamFrame s t) : t.hdrValid = s.hdrValid := by
  unfold StreamFrame at h; rw [h]

theorem StreamFrame.irqEn {s t : State} (h : StreamFrame s t) : t.irqEn = s.irqEn := by
  unfold StreamFrame at h; rw [h]

theorem StreamFrame.rej {s t : State} (h : StreamFrame s t) : t.rej = s.rej := by
  unfold StreamFrame at h; rw [h]

/-! ### Runs -/

/-- A property that every step keeps holds of every state a run reaches. -/
theorem Reaches.keeps {P : State → Prop} (kept : ∀ s t, P s → step s = .next t → P t) {s t : State} (h : Reaches s t) (hs : P s) : P t := by
  obtain ⟨k, hk⟩ := h
  induction k generalizing s with
  | zero =>
    cases hk
    exact hs
  | succ k ih =>
    rw [runSteps] at hk
    cases hst : step s with
    | next s' =>
      rw [hst] at hk
      exact ih (kept s s' hs hst) hk
    | fault r => rw [hst] at hk; cases hk
    | refused r => rw [hst] at hk; cases hk

/-- `t` is `u` after the command's end and the HOST's last poll: `mode`, DONE, the error registers and the HOST's side may differ. -/
def EndFrame (u t : State) : Prop :=
  t = { u with
    mode := t.mode, done := t.done, errcode := t.errcode, errinfo := t.errinfo, draws := t.draws, schedule := t.schedule, reads := t.reads }

theorem EndFrame.stream {u t : State} (h : EndFrame u t) : StreamFrame u t := by
  unfold EndFrame at h
  unfold StreamFrame
  rw [h]

theorem EndFrame.taken {u t : State} (h : EndFrame u t) : t.taken = u.taken := by
  unfold EndFrame at h; rw [h]

theorem EndFrame.inSlot {u t : State} (h : EndFrame u t) : t.inSlot = u.inSlot := by
  unfold EndFrame at h; rw [h]

theorem EndFrame.inCount {u t : State} (h : EndFrame u t) : t.inCount = u.inCount := by
  unfold EndFrame at h; rw [h]

theorem EndFrame.outCount {u t : State} (h : EndFrame u t) : t.outCount = u.outCount := by
  unfold EndFrame at h; rw [h]

theorem EndFrame.bitcount {u t : State} (h : EndFrame u t) : t.bitcount = u.bitcount := by
  unfold EndFrame at h; rw [h]

theorem EndFrame.bitpos {u t : State} (h : EndFrame u t) : t.bitpos = u.bitpos := by
  unfold EndFrame at h; rw [h]

section
variable {s u v : State} {ins : List Byte} {rest : List Turn}

/-- A running command has no error yet (10_state.md R23, R24). -/
theorem ControlInv.noError {r : Running} (h : ControlInv s) (hm : s.mode = .busy r) : s.errcode = 0#8 ∧ s.errinfo = 0#32 := by
  obtain ⟨-, hc, hi, -⟩ := ((controlInv_iff s).1 h).2 r hm
  exact ⟨hc, hi⟩

/-- At `Fail` the XFER ends with the error reported. -/
theorem At.reaches_fail {e : ErrCode} {info : Word} (ha : At s ins rest u (v, .fail e info)) :
    ∃ t, Reaches s t ∧ Ended t e.code info rest ∧ EndFrame v t := by
  obtain ⟨r, hm, hr⟩ := ha.run
  have ho : v.outSlot = none := (programOf_sameOutside hr).outSlot.trans ha.quiet.outSlot
  exact ⟨_, Machine.reaches_fail ha.quiet hm hr, ⟨rfl, rfl, rfl, rfl, ho, rfl⟩, rfl⟩

/-- At `Complete` the XFER ends without an error. -/
theorem At.reaches_complete (ha : At s ins rest u (v, .complete)) (hc : ControlInv s) :
    ∃ t, Reaches s t ∧ Ended t 0#8 0#32 rest ∧ EndFrame v t := by
  obtain ⟨r, hm, hr⟩ := ha.run
  have hv := programOf_sameOutside hr
  obtain ⟨hcode, hinfo⟩ := hc.noError hm
  exact ⟨_, Machine.reaches_complete ha.quiet hm hr,
    ⟨rfl, rfl, hv.errcode.trans hcode, hv.errinfo.trans hinfo, hv.outSlot.trans ha.quiet.outSlot, rfl⟩, rfl⟩

/-- At the check after the whole stream the XFER ends as the bits packed compare with EXPBITS (R114, R115). -/
theorem At.reaches_packCheck (ha : At s ins rest u (packCheck u)) (hc : ControlInv s) :
    ∃ t, Reaches s t ∧ (u.nb = u.expbits → Ended t 0#8 0#32 rest) ∧ (u.nb ≠ u.expbits → Ended t 0x07#8 (u.nb.setWidth 32) rest) ∧
      EndFrame u t := by
  by_cases hx : u.nb = u.expbits
  · rw [packCheck_match hx] at ha
    obtain ⟨t, ht, he, hf⟩ := ha.reaches_complete hc
    exact ⟨t, ht, fun _ => he, fun h => absurd hx h, hf⟩
  · rw [packCheck_mismatch hx] at ha
    obtain ⟨t, ht, he, hf⟩ := ha.reaches_fail
    exact ⟨t, ht, fun h => absurd h hx, fun _ => he, hf⟩

end

/-! ### The run up to the head of the input loop -/

/-- The acceptance of the PACK of `SETLEN n; CMD PACK; XFER [ins]` (40_command_control.md R75). -/
def acceptedPack (s : State) (n : Nat) (ins : List Byte) (rest : List Turn) : State :=
  acceptCommand .pack { s with len := BitVec.ofNat 32 n, schedule := .xfer ins :: rest }

/-- `s'`, which a run from `a` reaches, is at the head of PACK's input loop with `k` bytes to come, all of them in `more`: the bits `W ++ P` of `S` are
packed, `base` and the whole bytes taken. `u` is the state the loop goes on from. -/
structure PackedInput (a : State) (base S more : List Byte) (k : Nat) (rest : List Turn) (s' u : State) (W P : List Bool) : Prop where
  reaches : Reaches a s'
  head : At s' more rest u (packLoop k u)
  packing : Packing u base W P
  bits : W ++ P = bitsOf a.tbl S
  frame : StreamFrame a s'
  inCount : s'.inCount = BitVec.ofNat 32 S.length
  bitcount : u.bitcount = a.expbits.setWidth 32

/-- From the acceptance past PACK's checks: the four header bytes, then the usable bytes `S`. -/
theorem packedInput {s : State} {S more : List Byte} {k : Nat} {rest : List Turn} (hpos : 0 < S.length + k) (hlt : S.length + k < 2 ^ 32)
    (hv : s.hdrValid = true) (hx : s.expbits.toNat ≤ 2 ^ 31 - 1) (hS : ∀ c ∈ S, (s.entry c).usable = true)
    (h : HostReady s [.setLen (S.length + k), .cmd .pack, xferLine (S ++ more)] rest) :
    ∃ s' u W P, PackedInput (acceptedPack s (S.length + k) (S ++ more) rest) (s.taken ++ headerOf s.expbits) S more k rest s' u W P := by
  set a : State := acceptedPack s (S.length + k) (S ++ more) rest
  have hlen : a.lenL.toNat = S.length + k := (BitVec.toNat_ofNat _ _).trans (Nat.mod_eq_of_lt hlt)
  have hl : a.lenL ≠ 0#32 := fun h0 => by rw [h0] at hlen; exact hpos.ne hlen
  have q : Quiet a (S ++ more) rest := quiet_accept rfl h.inEmpty h.outEmpty
  obtain ⟨s1, u1, r1, head1, packing1, frame1, in1, bit1⟩ := run_packHeader q rfl hl hv hx rfl rfl
  rw [frame1.lenL, hlen] at head1
  obtain ⟨s2, u2, W, P, r2, head2, packing2, bits2, frame2, in2, bit2⟩ :=
    run_packLoop k S head1 packing1 fun c hc => (congrArg Entry.usable (frame1.entry c)).trans (hS c hc)
  refine ⟨s2, u2, W, P, r1.trans r2, head2, packing2, ?_, frame1.trans frame2, ?_, bit2.trans bit1⟩
  · rw [bits2, frame1.tbl]
    rfl
  · rw [in2, in1]
    exact BitVec.zero_add _

/-- SETLEN and CMD make the HOST ready to serve the accepted PACK. -/
theorem HostReady.reaches_acceptedPack {s : State} {n : Nat} {ins : List Byte} {rest : List Turn}
    (h : HostReady s [.setLen n, .cmd .pack, xferLine ins] rest) : Reaches s (acceptedPack s n ins rest) :=
  reaches_start h.idle h.schedule_transfer

/-- The acceptance sets the control registers as they stay at every step (R75). -/
theorem controlInv_of_acceptedPack {s t : State} {n : Nat} {ins : List Byte} {rest : List Turn}
    (h : Reaches (acceptedPack s n ins rest) t) : ControlInv t :=
  h.keeps stepKeepsControlInv ⟨rfl, rfl, rfl, by rw [acceptedPack, acceptCommand_opc, encode_opcode, instr_start]⟩

/-! ### The whole run -/

/-- `nb` is wide enough for the bits of every input (R111, R114). -/
theorem nb_eq_iff {n : Nat} (hn : n < 2 ^ 40) (x : BitVec 40) : BitVec.ofNat 40 n = x ↔ n = x.toNat := by
  rw [← BitVec.toNat_inj, BitVec.toNat_ofNat, Nat.mod_eq_of_lt hn]

/-- Settles O37: header, input loop, padded byte and check, each under XFER, from the acceptance on. -/
theorem packRun : Obligations.PackRun := by
  intro s S rest hne hlt hv hx hS h
  have h' : HostReady s [.setLen (S.length + 0), .cmd .pack, xferLine (S ++ [])] rest := by
    rwa [Nat.add_zero, List.append_nil]
  obtain ⟨s1, u1, W, P, p⟩ := packedInput (List.length_pos_iff.2 hne) hlt hv hx hS h'
  obtain ⟨s2, u2, r2, check, taken, outCount, nb, bitpos, frame2, in2, bit2⟩ := run_packEnd p.head p.packing
  have r12 := p.reaches.trans r2
  obtain ⟨t, rt, hok, hbad, hend⟩ := check.reaches_packCheck (controlInv_of_acceptedPack r12)
  have hlen : (W ++ P).length = nbitsOf s.tbl S := (congrArg List.length p.bits).trans (length_bitsOf _ _)
  rw [hlen] at outCount nb bitpos
  have hf : StreamFrame _ u2 := (p.frame.trans frame2).trans check.same.frame
  have hft := hf.trans hend.stream
  have hnb : u2.nb = u2.expbits ↔ nbitsOf s.tbl S = s.expbits.toNat := by
    rw [nb, hf.expbits]
    exact nb_eq_iff (nbitsOf_lt s.tbl S hlt) s.expbits
  have hin : t.inCount.toNat = S.length := by
    rw [hend.inCount, check.same.outside.inCount, in2, p.inCount]
    exact (BitVec.toNat_ofNat _ _).trans (Nat.mod_eq_of_lt hlt)
  refine ⟨t, h'.reaches_acceptedPack.trans (r12.trans rt), fun e => hok (hnb.2 e), fun e => ?_, ?_, hin, hend.outCount.trans outCount, ?_,
    hend.bitpos.trans bitpos, hft.tbl, hft.freq, hft.node, hft.treeValid,
    hft.hdrValid.trans hv, hft.expbits,
    hend.inSlot.trans (check.same.outside.inSlot.trans check.quiet.inSlot), hft.irqEn, hft.rej⟩
  · have he := hbad (mt hnb.1 e)
    rwa [nb, BitVec.setWidth_ofNat_of_le (by decide)] at he
  · rw [hend.taken, taken, p.bits]
    rfl
  · rw [hend.bitcount, bit2, p.bitcount, BitVec.setWidth_eq_extractLsb' (by decide)]
    rfl

/-! ### The run that a byte without a usable entry stops -/

/-- The bytes the packer has put out are the whole ones of its bits. -/
theorem Packing.packBytes_whole {u : State} {base : List Byte} {W P : List Bool} (h : Packing u base W P) :
    packBytes W = (packBytes (W ++ P)).take ((W ++ P).length / 8) := by
  obtain ⟨w, hw⟩ := h.whole
  have hshort := h.short
  rw [packBytes_append w W P hw]
  exact (List.take_left' (by rw [length_packBytes_whole w W hw, List.length_append]; omega)).symm

/-- Settles O38: the bytes `S` as in a whole run, then the HOST's offer of `b` and its look-up. -/
theorem packRunStopsAtAnUncodedByte : Obligations.PackRunStopsAtAnUncodedByte := by
  intro s S more b rest hlt hv hx hS hb h
  have hlen : (S ++ b :: more).length = S.length + (more.length + 1) := List.length_append
  rw [hlen] at h hlt
  obtain ⟨s1, u1, W, P, p⟩ := packedInput (by omega) hlt hv hx hS h
  obtain ⟨r, hm, hr⟩ := p.head.run
  have rtake := reaches_inByte p.head.quiet hm hr
  set s2 : State := { u1 with
    inCount := s1.inCount + 1#32, mode := .busy (.pack (.got b more.length)), schedule := .xfer more :: rest }
  have hu := p.head.same.outside
  have hf : StreamFrame _ s2 := (p.frame.trans p.head.same.frame).trans rfl
  have hprog : packProgram (.got b more.length) s2 = (s2, .fail .noCode (b.setWidth 32)) :=
    packProgram_got_unusable _ ((congrArg Entry.usable (hf.entry b)).trans hb)
  have stop : At s2 more rest s2 (s2, .fail .noCode (b.setWidth 32)) :=
    ⟨⟨rfl, hu.inSlot.trans p.head.quiet.inSlot, hu.outSlot.trans p.head.quiet.outSlot, hu.done.trans p.head.quiet.done⟩,
      ⟨_, rfl, congrArg some hprog⟩, rfl⟩
  obtain ⟨t, rt, hended, hend⟩ := stop.reaches_fail
  have hbits : (W ++ P).length = nbitsOf s.tbl S := (congrArg List.length p.bits).trans (length_bitsOf _ _)
  have hft := hf.trans hend.stream
  refine ⟨t, h.reaches_acceptedPack.trans (p.reaches.trans (rtake.trans rt)), hended, ?_, ?_, hend.inSlot.trans stop.quiet.inSlot, ?_,
    hft.tbl, hft.hdrValid.trans hv⟩
  · rw [hend.taken, ← hbits]
    exact p.packing.taken.trans (by rw [p.packing.packBytes_whole, p.bits]; rfl)
  · rw [hend.inCount]
    show (s1.inCount + 1#32).toNat = _
    rw [p.inCount, ofNat_succ32]
    exact (BitVec.toNat_ofNat _ _).trans (Nat.mod_eq_of_lt (by omega))
  · rw [hend.bitpos, ← hbits]
    exact p.packing.bitpos

end Sys2Proof.Machine
end

section
/-! SUPPORT. The header of an artifact as UNPACK takes and checks it (46_bit_unpacker_decoder.md R116, R117). -/

namespace Sys2Proof.Machine

/-! ### UNPACK up to its data -/

section
variable {s : State}

theorem unpackProgram_start_short (hl : s.lenL.toNat < 4) : unpackProgram .start s = (s, .fail .truncated s.lenL) := if_pos hl

theorem unpackProgram_start_long (hl : 4 ≤ s.lenL.toNat) : unpackProgram .start s = (s, .inByte fun h0 => .unpack (.got0 h0)) :=
  if_neg (Nat.not_lt.2 hl)

/-- What UNPACK writes before its data loop: the header's count, its bytes, an empty candidate (R116). -/
def headerTaken (hw : Word) (s : State) : State :=
  { s with
    bitcount := hw, n := hw, nbytes := BitVec.ofNat 29 (ceilDiv8 hw.toNat)
    cand := 0#256, clen := 0#8, t := 0#32 }

theorem unpackHeader_negative {hw : Word} (hneg : hw.toInt < 0) :
    unpackHeader hw s = ({ s with bitcount := hw, n := hw }, .fail .hdrNegative hw) := if_pos hneg

theorem unpackHeader_truncated {hw : Word} (hpos : 0 ≤ hw.toInt) (hl : s.lenL.toNat - 4 < ceilDiv8 hw.toNat) :
    unpackHeader hw s =
      ({ s with bitcount := hw, n := hw, nbytes := BitVec.ofNat 29 (ceilDiv8 hw.toNat) }, .fail .truncated s.lenL) := by
  rw [unpackHeader, if_neg (not_lt.2 hpos)]
  exact if_pos hl

theorem unpackHeader_loop {hw : Word} (hpos : 0 ≤ hw.toInt) (hl : ceilDiv8 hw.toNat ≤ s.lenL.toNat - 4) :
    unpackHeader hw s = unpackLoop (ceilDiv8 hw.toNat) (headerTaken hw s) := by
  rw [unpackHeader, if_neg (not_lt.2 hpos)]
  exact if_neg (not_lt.2 hl)

/-- A header of no bits leads to the trailing bytes at once (R116). -/
theorem unpackHeader_zero {hw : Word} (h : hw = 0#32) {m : Nat} (hl : s.lenL.toNat = 4 + m) :
    unpackHeader hw s = unpackTail m (headerTaken 0#32 s) := by
  have hm : m = s.lenL.toNat - 4 := by omega
  subst h hm
  exact unpackHeader_loop (le_refl 0) (Nat.zero_le _)

end

/-- Settles O39: the length check, then four `InByte` with no statement before them. -/
theorem unpackTakesItsHeader : Obligations.UnpackTakesItsHeader := by
  refine ⟨fun s hm hl ho => ?_, fun s b hm hl hi => ?_, fun s h0 b hm hi => ?_, fun s h0 h1 b hm hi => ?_, fun s h0 h1 h2 b hm hi => ?_⟩
  · exact exec_fail hm (congrArg some (unpackProgram_start_short hl)) ho
  · exact exec_inByte hm (congrArg some (unpackProgram_start_long hl)) hi
  · exact exec_inByte (r := .unpack (.got0 h0)) hm rfl hi
  · exact exec_inByte (r := .unpack (.got1 h0 h1)) hm rfl hi
  · exact exec_inByte (r := .unpack (.got2 h0 h1 h2)) hm rfl hi

/-- Settles O40: the checks of CHK_HDR in their order, then the head of the data loop, or with no data that of the trailing bytes. -/
theorem unpackChecksItsHeader : Obligations.UnpackChecksItsHeader := by
  refine fun s h0 h1 h2 h3 hm => ⟨fun hneg ho => ?_, fun hpos hl ho => ?_, fun k b hpos hl hk hi => ?_, fun hzero hl ho => ?_,
    fun k b hzero hl hi => ?_⟩
  · exact exec_fail hm (congrArg some (unpackHeader_negative hneg)) ho
  · exact exec_fail hm (congrArg some (unpackHeader_truncated hpos hl)) ho
  · have hp := unpackHeader_loop hpos hl
    rw [headerTaken, hk] at hp
    exact exec_inByte hm (congrArg some hp) hi
  · exact exec_complete hm (congrArg some (unpackHeader_zero (m := 0) hzero hl)) ho
  · exact exec_inByte hm (congrArg some (unpackHeader_zero hzero hl)) hi

end Sys2Proof.Machine
end

section
/-! SUPPORT. UNPACK as a whole run under XFER, against `Decode` (46_bit_unpacker_decoder.md R116, R121; 30_encoding.md R72). -/

namespace Sys2Proof.Machine

/-! ### Where a run under XFER ends -/

section
variable {s v : State} {r : Running} {ins : List Byte} {rest : List Turn}

/-- At `Fail` the XFER ends with the error reported. -/
theorem Quiet.reaches_fail {e : ErrCode} {info : Word} (q : Quiet s ins rest) (hm : s.mode = .busy r)
    (hp : programOf r s = some (v, .fail e info)) : ∃ t, Reaches s t ∧ Ended t e.code info rest ∧ EndFrame v t :=
  ⟨_, Machine.reaches_fail q hm hp, ⟨rfl, rfl, rfl, rfl, (programOf_sameOutside hp).outSlot.trans q.outSlot, rfl⟩, rfl⟩

/-- At `Complete` the XFER ends without an error. -/
theorem Quiet.reaches_complete (q : Quiet s ins rest) (hm : s.mode = .busy r) (hp : programOf r s = some (v, .complete))
    (hc : ControlInv s) : ∃ t, Reaches s t ∧ Ended t 0#8 0#32 rest ∧ EndFrame v t := by
  have hv := programOf_sameOutside hp
  obtain ⟨hcode, hinfo⟩ := hc.noError hm
  exact ⟨_, Machine.reaches_complete q hm hp,
    ⟨rfl, rfl, hv.errcode.trans hcode, hv.errinfo.trans hinfo, hv.outSlot.trans q.outSlot, rfl⟩, rfl⟩

end

/-- The acceptance sets the control registers as they stay at every step (40_command_control.md R75). -/
theorem controlInv_of_accepted {i : Instr} {s t : State} (h : Reaches (acceptCommand i s) t) : ControlInv t :=
  h.keeps stepKeepsControlInv ⟨rfl, rfl, rfl, by rw [acceptCommand_opc, encode_opcode, instr_start]⟩

/-! ### The end of the decoding -/

/-- `t` is where the run from `s` under XFER ends: with the bytes and the failure of `d`, or after `k` bytes more than `s` had taken and with `w` in
BITPOS (R121). -/
structure DecodingEnd (s t : State) (d : Decoded) (k : Nat) (w : Word) (rest : List Turn) : Prop where
  reaches : Reaches s t
  frame : StreamFrame s t
  taken : t.taken = s.taken ++ d.out
  outCount : t.outCount = s.outCount + BitVec.ofNat 32 d.out.length
  fails : ∀ e m, d.err = some (e, m) → Ended t e.code (BitVec.ofNat 32 m) rest ∧ t.bitpos = BitVec.ofNat 32 m
  completes : d.err = none →
    Ended t 0#8 0#32 rest ∧ t.inCount = s.inCount + BitVec.ofNat 32 k ∧ t.inSlot = none ∧ t.bitpos = w

section
variable {s s' u v : State} {ins o : List Byte} {rest : List Turn}

/-- Decoding that has emitted `o` and stands at `Fail` ends with that failure. The candidate's length does not matter any more. -/
theorem Emitted.fails {e : ErrCode} {c : BitVec 8} (em : Emitted s s' o) (ha : UAt s' ins rest { v with clen := c } (v, .fail e v.t))
    (k : Nat) (w : Word) :
    ∃ t, DecodingEnd s t { out := o, err := some (e, v.t.toNat) } k w rest ∧ t.bitcount = v.bitcount := by
  obtain ⟨r, hm, hr⟩ := ha.run
  obtain ⟨t, ht, hended, hend⟩ := ha.quiet.reaches_fail hm hr
  have hv := ha.same.outside
  have hbits : BitVec.ofNat 32 v.t.toNat = v.t := (BitVec.ofNat_toNat _ _).trans (BitVec.setWidth_eq _)
  have hf : StreamFrame { v with clen := c } v := rfl
  refine ⟨t, ⟨em.reach.trans ht, em.frame.trans (ha.same.frame.trans (hf.trans hend.stream)), ?_, ?_, ?_, nofun⟩, hend.bitcount⟩
  · rw [hend.taken, ← em.taken]
    exact hv.taken
  · rw [hend.outCount, ← em.outCount]
    exact hv.outCount
  · rintro _ _ ⟨⟩
    rw [hbits]
    exact ⟨hended, hend.bitpos.trans ha.bitpos⟩

/-- Decoding that has emitted `o`, taken `k` bytes and stands at `Complete` ends without a failure. -/
theorem Emitted.completes (em : Emitted s s' o) (ha : UAt s' ins rest v (v, .complete)) (hc : ControlInv s') {k : Nat}
    (hk : s'.inCount = s.inCount + BitVec.ofNat 32 k) :
    ∃ t, DecodingEnd s t { out := o, err := none } k v.t rest ∧ t.bitcount = v.bitcount := by
  obtain ⟨r, hm, hr⟩ := ha.run
  obtain ⟨t, ht, hended, hend⟩ := ha.quiet.reaches_complete hm hr hc
  have hv := ha.same.outside
  refine ⟨t, ⟨em.reach.trans ht, em.frame.trans (ha.same.frame.trans hend.stream), ?_, ?_, nofun, fun _ => ?_⟩, hend.bitcount⟩
  · rw [hend.taken, hv.taken, em.taken]
  · rw [hend.outCount, hv.outCount, em.outCount]
  · exact ⟨hended, by rw [hend.inCount, hv.inCount, hk], by rw [hend.inSlot, hv.inSlot, ha.quiet.inSlot], hend.bitpos.trans ha.bitpos⟩

end

/-! ### The data and the trailing bytes -/

/-- The data bytes of a count hold that many bits. -/
theorem length_counted_bits {D : List Byte} {n : Nat} (hD : D.length = ceilDiv8 n) : ((D.flatMap bitsOfByte).take n).length = n := by
  rw [List.length_take, length_flatMap_bitsOfByte, hD, ceilDiv8]
  omega

/-- A bare end of the bits is a failure exactly when a candidate is left over (R121). -/
theorem decodeFrom_nil (tbl : Vector Entry 256) (clen : BitVec 8) (cand : CodeBits) (t : Nat) :
    decodeFrom tbl clen cand t [] = { out := [], err := if clen = 0#8 then none else some (.decodeMismatch, t) } := by
  rw [decodeFrom]

section
variable {s u : State} {hw : Word} {D T : List Byte} {rest : List Turn}

/-- After the last data byte with no candidate left the trailing bytes `T` are next (R116, R120). -/
theorem unpackEnd_tail (hc : u.clen = 0#8) (hl : u.lenL.toNat = 4 + u.nbytes.toNat + T.length) : unpackEnd u = unpackTail T.length u := by
  rw [unpackEnd, if_pos hc, hl, show 4 + u.nbytes.toNat + T.length - 4 - u.nbytes.toNat = T.length by omega]

theorem unpackEnd_mismatch (hc : u.clen ≠ 0#8) : unpackEnd u = (u, .fail .decodeMismatch u.t) := if_neg hc

/-- Decoding that has emitted `o`, taken `k` bytes and stands at the end of the data with no candidate left takes `T` and ends without a failure. -/
theorem Emitted.takesTail {s' : State} {o : List Byte} (em : Emitted s s' o) (ha : UAt s' T rest u (unpackEnd u)) (hc : ControlInv s) {k : Nat}
    (hk : s'.inCount = s.inCount + BitVec.ofNat 32 k) (h0 : u.clen = 0#8) (hl : u.lenL.toNat = 4 + u.nbytes.toNat + T.length) :
    ∃ t, DecodingEnd s t { out := o, err := none } (k + T.length) u.t rest ∧ t.bitcount = u.bitcount := by
  rw [unpackEnd_tail h0 hl] at ha
  obtain ⟨s2, v, em2, ha2, hin, -, ht, hbitcount⟩ := run_unpackTail (more := []) T (by rwa [List.append_nil])
  have em' := em.trans em2
  rw [List.append_nil] at em'
  have hin' : s2.inCount = s.inCount + BitVec.ofNat 32 (k + T.length) := by rw [hin, hk, BitVec.ofNat_add, BitVec.add_assoc]
  obtain ⟨t, hend, hbt⟩ := em'.completes ha2 (em'.reach.keeps stepKeepsControlInv hc) hin'
  exact ⟨t, ht ▸ hend, hbt.trans hbitcount⟩

/-- From the head of the data loop UNPACK emits what `Decode` emits on the counted bits and ends as it ends (R121). -/
theorem UAt.decodes (ha : UAt s (D ++ T) rest (headerTaken hw s) (unpackLoop D.length (headerTaken hw s))) (hc : ControlInv s)
    (hD : D.length = ceilDiv8 hw.toNat) (hl : s.lenL.toNat = 4 + D.length + T.length) :
    ∃ t, DecodingEnd s t (decodeBits s.tbl ((D.flatMap bitsOfByte).take hw.toNat)) (D.length + T.length) hw rest ∧ t.bitcount = hw := by
  rcases run_unpackLoop D ha with ⟨s1, u1, o, em, ha1, hin, -, hnb, hbc, ht, hdec⟩ | ⟨s1, u1, o, e, left, em, ha1, hbc, hdec⟩
  · have hdec : decodeBits s.tbl ((D.flatMap bitsOfByte).take hw.toNat) =
        { out := o, err := if u1.clen = 0#8 then none else some (.decodeMismatch, u1.t.toNat) } := by
      have h := hdec []
      rw [decodeFrom_nil, List.append_nil, List.append_nil] at h
      exact h
    rw [hdec]
    by_cases h0 : u1.clen = 0#8
    · have hsmall : hw.toNat < 2 ^ 31 := ha.small
      have hbytes : u1.nbytes.toNat = D.length := by
        rw [hnb, hD]
        refine (BitVec.toNat_ofNat _ _).trans (Nat.mod_eq_of_lt ?_)
        rw [ceilDiv8]
        omega
      have hlen : u1.lenL.toNat = 4 + u1.nbytes.toNat + T.length := by
        rw [(em.frame.trans ha1.same.frame).lenL, hl, hbytes]
      have hall : u1.t = hw := BitVec.eq_of_toNat_eq (ht.trans ((Nat.zero_add _).trans (length_counted_bits hD)))
      obtain ⟨t, hend, hbt⟩ := em.takesTail ha1 hc hin h0 hlen
      rw [if_pos h0]
      exact ⟨t, hall ▸ hend, hbt.trans hbc⟩
    · rw [unpackEnd_mismatch h0] at ha1
      obtain ⟨t, hend, hbt⟩ := em.fails (c := u1.clen) ha1 (D.length + T.length) hw
      rw [if_neg h0]
      exact ⟨t, hend, hbt.trans hbc⟩
  · have hdec : decodeBits s.tbl ((D.flatMap bitsOfByte).take hw.toNat) = { out := o, err := some (e, u1.t.toNat) } := by
      have h := hdec []
      rw [List.append_nil] at h
      exact h
    rw [hdec]
    obtain ⟨t, hend, hbt⟩ := em.fails ha1 (D.length + T.length) hw
    exact ⟨t, hend, hbt.trans hbc⟩

end

/-! ### The whole run -/

/-- From the start of UNPACK past its checks: under XFER the four header bytes are taken and the decoder is at the head of its data loop. -/
theorem run_unpackHeader {s : State} {h0 h1 h2 h3 : Byte} {D T : List Byte} {rest : List Turn}
    (q : Quiet s (h0 :: h1 :: h2 :: h3 :: (D ++ T)) rest) (hm : s.mode = .busy (.unpack .start)) (hb : s.bitpos = 0#32)
    (hpos : 0 ≤ (headerWord h0 h1 h2 h3).toInt) (hD : D.length = ceilDiv8 (headerWord h0 h1 h2 h3).toNat)
    (hl : s.lenL.toNat = 4 + D.length + T.length) :
    ∃ s', Emitted s s' [] ∧ s'.inCount = s.inCount + 4#32 ∧ UAt s' (D ++ T) rest (headerTaken (headerWord h0 h1 h2 h3) s')
      (unpackLoop D.length (headerTaken (headerWord h0 h1 h2 h3) s')) := by
  have hreach := run_unpackStart q hm (by omega)
  set s' : State := { s with
    inCount := s.inCount + 4#32, mode := .busy (.unpack (.got3 h0 h1 h2 h3)), schedule := .xfer (D ++ T) :: rest }
  have hl' : s'.lenL.toNat = 4 + D.length + T.length := hl
  have hp := unpackHeader_loop (s := s') hpos (by omega)
  rw [← hD] at hp
  exact ⟨s', ⟨hreach, rfl, (List.append_nil _).symm, (BitVec.add_zero _).symm⟩, rfl,
    { quiet := ⟨rfl, q.inSlot, q.outSlot, q.done⟩, run := ⟨_, rfl, congrArg some hp⟩, same := rfl, count := Nat.zero_le _
      small := toNat_lt_of_toInt_nonneg (not_lt.2 hpos), room := Nat.zero_le _, bitpos := hb }⟩

/-- Settles O42: the header under XFER, then the data and the trailing bytes. -/
theorem unpackRunIsDecode : Obligations.UnpackRunIsDecode := by
  intro s h0 h1 h2 h3 D T rest hpos hD hlt h
  set ready : State := { s with
    len := BitVec.ofNat 32 (4 + D.length + T.length), schedule := .xfer (h0 :: h1 :: h2 :: h3 :: (D ++ T)) :: rest }
  have hstart : Reaches s (acceptCommand .unpack ready) := reaches_start h.idle h.schedule_transfer
  have hl : (acceptCommand .unpack ready).lenL.toNat = 4 + D.length + T.length :=
    (BitVec.toNat_ofNat _ _).trans (Nat.mod_eq_of_lt hlt)
  obtain ⟨s1, em, hin1, ha⟩ := run_unpackHeader (quiet_accept (s := ready) rfl h.inEmpty h.outEmpty) rfl rfl hpos hD hl
  obtain ⟨t, e, hbitcount⟩ := ha.decodes (controlInv_of_accepted em.reach) hD ((congrArg BitVec.toNat em.frame.lenL).trans hl)
  rw [em.frame.tbl] at e
  have hf := em.frame.trans e.frame
  refine ⟨t, hstart.trans (em.reach.trans e.reaches), ?_, ?_, e.fails, fun hok => ?_, hbitcount,
    hf.tbl, hf.freq, hf.node, hf.treeValid, hf.hdrValid, hf.irqEn, hf.rej⟩
  · rw [e.taken, em.taken, List.append_nil]
    rfl
  · rw [e.outCount, em.outCount]
    exact BitVec.zero_add _
  · obtain ⟨hended, hin, hslot, hbits⟩ := e.completes hok
    refine ⟨hended, ?_, hslot, hbits⟩
    calc t.inCount.toNat = (0#32 + 4#32 + BitVec.ofNat 32 (D.length + T.length)).toNat := by rw [hin, hin1]; rfl
      _ = (4 + (D.length + T.length)) % 2 ^ 32 := by simp [BitVec.toNat_add]
      _ = 4 + D.length + T.length := by omega

end Sys2Proof.Machine
end

section
/-! SUPPORT. The round-trip law: what each command of the script leaves is what the next one needs (46_bit_unpacker_decoder.md R122;
70_reset_and_hazards.md R148). -/

namespace Sys2Proof.Machine

/-! ### BUILD and DERIVE under `ACK; CMD i; WAITDONE` (30_encoding.md R72) -/

/-- The acceptance of the command of `ACK; CMD i; WAITDONE`. -/
def commanded (i : Instr) (s : State) (rest : List Turn) : State :=
  acceptCommand i { s with done := false, schedule := .xfer [] :: rest }

section
variable {s v : State} {i : Instr} {rest : List Turn}

theorem HostReady.reaches_commanded (h : HostReady s [.ack, .cmd i, .waitDone] rest) : Reaches s (commanded i s rest) :=
  (reaches_ack h.scheduled).trans (reaches_cmd (s := { s with done := false, schedule := _ }) h.idle rfl)

/-- A command whose program is one step to `Complete` has ended when the HOST has read DONE. -/
theorem HostReady.completes (h : HostReady s [.ack, .cmd i, .waitDone] rest)
    (hp : programOf (Running.start i) (commanded i s rest) = some (v, .complete)) :
    ∃ t, Reaches s t ∧ Ended t 0#8 0#32 rest ∧ EndFrame v t := by
  have q : Quiet (commanded i s rest) [] rest := quiet_accept rfl h.inEmpty h.outEmpty
  obtain ⟨t, ht, hended, hend⟩ := q.reaches_complete rfl hp (controlInv_of_accepted (Reaches.refl _))
  exact ⟨t, h.reaches_commanded.trans ht, hended, hend⟩

/-- BUILD over a FREQ with a count leaves a valid tree (42_huffman_tree_builder.md R91). -/
theorem HostReady.builds (h : HostReady s [.ack, .cmd .build, .waitDone] rest) (hK : countedSymbols s.freq ≠ []) :
    ∃ t, Reaches s t ∧ Ended t 0#8 0#32 rest ∧ t.treeValid = true ∧ t.freq = s.freq ∧ t.taken = s.taken ∧ t.inSlot = none := by
  have hp : programOf .build (commanded .build s rest) = some (buildWrite (commanded .build s rest), .complete) :=
    congrArg some (if_neg hK)
  obtain ⟨t, ht, hended, hend⟩ := h.completes hp
  exact ⟨t, ht, hended, hend.stream.treeValid, hend.stream.freq, hend.taken, hend.inSlot.trans h.inEmpty⟩

/-- TABLE and EXPBITS are as DERIVE makes them for the bytes of `S`: every byte has a code, no code begins another's, and the bits of `S` are counted (43_code_table_deriver.md R99, R101). -/
structure CodedFor (S : List Byte) (tbl : Vector Entry 256) (expbits : BitVec 40) : Prop where
  prefixFree : PrefixFree tbl
  usable : ∀ b ∈ S, (entryOf tbl b).usable = true
  exact : expbits.toNat = nbitsOf tbl S

/-- What DERIVE makes of the tree of a FREQ is right for every input with these counts. -/
theorem codedFor_of_derive {s t : State} (hm : s.mode = .busy .derive) (hv : s.treeValid = true) (htree : TreeInv s) (hc : CountInv s)
    (ho : s.outSlot = none) (h : exec .derive s = .next t) {S : List Byte} (hS : ∀ b, (s.freqOf b).toNat = S.count b) :
    CodedFor S t.tbl t.expbits := by
  obtain ⟨hvalid, hlen, hpf, -⟩ := derivedTableIsPrefixFree s t hm hv htree ho h
  obtain ⟨-, hexact, -⟩ := expectedBitsAreExact s t hm hv htree hc ho h
  have hcode : ∀ {b}, (entryOf t.tbl b).usable = true → (entryOf t.tbl b).valid = true := fun hu => ((usable_eq_true_iff _).1 hu).1
  refine ⟨fun x y hne hx hy => hpf x y hne (hcode hx) (hcode hy), fun b hb => ?_, hexact S hS⟩
  have hcount : s.freqOf b ≠ 0#32 := fun h0 => (List.count_pos_iff.2 hb).ne' ((hS b).symm.trans (congrArg BitVec.toNat h0))
  have hentry := (hvalid b).2 hcount
  refine (usable_eq_true_iff _).2 ⟨hentry, fun h0 => ?_⟩
  obtain ⟨hpos, -⟩ := hlen b hentry
  rw [State.entry, h0] at hpos
  exact absurd hpos (by decide)

/-- DERIVE after a BUILD leaves a TABLE and an EXPBITS for every input with the counts of FREQ. -/
theorem HostReady.derives (h : HostReady s [.ack, .cmd .derive, .waitDone] rest) (hv : s.treeValid = true) (htree : TreeInv s)
    (hc : CountInv s) {S : List Byte} (hS : ∀ b, (s.freqOf b).toNat = S.count b) :
    ∃ t, Reaches s t ∧ Ended t 0#8 0#32 rest ∧ t.hdrValid = true ∧ CodedFor S t.tbl t.expbits ∧ t.taken = s.taken ∧ t.inSlot = none := by
  set a : State := commanded .derive s rest
  have ra : Reaches s a := h.reaches_commanded
  have htree' : TreeInv a := ra.keeps stepKeepsTreeInv htree
  have hc' : CountInv a := ra.keeps stepKeepsCountInv.1 hc
  obtain ⟨d, ls, D⟩ := derive_facts (s := a) hv htree'
  have hp : programOf .derive a = some (deriveWrite d a, .complete) := by
    rw [programOf, deriveProgram, if_pos (show a.treeValid = true from hv), D.eq]
  obtain ⟨t, ht, hended, hend⟩ := h.completes hp
  have coded := codedFor_of_derive (s := a) rfl hv htree' hc' h.outEmpty (exec_derive_completes rfl hv h.outEmpty D.eq) hS
  refine ⟨t, ht, hended, hend.stream.hdrValid, ?_, hend.taken, hend.inSlot.trans h.inEmpty⟩
  rw [hend.stream.tbl, hend.stream.expbits]
  exact coded

end

/-! ### COUNT, BUILD, DERIVE (70_reset_and_hazards.md R148) -/

/-- An ended command leaves the HOST ready to carry out the lines that come next. -/
theorem Ended.hostReady {t : State} {code : BitVec 8} {info : Word} {lines : List Line} {rest : List Turn}
    (h : Ended t code info (scriptTurns lines ++ rest)) (hi : t.inSlot = none) : HostReady t lines rest :=
  ⟨h.idle, hi, h.outEmpty, h.scheduled⟩

/-- Without a valid tree and with NNODES and ROOT 0 there is nothing more to TreeInv of an IDLE CORE. -/
theorem treeInv_of_noTree {s : State} (hm : s.mode = .idle) (hv : s.treeValid = false) (hn : s.nnodes = 0#10) (hr : s.root = 0#9) :
    TreeInv s :=
  ⟨fun _ _ h => (nomatch hm.symm.trans h), fun _ => ⟨hn, hr⟩, fun h => (nomatch hv.symm.trans h)⟩

/-- The first part of the script: from the input to its TABLE. -/
theorem countBuildDerive_run {s : State} {S : List Byte} (hpos : 1 ≤ S.length) (hlt : S.length < 2 ^ 32)
    (h : HostReady s [.setLen S.length, .cmd .count, xferLine S, .ack, .cmd .build, .waitDone, .ack, .cmd .derive, .waitDone] []) :
    ∃ t, Reaches s t ∧ Ended t 0#8 0#32 [] ∧ t.hdrValid = true ∧ CodedFor S t.tbl t.expbits ∧ t.taken = s.taken ∧ t.inSlot = none := by
  have hcount : HostReady s [.setLen S.length, .cmd .count, xferLine S]
      (scriptTurns [.ack, .cmd .build, .waitDone] ++ (scriptTurns [.ack, .cmd .derive, .waitDone] ++ [])) :=
    ⟨h.idle, h.inEmpty, h.outEmpty, h.scheduled⟩
  obtain ⟨t1, r1, e1, hfreq, htotal, hsum, hnsym, hmem, -, -, htaken1, hin1, hv1, -, hnn1, hroot1, -⟩ :=
    countedInputRun s S _ hlt hcount
  have hc1 : CountInv t1 := countInv_of_sums (hsum.trans htotal.symm) hnsym.symm fun c h => nomatch e1.idle.symm.trans h
  have htree1 : TreeInv t1 := treeInv_of_noTree e1.idle hv1 hnn1 hroot1
  have hK : countedSymbols t1.freq ≠ [] := by
    obtain ⟨b, hb⟩ := List.exists_mem_of_length_pos hpos
    exact List.ne_nil_of_mem ((hmem b).2 hb)
  obtain ⟨t2, r2, e2, hv2, hf2, htaken2, hin2⟩ := (e1.hostReady hin1).builds hK
  have hfreq2 : ∀ b, (t2.freqOf b).toNat = S.count b := by
    rw [show t2.freqOf = t1.freqOf from funext fun b => congrArg (entryOf · b) hf2]
    exact hfreq
  obtain ⟨t3, r3, e3, hdr3, coded, htaken3, hin3⟩ :=
    (e2.hostReady hin2).derives hv2 (r2.keeps stepKeepsTreeInv htree1) (r2.keeps stepKeepsCountInv.1 hc1) hfreq2
  exact ⟨t3, r1.trans (r2.trans r3), e3, hdr3, coded, htaken3.trans (htaken2.trans htaken1), hin3⟩

/-! ### PACK, then UNPACK -/

/-- `ACK`, then PACK of an input its TABLE is for: the artifact is put out, the TABLE kept. -/
theorem pack_run {t : State} {S : List Byte} (hpos : 1 ≤ S.length) (hlt : S.length < 2 ^ 32)
    (h : HostReady t [.ack, .setLen S.length, .cmd .pack, xferLine S] []) (hv : t.hdrValid = true) (coded : CodedFor S t.tbl t.expbits)
    (hx : t.expbits.toNat ≤ 2 ^ 31 - 1) :
    ∃ u, Reaches t u ∧ Ended u 0#8 0#32 [] ∧ u.inSlot = none ∧ u.tbl = t.tbl ∧
      u.taken = t.taken ++ headerOf t.expbits ++ packBytes (bitsOf t.tbl S) := by
  set acked : State := { t with done := false, schedule := scriptTurns [.setLen S.length, .cmd .pack, xferLine S] ++ [] }
  have hacked : HostReady acked [.setLen S.length, .cmd .pack, xferLine S] [] := ⟨h.idle, h.inEmpty, h.outEmpty, rfl⟩
  obtain ⟨u, ru, hok, -, htaken, -, -, -, -, htbl, -, -, -, -, -, hin, -⟩ :=
    packRun acked S [] (List.ne_nil_of_length_pos hpos) hlt hv hx coded.usable hacked
  exact ⟨u, (reaches_ack h.scheduled).trans ru, hok coded.exact.symm, hin, htbl, htaken⟩

/-- UNPACK of the artifact of `S`, the TABLE being the one it was packed with, gives `S` back. -/
theorem unpack_run {w : State} {S : List Byte} {e : BitVec 40} (coded : CodedFor S w.tbl e) (hx : e.toNat ≤ 2 ^ 31 - 1)
    (h : HostReady w [.setLen (headerOf e ++ packBytes (bitsOf w.tbl S)).length, .cmd .unpack,
      xferLine (headerOf e ++ packBytes (bitsOf w.tbl S))] []) :
    ∃ v, Reaches w v ∧ Ended v 0#8 0#32 [] ∧ v.inSlot = none ∧ v.taken = w.taken ++ S := by
  set P := packBytes (bitsOf w.tbl S)
  have hcount : (headerByte e 3 ++ headerByte e 2 ++ headerByte e 1 ++ headerByte e 0).toNat = nbitsOf w.tbl S := by
    rw [headerByte_join, BitVec.toNat_setWidth, Nat.mod_eq_of_lt (by omega), coded.exact]
  have hP : P.length = ceilDiv8 (nbitsOf w.tbl S) := by rw [length_packBytes, length_bitsOf]
  have hexact := coded.exact
  have hfits : 4 + P.length + ([] : List Byte).length < 2 ^ 32 := by
    rw [hP, ceilDiv8, List.length_nil]
    omega
  have hnonneg : 0 ≤ (headerByte e 3 ++ headerByte e 2 ++ headerByte e 1 ++ headerByte e 0).toInt := by
    rw [BitVec.toInt_eq_toNat_of_lt (by rw [hcount]; omega)]
    exact Int.natCast_nonneg _
  have hsplit : headerOf e ++ P = headerByte e 0 :: headerByte e 1 :: headerByte e 2 :: headerByte e 3 :: (P ++ []) := by
    rw [List.append_nil]
    rfl
  have hlen : (headerOf e ++ P).length = 4 + P.length + ([] : List Byte).length := List.length_append
  rw [hlen, hsplit] at h
  obtain ⟨v, rv, htaken, -, -, hok, -⟩ := unpackRunIsDecode w _ _ _ _ P [] [] hnonneg (hP.trans (congrArg ceilDiv8 hcount.symm)) hfits h
  rw [hcount, decodeUndoesPack w.tbl S coded.prefixFree coded.usable] at htaken hok
  obtain ⟨hended, -, hin, -⟩ := hok rfl
  exact ⟨v, rv, hended, hin, htaken⟩

/-- Settles O45: the parts of the script one after another, each from what the one before left. -/
theorem roundTripLaw : Obligations.RoundTripLaw := by
  intro s S hpos hlt h
  obtain ⟨t, rt, et, hdr, coded, htaken, hin⟩ := countBuildDerive_run hpos hlt h
  refine ⟨t, rt, et, hin, htaken, hdr, coded.exact, fun hx => ?_⟩
  have hpack : HostReady { t with schedule := scriptTurns [.ack, .setLen S.length, .cmd .pack, xferLine S] }
      [.ack, .setLen S.length, .cmd .pack, xferLine S] [] := ⟨et.idle, hin, et.outEmpty, (List.append_nil _).symm⟩
  obtain ⟨u, ru, eu, hinu, htblu, htakenu⟩ := pack_run hpos hlt hpack hdr coded hx
  refine ⟨u, ru, eu, hinu, htblu, htakenu, fun w hw hready => ?_⟩
  rw [← hw] at coded hready
  exact unpack_run coded hx hready

end Sys2Proof.Machine
end

section
/-! SUPPORT. What a step does to the flags of the interrupt and of rejection, and the CORE's output ports (60_exceptions.md R127, R131, R133;
20_memory.md R51; 70_reset_and_hazards.md R145). -/

namespace Sys2Proof.Machine

/-! ### The control registers under a point, a reset edge and a change of one flag -/

@[simp] theorem perform_rej (p : Point) (s : State) : (p.perform s).rej = s.rej := by rw [perform_frame]
@[simp] theorem perform_irqEn (p : Point) (s : State) : (p.perform s).irqEn = s.irqEn := by rw [perform_frame]

/-- A point sets DONE as it ends the command, or leaves it (40_command_control.md R78 to R81). -/
theorem perform_done (p : Point) (s : State) :
    (p.perform s).done = s.done ∨ ((p.perform s).done = true ∧ (p.perform s).mode = .idle) := by
  cases p with
  | inByte k =>
    unfold Point.perform
    dsimp only
    split <;> exact .inl rfl
  | outByte b k => exact .inl rfl
  | complete => exact .inr ⟨rfl, rfl⟩
  | fail e info => exact .inr ⟨rfl, rfl⟩

/-- A clock edge with `rst_n` = 0 clears the stored flags, whatever the HOST presents at it (70_reset_and_hazards.md R143, R145). -/
theorem resetEdge_flags (p : Presented) (s : State) :
    (resetEdge p s).rej = false ∧ (resetEdge p s).done = false := by
  cases p <;> exact ⟨rfl, rfl⟩

/-- A flag goes from `b` to `b'`: if it rises, `Rises` holds, and if it falls, `Falls`. -/
structure FlagStep (b b' : Bool) (Rises Falls : Prop) : Prop where
  rises : b = false → b' = true → Rises
  falls : b = true → b' = false → Falls

section
variable {b b' : Bool} {Rises Falls : Prop}

theorem FlagStep.of_same (h : b' = b) : FlagStep b b' Rises Falls where
  rises h0 h1 := nomatch h0.symm.trans (h.symm.trans h1)
  falls h1 h0 := nomatch h0.symm.trans (h.trans h1)

theorem FlagStep.of_set (h : b' = true) (hr : Rises) : FlagStep b b' Rises Falls where
  rises _ _ := hr
  falls _ h0 := nomatch h0.symm.trans h

theorem FlagStep.of_cleared (h : b' = false) (hf : Falls) : FlagStep b b' Rises Falls where
  rises _ h1 := nomatch h.symm.trans h1
  falls _ _ := hf

/-- A flag that the HOST clears by writing a 1 to it (10_state.md R22). -/
theorem FlagStep.of_write1 {x : Bool} (hf : x = true → Falls) : FlagStep b (b && !x) Rises Falls := by
  cases x with
  | false => exact .of_same (Bool.and_true b)
  | true => exact .of_cleared (Bool.and_false b) (hf rfl)

end

/-! ### REJ (R133) -/

/-- The step of `s` that answers `t` is a write that a BUSY CORE rejects: it sets REJ and does nothing else (40_command_control.md R76). -/
def RejectedWrite (s t : State) : Prop :=
  ∃ a v rest, s.schedule = .host (.write a v) :: rest ∧
    (a.toNat / 4 = 3 ∨ a.toNat / 4 = 7 ∨ (0x4000 ≤ a.toNat ∧ a.toNat < 0x8000)) ∧
    s.mode ≠ .idle ∧ t = { s with schedule := rest, rej := true }

/-- What clears REJ: a 1 written to STATUS bit 3, or a reset. -/
def ClearsRej (s : State) : Prop :=
  (∃ a v rest, s.schedule = .host (.write a v) :: rest ∧ a.toNat / 4 = 4 ∧ v.getLsbD 3 = true) ∨ ResetScheduled s

theorem step_rej {s t : State} (h : step s = .next t) : FlagStep s.rej t.rej (RejectedWrite s t) (ClearsRej s) := by
  cases step_move h with
  | core l r u p _ hp => exact .of_same ((perform_rej p u).trans (programOf_sameOutside hp).rej)
  | write a v rest t hs hw =>
    cases hw with
    | reject r ha hm => exact .of_set rfl ⟨a, v, rest, hs, ha, fun hi => (nomatch hi.symm.trans hm), rfl⟩
    | status ha => exact .of_write1 fun hv => .inl ⟨a, v, rest, hs, ha, hv⟩
    | reset ha hv => exact .of_cleared rfl (.inr (.inl ⟨a, v, rest, hs, ha, hv⟩))
    | _ => exact .of_same rfl
  | reset p rest hs =>
    obtain ⟨hrej, -⟩ := resetEdge_flags p { s with schedule := rest }
    exact .of_cleared hrej (.inr (.inr ⟨p, rest, hs⟩))
  | _ => exact .of_same rfl

/-- Settles O7: of all moves of a step only the rejected write sets REJ, and it writes nothing else. -/
theorem rejRecordsRejectedWrites : Obligations.RejRecordsRejectedWrites := by
  refine fun s t h => ⟨fun h0 h1 => ?_, (step_rej h).falls⟩
  obtain ⟨a, v, rest, hs, ha, hm, rfl⟩ := (step_rej h).rises h0 h1
  exact ⟨hm, rfl, rfl, rfl, rfl, rfl, a, v, rest, hs, ha⟩

/-! ### DONE (R127, R131) -/

/-- What sets DONE in the step of `s` that answers `t`: the end of the running command, or an illegal word written to CMD of an IDLE CORE
(40_command_control.md R75, R80, R81). -/
def SetsDone (s t : State) : Prop :=
  (s.mode ≠ .idle ∧ t.mode = .idle) ∨
  (s.mode = .idle ∧ t.errcode = 0x01#8 ∧ ∃ a w rest e, s.schedule = .host (.write a w) :: rest ∧ a.toNat / 4 = 3 ∧ decode w = .error e)

/-- What clears DONE: a 1 written to STATUS bit 1, the acceptance of a command, or a reset. -/
def ClearsDone (s : State) : Prop :=
  (∃ a v rest, s.schedule = .host (.write a v) :: rest ∧ a.toNat / 4 = 4 ∧ v.getLsbD 1 = true) ∨
  (s.mode = .idle ∧ ∃ a w rest i, s.schedule = .host (.write a w) :: rest ∧ a.toNat / 4 = 3 ∧ decode w = .ok i) ∨ ResetScheduled s

theorem step_done {s t : State} (h : step s = .next t) : FlagStep s.done t.done (SetsDone s t) (ClearsDone s) := by
  cases step_move h with
  | core l r u p hm hp =>
    rcases perform_done p u with hd | ⟨hd, hi⟩
    · exact .of_same (hd.trans (programOf_sameOutside hp).done)
    · exact .of_set hd (.inl ⟨fun hi => (nomatch hi.symm.trans hm), hi⟩)
  | write a v rest t hs hw =>
    cases hw with
    | accept i ha hm hd => exact .of_cleared rfl (.inr (.inl ⟨hm, a, v, rest, i, hs, ha, hd⟩))
    | illegal e ha hm hd => exact .of_set rfl (.inr ⟨hm, rfl, a, v, rest, e, hs, ha, hd⟩)
    | status ha => exact .of_write1 fun hv => .inl ⟨a, v, rest, hs, ha, hv⟩
    | reset ha hv => exact .of_cleared rfl (.inr (.inr (.inl ⟨a, v, rest, hs, ha, hv⟩)))
    | _ => exact .of_same rfl
  | reset p rest hs =>
    obtain ⟨-, hdone⟩ := resetEdge_flags p { s with schedule := rest }
    exact .of_cleared hdone (.inr (.inr (.inr ⟨p, rest, hs⟩)))
  | _ => exact .of_same rfl

/-! ### IRQ_EN (R127) -/

theorem step_irqEn {s t : State} (h : step s = .next t) : t.irqEn = s.irqEn ∨
    (∃ a v rest, s.schedule = .host (.write a v) :: rest ∧ a.toNat / 4 = 2) ∨ ∃ p rest, s.schedule = .host (.reset p) :: rest := by
  cases step_move h with
  | core l r u p _ hp => exact .inl ((perform_irqEn p u).trans (programOf_sameOutside hp).irqEn)
  | write a v rest t hs hw =>
    cases hw with
    | irqEn ha => exact .inr (.inl ⟨a, v, rest, hs, ha⟩)
    | reset ha => exact .inr (.inl ⟨a, v, rest, hs, ha⟩)
    | _ => exact .inl rfl
  | reset p rest hs => exact .inr (.inr ⟨p, rest, hs⟩)
  | _ => exact .inl rfl

/-! ### The output ports (20_memory.md R51) -/

/-- The running command waits in `InByte` exactly when that is its next point. -/
theorem waitsForInput_iff (s : State) :
    waitsForInput s = true ↔ ∃ r u k, s.mode = .busy r ∧ programOf r s = some (u, .inByte k) := by
  constructor
  · intro h
    unfold waitsForInput at h
    split at h
    · cases h
    · rename_i r hm
      split at h
      · rename_i u k hp
        exact ⟨r, u, k, hm, hp⟩
      · cases h
  · rintro ⟨r, u, k, hm, hp⟩
    unfold waitsForInput
    rw [hm]
    dsimp only
    rw [hp]

/-- Settles O58: the ports as the state has them, and of all moves of a step those that change DONE and IRQ_EN. -/
theorem irqIsEnableAndDone : Obligations.IrqIsEnableAndDone :=
  ⟨fun s => ⟨rfl, rfl, rfl, waitsForInput_iff s, rfl⟩, fun _ _ h => (step_done h).rises, fun _ _ h => (step_done h).falls,
    fun _ _ h hne => (step_irqEn h).resolve_left hne⟩

end Sys2Proof.Machine
end

section
/-! SUPPORT. The reset: what it writes, and its two sources (70_reset_and_hazards.md R143, R145, R146). -/

namespace Sys2Proof.Machine

/-! ### The entry files after the reset -/

theorem freqOf_resetCore (s : State) (b : Byte) : (resetCore s).freqOf b = 0#32 := entryOf_replicate _ b

theorem entry_resetCore (s : State) (b : Byte) : (resetCore s).entry b =
    { valid := false, len := Config.resetLen s.draws b.toNat, code := Config.resetCode s.draws b.toNat } :=
  entryOf_resetTable s.draws b

/-- The reset leaves the arena that `State.reset` has. -/
theorem nodeAt_resetCore (s : State) (i : Nat) : nodeAt (resetCore s).node i = .unspecified := nodeAt_reset i

/-! ### A clock edge with `rst_n` = 0 -/

/-- An edge is never waited for (40_command_control.md R74). -/
theorem step_resetEdge {s : State} {p : Presented} {rest : List Turn} (h : s.schedule = .host (.reset p) :: rest) :
    step s = .next (resetEdge p { s with schedule := rest }) := step_host h rfl

/-- Only a presented read has an answer, so every other access leaves nothing but the reset. -/
theorem resetEdge_of_not_read {p : Presented} (h : ∀ a, p ≠ .read a) (s : State) : resetEdge p s = resetCore s := by
  cases p with
  | read a => exact absurd rfl (h a)
  | _ => rfl

/-- Settles O59: the reset field by field, and each of its two sources; a read presented at the edge adds its draw to the HOST's log and
changes nothing else but the count of draws. -/
theorem resetClearsTheCore : Obligations.ResetClearsTheCore := by
  refine ⟨fun s => ⟨rfl, freqOf_resetCore s, entry_resetCore s, nodeAt_resetCore s⟩, fun s a v ha hv => ?ctrl, fun s p rest hs hp => ?edge,
    fun s a rest hs => ⟨_, step_resetEdge hs, rfl, rfl⟩⟩
  case ctrl =>
    obtain ⟨-, hreset, -⟩ := ctrlWriteEnablesOrResets a v s ha
    obtain ⟨hnext, -⟩ := hreset hv
    exact hnext
  case edge => rw [step_resetEdge hs, resetEdge_of_not_read hp]

end Sys2Proof.Machine
end
